-- ==== Sys2Proof/Config.lean ====
section
/-! DEFINITION. The implementation parameters of the engine (00_scope.md R9, 92_eei_decisions.md D2).

The spec makes each a named argument of the model, under a constraint and with a default. They are data that no step
changes (log 1): every definition takes those of its state, and no rule depends on a default. -/

namespace Sys2Proof

/-- The implementation parameters, fixed when the engine is built (00_scope.md R9). -/
structure Params where
  /-- `KW`: width in bits of every key register, operand, result and symbol port -/
  kw : Nat
  /-- `EIMAX`: the largest admitted value of register `EI` -/
  eimax : Nat
  /-- `CT_CAP`: capacity in symbols of `CTBUF`, and bound on the symbols of one stream segment -/
  ctCap : Nat
  /-- `OUT_CAP`: bound in bytes on what one packer session appends to `BOUT` -/
  outCap : Nat
  deriving DecidableEq, Repr

/-- The constraints of 00_scope.md R9. -/
abbrev Params.Legal (P : Params) : Prop :=
  P.kw % 2 = 0 ∧ 8 ≤ P.kw ∧ 6 ≤ P.eimax ∧ 1 ≤ P.ctCap ∧ 1 ≤ P.outCap

/-- The defaults the spec chose (00_scope.md R9). -/
def Params.default : Params where
  kw := 32
  eimax := 12
  ctCap := 4096
  outCap := 32768

end Sys2Proof
end

