-- ==== Sys2Proof/Word.lean ====
section
/-! DEFINITION. The value types of the engine (00_scope.md R12, R13). A value of width `KW` is an unsigned integer of
`[0, 2^KW - 1]` on which arithmetic is exact (R12, R14), and `KW` is a parameter (R9): it is a natural number, and
that the machine keeps it within its width is `State.Fits` in Safety.lean (log 19). What has a fixed width is a bit
vector. -/

namespace Sys2Proof

/-- A value of width `w` lies in `[0, 2^w - 1]` (00_scope.md R12). -/
def fits (w v : Nat) : Bool := decide (v < 2 ^ w)

/-- A byte of the compressed bitstream, and the width of a result code (20_memory.md R65). -/
abbrev Byte := BitVec 8

/-- A command word: `8 + 3 * KW` bits, the opcode in the top 8, then the operands `A`, `B`, `C`
(30_encoding.md R110). -/
abbrev CmdWord := Nat

end Sys2Proof
end

