-- ==== Sys2Proof/Syntax.lean ====
section
/-! DEFINITION. The instructions: one constructor for each row of spec/opcode_table.json, the twenty commands of
30_encoding.md R111 and the two token formats of the compressed stream, R92 and R93. A command carries the operands it
uses, values of width `KW`; an operand field a command does not use is ignored (R110), so it is no part of the syntax.
-/

namespace Sys2Proof

/-- An instruction of the engine: a command of the host (30_encoding.md R111) or a token of the compressed stream that
the decoder executes (R90). -/
inductive Instr where
  /-- `NOP` (46_control_pipeline.md R282). -/
  | nop
  /-- `RESET` (R283). -/
  | reset
  /-- `CLRERR` (R286). -/
  | clrerr
  /-- `WRCFG idx, val` (R284). -/
  | wrcfg (idx val : Nat)
  /-- `RDREG idx` (R285). -/
  | rdreg (idx : Nat)
  /-- `KEYGEN e` (40_keygen.md R136). -/
  | keygen (e : Nat)
  /-- `KEYSET p, q, e` (R140). -/
  | keyset (p q e : Nat)
  /-- `KEYPUB n, e` (R142). -/
  | keypub (n e : Nat)
  /-- `ENC m` (41_cipher.md R170). -/
  | enc (m : Nat)
  /-- `DECD c` (R172). -/
  | decd (c : Nat)
  /-- `DECC c` (42_crt.md R195). -/
  | decc (c : Nat)
  /-- `ENCS` (41_cipher.md R174). -/
  | encs
  /-- `DECS` (42_crt.md R198). -/
  | decs
  /-- `COMP` (43_compressor.md R210). -/
  | comp
  /-- `DECOMP count` (45_decoder.md R260). -/
  | decomp (count : Nat)
  /-- `PUTL sym` (44_bitpacker.md R245). -/
  | putl (sym : Nat)
  /-- `PUTM off, len`, with the true length (R246). -/
  | putm (off len : Nat)
  /-- `FLUSH` (R248). -/
  | flush
  /-- `PROTECT` (46_control_pipeline.md R291). -/
  | protect
  /-- `RECOVER count` (R294). -/
  | recover (count : Nat)
  /-- `LITERAL`: format L, a symbol of `SYMW` bits (30_encoding.md R92, 45_decoder.md R264). -/
  | literal (sym : Nat)
  /-- `MATCH`: format M, an offset of `EI` bits and a stored length of `EJ` bits, the true length minus 2
  (30_encoding.md R93, 45_decoder.md R266). -/
  | matchTok (off len2 : Nat)
  deriving DecidableEq, Repr

/-- The three field widths of the token formats (30_encoding.md R91): they are the configuration registers `SYMW`,
`EI` and `EJ`, constant for a whole stream. -/
structure TokenWidths where
  /-- width of a Literal's symbol field -/
  symw : Nat
  /-- width of a Match's offset field -/
  ei : Nat
  /-- width of a Match's stored-length field -/
  ej : Nat
  deriving DecidableEq, Repr

/-- Whether an instruction is one of the two token formats. -/
def Instr.isToken : Instr → Bool
  | .literal _ => true
  | .matchTok _ _ => true
  | .nop | .reset | .clrerr | .wrcfg _ _ | .rdreg _ | .keygen _ | .keyset _ _ _ | .keypub _ _ | .enc _ | .decd _
  | .decc _ | .encs | .decs | .comp | .decomp _ | .putl _ | .putm _ _ | .flush | .protect | .recover _ => false

end Sys2Proof
end

