-- ==== Sys2Proof/WellFormed.lean ====
section
/-! DEFINITION. Which instructions can be encoded. A command's operands are `KW`-bit values and every one is admitted
(30_encoding.md R110). A token's fields must fit their widths (R92, R93). -/

namespace Sys2Proof

/-- An instruction has an encoding under `KW = kw` and the token widths `tw`: a command's operands are of width `KW`
(30_encoding.md R110), a Literal's symbol fits `SYMW` bits (R92), a Match's offset fits `EI` bits and its stored length
`EJ` bits (R93). -/
def Instr.wellFormed (kw : Nat) (tw : TokenWidths) : Instr → Bool
  | .literal sym => fits tw.symw sym
  | .matchTok off len2 => fits tw.ei off && fits tw.ej len2
  | .keyset p q e => fits kw p && fits kw q && fits kw e
  | .wrcfg a b => fits kw a && fits kw b
  | .keypub a b => fits kw a && fits kw b
  | .putm a b => fits kw a && fits kw b
  | .rdreg a => fits kw a
  | .keygen a => fits kw a
  | .enc a => fits kw a
  | .decd a => fits kw a
  | .decc a => fits kw a
  | .decomp a => fits kw a
  | .putl a => fits kw a
  | .recover a => fits kw a
  | .nop | .reset | .clrerr | .encs | .decs | .comp | .flush | .protect => true

end Sys2Proof
end

