-- ==== Sys2Proof/Decode.lean ====
section
/-! DEFINITION. The decoder and the encoder of the two encodings of the engine: the command word (30_encoding.md R110,
R111) and the token formats of the compressed stream (R92, R93). The decoder is total; what it cannot read it rejects
by name. The encoder is written from the same tables. -/

namespace Sys2Proof

/-- Why the decoder gives no instruction. -/
inductive DecodeError where
  /-- The opcode is none of the twenty of 30_encoding.md R111: R113 reserves it, and the engine answers it with
  IllegalCommand(0) (46_control_pipeline.md R281). -/
  | reservedOpcode (op : Byte)
  /-- The bits end inside a token (45_decoder.md R261: MalformedBitstream). -/
  | outOfBits
  deriving DecidableEq, Repr

/-! ### The command word (30_encoding.md R110) -/

/-- Bits `3*KW + 7` down to `3*KW`: the opcode. -/
def CmdWord.opcode (kw : Nat) (w : CmdWord) : Byte := BitVec.ofNat 8 (w / 2 ^ (3 * kw))

/-- Bits `3*KW - 1` down to `2*KW`: the first operand. -/
def CmdWord.opA (kw : Nat) (w : CmdWord) : Nat := w / 2 ^ (2 * kw) % 2 ^ kw

/-- Bits `2*KW - 1` down to `KW`: the second operand. -/
def CmdWord.opB (kw : Nat) (w : CmdWord) : Nat := w / 2 ^ kw % 2 ^ kw

/-- Bits `KW - 1` down to 0: the third operand. -/
def CmdWord.opC (kw : Nat) (w : CmdWord) : Nat := w % 2 ^ kw

/-- The word with the given opcode and operands: `opcode ++ A ++ B ++ C`. -/
def CmdWord.make (kw : Nat) (op : Byte) (a b c : Nat) : CmdWord :=
  ((op.toNat * 2 ^ kw + a) * 2 ^ kw + b) * 2 ^ kw + c

/-- Decoding of a command word by the opcode map of 30_encoding.md R111. Operand fields a command does not use are
ignored (R110); every other opcode is reserved (R113). -/
def decodeCommand (kw : Nat) (w : CmdWord) : Except DecodeError Instr :=
  match (CmdWord.opcode kw w).toNat with
  | 0x00 => .ok .nop
  | 0x01 => .ok .reset
  | 0x02 => .ok .clrerr
  | 0x03 => .ok (.wrcfg (CmdWord.opA kw w) (CmdWord.opB kw w))
  | 0x04 => .ok (.rdreg (CmdWord.opA kw w))
  | 0x10 => .ok (.keygen (CmdWord.opA kw w))
  | 0x11 => .ok (.keyset (CmdWord.opA kw w) (CmdWord.opB kw w) (CmdWord.opC kw w))
  | 0x12 => .ok (.keypub (CmdWord.opA kw w) (CmdWord.opB kw w))
  | 0x20 => .ok (.enc (CmdWord.opA kw w))
  | 0x21 => .ok (.decd (CmdWord.opA kw w))
  | 0x22 => .ok (.decc (CmdWord.opA kw w))
  | 0x23 => .ok .encs
  | 0x24 => .ok .decs
  | 0x30 => .ok .comp
  | 0x31 => .ok (.decomp (CmdWord.opA kw w))
  | 0x32 => .ok (.putl (CmdWord.opA kw w))
  | 0x33 => .ok (.putm (CmdWord.opA kw w) (CmdWord.opB kw w))
  | 0x34 => .ok .flush
  | 0x40 => .ok .protect
  | 0x41 => .ok (.recover (CmdWord.opA kw w))
  | _ => .error (.reservedOpcode (CmdWord.opcode kw w))

/-! ### Token bits (20_memory.md R72, R73; 30_encoding.md R91 to R95) -/

/-- The `w`-bit field holding `v`, most significant bit first (20_memory.md R73; `putfield` of 44_bitpacker.md
R240). -/
def fieldBits (v : Nat) : Nat → List Bool
  | 0 => []
  | w + 1 => v.testBit w :: fieldBits v w

/-- Reads a field of the given width from the front of a bit sequence as an unsigned value, first bit most significant
(30_encoding.md R95; the arithmetic of `getbits`, 45_decoder.md R261). The second argument is the value read so far. -/
def readField : Nat → Nat → List Bool → Option (Nat × List Bool)
  | 0, v, bs => some (v, bs)
  | _ + 1, _, [] => none
  | w + 1, v, b :: bs => readField w (2 * v + b.toNat) bs

/-- The bits of a Literal: `1 ++ sym` (30_encoding.md R92). -/
def literalBits (symw sym : Nat) : List Bool := true :: fieldBits sym symw

/-- The bits of a Match: `0 ++ off ++ len2` (30_encoding.md R93). -/
def matchBits (ei ej off len2 : Nat) : List Bool := false :: (fieldBits off ei ++ fieldBits len2 ej)

/-- Decoding of the token at the front of a bit sequence, and the bits after it (30_encoding.md R90, R91, R95; the
first bit tells the format). -/
def decodeToken (tw : TokenWidths) : List Bool → Except DecodeError (Instr × List Bool)
  | [] => .error .outOfBits
  | true :: bs =>
    match readField tw.symw 0 bs with
    | some (v, rest) => .ok (.literal v, rest)
    | none => .error .outOfBits
  | false :: bs =>
    match readField tw.ei 0 bs with
    | none => .error .outOfBits
    | some (o, bs1) =>
      match readField tw.ej 0 bs1 with
      | none => .error .outOfBits
      | some (l, rest) => .ok (.matchTok o l, rest)

/-- The bits of a byte in stream order: bit 7 first (20_memory.md R72). -/
def byteBits (b : Byte) : List Bool := fieldBits b.toNat 8

/-! ### The encoder -/

/-- What an instruction is encoded as: a command word on `CMD` (30_encoding.md R110) or a bit string in the compressed
stream (R92, R93). -/
inductive Code where
  /-- a command word -/
  | command (w : CmdWord)
  /-- the bits of a token, in stream order -/
  | token (bits : List Bool)
  deriving DecidableEq, Repr

/-- The encoding of an instruction (30_encoding.md R92, R93, R110, R111); an operand field that is not used is
assembled as 0 (R115). -/
def encode (kw : Nat) (tw : TokenWidths) : Instr → Code
  | .nop => .command (.make kw 0x00 0 0 0)
  | .reset => .command (.make kw 0x01 0 0 0)
  | .clrerr => .command (.make kw 0x02 0 0 0)
  | .wrcfg idx val => .command (.make kw 0x03 idx val 0)
  | .rdreg idx => .command (.make kw 0x04 idx 0 0)
  | .keygen e => .command (.make kw 0x10 e 0 0)
  | .keyset p q e => .command (.make kw 0x11 p q e)
  | .keypub n e => .command (.make kw 0x12 n e 0)
  | .enc m => .command (.make kw 0x20 m 0 0)
  | .decd c => .command (.make kw 0x21 c 0 0)
  | .decc c => .command (.make kw 0x22 c 0 0)
  | .encs => .command (.make kw 0x23 0 0 0)
  | .decs => .command (.make kw 0x24 0 0 0)
  | .comp => .command (.make kw 0x30 0 0 0)
  | .decomp count => .command (.make kw 0x31 count 0 0)
  | .putl sym => .command (.make kw 0x32 sym 0 0)
  | .putm off len => .command (.make kw 0x33 off len 0)
  | .flush => .command (.make kw 0x34 0 0 0)
  | .protect => .command (.make kw 0x40 0 0 0)
  | .recover count => .command (.make kw 0x41 count 0 0)
  | .literal sym => .token (literalBits tw.symw sym)
  | .matchTok off len2 => .token (matchBits tw.ei tw.ej off len2)

/-- Decoding of either encoding. A token is read from the front of its bits. -/
def decode (kw : Nat) (tw : TokenWidths) : Code → Except DecodeError Instr
  | .command w => decodeCommand kw w
  | .token bits => (decodeToken tw bits).map Prod.fst

/-! ### The opcode table's words -/

/-- The token widths of the reset configuration (10_state.md R55), under `KW = kw` (log 19). -/
def TokenWidths.atReset (kw : Nat) : TokenWidths where
  symw := min kw 255
  ei := 6
  ej := 5

/-- The width of a command word (30_encoding.md R110): every command row of spec/opcode_table.json has it for the
default `KW`. -/
def cmdBits (kw : Nat) : Nat := 8 + 3 * kw

/-- A table word of a token row as the bytes of the compressed stream: the low byte of `w` is the first byte, and zero
bytes follow up to the longest token (log 17). -/
def tableBytes (nbits w : Nat) : List Byte :=
  (List.range ((nbits + 7) / 8)).map (fun k => BitVec.ofNat 8 (w >>> (8 * k))) ++ List.replicate 8 0

/-- The instruction the decoder reads from a word of spec/opcode_table.json, which lays its words out for the default
parameters: a command word when it has the command format's width, else a token at the front of the bytes of the word,
under the widths of the reset configuration (log 17). -/
def decodeTableWord (nbits w : Nat) : Option Instr :=
  if nbits = cmdBits Params.default.kw then
    (decodeCommand Params.default.kw (w % 2 ^ nbits)).toOption
  else
    let bits := (tableBytes nbits w).flatMap byteBits
    ((decodeToken (TokenWidths.atReset Params.default.kw) bits).map Prod.fst).toOption

end Sys2Proof
end

