-- ==== Sys2Proof/Machine/State.lean ====
section
/-! DEFINITION. The state of the engine as plain data: every register, flag, hidden register and memory the spec gives
it (10_state.md), and its eight ports (20_memory.md R65); the reasons a step can stop; the state after reset
(10_state.md R55, 70_reset_and_hazards.md R360). -/

namespace Sys2Proof.Machine

open Sys2Proof

/-- The key file, registers `x[0]` to `x[8]`, each of width `KW` (10_state.md R21, R24). -/
structure KeyFile where
  /-- `x[0]` `KN`, the modulus -/
  kn : Nat
  /-- `x[1]` `KE`, the public exponent -/
  ke : Nat
  /-- `x[2]` `KD`, the private exponent -/
  kd : Nat
  /-- `x[3]` `KP`, the prime `p` -/
  kp : Nat
  /-- `x[4]` `KQ`, the prime `q` -/
  kq : Nat
  /-- `x[5]` `KPHI`, the totient -/
  kphi : Nat
  /-- `x[6]` `KDP`, `d mod (p - 1)` -/
  kdp : Nat
  /-- `x[7]` `KDQ`, `d mod (q - 1)` -/
  kdq : Nat
  /-- `x[8]` `KQINV`, the inverse of `q` modulo `p` -/
  kqinv : Nat
  deriving DecidableEq, Repr

/-- The configuration registers, `x[16]` to `x[24]`: three of 8 bits, the others of width `KW` (10_state.md R30). -/
structure CfgRegs where
  /-- `x[16]` `EI`, offset field width, 8 bits -/
  ei : BitVec 8
  /-- `x[17]` `EJ`, length field width, 8 bits -/
  ej : BitVec 8
  /-- `x[18]` `F`, lookahead size -/
  f : Nat
  /-- `x[19]` `P`, literal threshold -/
  p : Nat
  /-- `x[20]` `SYMW`, literal field width, 8 bits -/
  symw : BitVec 8
  /-- `x[21]` `BLANK`, the blank filler symbol -/
  blank : Nat
  /-- `x[22]` `PMIN`, lower bound of the prime range -/
  pmin : Nat
  /-- `x[23]` `PMAX`, upper bound of the prime range -/
  pmax : Nat
  /-- `x[24]` `RETRY`, rejection budget of KEYGEN -/
  retry : Nat
  deriving DecidableEq, Repr

/-- The fields of `STATUS`, `x[32]` (10_state.md R41). No command writes `STATUS` whole, and bits not listed read 0, so
the register is held as its fields; `Status.toWord` is the word the host reads (log 9). -/
structure Status where
  /-- bits 7:0 `LASTERR`, the result code of the last completed command -/
  lasterr : Byte
  /-- bit 8 `PUBV`, a usable public key is held -/
  pubv : Bool
  /-- bit 9 `PRVV`, the private half of the same key is held -/
  prvv : Bool
  /-- bit 10 `PKOPEN`, a packer session is open -/
  pkopen : Bool
  /-- bits 23:16 `ERRS`, the sticky error mask: bit `k` of this field is bit `16 + k` of `STATUS` -/
  errs : BitVec 8
  deriving DecidableEq, Repr

/-- A memory as the list of the cells that hold a value: (index, value) pairs in one canonical form, indices strictly
rising (`Mem.wf`). A cell that is not listed holds no value (10_state.md R47; log 6). A cell is `KW` bits wide
(10_state.md R45). -/
abbrev Mem := List (Nat × Nat)

/-- An element of a stream port: a symbol or byte, or the end-of-segment mark (20_memory.md R65, R66). -/
inductive Item (α : Type) where
  /-- an element of the segment -/
  | sym (a : α)
  /-- `EOS`, out of band -/
  | eos
  deriving DecidableEq, Repr

/-- A result record `(code, value)` on `RES` (30_encoding.md R112). -/
structure ResultRecord where
  /-- 0, or an error code of 60_exceptions.md R321 -/
  code : Byte
  /-- the result value, or the error's information word, `KW` bits -/
  value : Nat
  deriving DecidableEq, Repr

/-- The kind tag of a key record (30_encoding.md R100). -/
inductive KeyKind where
  /-- modulus and public exponent -/
  | pub
  /-- modulus and private exponent -/
  | prv
  /-- the two primes -/
  | pq
  deriving DecidableEq, Repr

/-- A key record on `KOUT` (30_encoding.md R100). -/
structure KeyRecord where
  /-- which of the three artifacts -/
  kind : KeyKind
  /-- first number -/
  fst : Nat
  /-- second number -/
  snd : Nat
  deriving DecidableEq, Repr

/-- The control phase (46_control_pipeline.md R300). -/
inductive Phase where
  /-- no command running -/
  | idle
  /-- blank fill, and in the encoder the first `fill` -/
  | filling
  /-- `search`; in the decoder, reading one token's bits -/
  | matching
  /-- output of one token and the cursor advance -/
  | emitting
  /-- the encoder's window shift -/
  | shifting
  /-- all work done, completion is next -/
  | drained
  deriving DecidableEq, Repr

/-- Which command the control phase belongs to (46_control_pipeline.md R300: COMP and PROTECT share one column, DECOMP
and RECOVER the other; every other command goes Idle to Idle). -/
inductive Running where
  /-- no command with phases is running -/
  | nothing
  /-- COMP -/
  | comp
  /-- PROTECT, second phase -/
  | protect
  /-- DECOMP -/
  | decomp
  /-- RECOVER, first phase -/
  | recover
  deriving DecidableEq, Repr

/-- The encoder's hidden registers (10_state.md R52; 43_compressor.md R210 to R218). -/
structure EncRegs where
  /-- position in `WIN` of the next symbol to encode -/
  r : Nat
  /-- oldest position of the visible history -/
  s : Nat
  /-- one past the last loaded cell -/
  bufferend : Nat
  /-- best start found by the search -/
  x : Nat
  /-- best length found by the search -/
  y : Nat
  /-- length bound of the search -/
  f1 : Nat
  /-- `EOS` of the input has been pulled (R210) -/
  eos : Bool
  /-- symbols the second phase of PROTECT has taken from `CTBUF` (46_control_pipeline.md R291) -/
  taken : Nat
  deriving DecidableEq, Repr

/-- The whole machine: the parameters it is built with (00_scope.md R9), the engine's state (10_state.md) and what its
ports hold (20_memory.md R65). -/
structure State where
  /-- `KW`, `EIMAX`, `CT_CAP`, `OUT_CAP` (00_scope.md R9): no step changes them -/
  params : Params
  /-- key file `x[0..8]` (10_state.md R21) -/
  keys : KeyFile
  /-- `x[9]` `RESV`, `KW` bits (10_state.md R21) -/
  resv : Nat
  /-- configuration registers `x[16..24]` (10_state.md R30) -/
  cfg : CfgRegs
  /-- `x[32]` `STATUS` (10_state.md R41) -/
  status : Status
  /-- `x[33]` `SYMCNT`, `KW` bits (10_state.md R20, R40) -/
  symcnt : Nat
  /-- `x[34]` `BYTECNT`, `KW` bits (10_state.md R20, R40) -/
  bytecnt : Nat
  /-- `ACC`, the packer's accumulator (10_state.md R50) -/
  acc : Byte
  /-- `NBITS`, bits in `ACC`, 0 to 7 (10_state.md R50) -/
  nbits : Fin 8
  /-- `IBUF`, the unpacker's input byte (10_state.md R51) -/
  ibuf : Byte
  /-- `IBITS`, bits of `IBUF` not consumed, 0 to 8 (10_state.md R51) -/
  ibits : Fin 9
  /-- the encoder's cursors and search variables (10_state.md R52) -/
  enc : EncRegs
  /-- `dr`, the decoder's cursor into `DWIN` (10_state.md R52) -/
  dr : Nat
  /-- the expected count of the running decode (45_decoder.md R260) -/
  count : Nat
  /-- the token the decoder has read and has not executed yet, between its phases `Matching` and `Emitting`
  (46_control_pipeline.md R300) -/
  tok : Option Instr
  /-- KEYGEN's remaining budget (10_state.md R52) -/
  budget : Nat
  /-- the control phase (46_control_pipeline.md R300) -/
  phase : Phase
  /-- the command the phase belongs to (46_control_pipeline.md R300) -/
  running : Running
  /-- memory `WIN` (10_state.md R45) -/
  win : Mem
  /-- memory `DWIN` (10_state.md R45) -/
  dwin : Mem
  /-- memory `CTBUF` (10_state.md R45) -/
  ctbuf : Mem
  /-- port `CMD`: command words the host has issued, next first -/
  cmd : List CmdWord
  /-- port `RES`: result records pushed, oldest first -/
  res : List ResultRecord
  /-- port `SIN`: what the host has supplied, symbols of `KW` bits, next first -/
  sin : List (Item Nat)
  /-- port `SOUT`: what the engine has pushed, symbols of `KW` bits, oldest first -/
  sout : List (Item Nat)
  /-- port `BIN`: what the host has supplied, next first -/
  bin : List (Item Byte)
  /-- port `BOUT`: what the engine has pushed, oldest first -/
  bout : List (Item Byte)
  /-- port `RNG`: draws of `KW` bits the random source has answered, next first (20_memory.md R69) -/
  rng : List Nat
  /-- port `KOUT`: key records pushed, oldest first -/
  kout : List KeyRecord
  /-- the host's request for the reset of 70_reset_and_hazards.md R360, an event from outside (log 10) -/
  resetLine : Bool
  deriving DecidableEq, Repr

/-- Why the machine has no next state. None of these is an error of the engine: the engine's errors are results
(60_exceptions.md R320, R335) and give a next state. -/
inductive Fault where
  /-- Raised by a stream command that needs the next element of its `SIN` segment, or the segment's `EOS`, and the
  host has not supplied it: the command does not complete, a stuck state that only a host step lifts (20_memory.md R66,
  93_implementation_defined.md U11). Safe. -/
  | sinIncomplete
  /-- The same for `BIN`, raised by DECOMP, RECOVER and a token fetch (20_memory.md R66, U11). Safe. -/
  | binIncomplete
  /-- Raised by KEYGEN when the random source has stopped answering: it does not complete and does not fail
  (20_memory.md R69, U11). Safe. -/
  | rngSilent
  /-- Raised by the copy of a MATCH (in DECOMP, RECOVER or a token of its own) that reads a cell of `DWIN` which is
  neither blank history nor written in this decode: the spec gives the read no value and tells a model to fault
  (45_decoder.md R268, 93_implementation_defined.md U3). Safe. -/
  | dwinUnwritten
  /-- Raised by the encoder or a pipeline command that reads a cell of `WIN` or `CTBUF` no rule has written. No run
  reaches it (43_compressor.md R224, 46_control_pipeline.md R292, R295). Safe. -/
  | cellUnwritten
  /-- Raised by a step at a control phase the state machine of 46_control_pipeline.md R300 does not have for the running
  command. No run reaches it. Safe. -/
  | noSuchPhase
  deriving DecidableEq, Repr

/-- Why the machine refuses an instruction. -/
inductive Refusal where
  /-- Raised by an arm of `exec` whose instruction has no meaning in the model yet. Safe. -/
  | notModelled (mnemonic : String)
  deriving DecidableEq, Repr

/-- The configuration registers after reset (10_state.md R55). `SYMW` is 8 bits wide: a `KW` above 255, which
00_scope.md R9 does not exclude, does not fit it, and the widest value does (log 19). -/
def CfgRegs.atReset (P : Params) : CfgRegs where
  ei := 6
  ej := 5
  f := 33
  p := 1
  symw := BitVec.ofNat 8 (min P.kw 255)
  blank := 32
  pmin := 3
  pmax := 2 ^ (P.kw / 2) - 1
  retry := min 65535 (2 ^ P.kw - 1)

/-- An engine with the parameters `P` right after reset: the values of 10_state.md R55. Hidden registers whose reset
value the spec does not give hold 0 (log 5); no memory cell holds a value (log 6); the ports, which are not engine
state (70_reset_and_hazards.md R362), are empty (log 2). -/
def State.resetWith (P : Params) : State where
  params := P
  keys := { kn := 0, ke := 0, kd := 0, kp := 0, kq := 0, kphi := 0, kdp := 0, kdq := 0, kqinv := 0 }
  resv := 0
  cfg := CfgRegs.atReset P
  status := { lasterr := 0, pubv := false, prvv := false, pkopen := false, errs := 0 }
  symcnt := 0
  bytecnt := 0
  acc := 0
  nbits := 0
  ibuf := 0
  ibits := 0
  enc := { r := 0, s := 0, bufferend := 0, x := 0, y := 0, f1 := 0, eos := false, taken := 0 }
  dr := 0
  count := 0
  tok := none
  budget := 0
  phase := .idle
  running := .nothing
  win := []
  dwin := []
  ctbuf := []
  cmd := []
  res := []
  sin := []
  sout := []
  bin := []
  bout := []
  rng := []
  kout := []
  resetLine := false

/-- The machine right after reset, with the default parameters (00_scope.md R9). -/
def State.reset : State := State.resetWith Params.default

end Sys2Proof.Machine
end

