-- ==== Sys2Proof/Machine/Flags.lean ====
section
/-! DEFINITION. `STATUS`, the engine's only flags (10_state.md R41, R43): the word the host reads and the updates the
rules make to its fields. -/

namespace Sys2Proof.Machine

open Sys2Proof

/-- `STATUS`: the fields at the bit places of 10_state.md R41, every other bit 0. From the top: bits 31:24 zero, 23:16
`ERRS`, 15:11 zero, 10 `PKOPEN`, 9 `PRVV`, 8 `PUBV`, 7:0 `LASTERR`. -/
def Status.toBits (t : Status) : BitVec 32 :=
  (0 : BitVec 8) ++ t.errs ++ (0 : BitVec 5) ++ BitVec.ofBool t.pkopen ++ BitVec.ofBool t.prvv ++ BitVec.ofBool t.pubv
    ++ t.lasterr

/-- `STATUS` as `RDREG 32` reads it: a register is `KW` bits wide as the host sees it (10_state.md R20), so an engine
with `KW` below 24 shows the low `KW` bits (log 9). -/
def Status.toWord (kw : Nat) (t : Status) : Nat := t.toBits.toNat % 2 ^ kw

/-- The mask with bit `code` set (10_state.md R41: bit `16 + k` of `STATUS` for code `k`). -/
def errBit (code : Byte) : BitVec 8 := 1#8 <<< code.toNat

/-- What every completing command but a successful RDREG does to `STATUS` (46_control_pipeline.md R280): `LASTERR` is
the code, and an error sets its sticky bit. -/
def Status.record (code : Byte) (t : Status) : Status :=
  { t with lasterr := code, errs := if code = 0 then t.errs else t.errs ||| errBit code }

/-- `CLRERR` (46_control_pipeline.md R286): the sticky mask is cleared. -/
def Status.clearErrs (t : Status) : Status := { t with errs := 0 }

/-- `PUBV` and `PRVV` after a key command (10_state.md R41). -/
def Status.setKeyValid (pub prv : Bool) (t : Status) : Status := { t with pubv := pub, prvv := prv }

/-- `PKOPEN` (10_state.md R41; 44_bitpacker.md R249). -/
def Status.setOpen (o : Bool) (t : Status) : Status := { t with pkopen := o }

end Sys2Proof.Machine
end

