-- ==== Sys2Proof/Machine/Operands.lean ====
section
/-! DEFINITION. Operand forms: the derived names of the codec configuration (00_scope.md R16), the two configuration
predicates (10_state.md R38), and the register index space (10_state.md R20). -/

namespace Sys2Proof.Machine

open Sys2Proof

/-! ### Derived names of the configuration (00_scope.md R16) -/

/-- `N = 2^EI`, the window size (10_state.md R31). -/
def CfgRegs.n (c : CfgRegs) : Nat := 2 ^ c.ei.toNat

/-- `H = N - F`, the history size. -/
def CfgRegs.h (c : CfgRegs) : Nat := c.n - c.f

/-- `MAXMATCH = F - 1`, the largest match length the encoder emits (43_compressor.md R214; log 13). -/
def CfgRegs.maxMatch (c : CfgRegs) : Nat := c.f - 1

/-- The field widths of the token formats (30_encoding.md R91). -/
def CfgRegs.widths (c : CfgRegs) : TokenWidths where
  symw := c.symw.toNat
  ei := c.ei.toNat
  ej := c.ej.toNat

/-- `LITBITS = 1 + SYMW` (30_encoding.md R92). -/
def CfgRegs.litBits (c : CfgRegs) : Nat := 1 + c.symw.toNat

/-- `MATBITS = 1 + EI + EJ` (30_encoding.md R93). -/
def CfgRegs.matBits (c : CfgRegs) : Nat := 1 + c.ei.toNat + c.ej.toNat

/-- `codec_cfg_ok` (10_state.md R38). -/
def CfgRegs.codecOk (c : CfgRegs) (P : Params) : Bool :=
  decide (1 ≤ c.ei.toNat ∧ c.ei.toNat ≤ P.eimax)
    && decide (1 ≤ c.ej.toNat ∧ c.ej.toNat ≤ P.eimax)
    && decide (3 ≤ c.f ∧ c.f ≤ 2 ^ c.ei.toNat - 1)
    && decide (c.f ≤ 2 ^ c.ej.toNat + 2)
    && decide (1 ≤ c.p ∧ c.p ≤ c.f - 2)
    && decide (1 ≤ c.symw.toNat ∧ c.symw.toNat ≤ P.kw)
    && decide (c.blank < 2 ^ c.symw.toNat)

/-- `keygen_cfg_ok` (10_state.md R38). -/
def CfgRegs.keygenOk (c : CfgRegs) (P : Params) : Bool :=
  decide (3 ≤ c.pmin) && decide (c.pmin ≤ c.pmax)
    && decide (c.pmax ≤ 2 ^ (P.kw / 2) - 1)

/-- A symbol fits the Literal field: `v < 2^SYMW` (43_compressor.md R211, 44_bitpacker.md R245). -/
def CfgRegs.fitsSymbol (c : CfgRegs) (v : Nat) : Bool := decide (v < 2 ^ c.symw.toNat)

/-! ### The register index space (10_state.md R20) -/

/-- The value `RDREG` reads at an index, narrower registers with zero in the upper bits (10_state.md R20), or nothing
where the index is reserved (30_encoding.md R113). -/
def State.readReg (s : State) (idx : Nat) : Option Nat :=
  match idx with
  | 0 => some s.keys.kn
  | 1 => some s.keys.ke
  | 2 => some s.keys.kd
  | 3 => some s.keys.kp
  | 4 => some s.keys.kq
  | 5 => some s.keys.kphi
  | 6 => some s.keys.kdp
  | 7 => some s.keys.kdq
  | 8 => some s.keys.kqinv
  | 9 => some s.resv
  | 16 => some s.cfg.ei.toNat
  | 17 => some s.cfg.ej.toNat
  | 18 => some s.cfg.f
  | 19 => some s.cfg.p
  | 20 => some s.cfg.symw.toNat
  | 21 => some s.cfg.blank
  | 22 => some s.cfg.pmin
  | 23 => some s.cfg.pmax
  | 24 => some s.cfg.retry
  | 32 => some (s.status.toWord s.params.kw)
  | 33 => some s.symcnt
  | 34 => some s.bytecnt
  | _ => none

/-- An index `WRCFG` may write (46_control_pipeline.md R284). -/
def cfgIndex (idx : Nat) : Bool := decide (16 ≤ idx) && decide (idx ≤ 24)

/-- A value too wide for the register: the three 8-bit registers take values below 256 (46_control_pipeline.md
R284). -/
def tooWide (idx val : Nat) : Bool :=
  (decide (idx = 16) || decide (idx = 17) || decide (idx = 20)) && decide (256 ≤ val)

/-- `x[idx] <- val` for a configuration register (46_control_pipeline.md R284). -/
def CfgRegs.write (c : CfgRegs) (idx val : Nat) : CfgRegs :=
  match idx with
  | 16 => { c with ei := BitVec.ofNat 8 val }
  | 17 => { c with ej := BitVec.ofNat 8 val }
  | 18 => { c with f := val }
  | 19 => { c with p := val }
  | 20 => { c with symw := BitVec.ofNat 8 val }
  | 21 => { c with blank := val }
  | 22 => { c with pmin := val }
  | 23 => { c with pmax := val }
  | 24 => { c with retry := val }
  | _ => c

end Sys2Proof.Machine
end

