-- ==== Sys2Proof/Machine/Ops.lean ====
section
/-! DEFINITION. The named operations every meaning is written over: one-cell memory accesses (20_memory.md R62), the
discipline of segments (R66, R67), completion of a command (46_control_pipeline.md R280) and the raising of an error,
which is this engine's taking of an exception (60_exceptions.md R330, R333). There is no return from one to model:
60_exceptions.md R342. -/

namespace Sys2Proof.Machine

open Sys2Proof

/-- The outcome of a command or of a step. -/
abbrev Outcome := Host.Outcome State Fault Refusal

/-! ### Memories -/

/-- The canonical form of a memory: cell indices strictly rising, so no cell is listed twice. -/
abbrev Mem.wf (m : Mem) : Prop := m.Pairwise (fun a b => a.1 < b.1)

/-- `MemRead`: the value of one cell, or nothing where the cell holds no value (20_memory.md R62, 10_state.md R47). -/
def Mem.read : Mem → Nat → Option Nat
  | [], _ => none
  | (j, w) :: m, i => if i = j then some w else if i < j then none else Mem.read m i

/-- `MemWrite`: one cell (20_memory.md R62). -/
def Mem.write : Mem → Nat → Nat → Mem
  | [], i, v => [(i, v)]
  | (j, w) :: m, i, v =>
    if i < j then (i, v) :: (j, w) :: m else if i = j then (i, v) :: m else (j, w) :: Mem.write m i v

/-- A memory with cells `0` to `n - 1` set to `v` and no other cell holding a value: the blank fill at the start of a
command (43_compressor.md R212, 45_decoder.md R262; a memory is allocated per command, 10_state.md R46). -/
def Mem.blank (n : Nat) (v : Nat) : Mem := (List.range n).map (fun i => (i, v))

/-! ### Errors -/

/-- The error kinds (60_exceptions.md R321). -/
inductive ErrKind where
  /-- no key pair within the budget, or a pair refused -/
  | keyGenerationFailed
  /-- a value outside the alphabet in force -/
  | invalidSymbol
  /-- a capacity exceeded -/
  | bufferOverrun
  /-- the input ends before the expected count -/
  | malformedBitstream
  /-- a command, operand or moment that is not admitted -/
  | illegalCommand
  /-- a configuration predicate is false -/
  | badConfig
  /-- no key of the kind needed -/
  | noKey
  deriving DecidableEq, Repr

/-- The code of an error kind (60_exceptions.md R321). -/
def ErrKind.code : ErrKind → Byte
  | .keyGenerationFailed => 1
  | .invalidSymbol => 2
  | .bufferOverrun => 3
  | .malformedBitstream => 4
  | .illegalCommand => 5
  | .badConfig => 6
  | .noKey => 7

/-- An error: its kind and its information word (60_exceptions.md R321, R322). -/
structure Exc where
  /-- the kind -/
  kind : ErrKind
  /-- the information word -/
  info : Nat
  deriving DecidableEq, Repr

/-- Why a unit stops inside a command: an error it raises, or the command cannot go on. -/
inductive Halt where
  /-- `raise` (60_exceptions.md R330) -/
  | raise (e : Exc)
  /-- stuck, or a read that has no value -/
  | fault (f : Fault)
  deriving DecidableEq, Repr

/-! ### Completion (46_control_pipeline.md R280) -/

/-- The last action of every command: the record goes to `RES` and the engine is `Idle`. -/
def pushResult (code : Byte) (v : Nat) (s : State) : State :=
  { s with resv := v, res := s.res ++ [{ code := code, value := v }], phase := .idle, running := .nothing }

/-- `complete(code, value)`: `RESV`, `LASTERR`, `ERRS`, the result record, `phase <- Idle`
(46_control_pipeline.md R280). -/
def complete (code : Byte) (v : Nat) (s : State) : State :=
  pushResult code v { s with status := s.status.record code }

/-- `done(v)`: success with result value `v`. -/
def done (v : Nat) (s : State) : State := complete 0 v s

/-- `raise K(info)` where `abort` does nothing, that is for every command but the stream commands: taking an exception
on this engine (60_exceptions.md R330). `LASTERR` is the cause register; no program counter, mode or vector exists to
save or change. -/
def raise (e : Exc) (s : State) : State := complete e.kind.code e.info s

/-! ### Segments (20_memory.md R66, R67) -/

/-- What is left of a stream port after the rest of the current segment, up to and including its `EOS`, is discarded;
nothing where the host has not supplied the `EOS`. -/
def dropSegment {α : Type} : List (Item α) → Option (List (Item α))
  | [] => none
  | .eos :: rest => some rest
  | .sym _ :: rest => dropSegment rest

/-- The input and output port of a stream command. -/
inductive StreamPorts where
  /-- ENCS and DECS -/
  | sinSout
  /-- COMP and PROTECT -/
  | sinBout
  /-- DECOMP and RECOVER -/
  | binSout
  deriving DecidableEq, Repr

/-- The end of a stream command, successful or not (20_memory.md R67; 60_exceptions.md R333 (c), (d)): the rest of the
input segment is discarded unless its `EOS` has been pulled, the output segment is closed by `EOS`, and the command
completes. Stuck where the host has not completed the input segment. -/
def endStream (ports : StreamPorts) (pulledEos : Bool) (code : Byte) (v : Nat) (s : State) : Outcome :=
  match ports with
  | .sinSout =>
    match if pulledEos then some s.sin else dropSegment s.sin with
    | some rest => .next (complete code v { s with sin := rest, sout := s.sout ++ [.eos] })
    | none => .fault .sinIncomplete
  | .sinBout =>
    match if pulledEos then some s.sin else dropSegment s.sin with
    | some rest => .next (complete code v { s with sin := rest, bout := s.bout ++ [.eos] })
    | none => .fault .sinIncomplete
  | .binSout =>
    match if pulledEos then some s.bin else dropSegment s.bin with
    | some rest => .next (complete code v { s with bin := rest, sout := s.sout ++ [.eos] })
    | none => .fault .binIncomplete

/-- `abort` (b) of 60_exceptions.md R333: COMP and PROTECT drop the bits of the unfinished byte. -/
def clearPacker (s : State) : State := { s with acc := 0, nbits := 0 }

/-- `raise K(info)` in a stream command: `abort`, then `complete` (60_exceptions.md R330, R333). Elements already pushed
stay. -/
def raiseStream (ports : StreamPorts) (pulledEos : Bool) (e : Exc) (s : State) : Outcome :=
  endStream ports pulledEos e.kind.code e.info (if ports = .sinBout then clearPacker s else s)

/-! ### Reset (70_reset_and_hazards.md R360, R362) -/

/-- Every register, flag, hidden register and memory at its reset value; the ports, which are not engine state, and the
parameters are untouched (70_reset_and_hazards.md R360, R362; 46_control_pipeline.md R283). -/
def resetEngine (s : State) : State :=
  { State.resetWith s.params with
    cmd := s.cmd, res := s.res, sin := s.sin, sout := s.sout, bin := s.bin, bout := s.bout, rng := s.rng,
    kout := s.kout, resetLine := s.resetLine }

end Sys2Proof.Machine
end

