-- ==== Sys2Proof/Machine/Arith.lean ====
section
/-! DEFINITION. The integer arithmetic of the cipher (41_cipher.md R160 to R167, 40_keygen.md R130): exact arithmetic
on naturals, and on integers inside the extended Euclidean algorithm. The greatest common divisor (R164) is `Nat.gcd`.
Loops run on a bound that always suffices (log 18). -/

namespace Sys2Proof.Machine

open Sys2Proof

/-- Trial division by `t`, `t + 1`, ... while `t * t <= x`, at most `fuel` divisors: no divisor is found. -/
def noDivisor (x : Nat) : Nat → Nat → Bool
  | 0, _ => true
  | fuel + 1, t => if x < t * t then true else if x % t = 0 then false else noDivisor x fuel (t + 1)

/-- `is_prime(x)` by trial division (40_keygen.md R130). -/
def isPrime (x : Nat) : Bool := decide (2 ≤ x) && noDivisor x x 2

/-- `modmul(a, b, m)`: the exact product modulo `m` (41_cipher.md R161). -/
def modmul (a b m : Nat) : Nat := a * b % m

/-- Square and multiply: `acc * b^k mod m`, for at most `fuel` bits of `k`. -/
def powLoop (m : Nat) : Nat → Nat → Nat → Nat → Nat
  | 0, _, _, acc => acc
  | fuel + 1, b, k, acc =>
    if k = 0 then acc
    else powLoop m fuel (modmul b b m) (k / 2) (if k % 2 = 1 then modmul acc b m else acc)

/-- `modexp(b, k, m)`, the value `b^k mod m` (41_cipher.md R162). The method is not observable (R163); the model squares
and multiplies for every exponent (log 14). -/
def modexp (b k m : Nat) : Nat := powLoop m k (b % m) k (1 % m)

/-- The loop of `egcd` (41_cipher.md R165) from `(r0, r1)`, `(s0, s1)`, at most `fuel` turns. -/
def egcdLoop : Nat → Nat → Nat → Int → Int → Nat × Int
  | 0, r0, _, s0, _ => (r0, s0)
  | fuel + 1, r0, r1, s0, s1 =>
    if r1 = 0 then (r0, s0) else egcdLoop fuel r1 (r0 - r0 / r1 * r1) s1 (s0 - (r0 / r1 : Nat) * s1)

/-- `egcd(a, m)`, the extended Euclidean algorithm: the greatest common divisor and a coefficient of `a`
(41_cipher.md R165). `r1` falls at every turn, so `m + 1` turns suffice. -/
def egcd (a m : Nat) : Nat × Int := egcdLoop (m + 1) a m 1 0

/-- `modinv(a, m)` (41_cipher.md R166): the coefficient of `egcd`, corrected by adding `m` where it is not positive.
One addition suffices (R166, 70_reset_and_hazards.md R372). -/
def modinv (a m : Nat) : Nat :=
  let x := (egcd a m).2
  if x ≤ 0 then (x + m).toNat else x.toNat

end Sys2Proof.Machine
end

