-- ==== Sys2Proof/Machine/Cipher.lean ====
section
/-! DEFINITION. The cipher commands of one symbol and of a segment: ENC, DECD, ENCS (41_cipher.md), DECC, DECS
(42_crt.md). -/

namespace Sys2Proof.Machine

open Sys2Proof

/-- `m^e mod n` under the public key (41_cipher.md R170). -/
def KeyFile.encrypt (k : KeyFile) (m : Nat) : Nat := modexp m k.ke k.kn

/-- `c^d mod n`, the direct decrypt (41_cipher.md R172). -/
def KeyFile.decryptDirect (k : KeyFile) (c : Nat) : Nat := modexp c k.kd k.kn

/-- The difference `(m1 - m2) mod p` as a true remainder in `[0, p - 1]` (42_crt.md R193). -/
def crtDiff (m1 m2 p : Nat) : Nat := (((m1 : Int) - m2) % (p : Int)).toNat

/-- `crt(c)` (42_crt.md R192 to R195): two small exponentiations and one recombination. -/
def KeyFile.crt (k : KeyFile) (c : Nat) : Nat :=
  let m1 := modexp c k.kdp k.kp
  let m2 := modexp c k.kdq k.kq
  let h := modmul k.kqinv (crtDiff m1 m2 k.kp) k.kp
  m2 + h * k.kq

/-- The shape ENC, DECD and DECC share: the key they need, the range of the operand, the result (41_cipher.md R170,
R172; 42_crt.md R195). -/
def oneSymbol (hasKey : Bool) (f : Nat → Nat) (v : Nat) (s : State) : Outcome :=
  if hasKey = false then .next (raise { kind := .noKey, info := 0 } s)
  else if s.keys.kn ≤ v then .next (raise { kind := .invalidSymbol, info := v } s)
  else .next (done (f v) s)

/-- `ENC m` (41_cipher.md R170). -/
def execEnc (m : Nat) (s : State) : Outcome := oneSymbol s.status.pubv s.keys.encrypt m s

/-- `DECD c` (41_cipher.md R172). -/
def execDecd (c : Nat) (s : State) : Outcome := oneSymbol s.status.prvv s.keys.decryptDirect c s

/-- `DECC c` (42_crt.md R195). -/
def execDecc (c : Nat) (s : State) : Outcome := oneSymbol s.status.prvv s.keys.crt c s

/-- What a loop over a `SIN` segment leaves: the rest of the port, the symbols produced, their number, and why it
stopped (nothing: at `EOS`). -/
structure CipherRun where
  /-- what is left on `SIN` -/
  sin : List (Item Nat)
  /-- the elements pushed, oldest first -/
  out : List Nat
  /-- `SYMCNT` -/
  cnt : Nat
  /-- the `EOS` of the segment has been pulled -/
  pulled : Bool
  /-- the error or stuck condition that ended the loop -/
  stop : Option Halt
  deriving DecidableEq, Repr

/-- One more symbol in front of what a run produces. -/
def CipherRun.prepend (v : Nat) (x : CipherRun) : CipherRun := { x with out := v :: x.out }

/-- The loop of ENCS and DECS (41_cipher.md R174, 42_crt.md R198), from `SYMCNT = cnt`: for one symbol the capacity
test comes first. -/
def cipherLoop (ctCap kn : Nat) (f : Nat → Nat) : Nat → List (Item Nat) → CipherRun
  | cnt, [] => { sin := [], out := [], cnt := cnt, pulled := false, stop := some (.fault .sinIncomplete) }
  | cnt, .eos :: rest => { sin := rest, out := [], cnt := cnt, pulled := true, stop := none }
  | cnt, .sym v :: rest =>
    if cnt = ctCap then
      { sin := rest, out := [], cnt := cnt, pulled := false,
        stop := some (.raise { kind := .bufferOverrun, info := cnt }) }
    else if kn ≤ v then
      { sin := rest, out := [], cnt := cnt, pulled := false,
        stop := some (.raise { kind := .invalidSymbol, info := v }) }
    else (cipherLoop ctCap kn f (cnt + 1) rest).prepend (f v)

/-- The shape ENCS and DECS share (41_cipher.md R174, 42_crt.md R198). -/
def cipherStream (hasKey : Bool) (f : Nat → Nat) (s : State) : Outcome :=
  let s0 := { s with symcnt := 0 }
  if hasKey = false then raiseStream .sinSout false { kind := .noKey, info := 0 } s0
  else
    let x := cipherLoop s.params.ctCap s.keys.kn f 0 s.sin
    let s1 := { s0 with sin := x.sin, sout := s.sout ++ x.out.map .sym, symcnt := x.cnt }
    match x.stop with
    | none => endStream .sinSout x.pulled 0 x.cnt s1
    | some (.raise e) => raiseStream .sinSout x.pulled e s1
    | some (.fault f) => .fault f

/-- `ENCS` (41_cipher.md R174). -/
def execEncs (s : State) : Outcome := cipherStream s.status.pubv s.keys.encrypt s

/-- `DECS` (42_crt.md R198). -/
def execDecs (s : State) : Outcome := cipherStream s.status.prvv s.keys.crt s

end Sys2Proof.Machine
end

