-- ==== Sys2Proof/Machine/Packer.lean ====
section
/-! DEFINITION. The bitstream packer: its helpers and the commands PUTL, PUTM, FLUSH (44_bitpacker.md). -/

namespace Sys2Proof.Machine

open Sys2Proof

/-- The packer's registers and its output port, as the helpers of 44_bitpacker.md work on them. -/
structure Packer where
  /-- `ACC` -/
  acc : Byte
  /-- `NBITS` -/
  nbits : Fin 8
  /-- `BYTECNT` -/
  bytecnt : Nat
  /-- port `BOUT` -/
  bout : List (Item Byte)
  deriving DecidableEq, Repr

/-- The packer's part of the state. -/
def State.packer (s : State) : Packer where
  acc := s.acc
  nbits := s.nbits
  bytecnt := s.bytecnt
  bout := s.bout

/-- The state with the packer's part replaced. -/
def State.withPacker (s : State) (p : Packer) : State :=
  { s with acc := p.acc, nbits := p.nbits, bytecnt := p.bytecnt, bout := p.bout }

/-- `putbit(b)` (44_bitpacker.md R240): the bit goes to place `7 - NBITS` of `ACC`; a full accumulator is pushed and
reset. -/
def Packer.putBit (p : Packer) (b : Bool) : Packer :=
  let acc := p.acc ||| (BitVec.ofNat 8 b.toNat <<< (7 - p.nbits.val))
  if p.nbits.val = 7 then
    { acc := 0, nbits := 0, bytecnt := p.bytecnt + 1, bout := p.bout ++ [.sym acc] }
  else { p with acc := acc, nbits := p.nbits + 1 }

/-- The bits of a token, in order (`putfield` of 44_bitpacker.md R240 puts a field from its top bit down: that order is
`fieldBits`). -/
def Packer.putBits (p : Packer) (bits : List Bool) : Packer := bits.foldl Packer.putBit p

/-- `room(k)` (44_bitpacker.md R243): the error where the session's total would exceed `8 * OUT_CAP` bits. -/
def Packer.room (P : Params) (p : Packer) (k : Nat) : Option Exc :=
  if 8 * p.bytecnt + p.nbits.val + k > 8 * P.outCap then
    some { kind := .bufferOverrun, info := p.bytecnt }
  else none

/-- The bits of a token after the capacity check: a token is written whole or not at all (44_bitpacker.md R243). -/
def Packer.putToken (P : Params) (p : Packer) (bits : List Bool) : Except Exc Packer :=
  match p.room P bits.length with
  | some e => .error e
  | none => .ok (p.putBits bits)

/-- `put_literal(c)` (44_bitpacker.md R241). -/
def Packer.putLiteral (P : Params) (p : Packer) (c : CfgRegs) (v : Nat) : Except Exc Packer :=
  p.putToken P (literalBits c.symw.toNat v)

/-- `put_match(o, y)`, with the true length `y` (44_bitpacker.md R242). -/
def Packer.putMatch (P : Params) (p : Packer) (c : CfgRegs) (o y : Nat) : Except Exc Packer :=
  p.putToken P (matchBits c.ei.toNat c.ej.toNat o (y - 2))

/-- `flush()` (44_bitpacker.md R244): a non-empty accumulator is pushed, its unused bits being 0, and is reset. -/
def Packer.flush (p : Packer) : Packer :=
  if p.nbits.val ≠ 0 then
    { acc := 0, nbits := 0, bytecnt := p.bytecnt + 1, bout := p.bout ++ [.sym p.acc] }
  else { p with acc := 0, nbits := 0 }

/-- The packer at the start of a PUTL, PUTM or FLUSH: `BYTECNT` starts again where no session is open
(44_bitpacker.md R245, R246, R248). -/
def State.sessionPacker (s : State) : Packer :=
  if s.status.pkopen = false then { s.packer with bytecnt := 0 } else s.packer

/-- The end of PUTL and PUTM: the token is in, the session is open, result 0 (44_bitpacker.md R245, R246). A token that
does not fit raises when `BYTECNT` has started again, as the pseudocode of the two rules orders it, and nothing else has
happened (60_exceptions.md R320, R331). R332 read alone would keep the old `BYTECNT`: DEDUCED, log 23. -/
def endPut (s : State) : Except Exc Packer → Outcome
  | .error e => .next (raise e { s with bytecnt := s.sessionPacker.bytecnt })
  | .ok p => .next (done 0 { s.withPacker p with status := s.status.setOpen true })

/-- `PUTL sym` (44_bitpacker.md R245). -/
def execPutl (sym : Nat) (s : State) : Outcome :=
  if s.cfg.codecOk s.params = false then .next (raise { kind := .badConfig, info := 0 } s)
  else if s.cfg.fitsSymbol sym = false then .next (raise { kind := .invalidSymbol, info := sym } s)
  else endPut s (s.sessionPacker.putLiteral s.params s.cfg sym)

/-- `PUTM off, len` (44_bitpacker.md R246): the offset is tested before the length. -/
def execPutm (off len : Nat) (s : State) : Outcome :=
  if s.cfg.codecOk s.params = false then .next (raise { kind := .badConfig, info := 0 } s)
  else if 2 ^ s.cfg.ei.toNat ≤ off then .next (raise { kind := .illegalCommand, info := 3 } s)
  else if len < s.cfg.p + 1 ∨ s.cfg.f - 1 < len then
    .next (raise { kind := .illegalCommand, info := 4 } s)
  else endPut s (s.sessionPacker.putMatch s.params s.cfg off len)

/-- `FLUSH` (44_bitpacker.md R248). -/
def execFlush (s : State) : Outcome :=
  let p := s.sessionPacker.flush
  .next (done p.bytecnt { s.withPacker { p with bout := p.bout ++ [.eos] } with status := s.status.setOpen false })

end Sys2Proof.Machine
end

