-- ==== Sys2Proof/Machine/Compressor.lean ====
section
/-! DEFINITION. The sliding-window dictionary encoder and the two commands that run it, COMP (43_compressor.md) and
PROTECT (46_control_pipeline.md R291). The encoder runs phase by phase, as the state machine of 46_control_pipeline.md
R300 says; a command drives it from `Filling` to `Drained` in one step (R301). -/

namespace Sys2Proof.Machine

open Sys2Proof

/-- What the encoder works on: its registers and memory, its source of symbols, the packer behind it and the phase
(43_compressor.md). -/
structure Encoder where
  /-- cursors and search variables -/
  regs : EncRegs
  /-- memory `WIN` -/
  win : Mem
  /-- COMP pulls from `SIN`, PROTECT from `CTBUF` -/
  running : Running
  /-- port `SIN` -/
  sin : List (Item Nat)
  /-- memory `CTBUF` -/
  ctbuf : Mem
  /-- `SYMCNT` -/
  symcnt : Nat
  /-- the packer -/
  pk : Packer
  /-- the control phase -/
  phase : Phase
  deriving DecidableEq, Repr

/-- The encoder's part of the state. -/
def State.encoder (s : State) : Encoder where
  regs := s.enc
  win := s.win
  running := s.running
  sin := s.sin
  ctbuf := s.ctbuf
  symcnt := s.symcnt
  pk := s.packer
  phase := s.phase

/-- The state with the encoder's part replaced. -/
def State.withEncoder (s : State) (e : Encoder) : State :=
  { s.withPacker e.pk with
    enc := e.regs, win := e.win, sin := e.sin, symcnt := e.symcnt, phase := e.phase }

/-! ### Input (43_compressor.md R211) -/

/-- The next element of the encoder's input. -/
inductive Pulled where
  /-- a symbol, and the encoder after the pull -/
  | sym (v : Nat) (e : Encoder)
  /-- `EOS`, and the encoder after the pull -/
  | eos (e : Encoder)
  /-- no element -/
  | stuck (f : Fault)
  deriving DecidableEq, Repr

/-- `pull` of the encoder: from `SIN` in COMP; in PROTECT from `CTBUF` in index order, with `EOS` after the last symbol
of the first phase (46_control_pipeline.md R291). -/
def Encoder.pull (e : Encoder) : Pulled :=
  match e.running with
  | .protect =>
    if e.regs.taken < e.symcnt then
      match e.ctbuf.read e.regs.taken with
      | some v => .sym v { e with regs := { e.regs with taken := e.regs.taken + 1 } }
      | none => .stuck .cellUnwritten
    else .eos e
  | .nothing | .comp | .decomp | .recover =>
    match e.sin with
    | [] => .stuck .sinIncomplete
    | .eos :: rest => .eos { e with sin := rest }
    | .sym v :: rest => .sym v { e with sin := rest }

/-- The two tests of `fill` (43_compressor.md R211): capacity first, then width. PROTECT has made them in its first
phase and does not repeat them (46_control_pipeline.md R291). -/
def Encoder.refuses (P : Params) (c : CfgRegs) (v : Nat) (e : Encoder) : Option Exc :=
  match e.running with
  | .protect => none
  | .nothing | .comp | .decomp | .recover =>
    if e.symcnt = P.ctCap then some { kind := .bufferOverrun, info := e.symcnt }
    else if c.fitsSymbol v = false then some { kind := .invalidSymbol, info := v }
    else none

/-- The symbol enters `WIN` at `bufferend`; COMP counts it (43_compressor.md R211, 46_control_pipeline.md R291). -/
def Encoder.load (v : Nat) (e : Encoder) : Encoder :=
  { e with
    win := e.win.write e.regs.bufferend v
    regs := { e.regs with bufferend := e.regs.bufferend + 1 }
    symcnt := if e.running = .protect then e.symcnt else e.symcnt + 1 }

/-- `fill()` (43_compressor.md R211), for as many cells as are free below `2N`; nothing is pulled after `EOS`. -/
def fill (P : Params) (c : CfgRegs) : Nat → Encoder → Encoder × Option Halt
  | 0, e => (e, none)
  | room + 1, e =>
    if e.regs.eos then (e, none)
    else
      match e.pull with
      | .stuck f => (e, some (.fault f))
      | .eos e1 => ({ e1 with regs := { e1.regs with eos := true } }, none)
      | .sym v e1 =>
        match e1.refuses P c v with
        | some x => (e1, some (.raise x))
        | none => fill P c room (e1.load v)

/-! ### Search (43_compressor.md R214 to R216) -/

/-- How far the runs at `i` and at `r` agree, from position `j` on, over at most `fuel` positions (the inner loop of
43_compressor.md R215). The cells compared have all been written (R224; log 12). -/
def runLength (win : Mem) (i r : Nat) : Nat → Nat → Nat
  | 0, j => j
  | fuel + 1, j => if win.read (i + j) = win.read (r + j) then runLength win i r fuel (j + 1) else j

/-- The candidates `s + k - 1` down to `s`, most recent first; a longer run replaces the best so far, an equal one does
not (43_compressor.md R215, R216). -/
def searchFrom (win : Mem) (sym : Nat) (r s f1 : Nat) : Nat → Nat × Nat → Nat × Nat
  | 0, best => best
  | k + 1, (x, y) =>
    if win.read (s + k) = some sym then
      let j := runLength win (s + k) r (f1 - 1) 1
      if y < j then searchFrom win sym r s f1 k (s + k, j) else searchFrom win sym r s f1 k (x, y)
    else searchFrom win sym r s f1 k (x, y)

/-- `search(r, s, f1)` for the symbol `sym = WIN[r]`: start and length of the best match, from start 0 and length 1
(43_compressor.md R215). -/
def search (win : Mem) (sym : Nat) (r s f1 : Nat) : Nat × Nat := searchFrom win sym r s f1 (r - s) (0, 1)

/-! ### Shift (43_compressor.md R218) -/

/-- The copy of `shift`: cells `i + n` to `i`, for `k` cells from `i` on, in rising order. -/
def shiftCells (n : Nat) : Nat → Nat → Mem → Mem
  | 0, _, win => win
  | k + 1, i, win =>
    match win.read (i + n) with
    | some v => shiftCells n k (i + 1) (win.write i v)
    | none => shiftCells n k (i + 1) win

/-- `shift()` up to its `fill` (43_compressor.md R218): `bufferend - N` cells are copied and the cursors are rebased. -/
def Encoder.rebase (c : CfgRegs) (e : Encoder) : Encoder :=
  { e with
    win := shiftCells c.n (e.regs.bufferend - c.n) 0 e.win
    regs := { e.regs with
      bufferend := e.regs.bufferend - c.n, r := e.regs.r - c.n, s := e.regs.s - c.n } }

/-! ### The phases (46_control_pipeline.md R300) -/

/-- The phase where work remains if `r < bufferend`, else `Drained` (46_control_pipeline.md R300; the test of the main
loop, 43_compressor.md R213). -/
def Encoder.resume (e : Encoder) : Encoder :=
  { e with phase := if e.regs.r < e.regs.bufferend then .matching else .drained }

/-- `Filling` (43_compressor.md R212): blank history, first load, cursors. -/
def Encoder.filling (P : Params) (c : CfgRegs) (e : Encoder) : Encoder × Option Halt :=
  match fill P c (2 * c.n - c.h)
      { e with win := Mem.blank c.h c.blank, regs := { e.regs with bufferend := c.h, eos := false } } with
  | (e1, some h) => (e1, some h)
  | (e1, none) => (Encoder.resume { e1 with regs := { e1.regs with r := c.h, s := 0 } }, none)

/-- `Matching` (43_compressor.md R213, R214): the length bound and the search. -/
def Encoder.matching (c : CfgRegs) (e : Encoder) : Encoder × Option Halt :=
  let f1 := min c.maxMatch (e.regs.bufferend - e.regs.r)
  match e.win.read e.regs.r with
  | none => (e, some (.fault .cellUnwritten))
  | some sym =>
    let best := search e.win sym e.regs.r e.regs.s f1
    ({ e with regs := { e.regs with f1 := f1, x := best.1, y := best.2 }, phase := .emitting }, none)

/-- The cursors move on by the length of the token; then the shift test (43_compressor.md R213, R218). -/
def Encoder.advance (c : CfgRegs) (y : Nat) (pk : Packer) (e : Encoder) : Encoder :=
  let e1 := { e with pk := pk, regs := { e.regs with y := y, r := e.regs.r + y, s := e.regs.s + y } }
  if 2 * c.n - c.f ≤ e1.regs.r then { e1 with phase := .shifting } else e1.resume

/-- `Emitting` (43_compressor.md R213, R216, R217): a Literal where the best length is at or below `P`, else a Match. -/
def Encoder.emitting (P : Params) (c : CfgRegs) (e : Encoder) : Encoder × Option Halt :=
  match e.win.read e.regs.r with
  | none => (e, some (.fault .cellUnwritten))
  | some sym =>
    if e.regs.y ≤ c.p then
      match e.pk.putLiteral P c sym with
      | .error x => ({ e with regs := { e.regs with y := 1 } }, some (.raise x))
      | .ok pk => (e.advance c 1 pk, none)
    else
      match e.pk.putMatch P c (e.regs.x % c.n) e.regs.y with
      | .error x => (e, some (.raise x))
      | .ok pk => (e.advance c e.regs.y pk, none)

/-- `Shifting` (43_compressor.md R218). -/
def Encoder.shifting (P : Params) (c : CfgRegs) (e : Encoder) : Encoder × Option Halt :=
  let e1 := e.rebase c
  match fill P c (2 * c.n - e1.regs.bufferend) e1 with
  | (e2, some h) => (e2, some h)
  | (e2, none) => (e2.resume, none)

/-- One phase of the encoder (46_control_pipeline.md R300). Nothing is left to do once it is `Drained`. -/
def Encoder.phaseStep (P : Params) (c : CfgRegs) (e : Encoder) : Encoder × Option Halt :=
  match e.phase with
  | .filling => e.filling P c
  | .matching => e.matching c
  | .emitting => e.emitting P c
  | .shifting => e.shifting P c
  | .drained => (e, none)
  | .idle => (e, some (.fault .noSuchPhase))

/-- The phases one after the other until `Drained` or a halt, at most `fuel` of them. -/
def Encoder.drive (P : Params) (c : CfgRegs) : Nat → Encoder → Encoder × Option Halt
  | 0, e => (e, none)
  | fuel + 1, e =>
    if e.phase = .drained then (e, none)
    else
      match e.phaseStep P c with
      | (e1, some h) => (e1, some h)
      | (e1, none) => Encoder.drive P c fuel e1

/-- A bound on the phases of one encode: one filling, and at most a search, an emission and a shift for each of at most
`CT_CAP` symbols (46_control_pipeline.md R302; log 18). -/
def encodePhases (P : Params) : Nat := 3 * P.ctCap + 2

/-! ### The commands -/

/-- The end of COMP and of PROTECT (43_compressor.md R210, 46_control_pipeline.md R291): `flush`, then completion with
`SYMCNT`; or the error. The `EOS` of the `SIN` segment has been pulled by PROTECT's first phase, or by COMP's `fill`
when `eos` is set. -/
def endEncode (s : State) : Option Halt → Outcome
  | none =>
    endStream .sinBout (s.running = .protect || s.enc.eos) 0 s.symcnt (s.withPacker s.packer.flush)
  | some (.raise e) => raiseStream .sinBout (s.running = .protect || s.enc.eos) e s
  | some (.fault f) => .fault f

/-- The encode of COMP and of PROTECT's second phase from a state that is `Filling`, to completion. -/
def runEncode (s : State) : Outcome :=
  let x := s.encoder.drive s.params s.cfg (encodePhases s.params)
  endEncode (s.withEncoder x.1) x.2

/-- The state at the start of an encode (43_compressor.md R210; 46_control_pipeline.md R291, "phase 2"): an empty
accumulator, no byte counted, `Filling`. -/
def startEncode (which : Running) (s : State) : State :=
  { s with
    bytecnt := 0, acc := 0, nbits := 0, phase := .filling, running := which,
    enc := { s.enc with eos := false, taken := 0 } }

/-- `COMP` (43_compressor.md R210). Inside a packer session it changes nothing but the result (44_bitpacker.md R249;
log 7). -/
def execComp (s : State) : Outcome :=
  if s.status.pkopen = true then .next (raise { kind := .illegalCommand, info := 2 } s)
  else if s.cfg.codecOk s.params = false then raiseStream .sinBout false { kind := .badConfig, info := 0 } s
  else runEncode (startEncode .comp { s with symcnt := 0 })

/-- What PROTECT's first phase leaves. -/
structure ProtectRun where
  /-- what is left on `SIN` -/
  sin : List (Item Nat)
  /-- memory `CTBUF` -/
  ctbuf : Mem
  /-- `SYMCNT` -/
  cnt : Nat
  /-- the error or stuck condition that ended the loop; nothing at `EOS` -/
  stop : Option Halt
  deriving DecidableEq, Repr

/-- The first phase of PROTECT (46_control_pipeline.md R291): for one symbol, capacity, then range, then width of the
ciphertext. -/
def protectLoop (P : Params) (c : CfgRegs) (k : KeyFile) : Nat → Mem → List (Item Nat) → ProtectRun
  | cnt, m, [] => { sin := [], ctbuf := m, cnt := cnt, stop := some (.fault .sinIncomplete) }
  | cnt, m, .eos :: rest => { sin := rest, ctbuf := m, cnt := cnt, stop := none }
  | cnt, m, .sym v :: rest =>
    if cnt = P.ctCap then
      { sin := rest, ctbuf := m, cnt := cnt, stop := some (.raise { kind := .bufferOverrun, info := cnt }) }
    else if k.kn ≤ v then
      { sin := rest, ctbuf := m, cnt := cnt, stop := some (.raise { kind := .invalidSymbol, info := v }) }
    else if c.fitsSymbol (k.encrypt v) = false then
      { sin := rest, ctbuf := m, cnt := cnt, stop := some (.raise { kind := .invalidSymbol, info := k.encrypt v }) }
    else protectLoop P c k (cnt + 1) (m.write cnt (k.encrypt v)) rest

/-- `PROTECT` (46_control_pipeline.md R291). Inside a packer session it changes nothing but the result (44_bitpacker.md
R249; log 7). -/
def execProtect (s : State) : Outcome :=
  if s.status.pkopen = true then .next (raise { kind := .illegalCommand, info := 2 } s)
  else if s.cfg.codecOk s.params = false then raiseStream .sinBout false { kind := .badConfig, info := 0 } s
  else if s.status.pubv = false then
    raiseStream .sinBout false { kind := .noKey, info := 0 } { s with symcnt := 0 }
  else
    let x := protectLoop s.params s.cfg s.keys 0 [] s.sin
    let s1 := { s with sin := x.sin, ctbuf := x.ctbuf, symcnt := x.cnt }
    match x.stop with
    | none => runEncode (startEncode .protect s1)
    | some (.raise e) => raiseStream .sinBout false e s1
    | some (.fault f) => .fault f

end Sys2Proof.Machine
end

