-- ==== Sys2Proof/Machine/Decoder.lean ====
section
/-! DEFINITION. The bitstream unpacker and window decoder: the two token instructions LITERAL and MATCH, and the
commands DECOMP (45_decoder.md) and RECOVER (46_control_pipeline.md R294). -/

namespace Sys2Proof.Machine

open Sys2Proof

/-! ### The unpacker (45_decoder.md R261) -/

/-- The unpacker's registers and its input port. -/
structure Unpacker where
  /-- `IBUF` -/
  ibuf : Byte
  /-- `IBITS` -/
  ibits : Fin 9
  /-- port `BIN` -/
  bin : List (Item Byte)
  deriving DecidableEq, Repr

/-- What a read of bits gives. -/
inductive Got (α : Type) where
  /-- a value, and the unpacker after it -/
  | ok (a : α) (u : Unpacker)
  /-- the segment has ended; its `EOS` has been pulled (45_decoder.md R261) -/
  | ended (u : Unpacker)
  /-- the host has not supplied the next element (20_memory.md R66) -/
  | stuck
  deriving DecidableEq, Repr

/-- One bit: a byte is pulled where `IBUF` is used up (45_decoder.md R261). -/
def Unpacker.getBit (u : Unpacker) : Got Bool :=
  if u.ibits.val = 0 then
    match u.bin with
    | [] => .stuck
    | .eos :: rest => .ended { u with bin := rest }
    | .sym b :: rest => .ok (b.toNat.testBit 7) { ibuf := b, ibits := 7, bin := rest }
  else .ok (u.ibuf.toNat.testBit (u.ibits.val - 1)) { u with ibits := u.ibits - 1 }

/-- `getbits(w)`, first bit most significant; the second argument is the value read so far (45_decoder.md R261). -/
def Unpacker.getBits : Nat → Nat → Unpacker → Got Nat
  | 0, v, u => .ok v u
  | w + 1, v, u =>
    match u.getBit with
    | .ok b u1 => Unpacker.getBits w (2 * v + b.toNat) u1
    | .ended u1 => .ended u1
    | .stuck => .stuck

/-- The next token of the segment: one flag bit, then the fields of the format it names (45_decoder.md R263, R264,
R266; 30_encoding.md R95). -/
def Unpacker.getToken (tw : TokenWidths) (u : Unpacker) : Got Instr :=
  match u.getBit with
  | .stuck => .stuck
  | .ended u1 => .ended u1
  | .ok true u1 =>
    match u1.getBits tw.symw 0 with
    | .ok v u2 => .ok (.literal v) u2
    | .ended u2 => .ended u2
    | .stuck => .stuck
  | .ok false u1 =>
    match u1.getBits tw.ei 0 with
    | .stuck => .stuck
    | .ended u2 => .ended u2
    | .ok o u2 =>
      match u2.getBits tw.ej 0 with
      | .ok l u3 => .ok (.matchTok o l) u3
      | .ended u3 => .ended u3
      | .stuck => .stuck

/-! ### The decoder -/

/-- What the decoder works on: the unpacker and the token it has read, its window and cursor, the expected count, and
where its symbols go. -/
structure Decoder where
  /-- the unpacker -/
  unp : Unpacker
  /-- the token read and not executed yet -/
  tok : Option Instr
  /-- memory `DWIN` -/
  dwin : Mem
  /-- cursor into `DWIN` -/
  dr : Nat
  /-- the expected count -/
  count : Nat
  /-- `SYMCNT` -/
  symcnt : Nat
  /-- DECOMP emits to `SOUT`, RECOVER to `CTBUF` -/
  running : Running
  /-- port `SOUT` -/
  sout : List (Item Nat)
  /-- memory `CTBUF` -/
  ctbuf : Mem
  /-- the control phase -/
  phase : Phase
  deriving DecidableEq, Repr

/-- The decoder's part of the state. -/
def State.decoder (s : State) : Decoder where
  unp := { ibuf := s.ibuf, ibits := s.ibits, bin := s.bin }
  tok := s.tok
  dwin := s.dwin
  dr := s.dr
  count := s.count
  symcnt := s.symcnt
  running := s.running
  sout := s.sout
  ctbuf := s.ctbuf
  phase := s.phase

/-- The state with the decoder's part replaced. -/
def State.withDecoder (s : State) (d : Decoder) : State :=
  { s with
    ibuf := d.unp.ibuf, ibits := d.unp.ibits, bin := d.unp.bin, tok := d.tok, dwin := d.dwin,
    dr := d.dr, symcnt := d.symcnt, sout := d.sout, ctbuf := d.ctbuf, phase := d.phase }

/-- `emit(c)`: to `SOUT` in DECOMP (45_decoder.md R260), to `CTBUF[SYMCNT]` in RECOVER (46_control_pipeline.md
R294). -/
def Decoder.emit (c : Nat) (d : Decoder) : Decoder :=
  match d.running with
  | .recover => { d with ctbuf := d.ctbuf.write d.symcnt c }
  | .nothing | .comp | .protect | .decomp => { d with sout := d.sout ++ [.sym c] }

/-- `out(c)` (45_decoder.md R265): emit, write the window at the cursor, advance with wrap at `N`, count. -/
def Decoder.out (n : Nat) (c : Nat) (d : Decoder) : Decoder :=
  { d.emit c with dwin := d.dwin.write d.dr c, dr := (d.dr + 1) % n, symcnt := d.symcnt + 1 }

/-- The copy of a Match from its `k`-th symbol on, for `todo` more symbols: each read follows the previous write, and
the count is tested before every symbol (45_decoder.md R263, R266, R267, R269). A cell that holds no value has no
value to copy (R268). -/
def Decoder.copy (n off : Nat) : Nat → Nat → Decoder → Decoder × Option Fault
  | 0, _, d => (d, none)
  | todo + 1, k, d =>
    if d.symcnt = d.count then (d, none)
    else
      match d.dwin.read ((off + k) % n) with
      | none => (d, some .dwinUnwritten)
      | some c => Decoder.copy n off todo (k + 1) (d.out n c)

/-- The phase after a token: `Matching` while symbols are missing, else `Drained` (46_control_pipeline.md R300; the
test of the loop, 45_decoder.md R263). -/
def Decoder.resume (d : Decoder) : Decoder :=
  { d with phase := if d.symcnt < d.count then .matching else .drained }

/-- The decoder on a Literal (45_decoder.md R264). -/
def Decoder.literal (n : Nat) (sym : Nat) (d : Decoder) : Decoder := (d.out n sym).resume

/-- The decoder on a Match: `len2 + 2` symbols (45_decoder.md R266; 90_conflicts.md C1). -/
def Decoder.matchTok (n off len2 : Nat) (d : Decoder) : Decoder × Option Fault :=
  match Decoder.copy n off (len2 + 2) 0 d with
  | (d1, none) => (d1.resume, none)
  | (d1, some f) => (d1, some f)

/-- The decoder on the token just read. What is no token does not come out of the unpacker. -/
def Decoder.token (n : Nat) (i : Instr) (d : Decoder) : Decoder × Option Halt :=
  match i with
  | .literal sym => (d.literal n sym, none)
  | .matchTok off len2 =>
    match d.matchTok n off len2 with
    | (d1, none) => (d1, none)
    | (d1, some f) => (d1, some (.fault f))
  | .nop | .reset | .clrerr | .wrcfg _ _ | .rdreg _ | .keygen _ | .keyset _ _ _ | .keypub _ _ | .enc _ | .decd _
  | .decc _ | .encs | .decs | .comp | .decomp _ | .putl _ | .putm _ _ | .flush | .protect | .recover _ =>
    (d, some (.fault .noSuchPhase))

/-- `LITERAL sym` in the decoder's instruction stream (45_decoder.md R264, R265). -/
def execLiteral (sym : Nat) (s : State) : Outcome := .next (s.withDecoder (s.decoder.literal s.cfg.n sym))

/-- `MATCH off, len2` in the decoder's instruction stream (45_decoder.md R266 to R269). -/
def execMatchTok (off len2 : Nat) (s : State) : Outcome :=
  match s.decoder.matchTok s.cfg.n off len2 with
  | (d, none) => .next (s.withDecoder d)
  | (_, some f) => .fault f

/-! ### The phases (46_control_pipeline.md R300) -/

/-- `Filling` (45_decoder.md R262): blank history below `H`, cursor at `H`, no bits held. Cells `H` to `N - 1` hold no
value (10_state.md R47). -/
def Decoder.filling (c : CfgRegs) (d : Decoder) : Decoder :=
  Decoder.resume { d with dwin := Mem.blank c.h c.blank, dr := c.h, unp := { d.unp with ibits := 0 } }

/-- `Matching` (45_decoder.md R261, R263): the bits of one token are read, and the token waits for `Emitting`. Running
out of input is MalformedBitstream with the number of symbols produced (R261). -/
def Decoder.matching (c : CfgRegs) (d : Decoder) : Decoder × Option Halt :=
  match d.unp.getToken c.widths with
  | .ok i u => ({ d with unp := u, tok := some i, phase := .emitting }, none)
  | .ended u => ({ d with unp := u }, some (.raise { kind := .malformedBitstream, info := d.symcnt }))
  | .stuck => (d, some (.fault .binIncomplete))

/-- `Emitting` (45_decoder.md R264 to R267): the token read is executed. -/
def Decoder.emitting (c : CfgRegs) (d : Decoder) : Decoder × Option Halt :=
  match d.tok with
  | some i => Decoder.token c.n i d
  | none => (d, some (.fault .noSuchPhase))

/-- One phase of the decoder (46_control_pipeline.md R300), which never enters `Shifting`. -/
def Decoder.phaseStep (c : CfgRegs) (d : Decoder) : Decoder × Option Halt :=
  match d.phase with
  | .filling => (d.filling c, none)
  | .matching => d.matching c
  | .emitting => d.emitting c
  | .drained => (d, none)
  | .shifting | .idle => (d, some (.fault .noSuchPhase))

/-- The phases one after the other until `Drained` or a halt, at most `fuel` of them. -/
def Decoder.drive (c : CfgRegs) : Nat → Decoder → Decoder × Option Halt
  | 0, d => (d, none)
  | fuel + 1, d =>
    if d.phase = .drained then (d, none)
    else
      match d.phaseStep c with
      | (d1, some h) => (d1, some h)
      | (d1, none) => Decoder.drive c fuel d1

/-! ### The commands -/

/-- What RECOVER's second phase leaves. -/
structure RecoverRun where
  /-- the symbols pushed, oldest first -/
  out : List Nat
  /-- `SYMCNT` -/
  cnt : Nat
  /-- the error, or the read that has no value -/
  stop : Option Halt
  deriving DecidableEq, Repr

/-- One more symbol in front of what a run produces. -/
def RecoverRun.prepend (v : Nat) (x : RecoverRun) : RecoverRun := { x with out := v :: x.out }

/-- The second phase of RECOVER (46_control_pipeline.md R294), from index `i` on for `todo` symbols. -/
def recoverLoop (k : KeyFile) (m : Mem) : Nat → Nat → RecoverRun
  | 0, i => { out := [], cnt := i, stop := none }
  | todo + 1, i =>
    match m.read i with
    | none => { out := [], cnt := i, stop := some (.fault .cellUnwritten) }
    | some c =>
      if k.kn ≤ c then
        { out := [], cnt := i, stop := some (.raise { kind := .invalidSymbol, info := c }) }
      else (recoverLoop k m todo (i + 1)).prepend (k.crt c)

/-- RECOVER from the end of its first phase on (46_control_pipeline.md R294). -/
def endRecover (s : State) : Outcome :=
  let x := recoverLoop s.keys s.ctbuf s.count 0
  let s1 := { s with sout := s.sout ++ x.out.map .sym, symcnt := x.cnt }
  match x.stop with
  | none => endStream .binSout false 0 s.count s1
  | some (.raise e) => raiseStream .binSout false e s1
  | some (.fault f) => .fault f

/-- The end of a decode: completion of DECOMP with `SYMCNT` (45_decoder.md R260), the second phase of RECOVER
(46_control_pipeline.md R294), or MalformedBitstream, raised when the `EOS` has been pulled (45_decoder.md R261). -/
def endDecode (s : State) : Option Halt → Outcome
  | none => if s.running = .recover then endRecover s else endStream .binSout false 0 s.symcnt s
  | some (.raise e) => raiseStream .binSout true e s
  | some (.fault f) => .fault f

/-- The decode of DECOMP and of RECOVER's first phase from a state that is `Filling`, to completion. Every token
produces a symbol and takes two phases, so the count bounds the phases (46_control_pipeline.md R302; log 18). -/
def runDecode (s : State) : Outcome :=
  let x := s.decoder.drive s.cfg (2 * s.count + 1)
  endDecode (s.withDecoder x.1) x.2

/-- The state at the start of a decode (45_decoder.md R260): nothing produced yet, `Filling`. RECOVER's `CTBUF` is its
own from here on (10_state.md R46). -/
def startDecode (which : Running) (count : Nat) (s : State) : State :=
  { s with
    symcnt := 0, count := count, phase := .filling, running := which,
    ctbuf := if which = .recover then [] else s.ctbuf }

/-- `DECOMP count` (45_decoder.md R260). -/
def execDecomp (count : Nat) (s : State) : Outcome :=
  if s.cfg.codecOk s.params = false then raiseStream .binSout false { kind := .badConfig, info := 0 } s
  else if s.params.ctCap < count then
    raiseStream .binSout false { kind := .bufferOverrun, info := count } { s with symcnt := 0 }
  else runDecode (startDecode .decomp count s)

/-- `RECOVER count` (46_control_pipeline.md R294). -/
def execRecover (count : Nat) (s : State) : Outcome :=
  if s.cfg.codecOk s.params = false then raiseStream .binSout false { kind := .badConfig, info := 0 } s
  else if s.status.prvv = false then raiseStream .binSout false { kind := .noKey, info := 0 } { s with symcnt := 0 }
  else if s.params.ctCap < count then
    raiseStream .binSout false { kind := .bufferOverrun, info := count } { s with symcnt := 0 }
  else runDecode (startDecode .recover count s)

end Sys2Proof.Machine
end

