-- ==== Sys2Proof/Machine/Keygen.lean ====
section
/-! DEFINITION. The key generation unit: KEYGEN, KEYSET, KEYPUB (40_keygen.md). -/

namespace Sys2Proof.Machine

open Sys2Proof

/-- The totient `phi = n - p - q + 1` with `n = p * q` (40_keygen.md R132). -/
def totient (p q : Nat) : Nat := p * q - p - q + 1

/-- The number of the first test of `accept(cp, cq, e)` that fails (40_keygen.md R131): 1 range, 2 prime, 3 distinct,
4 coprime; nothing where the pair is accepted. -/
def refusedBy (c : CfgRegs) (cp cq e : Nat) : Option Nat :=
  if ¬ ((c.pmin ≤ cp ∧ cp ≤ c.pmax) ∧ c.pmin ≤ cq ∧ cq ≤ c.pmax) then some 1
  else if ¬ (isPrime cp = true ∧ isPrime cq = true) then some 2
  else if cp = cq then some 3
  else if Nat.gcd e (totient cp cq) ≠ 1 then some 4
  else none

/-- `derive(p, q, e)`: the nine values of the key file (40_keygen.md R133, 42_crt.md R191). -/
def derive (p q e : Nat) : KeyFile :=
  let phi := totient p q
  let d := modinv e phi
  { kn := p * q, ke := e, kd := d, kp := p, kq := q, kphi := phi, kdp := d % (p - 1), kdq := d % (q - 1),
    kqinv := modinv (q % p) p }

/-- The three records of a committed key, in the order of 30_encoding.md R100. -/
def keyRecords (k : KeyFile) : List KeyRecord :=
  [{ kind := .pub, fst := k.kn, snd := k.ke }, { kind := .prv, fst := k.kn, snd := k.kd },
    { kind := .pq, fst := k.kp, snd := k.kq }]

/-- `commit(p, q, e)` (40_keygen.md R134): the whole key file at once, both valid flags, the three records. -/
def commit (p q e : Nat) (s : State) : State :=
  { s with
    keys := derive p q e
    status := s.status.setKeyValid true true
    kout := s.kout ++ keyRecords (derive p q e) }

/-- How a run of attempts of KEYGEN ends. -/
inductive Attempts where
  /-- a pair is accepted; the draws left and the budget left -/
  | accepted (cp cq : Nat) (rest : List Nat) (budget : Nat)
  /-- the budget is spent; the draws left -/
  | spent (rest : List Nat)
  /-- the random source has not answered the next draw -/
  | silent
  deriving DecidableEq, Repr

/-- A draw as a candidate: `PMIN + (v mod span)` (40_keygen.md R136, R137). -/
def candidate (c : CfgRegs) (v : Nat) : Nat := c.pmin + v % (c.pmax - c.pmin + 1)

/-- The loop of KEYGEN (40_keygen.md R136): two draws an attempt, first `cp`, then `cq`; every rejection costs one unit
of budget. -/
def attempts (c : CfgRegs) (e : Nat) : Nat → List Nat → Attempts
  | budget, v :: w :: rest =>
    match refusedBy c (candidate c v) (candidate c w) e with
    | none => .accepted (candidate c v) (candidate c w) rest budget
    | some _ =>
      match budget with
      | 0 => .spent rest
      | b + 1 => attempts c e b rest
  | _, [_] => .silent
  | _, [] => .silent

/-- `KEYGEN e` (40_keygen.md R136). -/
def execKeygen (e : Nat) (s : State) : Outcome :=
  if s.cfg.keygenOk s.params = false then .next (raise { kind := .badConfig, info := 0 } s)
  else
    match attempts s.cfg e s.cfg.retry s.rng with
    | .accepted cp cq rest b =>
      .next (done (cp * cq) (commit cp cq e { s with rng := rest, budget := b }))
    | .spent rest =>
      .next (raise { kind := .keyGenerationFailed, info := 0 } { s with rng := rest, budget := 0 })
    | .silent => .fault .rngSilent

/-- `KEYSET p, q, e` (40_keygen.md R140). -/
def execKeyset (p q e : Nat) (s : State) : Outcome :=
  if s.cfg.keygenOk s.params = false then .next (raise { kind := .badConfig, info := 0 } s)
  else
    match refusedBy s.cfg p q e with
    | some t => .next (raise { kind := .keyGenerationFailed, info := t } s)
    | none => .next (done (p * q) (commit p q e s))

/-- The key file after KEYPUB: the public half, the rest 0 (40_keygen.md R142). -/
def publicKey (n e : Nat) : KeyFile :=
  { kn := n, ke := e, kd := 0, kp := 0, kq := 0, kphi := 0, kdp := 0, kdq := 0, kqinv := 0 }

/-- `KEYPUB n, e` (40_keygen.md R142). -/
def execKeypub (n e : Nat) (s : State) : Outcome :=
  if n < 2 then .next (raise { kind := .illegalCommand, info := 1 } s)
  else .next (done n { s with keys := publicKey n e, status := s.status.setKeyValid true false })

end Sys2Proof.Machine
end

