-- ==== Sys2Proof/Machine/System.lean ====
section
/-! DEFINITION. The system commands: NOP, RESET, CLRERR, WRCFG, RDREG (46_control_pipeline.md R282 to R286). -/

namespace Sys2Proof.Machine

open Sys2Proof

/-- `NOP` (46_control_pipeline.md R282). -/
def execNop (s : State) : Outcome := .next (done 0 s)

/-- `RESET` (46_control_pipeline.md R283): the state of the hardware reset, then completion with result 0. -/
def execReset (s : State) : Outcome := .next (done 0 (resetEngine s))

/-- `CLRERR` (46_control_pipeline.md R286). -/
def execClrerr (s : State) : Outcome := .next (done 0 { s with status := s.status.clearErrs })

/-- `WRCFG idx, val` (46_control_pipeline.md R284): only the index and the register's own width are checked. -/
def execWrcfg (idx val : Nat) (s : State) : Outcome :=
  if cfgIndex idx = false then .next (raise { kind := .illegalCommand, info := 5 } s)
  else if tooWide idx val = true then .next (raise { kind := .illegalCommand, info := 6 } s)
  else .next (done val { s with cfg := s.cfg.write idx val })

/-- `RDREG idx` (46_control_pipeline.md R285): a success leaves `STATUS` alone (10_state.md R42). -/
def execRdreg (idx : Nat) (s : State) : Outcome :=
  match s.readReg idx with
  | none => .next (raise { kind := .illegalCommand, info := 5 } s)
  | some v => .next (pushResult 0 v s)

end Sys2Proof.Machine
end

