-- ==== Sys2Proof/Machine/Dispatch.lean ====
section
/-! DEFINITION. One arm per instruction: the meaning each constructor of `Instr` has. -/

namespace Sys2Proof.Machine

open Sys2Proof

def exec (i : Instr) (s : State) : Host.Outcome State Fault Refusal :=
  match i with
  | .nop => Sys2Proof.Machine.execNop s
  | .reset => Sys2Proof.Machine.execReset s
  | .clrerr => Sys2Proof.Machine.execClrerr s
  | .wrcfg idx val => Sys2Proof.Machine.execWrcfg idx val s
  | .rdreg idx => Sys2Proof.Machine.execRdreg idx s
  | .keygen e => Sys2Proof.Machine.execKeygen e s
  | .keyset p q e => Sys2Proof.Machine.execKeyset p q e s
  | .keypub n e => Sys2Proof.Machine.execKeypub n e s
  | .enc m => Sys2Proof.Machine.execEnc m s
  | .decd c => Sys2Proof.Machine.execDecd c s
  | .decc c => Sys2Proof.Machine.execDecc c s
  | .encs => Sys2Proof.Machine.execEncs s
  | .decs => Sys2Proof.Machine.execDecs s
  | .comp => Sys2Proof.Machine.execComp s
  | .decomp count => Sys2Proof.Machine.execDecomp count s
  | .putl sym => Sys2Proof.Machine.execPutl sym s
  | .putm off len => Sys2Proof.Machine.execPutm off len s
  | .flush => Sys2Proof.Machine.execFlush s
  | .protect => Sys2Proof.Machine.execProtect s
  | .recover count => Sys2Proof.Machine.execRecover count s
  | .literal sym => Sys2Proof.Machine.execLiteral sym s
  | .matchTok off len2 => Sys2Proof.Machine.execMatchTok off len2 s

end Sys2Proof.Machine
end

