-- ==== Sys2Proof/Machine/Fetch.lean ====
section
/-! DEFINITION. Where an instruction comes from. Between commands the engine takes the next command word from `CMD`
(46_control_pipeline.md R280); a decode that is under way takes the next token from `BIN` (45_decoder.md R263) and
executes it in the phase that follows. The other phases of a command under way continue it (46_control_pipeline.md
R300, R301; log 8). -/

namespace Sys2Proof.Machine

open Sys2Proof

/-- A command word taken from `CMD`: the instruction it decodes to is executed; a reserved opcode raises
IllegalCommand(0) with no other effect (46_control_pipeline.md R281). -/
def runWord (w : CmdWord) (s : State) : Outcome :=
  match decodeCommand s.params.kw w with
  | .ok i => exec i s
  | .error _ => .next (raise { kind := .illegalCommand, info := 0 } s)

/-- The engine at `Idle` (46_control_pipeline.md R280): it takes one command word; with none on `CMD` it waits
(70_reset_and_hazards.md R360, R396; log 11). -/
def commandStep (s : State) : Outcome :=
  match s.cmd with
  | [] => .next s
  | w :: rest => runWord w { s with cmd := rest }

/-- One phase of an encode that is under way. -/
def encodeStep (s : State) : Outcome :=
  if s.phase = .drained then endEncode s none
  else
    match s.encoder.phaseStep s.params s.cfg with
    | (e, none) => .next (s.withEncoder e)
    | (e, some h) => endEncode (s.withEncoder e) (some h)

/-- A decode that is `Matching`: the next token is read from `BIN` and held, or the segment has ended too early
(45_decoder.md R261, R263). -/
def fetchToken (s : State) : Outcome :=
  match s.decoder.matching s.cfg with
  | (d, none) => .next (s.withDecoder d)
  | (d, some h) => endDecode (s.withDecoder d) (some h)

/-- A decode that is `Emitting`: the token read is executed (45_decoder.md R263). Nothing else comes out of the
unpacker, and without a token there is no such phase. -/
def runToken (s : State) : Outcome :=
  match s.tok with
  | some i => if i.isToken then exec i s else .fault .noSuchPhase
  | none => .fault .noSuchPhase

/-- One phase of a decode that is under way. -/
def decodeStep (s : State) : Outcome :=
  match s.phase with
  | .filling => .next (s.withDecoder (s.decoder.filling s.cfg))
  | .matching => fetchToken s
  | .emitting => runToken s
  | .drained => endDecode s none
  | .shifting | .idle => .fault .noSuchPhase

/-- One phase of the command under way (46_control_pipeline.md R300). -/
def phaseStep (s : State) : Outcome :=
  match s.running with
  | .comp | .protect => encodeStep s
  | .decomp | .recover => decodeStep s
  | .nothing => .fault .noSuchPhase

/-- The reset of 70_reset_and_hazards.md R360, delivered between two steps (R361; log 10): the request is used up. -/
def resetStep (s : State) : Outcome := .next (resetEngine { s with resetLine := false })

/-- One step of the machine: a reset the host has asked for, else the next command, else the next phase of the command
under way. -/
def nextStep (s : State) : Outcome :=
  if s.resetLine = true then resetStep s else if s.phase = .idle then commandStep s else phaseStep s

/-- A stream port on which the current segment is complete: as it stands where it is, else closed by an `EOS`. -/
def closeSegment {α : Type} (port : List (Item α)) : List (Item α) :=
  match dropSegment port with
  | some _ => port
  | none => port ++ [.eos]

/-- The input segment a stream command comes with (30_encoding.md R115), complete, so that the command can run. -/
def supplySegment (i : Instr) (s : State) : State :=
  match i with
  | .encs | .decs | .comp | .protect => { s with sin := closeSegment s.sin }
  | .decomp _ | .recover _ => { s with bin := closeSegment s.bin }
  | .nop | .reset | .clrerr | .wrcfg _ _ | .rdreg _ | .keygen _ | .keyset _ _ _ | .keypub _ _ | .enc _ | .decd _
  | .decc _ | .putl _ | .putm _ _ | .flush | .literal _ | .matchTok _ _ => s

/-- The state with a command word at the head of `CMD`, ready to take it, and with a stream command's input segment
complete (log 17). -/
def placeCommand (w : Nat) (s : State) : State :=
  let word := w % 2 ^ cmdBits s.params.kw
  let s1 := { s with cmd := word :: s.cmd, phase := .idle, running := .nothing, resetLine := false }
  match decodeCommand s.params.kw word with
  | .ok i => supplySegment i s1
  | .error _ => s1

/-- The state in which DECOMP has just filled its window and has read its first token from the bytes of a table word,
placed at the head of `BIN`; where the bytes are no token, it stands before the read (log 17). -/
def placeToken (nbits w : Nat) (s : State) : State :=
  let s1 := startDecode .decomp s.params.ctCap
    { s with bin := (tableBytes nbits w).map .sym ++ s.bin, resetLine := false }
  let d := s1.decoder.filling s1.cfg
  s1.withDecoder (d.matching s1.cfg).1

end Sys2Proof.Machine
end

