-- ==== Sys2Proof/Machine/Step.lean ====
section
/-! DEFINITION. One step of the machine, and the state in which the next step runs a given word of
spec/opcode_table.json. -/

namespace Sys2Proof.Machine

open Sys2Proof

/-- One step: one command at `Idle`, from its word on `CMD` to its record on `RES` (46_control_pipeline.md R280, R301);
see `nextStep`. -/
def step (s : State) : Host.Outcome State Fault Refusal := nextStep s

/-- The state whose next step runs the instruction with table word `w` of `nbits` bits: a command row's word goes to the
head of `CMD`; a token row's bytes go to the head of `BIN`, and a decode that is under way has read them (log 17). -/
def State.withFetchWord (s : State) (nbits w : Nat) : State :=
  if nbits = cmdBits s.params.kw then placeCommand w s else placeToken nbits w s

end Sys2Proof.Machine
end

