-- ==== Sys2Proof/Machine/Text.lean ====
section
/-! DEFINITION. The text forms the spec gives: key records (30_encoding.md R101), the assembler notation of commands
(R115) and of tokens (R116). The engine's ports carry the numbers themselves (20_memory.md R75); these are the forms a
host writes and reads. -/

namespace Sys2Proof.Machine

open Sys2Proof

/-- A decimal digit as its byte. -/
def digitByte (d : Nat) : Byte := BitVec.ofNat 8 (48 + d)

/-- The decimal digits of `v`, most significant first, in front of `acc`; `fuel` bounds their number. -/
def decimalLoop : Nat → Nat → List Byte → List Byte
  | 0, _, acc => acc
  | fuel + 1, v, acc =>
    if v < 10 then digitByte v :: acc else decimalLoop fuel (v / 10) (digitByte (v % 10) :: acc)

/-- A number in decimal with no sign and no leading zero; 0 is `0` (30_encoding.md R101). -/
def decimal (v : Nat) : List Byte := decimalLoop (v + 1) v []

/-- The text form of a key record: first number, one space, second number, one line feed; the kind tag is not part of
it (30_encoding.md R101). -/
def KeyRecord.text (r : KeyRecord) : List Byte := decimal r.fst ++ [0x20] ++ decimal r.snd ++ [0x0A]

/-- A byte that is a decimal digit. -/
def isDigit (b : Byte) : Bool := decide (48 ≤ b.toNat) && decide (b.toNat ≤ 57)

/-- A space, a tab or part of a line end: 0x0A, and 0x0D by the model's choice (log 20). -/
def isBlankByte (b : Byte) : Bool := b == 0x20 || b == 0x09 || b == 0x0A || b == 0x0D

/-- The number at the front of a text, from the value `v` read so far, and the text after it. A number with leading
zeros, which the writer never produces and of which 30_encoding.md R101 says nothing to a reader, is read as its
value: the model's choice (DESIGN CHOICE, log 20). -/
def readDigits : Nat → List Byte → Nat × List Byte
  | v, [] => (v, [])
  | v, b :: bs => if isDigit b then readDigits (10 * v + (b.toNat - 48)) bs else (v, b :: bs)

/-- A number of at least one digit at the front of a text. -/
def readNumber : List Byte → Option (Nat × List Byte)
  | [] => none
  | b :: bs => if isDigit b then some (readDigits 0 (b :: bs)) else none

/-- The text without the spaces, tabs and line ends at its front. -/
def skipBlanks : List Byte → List Byte
  | [] => []
  | b :: bs => if isBlankByte b then skipBlanks bs else b :: bs

/-- A reader of persisted records: any non-empty run of spaces, tabs and line ends between the two numbers
(30_encoding.md R101). Of the rest of the text R101 says nothing to a reader, and what stands here is the model's choice
(DESIGN CHOICE, log 20): the text begins with a digit of the first number, blanks in front of it being refused; any run of
blanks, the empty one too, may follow the second number, and nothing else may; a number is not bounded. -/
def readKeyText (bs : List Byte) : Option (Nat × Nat) :=
  match readNumber bs with
  | none => none
  | some (a, rest) =>
    match rest with
    | [] => none
    | b :: _ =>
      if isBlankByte b then
        match readNumber (skipBlanks rest) with
        | none => none
        | some (c, rest2) => if skipBlanks rest2 = [] then some (a, c) else none
      else none

/-- A command as the spec writes it: its mnemonic, then the operands it uses in decimal, separated by commas
(30_encoding.md R115); a token as `L(v)` or `M(o, l)` with the true length (R116). -/
def instrText : Instr → String
  | .nop => "NOP"
  | .reset => "RESET"
  | .clrerr => "CLRERR"
  | .wrcfg idx val => "WRCFG " ++ toString idx ++ ", " ++ toString val
  | .rdreg idx => "RDREG " ++ toString idx
  | .keygen e => "KEYGEN " ++ toString e
  | .keyset p q e => "KEYSET " ++ toString p ++ ", " ++ toString q ++ ", " ++ toString e
  | .keypub n e => "KEYPUB " ++ toString n ++ ", " ++ toString e
  | .enc m => "ENC " ++ toString m
  | .decd c => "DECD " ++ toString c
  | .decc c => "DECC " ++ toString c
  | .encs => "ENCS"
  | .decs => "DECS"
  | .comp => "COMP"
  | .decomp count => "DECOMP " ++ toString count
  | .putl sym => "PUTL " ++ toString sym
  | .putm off len => "PUTM " ++ toString off ++ ", " ++ toString len
  | .flush => "FLUSH"
  | .protect => "PROTECT"
  | .recover count => "RECOVER " ++ toString count
  | .literal sym => "L(" ++ toString sym ++ ")"
  | .matchTok off len2 => "M(" ++ toString off ++ ", " ++ toString (len2 + 2) ++ ")"

end Sys2Proof.Machine
end

