-- ==== Sys2Proof/Safety.lean ====
section
/-! DEFINITION. What counts as a good state of the engine, and the vocabulary the statements use: segments on a port, a
bit sequence as bytes, the meaning of a key file, the tokens the encoder must emit (43_compressor.md R221) and the
symbols a token sequence stands for (45_decoder.md R263 to R267), each written from the spec without the machine's
working records. -/

namespace Sys2Proof.Machine

open Sys2Proof

/-! ### Streams -/

/-- A segment on a port: its elements and one `EOS` (20_memory.md R66). -/
def segment {α : Type} (l : List α) : List (Item α) := l.map .sym ++ [.eos]

/-- The value of bits `8 j` to `8 j + 7` of a bit sequence, the first bit most significant, bits beyond the end 0
(20_memory.md R72, R74). -/
def byteAt (bits : List Bool) (j : Nat) : Byte :=
  BitVec.ofNat 8 ((List.range 8).foldl (fun v k => 2 * v + (bits.getD (8 * j + k) false).toNat) 0)

/-- A bit sequence as bytes, MSB first, the last byte zero-padded (20_memory.md R72, R74; 30_encoding.md R96). -/
def packBits (bits : List Bool) : List Byte := (List.range ((bits.length + 7) / 8)).map (byteAt bits)

/-- The whole bytes of a bit sequence: what the packer has pushed of it (44_bitpacker.md R240). -/
def wholeBytes (bits : List Bool) : List Byte := (List.range (bits.length / 8)).map (byteAt bits)

/-- The bits of one token (30_encoding.md R92, R93); a command has none, so `KW` plays no part. -/
def tokenBits (tw : TokenWidths) (i : Instr) : List Bool :=
  match encode 0 tw i with
  | .token bits => bits
  | .command _ => []

/-- The bits of a token sequence, with no padding between tokens (30_encoding.md R90, R96). -/
def tokensBits (tw : TokenWidths) (ts : List Instr) : List Bool := ts.flatMap (tokenBits tw)

/-- The bits an accumulator holds, in stream order: the top `NBITS` of `ACC` (44_bitpacker.md R240). -/
def heldBits (acc : Byte) (nbits : Fin 8) : List Bool := (byteBits acc).take nbits.val

/-- The bytes of the current segment of a byte port, as far as the host has supplied it. -/
def segmentBytes : List (Item Byte) → List Byte
  | [] => []
  | .eos :: _ => []
  | .sym b :: rest => b :: segmentBytes rest

/-- The bits the unpacker has still to read: those left in `IBUF`, then those of the rest of the segment
(45_decoder.md R261). -/
def State.pendingBits (s : State) : List Bool :=
  fieldBits s.ibuf.toNat s.ibits.val ++ (segmentBytes s.bin).flatMap byteBits

/-- Command words with opcode `op` decode to `f` of their operands, for every `KW` and every operand of that width
(30_encoding.md R110, R111). -/
def DecodesTo (op : Byte) (f : Nat → Nat → Nat → Instr) : Prop :=
  ∀ kw a b c : Nat, a < 2 ^ kw → b < 2 ^ kw → c < 2 ^ kw → decodeCommand kw (.make kw op a b c) = .ok (f a b c)

/-! ### The packer's view of a token list (44_bitpacker.md R245, R246) -/

/-- The number of bytes of the session so far, as a PUTL or PUTM sees it: 0 where no session is open. -/
def State.sessionBytes (s : State) : Nat := if s.status.pkopen = true then s.bytecnt else 0

/-- The state after the packer has taken the bits of a token, from the bits it held (20_memory.md R72): every whole byte
goes to `BOUT`, the rest stays in `ACC`, zero-padded. -/
def State.afterBits (s : State) (bits : List Bool) : State :=
  let all := heldBits s.acc s.nbits ++ bits
  { s with
    acc := byteAt all (all.length / 8)
    nbits := Fin.ofNat 8 all.length
    bytecnt := (s.sessionBytes + all.length / 8)
    bout := s.bout ++ (wholeBytes all).map .sym }

/-- The command that puts a token by hand (44_bitpacker.md R245, R246; PUTM takes the true length). -/
def tokenCommand : Instr → Instr
  | .literal sym => .putl sym
  | .matchTok off len2 => .putm off (len2 + 2)
  | i => i

/-- A list of commands executed in order, whatever their result (10_state.md R28). -/
def execAll : List Instr → State → Outcome
  | [], s => .next s
  | i :: is, s =>
    match exec i s with
    | .next t => execAll is t
    | .fault f => .fault f
    | .refused r => .refused r

/-! ### The key file (10_state.md R22, R23) -/

/-- The prime pair a key command accepts (40_keygen.md R131). -/
def AcceptedPair (c : CfgRegs) (p q e : Nat) : Prop :=
  (c.pmin ≤ p ∧ p ≤ c.pmax) ∧ (c.pmin ≤ q ∧ q ≤ c.pmax) ∧
  Nat.Prime p ∧ Nat.Prime q ∧ p ≠ q ∧ Nat.gcd e ((p - 1) * (q - 1)) = 1

/-- The test of 40_keygen.md R131 that is the first to fail for a pair: 1 range, 2 prime, 3 distinct, 4 coprime. -/
def FailsTest (c : CfgRegs) (p q e : Nat) : Nat → Prop
  | 1 => ¬ ((c.pmin ≤ p ∧ p ≤ c.pmax) ∧ (c.pmin ≤ q ∧ q ≤ c.pmax))
  | 2 => ((c.pmin ≤ p ∧ p ≤ c.pmax) ∧ (c.pmin ≤ q ∧ q ≤ c.pmax)) ∧
      ¬ (Nat.Prime p ∧ Nat.Prime q)
  | 3 => (c.pmin ≤ p ∧ p ≤ c.pmax) ∧ Nat.Prime p ∧ p = q
  | 4 => ((c.pmin ≤ p ∧ p ≤ c.pmax) ∧ (c.pmin ≤ q ∧ q ≤ c.pmax)) ∧
      (Nat.Prime p ∧ Nat.Prime q) ∧ p ≠ q ∧ Nat.gcd e (p * q - p - q + 1) ≠ 1
  | _ => False

/-- The candidate a draw stands for (40_keygen.md R136, R137). -/
def drawn (c : CfgRegs) (v : Nat) : Nat := c.pmin + v % (c.pmax - c.pmin + 1)

/-- Every attempt over a list of draws, two draws each, is rejected. -/
def AllRejected (c : CfgRegs) (e : Nat) : List Nat → Prop
  | v :: w :: rest => ¬ AcceptedPair c (drawn c v) (drawn c w) e ∧ AllRejected c e rest
  | [_] => True
  | [] => True

/-- The keypair invariant (10_state.md R22). -/
def KeyFile.Keypair (k : KeyFile) : Prop :=
  Nat.Prime k.kp ∧ Nat.Prime k.kq ∧ k.kp ≠ k.kq ∧ 3 ≤ k.kp ∧ 3 ≤ k.kq ∧
  k.kn = k.kp * k.kq ∧
  k.kphi = (k.kp - 1) * (k.kq - 1) ∧
  Nat.gcd k.ke k.kphi = 1 ∧
  1 ≤ k.kd ∧ k.kd < k.kphi ∧ k.ke * k.kd % k.kphi = 1 ∧
  k.kdp = k.kd % (k.kp - 1) ∧
  k.kdq = k.kd % (k.kq - 1) ∧
  1 ≤ k.kqinv ∧ k.kqinv < k.kp ∧ k.kq * k.kqinv % k.kp = 1

/-- `m^e mod n` under the public half of a key file (41_cipher.md R170). -/
def KeyFile.power (k : KeyFile) (m : Nat) : Nat := m ^ k.ke % k.kn

/-- `crt(c)` as 42_crt.md R195 writes it: `m2 + h * KQ` with `m1 = c^KDP mod KP`, `m2 = c^KDQ mod KQ`,
`t = (m1 - m2) mod KP`, a remainder of an integer, and `h = (KQINV * t) mod KP`. -/
def KeyFile.reconstruct (k : KeyFile) (c : Nat) : Nat :=
  let m1 := c ^ k.kdp % k.kp
  let m2 := c ^ k.kdq % k.kq
  let t := (((m1 : Int) - (m2 : Int)) % (k.kp : Int)).toNat
  m2 + k.kqinv * t % k.kp * k.kq

/-- What the valid flags say of the key file: `PRVV` comes with `PUBV` and the keypair invariant (10_state.md R22); a
public key alone has a modulus of at least 2 and zeros in the private half (R23); no key leaves the file 0
(70_reset_and_hazards.md R360). -/
def State.KeyInv (s : State) : Prop :=
  (s.status.prvv = true → s.status.pubv = true ∧ s.keys.Keypair) ∧
  (s.status.pubv = true ∧ s.status.prvv = false →
    2 ≤ s.keys.kn ∧ s.keys = publicKey s.keys.kn s.keys.ke) ∧
  (s.status.pubv = false → s.keys = publicKey 0 0)

/-- What holds of the registers between two commands: `phase` is `Idle` (10_state.md R52, 46_control_pipeline.md
R301); the bits of `ACC` below the `NBITS` held are 0 (10_state.md R50) and with no session open the packer is empty
(44_bitpacker.md R249); `ERRS` bit 0 is never set (10_state.md R41) and codes 8 to 255 are never produced
(60_exceptions.md R321); the counters stay within their capacities (20_memory.md R68). -/
def State.RestInv (s : State) : Prop :=
  s.phase = .idle ∧ s.running = .nothing ∧
  s.acc.toNat % 2 ^ (8 - s.nbits.val) = 0 ∧
  (s.status.pkopen = false → s.acc = 0 ∧ s.nbits = 0) ∧
  s.status.errs.getLsbD 0 = false ∧ s.status.lasterr.toNat ≤ 7 ∧
  s.symcnt ≤ s.params.ctCap ∧ 8 * s.bytecnt + s.nbits.val ≤ 8 * s.params.outCap

/-- Every value of width `KW` is below `2^KW` (00_scope.md R12; 10_state.md R20, R24, R45; 20_memory.md R65): what the
registers read, the count and the budget, the cells of the memories, and the values on the ports. -/
def State.Fits (s : State) : Prop :=
  let bound := 2 ^ s.params.kw
  (∀ i v, s.readReg i = some v → v < bound) ∧ s.count < bound ∧ s.budget < bound ∧
  (∀ m ∈ [s.win, s.dwin, s.ctbuf], ∀ i v, m.read i = some v → v < bound) ∧
  (∀ w ∈ s.cmd, w < 2 ^ cmdBits s.params.kw) ∧ (∀ r ∈ s.res, r.value < bound) ∧
  (∀ v, .sym v ∈ s.sin ∨ .sym v ∈ s.sout → v < bound) ∧ (∀ v ∈ s.rng, v < bound) ∧
  (∀ r ∈ s.kout, r.fst < bound ∧ r.snd < bound)

/-- The two counters can hold their capacities, which 00_scope.md R9 does not ask for (log 19). -/
abbrev CountersFit (P : Params) : Prop := P.ctCap < 2 ^ P.kw ∧ P.outCap < 2 ^ P.kw

/-- The three memories are in canonical form. -/
def State.MemInv (s : State) : Prop := s.win.wf ∧ s.dwin.wf ∧ s.ctbuf.wf

/-- No cell beyond the capacity of its memory holds a value (10_state.md R45; 20_memory.md R62: a cell index outside
the used part is never generated). -/
def State.MemBound (s : State) : Prop :=
  (∀ i, 2 * 2 ^ s.params.eimax ≤ i → s.win.read i = none) ∧
  (∀ i, 2 ^ s.params.eimax ≤ i → s.dwin.read i = none) ∧
  (∀ i, s.params.ctCap ≤ i → s.ctbuf.read i = none)

/-! ### What the host can see (10_state.md R46, R52) -/

/-- The state without the memories and without the hidden registers that are dead between commands (10_state.md R46,
R51, R52). -/
def State.visible (s : State) : State :=
  { s with
    win := [], dwin := [], ctbuf := [], ibuf := 0, ibits := 0, enc := State.reset.enc, dr := 0, count := 0,
    tok := none, budget := 0 }

/-- An outcome with its next state seen through a function. -/
def outcomeMap (f : State → State) : Outcome → Outcome
  | .next t => .next (f t)
  | .fault x => .fault x
  | .refused x => .refused x

/-! ### The encoder's loop invariant (43_compressor.md R222) -/

/-- The invariants of the main loop (43_compressor.md R222), phase by phase. At `Matching` and `Drained`, the top of
the loop, they are (a) to (e) of the rule; at `Emitting` the search's result is bounded; at `Shifting` the cursor has
reached `2N - F`. -/
def Encoder.LoopInv (c : CfgRegs) (e : Encoder) : Prop :=
  e.regs.r = e.regs.s + c.h ∧ e.regs.r ≤ e.regs.bufferend ∧ e.regs.bufferend ≤ 2 * c.n ∧
  (e.regs.eos = false → e.regs.bufferend = 2 * c.n) ∧
  (∀ i, e.regs.s ≤ i → i < e.regs.bufferend → (e.win.read i).isSome = true) ∧
  (e.phase = .matching ∧ e.regs.r < 2 * c.n - c.f ∧ e.regs.r < e.regs.bufferend ∨
    e.phase = .emitting ∧ e.regs.r < 2 * c.n - c.f ∧ e.regs.r < e.regs.bufferend ∧
      1 ≤ e.regs.y ∧ e.regs.y ≤ e.regs.f1 ∧ e.regs.f1 = min c.maxMatch (e.regs.bufferend - e.regs.r) ∨
    e.phase = .shifting ∧ 2 * c.n - c.f ≤ e.regs.r ∧ e.regs.r ≤ 2 * c.n - 2 ∨
    e.phase = .drained ∧ e.regs.r < 2 * c.n - c.f ∧ e.regs.r = e.regs.bufferend ∧ e.regs.eos = true)

/-! ### The tokens of a sequence of symbols (43_compressor.md R221)

The input `S[0..L-1]` with `H` blanks before it is one list `buf`: `S[t]` is `buf[H + t]`, and the offset
`(H + u) mod N` of a match that starts at stream position `u` is the index in `buf` modulo `N`. -/

/-- How many leading positions of the runs at `i` and at `t` of `buf` agree, from `j` on, over at most `fuel`
positions. -/
def runFrom (buf : List Nat) (i t : Nat) : Nat → Nat → Nat
  | 0, j => j
  | fuel + 1, j => if buf[i + j]? = buf[t + j]? then runFrom buf i t fuel (j + 1) else j

/-- The best match for the run at `t` among the `k` candidates from `lo` up, most recent first (43_compressor.md
R221). -/
def bestFrom (buf : List Nat) (t f1 lo : Nat) : Nat → Nat × Nat → Nat × Nat
  | 0, best => best
  | k + 1, best =>
    if buf[lo + k]? = buf[t]? ∧ best.2 < runFrom buf (lo + k) t (f1 - 1) 1 then
      bestFrom buf t f1 lo k (lo + k, runFrom buf (lo + k) t (f1 - 1) 1)
    else bestFrom buf t f1 lo k best

/-- The tokens from index `t` of `buf` on, at most `fuel` of them (43_compressor.md R221). -/
def tokensFrom (c : CfgRegs) (buf : List Nat) : Nat → Nat → List Instr
  | 0, _ => []
  | fuel + 1, t =>
    match buf[t]? with
    | none => []
    | some v =>
      let best := bestFrom buf t (min c.maxMatch (buf.length - t)) (t - c.h) c.h (0, 1)
      if best.2 ≤ c.p then .literal v :: tokensFrom c buf fuel (t + 1)
      else .matchTok (best.1 % c.n) (best.2 - 2) :: tokensFrom c buf fuel (t + best.2)

/-- The tokens COMP emits for a sequence of symbols (43_compressor.md R221). -/
def streamTokens (c : CfgRegs) (syms : List Nat) : List Instr :=
  tokensFrom c (List.replicate c.h c.blank ++ syms) syms.length c.h

/-- How many symbols a token stands for (45_decoder.md R264, R266). -/
def tokenSpan : Instr → Nat
  | .matchTok _ len2 => len2 + 2
  | _ => 1

/-- The tokens of a sequence that start before the stream position `limit`, the first of them starting at `pos`. -/
def tokensBefore (limit : Nat) : Nat → List Instr → List Instr
  | _, [] => []
  | pos, i :: ts => if pos < limit then i :: tokensBefore limit (pos + tokenSpan i) ts else []

/-- The tokens the encoder has put when it meets a symbol it cannot load, after the symbols `l` (43_compressor.md R212,
R213, R218): the first load takes `N + F` symbols, and the `j`-th shift, which loads the `N` after the first
`F + j * N`, comes when the cursor has reached stream position `j * N`. -/
def tokensPutBefore (c : CfgRegs) (l : List Nat) : List Instr :=
  tokensBefore ((l.length - c.f) / c.n * c.n) 0 (streamTokens c l)

/-- The number of symbols of a sequence the encoder has loaded when it emits the token after those of `ts`
(43_compressor.md R212, R218). -/
def loadedAt (c : CfgRegs) (total : Nat) (ts : List Instr) : Nat :=
  min total (c.n + c.f + (ts.map tokenSpan).sum / c.n * c.n)

/-- The bytes COMP emits for a sequence of symbols: the tokens' bits, packed (43_compressor.md R221, 30_encoding.md
R96). -/
def streamBytes (c : CfgRegs) (syms : List Nat) : List Byte :=
  packBits (tokensBits c.widths (streamTokens c syms))

/-! ### The symbols of a sequence of tokens (45_decoder.md R263 to R268)

`buf` is the blank history followed by the symbols produced so far. The decoder's cursor is `buf.length mod N`, and cell
`j` of `DWIN` holds the latest entry of `buf` whose index is `j` modulo `N`. -/

/-- The entry of `buf` that cell `cell` of `DWIN` holds, if one has been written there (45_decoder.md R263, R268): the
latest of the last `N` entries with that index modulo `N`. -/
def cellOf (n : Nat) (buf : List Nat) (cell : Nat) : Option Nat :=
  ((List.range (min n buf.length)).find? (fun d => (buf.length - 1 - d) % n = cell)).bind
    (fun d => buf[buf.length - 1 - d]?)

/-- The copy of a Match, `todo` symbols from its `k`-th on, one at a time (45_decoder.md R266, R267). -/
def copyInto (n off : Nat) : Nat → Nat → List Nat → Option (List Nat)
  | 0, _, buf => some buf
  | todo + 1, k, buf =>
    match cellOf n buf ((off + k) % n) with
    | none => none
    | some v => copyInto n off todo (k + 1) (buf ++ [v])

/-- `buf` after a sequence of tokens; nothing where a Match reads a cell that holds no value (45_decoder.md R268). -/
def expandInto (n : Nat) : List Instr → List Nat → Option (List Nat)
  | [], buf => some buf
  | .literal v :: ts, buf => expandInto n ts (buf ++ [v])
  | .matchTok off len2 :: ts, buf =>
    match copyInto n off (len2 + 2) 0 buf with
    | none => none
    | some buf1 => expandInto n ts buf1
  | _ :: _, _ => none

/-- The symbols a token sequence stands for under a configuration, from a blank window. -/
def expandTokens (c : CfgRegs) (ts : List Instr) : Option (List Nat) :=
  (expandInto c.n ts (List.replicate c.h c.blank)).map (List.drop c.h)

end Sys2Proof.Machine
end

