-- ==== Sys2Proof/Certificates/Slice0/Obligations.lean ====
section
/-! DEFINITION. The statements for the provers. Each is a proposition about the model; its docstring names the rules of
spec/ it formalises and says which clauses rest on a choice of the model instead. Commands are stated in full: which
command word decodes to the command, every error with the state it leaves, and the next state of a success; a state
written as an update of `s` also says that everything else is as in `s`. -/

open Sys2Proof Sys2Proof.Machine

/-! ### Reset, completion, status -/

/-- 10_state.md R55, for every legal set of parameters (00_scope.md R9): the value of every register and flag the rule
names, and the two predicates. `SYMW` is stated where `KW` fits its 8 bits (log 19). What reset leaves in the memories
and in the hidden registers the rule does not name is no part of this statement. -/
def Obligations.ResetStateHoldsTheStatedValues : Prop :=
  State.reset = State.resetWith { kw := 32, eimax := 12, ctCap := 4096, outCap := 32768 } ∧
  ∀ P : Params, P.Legal →
    let s := State.resetWith P
    s.params = P ∧ s.keys = publicKey 0 0 ∧ s.resv = 0 ∧
    s.cfg.ei.toNat = 6 ∧ s.cfg.ej.toNat = 5 ∧ s.cfg.f = 33 ∧ s.cfg.p = 1 ∧ (P.kw ≤ 255 → s.cfg.symw.toNat = P.kw) ∧
    s.cfg.blank = 32 ∧ s.cfg.pmin = 3 ∧ s.cfg.pmax = 2 ^ (P.kw / 2) - 1 ∧
    s.cfg.retry = min 65535 (2 ^ P.kw - 1) ∧
    s.status = { lasterr := 0, pubv := false, prvv := false, pkopen := false, errs := 0 } ∧
    s.status.toWord P.kw = 0 ∧ s.symcnt = 0 ∧ s.bytecnt = 0 ∧ s.acc = 0 ∧ s.nbits = 0 ∧ s.phase = .idle ∧
    s.cfg.codecOk P = true ∧ s.cfg.keygenOk P = true

/-- 10_state.md R38: the two predicates the commands test. -/
def Obligations.ConfigurationPredicates : Prop :=
  ∀ (P : Params) (c : CfgRegs),
    (c.codecOk P = true ↔
      (1 ≤ c.ei.toNat ∧ c.ei.toNat ≤ P.eimax) ∧ (1 ≤ c.ej.toNat ∧ c.ej.toNat ≤ P.eimax) ∧
      (3 ≤ c.f ∧ c.f ≤ 2 ^ c.ei.toNat - 1) ∧ c.f ≤ 2 ^ c.ej.toNat + 2 ∧
      (1 ≤ c.p ∧ c.p ≤ c.f - 2) ∧ (1 ≤ c.symw.toNat ∧ c.symw.toNat ≤ P.kw) ∧
      c.blank < 2 ^ c.symw.toNat) ∧
    (c.keygenOk P = true ↔
      3 ≤ c.pmin ∧ c.pmin ≤ c.pmax ∧ c.pmax ≤ 2 ^ (P.kw / 2) - 1)

/-- 46_control_pipeline.md R280 (`complete`) and 60_exceptions.md R330 and R321 (`raise` and the codes): what completion
and the raising of an error write, and that they write nothing else. -/
def Obligations.CompletionAndRaise : Prop :=
  (∀ (code : Byte) (v : Nat) (s : State),
    let t := complete code v s
    t.resv = v ∧ t.status.lasterr = code ∧
    (∀ k, k < 8 → t.status.errs.getLsbD k = (s.status.errs.getLsbD k || decide (code ≠ 0 ∧ code.toNat = k))) ∧
    t.res = s.res ++ [{ code := code, value := v }] ∧ t.phase = .idle ∧ t.running = .nothing ∧
    { t with resv := s.resv, status := s.status, res := s.res, phase := s.phase, running := s.running } = s ∧
    { t.status with lasterr := s.status.lasterr, errs := s.status.errs } = s.status) ∧
  (∀ (v : Nat) (s : State), done v s = complete 0 v s) ∧
  (∀ (e : Exc) (s : State), raise e s = complete e.kind.code e.info s) ∧
  [ErrKind.keyGenerationFailed, .invalidSymbol, .bufferOverrun, .malformedBitstream, .illegalCommand, .badConfig,
    .noKey].map (fun k => k.code.toNat) = [1, 2, 3, 4, 5, 6, 7]

/-- 10_state.md R41: the places of the fields in `STATUS`, the bits not listed reading 0, and that `RDREG 32` reads this
word, whole where `KW` is at least 24. -/
def Obligations.StatusWordLayout : Prop :=
  (∀ t : Status,
    t.toBits.extractLsb' 0 8 = t.lasterr ∧ t.toBits.getLsbD 8 = t.pubv ∧ t.toBits.getLsbD 9 = t.prvv ∧
    t.toBits.getLsbD 10 = t.pkopen ∧ t.toBits.extractLsb' 16 8 = t.errs ∧
    (∀ i, (11 ≤ i ∧ i ≤ 15) ∨ 24 ≤ i → t.toBits.getLsbD i = false)) ∧
  (∀ s : State, ∃ t, exec (.rdreg 32) s = .next t ∧ (24 ≤ s.params.kw → t.resv = s.status.toBits.toNat))

/-! ### System commands -/

/-- 46_control_pipeline.md R282. -/
def Obligations.NopCompletes : Prop :=
  DecodesTo 0x00 (fun _ _ _ => .nop) ∧
  ∀ s : State, exec .nop s =
    .next { s with
      resv := 0, status := { s.status with lasterr := 0 }, res := s.res ++ [{ code := 0, value := 0 }],
      phase := .idle, running := .nothing }

/-- 46_control_pipeline.md R283. `State.visible` leaves out the memories and the hidden registers that are dead between
commands: what RESET leaves there is the model's choice (logs 5 and 6) and no part of this statement. -/
def Obligations.ResetCommandRestoresResetState : Prop :=
  DecodesTo 0x01 (fun _ _ _ => .reset) ∧
  ∀ s : State, ∃ t, exec .reset s = .next t ∧
    t.visible =
      ({ s with
        keys := publicKey 0 0, resv := 0, cfg := CfgRegs.atReset s.params
        status := { lasterr := 0, pubv := false, prvv := false, pkopen := false, errs := 0 }
        symcnt := 0, bytecnt := 0, acc := 0, nbits := 0, phase := .idle, running := .nothing
        res := s.res ++ [{ code := 0, value := 0 }] } : State).visible

/-- 46_control_pipeline.md R286. -/
def Obligations.ClrerrClearsTheStickyMask : Prop :=
  DecodesTo 0x02 (fun _ _ _ => .clrerr) ∧
  ∀ s : State, exec .clrerr s =
    .next { s with
      resv := 0, status := { s.status with lasterr := 0, errs := 0 }, res := s.res ++ [{ code := 0, value := 0 }],
      phase := .idle, running := .nothing }

/-- 46_control_pipeline.md R284: the two refusals, and the write: the register reads the value, every other register of
the index space reads as before, nothing else changes. -/
def Obligations.WrcfgWritesOneConfigurationRegister : Prop :=
  DecodesTo 0x03 (fun a b _ => .wrcfg a b) ∧
  ∀ (idx val : Nat) (s : State),
    (idx < 16 ∨ 24 < idx →
      exec (.wrcfg idx val) s = .next (raise { kind := .illegalCommand, info := 5 } s)) ∧
    (idx ∈ [16, 17, 20] ∧ 256 ≤ val →
      exec (.wrcfg idx val) s = .next (raise { kind := .illegalCommand, info := 6 } s)) ∧
    ((16 ≤ idx ∧ idx ≤ 24) ∧ (idx ∈ [16, 17, 20] → val < 256) →
      ∃ cfg, exec (.wrcfg idx val) s = .next (done val { s with cfg := cfg }) ∧
        ({ s with cfg := cfg } : State).readReg idx = some val ∧
        ∀ j, j ≠ idx → ({ s with cfg := cfg } : State).readReg j = s.readReg j)

/-- 46_control_pipeline.md R285 with 10_state.md R20 and R42: what each defined index reads, that a success leaves
`STATUS` alone, and the refusal of every other index. What `RDREG 32` reads of
`STATUS` where `KW` is below 24 is left open. -/
def Obligations.RdregReadsEveryDefinedIndex : Prop :=
  DecodesTo 0x04 (fun a _ _ => .rdreg a) ∧
  ∀ s : State,
    (∀ p ∈ ([(0, s.keys.kn), (1, s.keys.ke), (2, s.keys.kd), (3, s.keys.kp), (4, s.keys.kq), (5, s.keys.kphi),
        (6, s.keys.kdp), (7, s.keys.kdq), (8, s.keys.kqinv), (9, s.resv), (16, s.cfg.ei.toNat),
        (17, s.cfg.ej.toNat), (18, s.cfg.f), (19, s.cfg.p), (20, s.cfg.symw.toNat),
        (21, s.cfg.blank), (22, s.cfg.pmin), (23, s.cfg.pmax), (24, s.cfg.retry), (33, s.symcnt),
        (34, s.bytecnt)] : List (Nat × Nat)),
      exec (.rdreg p.1) s =
        .next { s with
          resv := p.2, res := s.res ++ [{ code := 0, value := p.2 }], phase := .idle, running := .nothing }) ∧
    (∃ v, (24 ≤ s.params.kw → v = s.status.toBits.toNat) ∧
      exec (.rdreg 32) s =
        .next { s with
          resv := v, res := s.res ++ [{ code := 0, value := v }], phase := .idle, running := .nothing }) ∧
    (∀ idx : Nat, idx ∉ [0, 1, 2, 3, 4, 5, 6, 7, 8, 9, 16, 17, 18, 19, 20, 21, 22, 23, 24, 32, 33, 34] →
      exec (.rdreg idx) s = .next (raise { kind := .illegalCommand, info := 5 } s))

/-! ### Key commands -/

/-- 40_keygen.md R130: trial division computes the predicate of the rule, which is primality. -/
def Obligations.IsPrimeIsPrimality : Prop :=
  ∀ x : Nat, (isPrime x = true ↔ 2 ≤ x ∧ ∀ t, 2 ≤ t → t * t ≤ x → ¬ t ∣ x) ∧ (isPrime x = true ↔ Nat.Prime x)

/-- 40_keygen.md R140, R131, R134 and 30_encoding.md R100: each of the four refusals with its number, and the key an
accepted pair gives: the file satisfies the keypair invariant of 10_state.md R22 and holds the pair and the exponent,
both flags are set, the three records are pushed. -/
def Obligations.KeysetCommitsAnAcceptedPair : Prop :=
  DecodesTo 0x11 (fun a b c => .keyset a b c) ∧
  ∀ (p q e : Nat) (s : State),
    (s.cfg.keygenOk s.params = false → exec (.keyset p q e) s = .next (raise { kind := .badConfig, info := 0 } s)) ∧
    (s.cfg.keygenOk s.params = true →
      (∀ t, FailsTest s.cfg p q e t →
        exec (.keyset p q e) s = .next (raise { kind := .keyGenerationFailed, info := t } s)) ∧
      (AcceptedPair s.cfg p q e →
        ∃ k : KeyFile, k.Keypair ∧ k.kp = p ∧ k.kq = q ∧ k.ke = e ∧
          exec (.keyset p q e) s =
            .next (done k.kn
              { s with
                keys := k, status := { s.status with pubv := true, prvv := true }
                kout := s.kout ++ [{ kind := .pub, fst := k.kn, snd := k.ke },
                  { kind := .prv, fst := k.kn, snd := k.kd }, { kind := .pq, fst := k.kp, snd := k.kq }] })))

/-- 40_keygen.md R142. -/
def Obligations.KeypubLoadsThePublicHalf : Prop :=
  DecodesTo 0x12 (fun a b _ => .keypub a b) ∧
  ∀ (n e : Nat) (s : State),
    (n < 2 → exec (.keypub n e) s = .next (raise { kind := .illegalCommand, info := 1 } s)) ∧
    (2 ≤ n →
      exec (.keypub n e) s =
        .next (done n
          { s with
            keys := { kn := n, ke := e, kd := 0, kp := 0, kq := 0, kphi := 0, kdp := 0, kdq := 0, kqinv := 0 }
            status := { s.status with pubv := true, prvv := false } }))

/-- 40_keygen.md R136: the first accepted pair of draws is committed, after at most `RETRY` rejected ones; the
`(RETRY + 1)`-th rejection is KeyGenerationFailed(0); two draws are taken for each attempt and no more.
`budget` is KEYGEN's own register, which nothing reads afterwards (10_state.md R52). -/
def Obligations.KeygenCommitsTheFirstAcceptedPair : Prop :=
  DecodesTo 0x10 (fun a _ _ => .keygen a) ∧
  ∀ (e : Nat) (s : State),
    (s.cfg.keygenOk s.params = false → exec (.keygen e) s = .next (raise { kind := .badConfig, info := 0 } s)) ∧
    (s.cfg.keygenOk s.params = true →
      (∀ (rej : List Nat) (v w : Nat) (rest : List Nat) (k : Nat),
        s.rng = rej ++ v :: w :: rest → rej.length = 2 * k → k ≤ s.cfg.retry →
        AllRejected s.cfg e rej → AcceptedPair s.cfg (drawn s.cfg v) (drawn s.cfg w) e →
        ∃ (key : KeyFile) (budget : Nat), key.Keypair ∧ key.kp = drawn s.cfg v ∧ key.kq = drawn s.cfg w ∧ key.ke = e ∧
          exec (.keygen e) s =
            .next (done key.kn
              { s with
                keys := key, status := { s.status with pubv := true, prvv := true }, rng := rest
                budget := budget
                kout := s.kout ++ [{ kind := .pub, fst := key.kn, snd := key.ke },
                  { kind := .prv, fst := key.kn, snd := key.kd }, { kind := .pq, fst := key.kp, snd := key.kq }] })) ∧
      (∀ rej rest : List Nat,
        s.rng = rej ++ rest → rej.length = 2 * (s.cfg.retry + 1) → AllRejected s.cfg e rej →
        ∃ budget : Nat, exec (.keygen e) s =
          .next (raise { kind := .keyGenerationFailed, info := 0 } { s with rng := rest, budget := budget })))

/-! ### Arithmetic -/

/-- 41_cipher.md R161 and R162. -/
def Obligations.ModexpIsThePower : Prop :=
  ∀ a b k m : Nat, 1 ≤ m →
    modmul a b m = a * b % m ∧ modexp b k m = b ^ k % m ∧ modexp b k m < m

/-- 41_cipher.md R165 and R166. -/
def Obligations.EgcdAndModinv : Prop :=
  (∀ a m : Nat, 1 ≤ m →
    (egcd a m).1 = Nat.gcd a m ∧ (a : Int) * (egcd a m).2 % (m : Int) = (Nat.gcd a m : Int) % (m : Int)) ∧
  (∀ a m : Nat, 2 ≤ m → Nat.gcd a m = 1 → 1 ≤ modinv a m ∧ modinv a m ≤ m - 1 ∧ a * modinv a m % m = 1 ∧
    ∀ x, 1 ≤ x → x ≤ m - 1 → a * x % m = 1 → x = modinv a m)

/-! ### Cipher commands -/

/-- 41_cipher.md R170. -/
def Obligations.EncIsThePublicPower : Prop :=
  DecodesTo 0x20 (fun a _ _ => .enc a) ∧
  ∀ (m : Nat) (s : State),
    (s.status.pubv = false → exec (.enc m) s = .next (raise { kind := .noKey, info := 0 } s)) ∧
    (s.status.pubv = true → s.keys.kn ≤ m →
      exec (.enc m) s = .next (raise { kind := .invalidSymbol, info := m } s)) ∧
    (s.status.pubv = true → m < s.keys.kn →
      exec (.enc m) s = .next (done (m ^ s.keys.ke % s.keys.kn) s))

/-- 41_cipher.md R172. -/
def Obligations.DecdIsThePrivatePower : Prop :=
  DecodesTo 0x21 (fun a _ _ => .decd a) ∧
  ∀ (c : Nat) (s : State),
    (s.status.prvv = false → exec (.decd c) s = .next (raise { kind := .noKey, info := 0 } s)) ∧
    (s.status.prvv = true → s.keys.kn ≤ c →
      exec (.decd c) s = .next (raise { kind := .invalidSymbol, info := c } s)) ∧
    (s.status.prvv = true → c < s.keys.kn →
      exec (.decd c) s = .next (done (c ^ s.keys.kd % s.keys.kn) s))

/-- 42_crt.md R195: the result is the recombination the rule writes (`KeyFile.reconstruct`). -/
def Obligations.DeccIsTheReconstruction : Prop :=
  DecodesTo 0x22 (fun a _ _ => .decc a) ∧
  ∀ (c : Nat) (s : State),
    (s.status.prvv = false → exec (.decc c) s = .next (raise { kind := .noKey, info := 0 } s)) ∧
    (s.status.prvv = true → s.keys.kn ≤ c →
      exec (.decc c) s = .next (raise { kind := .invalidSymbol, info := c } s)) ∧
    (s.status.prvv = true → c < s.keys.kn →
      exec (.decc c) s = .next (done (s.keys.reconstruct c) s))

/-- 42_crt.md R197 (and the range of R194): under the keypair invariant the recombination needs no reduction, is below
the modulus and is the direct path's value. -/
def Obligations.CrtAgreesWithTheDirectPath : Prop :=
  ∀ (k : KeyFile) (c : Nat), k.Keypair → c < k.kn →
    k.reconstruct c < k.kn ∧ k.reconstruct c = c ^ k.kd % k.kn ∧
    k.crt c = k.decryptDirect c

/-- 40_keygen.md R145: after a successful KEYGEN or KEYSET, both decrypts invert ENC on every symbol below the
modulus. -/
def Obligations.DecryptInvertsEncrypt : Prop :=
  ∀ (i : Instr) (s s1 : State),
    ((∃ e, i = .keygen e) ∨ ∃ p q e, i = .keyset p q e) → exec i s = .next s1 → s1.status.lasterr = 0 →
    ∀ m : Nat, m < s1.keys.kn →
      ∃ c : Nat, exec (.enc m) s1 = .next (done c s1) ∧
        exec (.decd c) (done c s1) = .next (done m (done c s1)) ∧
        exec (.decc c) (done c s1) = .next (done m (done c s1))

/-- 41_cipher.md R174 with 20_memory.md R67 and 60_exceptions.md R333: the rest of the input segment is consumed and the
output segment closed, whatever the result. -/
def Obligations.EncsEncryptsASegment : Prop :=
  DecodesTo 0x23 (fun _ _ _ => .encs) ∧
  ∀ (s : State) (l : List Nat) (rest : List (Item Nat)), s.sin = segment l ++ rest →
    (s.status.pubv = false →
      exec .encs s =
        .next (raise { kind := .noKey, info := 0 } { s with symcnt := 0, sin := rest, sout := s.sout ++ segment [] })) ∧
    (s.status.pubv = true → l.length ≤ s.params.ctCap → (∀ m ∈ l, m < s.keys.kn) →
      exec .encs s =
        .next (done l.length
          { s with
            symcnt := l.length, sin := rest, sout := s.sout ++ segment (l.map s.keys.power) })) ∧
    (∀ (l1 : List Nat) (m : Nat) (l2 : List Nat),
      s.status.pubv = true → l = l1 ++ m :: l2 → (∀ x ∈ l1, x < s.keys.kn) →
      (l1.length < s.params.ctCap → s.keys.kn ≤ m →
        exec .encs s =
          .next (raise { kind := .invalidSymbol, info := m }
            { s with
              symcnt := l1.length, sin := rest, sout := s.sout ++ segment (l1.map s.keys.power) })) ∧
      (l1.length = s.params.ctCap →
        exec .encs s =
          .next (raise { kind := .bufferOverrun, info := s.params.ctCap }
            { s with
              symcnt := s.params.ctCap, sin := rest
              sout := s.sout ++ segment (l1.map s.keys.power) })))

/-- 42_crt.md R198 with 20_memory.md R67 and 60_exceptions.md R333. -/
def Obligations.DecsDecryptsASegment : Prop :=
  DecodesTo 0x24 (fun _ _ _ => .decs) ∧
  ∀ (s : State) (l : List Nat) (rest : List (Item Nat)), s.sin = segment l ++ rest →
    (s.status.prvv = false →
      exec .decs s =
        .next (raise { kind := .noKey, info := 0 } { s with symcnt := 0, sin := rest, sout := s.sout ++ segment [] })) ∧
    (s.status.prvv = true → l.length ≤ s.params.ctCap → (∀ c ∈ l, c < s.keys.kn) →
      exec .decs s =
        .next (done l.length
          { s with
            symcnt := l.length, sin := rest, sout := s.sout ++ segment (l.map s.keys.reconstruct) })) ∧
    (∀ (l1 : List Nat) (c : Nat) (l2 : List Nat),
      s.status.prvv = true → l = l1 ++ c :: l2 → (∀ x ∈ l1, x < s.keys.kn) →
      (l1.length < s.params.ctCap → s.keys.kn ≤ c →
        exec .decs s =
          .next (raise { kind := .invalidSymbol, info := c }
            { s with
              symcnt := l1.length, sin := rest
              sout := s.sout ++ segment (l1.map s.keys.reconstruct) })) ∧
      (l1.length = s.params.ctCap →
        exec .decs s =
          .next (raise { kind := .bufferOverrun, info := s.params.ctCap }
            { s with
              symcnt := s.params.ctCap, sin := rest
              sout := s.sout ++ segment (l1.map s.keys.reconstruct) })))

/-! ### The packer -/

/-- 44_bitpacker.md R245 (with R240, R241, R243 and 20_memory.md R72, R73): the refusals, and the state after a
Literal's bits (`State.afterBits`: every whole byte to `BOUT`, the rest in `ACC`). The premise on `ACC` is the
invariant of 10_state.md R50. A Literal that does not fit leaves `BYTECNT` as the pseudocode has it by then, 0 where no
session is open (60_exceptions.md R320, R331): the reading of log 23, since R332 read alone would keep the old value. -/
def Obligations.PutlPutsALiteral : Prop :=
  DecodesTo 0x32 (fun a _ _ => .putl a) ∧
  ∀ (sym : Nat) (s : State), s.acc.toNat % 2 ^ (8 - s.nbits.val) = 0 →
    (s.cfg.codecOk s.params = false → exec (.putl sym) s = .next (raise { kind := .badConfig, info := 0 } s)) ∧
    (s.cfg.codecOk s.params = true → 2 ^ s.cfg.symw.toNat ≤ sym →
      exec (.putl sym) s = .next (raise { kind := .invalidSymbol, info := sym } s)) ∧
    (s.cfg.codecOk s.params = true → sym < 2 ^ s.cfg.symw.toNat →
      (8 * s.params.outCap < 8 * s.sessionBytes + s.nbits.val + (1 + s.cfg.symw.toNat) →
        exec (.putl sym) s =
          .next (raise { kind := .bufferOverrun, info := s.sessionBytes } { s with bytecnt := s.sessionBytes })) ∧
      (8 * s.sessionBytes + s.nbits.val + (1 + s.cfg.symw.toNat) ≤ 8 * s.params.outCap →
        exec (.putl sym) s =
          .next (done 0
            { s.afterBits (true :: fieldBits sym s.cfg.symw.toNat) with
              status := { s.status with pkopen := true } })))

/-- 44_bitpacker.md R246 (with R240, R242, R243 and 20_memory.md R72, R73): the offset is tested before the length; the
length stored is the true length less 2. A Match that does not fit leaves `BYTECNT` as the pseudocode has it by then
(60_exceptions.md R320, R331; log 23, as for PUTL). -/
def Obligations.PutmPutsAMatch : Prop :=
  DecodesTo 0x33 (fun a b _ => .putm a b) ∧
  ∀ (off len : Nat) (s : State), s.acc.toNat % 2 ^ (8 - s.nbits.val) = 0 →
    (s.cfg.codecOk s.params = false → exec (.putm off len) s = .next (raise { kind := .badConfig, info := 0 } s)) ∧
    (s.cfg.codecOk s.params = true →
      (2 ^ s.cfg.ei.toNat ≤ off →
        exec (.putm off len) s = .next (raise { kind := .illegalCommand, info := 3 } s)) ∧
      (off < 2 ^ s.cfg.ei.toNat → (len < s.cfg.p + 1 ∨ s.cfg.f - 1 < len) →
        exec (.putm off len) s = .next (raise { kind := .illegalCommand, info := 4 } s)) ∧
      (off < 2 ^ s.cfg.ei.toNat → s.cfg.p + 1 ≤ len → len ≤ s.cfg.f - 1 →
        (8 * s.params.outCap < 8 * s.sessionBytes + s.nbits.val + (1 + s.cfg.ei.toNat + s.cfg.ej.toNat) →
          exec (.putm off len) s =
            .next (raise { kind := .bufferOverrun, info := s.sessionBytes } { s with bytecnt := s.sessionBytes })) ∧
        (8 * s.sessionBytes + s.nbits.val + (1 + s.cfg.ei.toNat + s.cfg.ej.toNat) ≤ 8 * s.params.outCap →
          exec (.putm off len) s =
            .next (done 0
              { s.afterBits
                  (false :: (fieldBits off s.cfg.ei.toNat ++ fieldBits (len - 2) s.cfg.ej.toNat)) with
                status := { s.status with pkopen := true } }))))

/-- 44_bitpacker.md R248 and R244. -/
def Obligations.FlushClosesTheSession : Prop :=
  DecodesTo 0x34 (fun _ _ _ => .flush) ∧
  ∀ s : State,
    let n := s.sessionBytes + if s.nbits = 0 then 0 else 1
    exec .flush s =
      .next (done n
        { s with
          acc := 0, nbits := 0, bytecnt := n, status := { s.status with pkopen := false }
          bout := s.bout ++ (if s.nbits = 0 then [] else [.sym s.acc]) ++ [.eos] })

/-! ### The encoder -/

/-- 43_compressor.md R215 and R216: with `(x, y)` the result, `y = 1` (and `x = 0`) only when no candidate agrees on
two positions; else `x` is a candidate, the runs at `x` and `r` agree on exactly `y` positions up to the bound, no
candidate agrees on more, and every candidate nearer to `r` agrees on fewer. It speaks of every window: two cells that
hold no value compare equal, which is the model's reading (log 12); in a run only written cells are compared (R222
(e)). -/
def Obligations.SearchFindsTheNearestLongestMatch : Prop :=
  ∀ (win : Mem) (sym : Nat) (r s f1 : Nat), win.read r = some sym → s ≤ r → 1 ≤ f1 →
    let x := (search win sym r s f1).1
    let y := (search win sym r s f1).2
    (y = 1 ∧ x = 0 ∧
      (2 ≤ f1 → ∀ i, s ≤ i → i < r → win.read i = some sym → win.read (i + 1) ≠ win.read (r + 1))) ∨
    (2 ≤ y ∧ y ≤ f1 ∧ s ≤ x ∧ x < r ∧ (∀ j, j < y → win.read (x + j) = win.read (r + j)) ∧
      (y = f1 ∨ win.read (x + y) ≠ win.read (r + y)) ∧
      (∀ i z, s ≤ i → i < r → z ≤ f1 → (∀ j, j < z → win.read (i + j) = win.read (r + j)) →
        z ≤ y ∧ (x < i → z < y)))

/-- 43_compressor.md R222 (and the bounds of R224), phase by phase (`Encoder.LoopInv`): `Filling` establishes the
invariant, every phase keeps it, and under it no phase reads an unwritten cell: a search gives a next phase, an emission
gives one or raises. -/
def Obligations.EncoderKeepsTheLoopInvariant : Prop :=
  ∀ (P : Params) (c : CfgRegs) (e : Encoder), c.codecOk P = true →
    (∀ e1, e.phase = .filling → e.phaseStep P c = (e1, none) → e1.LoopInv c) ∧
    (e.LoopInv c →
      (∀ e1, e.phaseStep P c = (e1, none) → e1.LoopInv c) ∧
      (e.phase = .matching → ∃ e1, e.phaseStep P c = (e1, none)) ∧
      (e.phase = .emitting → ∀ f, (e.phaseStep P c).2 ≠ some (.fault f)))

/-- 43_compressor.md R210 and R221: COMP consumes the segment and pushes exactly the bytes of the tokens of the rule's
procedure (`streamTokens`), which mentions no buffer. `enc` and `win` are the encoder's own registers and memory,
which nothing reads afterwards (10_state.md R46, R52); that `WIN` holds no value beyond its `2N` cells is the model's
allocation of a memory per command (log 6). -/
def Obligations.CompEmitsTheStreamTokens : Prop :=
  DecodesTo 0x30 (fun _ _ _ => .comp) ∧
  ∀ (s : State) (l : List Nat) (rest : List (Item Nat)), s.sin = segment l ++ rest →
    s.status.pkopen = false → s.cfg.codecOk s.params = true → l.length ≤ s.params.ctCap →
    (∀ v ∈ l, v < 2 ^ s.cfg.symw.toNat) →
    (tokensBits s.cfg.widths (streamTokens s.cfg l)).length ≤ 8 * s.params.outCap →
    ∃ (enc : EncRegs) (win : Mem),
      (∀ i, 2 * s.cfg.n ≤ i → win.read i = none) ∧
      exec .comp s =
        .next (done l.length
          { s with
            sin := rest, bout := s.bout ++ segment (streamBytes s.cfg l), symcnt := l.length
            bytecnt := (streamBytes s.cfg l).length, acc := 0, nbits := 0, enc := enc, win := win })

/-- The errors of COMP (43_compressor.md R210, R211; 44_bitpacker.md R243, R249; 60_exceptions.md R333) and the state
each leaves. The first clause is R249's "change nothing" (log 7). A symbol that is refused, or one beyond `CT_CAP`,
after the symbols `l1` leaves on `BOUT` the whole bytes of the tokens put before the load that meets it
(`tokensPutBefore`; none when it is the first load) and the bits of the unfinished byte are lost. A token that would
exceed `OUT_CAP` leaves the whole bytes of the tokens before it. -/
def Obligations.CompRaises : Prop :=
  ∀ s : State,
    (s.status.pkopen = true → exec .comp s = .next (raise { kind := .illegalCommand, info := 2 } s)) ∧
    (∀ (l : List Nat) (rest : List (Item Nat)), s.sin = segment l ++ rest → s.status.pkopen = false →
      (s.cfg.codecOk s.params = false →
        exec .comp s =
          .next (raise { kind := .badConfig, info := 0 }
            { s with sin := rest, bout := s.bout ++ segment [], acc := 0, nbits := 0 })) ∧
      (∀ (l1 : List Nat) (v : Nat) (l2 : List Nat),
        s.cfg.codecOk s.params = true → l = l1 ++ v :: l2 → (∀ x ∈ l1, x < 2 ^ s.cfg.symw.toNat) →
        l1.length ≤ s.params.ctCap → (l1.length < s.params.ctCap → 2 ^ s.cfg.symw.toNat ≤ v) →
        let bits := tokensBits s.cfg.widths (tokensPutBefore s.cfg l1)
        bits.length ≤ 8 * s.params.outCap →
        ∃ (enc : EncRegs) (win : Mem),
          exec .comp s =
            .next (raise
              (if l1.length = s.params.ctCap then { kind := .bufferOverrun, info := s.params.ctCap }
                else { kind := .invalidSymbol, info := v })
              { s with
                sin := rest, bout := s.bout ++ segment (wholeBytes bits), symcnt := l1.length
                bytecnt := bits.length / 8, acc := 0, nbits := 0, enc := enc, win := win })) ∧
      (∀ (l1 : List Nat) (ts : List Instr) (i : Instr) (later : List Instr),
        s.cfg.codecOk s.params = true → (∀ x ∈ l1, x < 2 ^ s.cfg.symw.toNat) → l1.length ≤ s.params.ctCap →
        (l = l1 ∧ ts ++ i :: later = streamTokens s.cfg l1 ∨
          (∃ v l2, l = l1 ++ v :: l2 ∧ (l1.length < s.params.ctCap → 2 ^ s.cfg.symw.toNat ≤ v)) ∧
            ts ++ i :: later = tokensPutBefore s.cfg l1) →
        let bits := tokensBits s.cfg.widths ts
        bits.length ≤ 8 * s.params.outCap →
        8 * s.params.outCap < bits.length + (tokenBits s.cfg.widths i).length →
        ∃ (enc : EncRegs) (win : Mem),
          exec .comp s =
            .next (raise { kind := .bufferOverrun, info := bits.length / 8 }
              { s with
                sin := rest, bout := s.bout ++ segment (wholeBytes bits), symcnt := loadedAt s.cfg l1.length ts
                bytecnt := bits.length / 8, acc := 0, nbits := 0, enc := enc, win := win })))

/-- 43_compressor.md R217, 30_encoding.md R94 and R98: what the emitted tokens satisfy, how many symbols they stand for,
how many bits and bytes a token list takes, and that a sequence with no repeated symbol gives only Literals. -/
def Obligations.EmittedTokenLaws : Prop :=
  (∀ (P : Params) (c : CfgRegs) (l : List Nat), c.codecOk P = true →
    (∀ i ∈ streamTokens c l,
      (∃ v ∈ l, i = .literal v) ∨
      ∃ off len2, i = .matchTok off len2 ∧ off < c.n ∧ c.p + 1 ≤ len2 + 2 ∧
        len2 + 2 ≤ c.f - 1 ∧ len2 < 2 ^ c.ej.toNat) ∧
    ((streamTokens c l).map (fun i => match i with | .matchTok _ len2 => len2 + 2 | _ => 1)).sum = l.length ∧
    (l.Nodup → streamTokens c l = l.map .literal)) ∧
  (∀ (tw : TokenWidths) (ts : List Instr), (∀ i ∈ ts, i.isToken = true) →
    (tokensBits tw ts).length =
      ts.countP (fun i => match i with | .literal _ => true | _ => false) * (1 + tw.symw) +
        ts.countP (fun i => match i with | .matchTok _ _ => true | _ => false) * (1 + tw.ei + tw.ej)) ∧
  (∀ bits : List Bool, (packBits bits).length = (bits.length + 7) / 8)

/-! ### The decoder -/

/-- 45_decoder.md R264 and R265: the symbol goes to the output (`SOUT`, or `CTBUF` in RECOVER, 46_control_pipeline.md
R294) and into `DWIN` at the cursor, which wraps at `N`; no other cell changes. The phase after the token is that of
46_control_pipeline.md R300, which the model enters in the same step (log 8). -/
def Obligations.LiteralIsWrittenAtTheCursor : Prop :=
  ∀ (sym : Nat) (s : State),
    ∃ (dwin ctbuf : Mem) (sout : List (Item Nat)),
      dwin.read s.dr = some sym ∧ (∀ j, j ≠ s.dr → dwin.read j = s.dwin.read j) ∧
      (if s.running = .recover then
        sout = s.sout ∧ ctbuf.read s.symcnt = some sym ∧
          ∀ j, j ≠ s.symcnt → ctbuf.read j = s.ctbuf.read j
        else sout = s.sout ++ [.sym sym] ∧ ctbuf = s.ctbuf) ∧
      exec (.literal sym) s =
        .next { s with
          dwin := dwin, ctbuf := ctbuf, sout := sout, dr := (s.dr + 1) % s.cfg.n
          symcnt := s.symcnt + 1
          phase := if s.symcnt + 1 < s.count then .matching else .drained }

/-- 45_decoder.md R266, R267 and R269, from a cursor and a count as the decoder keeps them (R271, R265): `len2 + 2`
symbols are copied, fewer where the count is reached; the `k`-th is read from cell `(off + k) mod N` after the `k`
symbols before it have been written, so it is the last of them written there or else what the cell held; all go to the
output and to the cells from the cursor on. The phase after the token is that of 46_control_pipeline.md R300, which
the model enters in the same step (log 8). The last clause is R268: a read of a cell that holds no value is the fault
of log 4. -/
def Obligations.MatchCopiesOneSymbolAtATime : Prop :=
  ∀ (off len2 : Nat) (s : State), s.dr < s.cfg.n → s.symcnt ≤ s.count →
    let n := s.cfg.n
    let m := min (len2 + 2) (s.count - s.symcnt)
    let copied (syms : List Nat) (k : Nat) : Prop :=
      (∃ j, j < k ∧ (s.dr + j) % n = (off + k) % n ∧
        (∀ i, j < i → i < k → (s.dr + i) % n ≠ (off + k) % n) ∧ syms[k]? = syms[j]?) ∨
      ((∀ j, j < k → (s.dr + j) % n ≠ (off + k) % n) ∧ s.dwin.read ((off + k) % n) = syms[k]?)
    (∀ syms : List Nat, syms.length = m → (∀ k, k < m → copied syms k) →
      ∃ (dwin ctbuf : Mem) (sout : List (Item Nat)),
        (∀ k, k < m → (∀ i, k < i → i < m → (s.dr + i) % n ≠ (s.dr + k) % n) →
          dwin.read ((s.dr + k) % n) = syms[k]?) ∧
        (∀ j, (∀ k, k < m → (s.dr + k) % n ≠ j) → dwin.read j = s.dwin.read j) ∧
        (if s.running = .recover then
          sout = s.sout ∧ (∀ k, k < m → ctbuf.read (s.symcnt + k) = syms[k]?) ∧
            ∀ j, j < s.symcnt ∨ s.symcnt + m ≤ j → ctbuf.read j = s.ctbuf.read j
          else sout = s.sout ++ syms.map .sym ∧ ctbuf = s.ctbuf) ∧
        exec (.matchTok off len2) s =
          .next { s with
            dwin := dwin, ctbuf := ctbuf, sout := sout, dr := (s.dr + m) % n
            symcnt := s.symcnt + m
            phase := if s.symcnt + m < s.count then .matching else .drained }) ∧
    (∀ k, k < m → (∀ j, j < k → (s.dr + j) % n ≠ (off + k) % n) →
      s.dwin.read ((off + k) % n) = none →
      exec (.matchTok off len2) s = .fault .dwinUnwritten)

/-- 45_decoder.md R260 and R263 to R270: a segment that begins with the bits of a token list decodes to the symbols
the list stands for (`expandTokens`), cut at the count; bits and bytes after them are not examined. The existentially
named registers and the memory are the decoder's own (10_state.md R46, R51, R52); that `DWIN` holds no value beyond
its `N` cells (log 6) and that the dead count keeps its value (log 22) are the model's choice. -/
def Obligations.DecompExpandsTokens : Prop :=
  DecodesTo 0x31 (fun a _ _ => .decomp a) ∧
  ∀ (s : State) (count : Nat) (bytes : List Byte) (rest : List (Item Byte)) (ts : List Instr) (extra : List Bool)
    (syms : List Nat),
    s.bin = segment bytes ++ rest → s.cfg.codecOk s.params = true → count ≤ s.params.ctCap →
    (∀ i ∈ ts, i.isToken = true ∧ i.wellFormed s.params.kw s.cfg.widths = true) →
    bytes.flatMap byteBits = tokensBits s.cfg.widths ts ++ extra →
    expandTokens s.cfg ts = some syms → count ≤ syms.length →
    ∃ (ibuf : Byte) (ibits : Fin 9) (tok : Option Instr) (dwin : Mem) (dr : Nat),
      (∀ i, s.cfg.n ≤ i → dwin.read i = none) ∧
      exec (.decomp count) s =
        .next (done count
          { s with
            bin := rest, sout := s.sout ++ segment (syms.take count), symcnt := count, count := count
            ibuf := ibuf, ibits := ibits, tok := tok, dwin := dwin, dr := dr })

/-- The errors of DECOMP (45_decoder.md R260, R261; 60_exceptions.md R333): a bad configuration, a count over the
capacity, and a segment that ends inside a token before the count is reached: the symbols before it have been pushed
and their number is the information word. That the dead count keeps its value there is the model's choice (log 22). -/
def Obligations.DecompRaises : Prop :=
  ∀ (s : State) (count : Nat) (bytes : List Byte) (rest : List (Item Byte)), s.bin = segment bytes ++ rest →
    (s.cfg.codecOk s.params = false →
      exec (.decomp count) s =
        .next (raise { kind := .badConfig, info := 0 } { s with bin := rest, sout := s.sout ++ segment [] })) ∧
    (s.cfg.codecOk s.params = true → s.params.ctCap < count →
      exec (.decomp count) s =
        .next (raise { kind := .bufferOverrun, info := count }
          { s with symcnt := 0, bin := rest, sout := s.sout ++ segment [] })) ∧
    (∀ (ts : List Instr) (extra : List Bool) (syms : List Nat),
      s.cfg.codecOk s.params = true → count ≤ s.params.ctCap →
      (∀ i ∈ ts, i.isToken = true ∧ i.wellFormed s.params.kw s.cfg.widths = true) →
      bytes.flatMap byteBits = tokensBits s.cfg.widths ts ++ extra →
      decodeToken s.cfg.widths extra = .error .outOfBits →
      expandTokens s.cfg ts = some syms → syms.length < count →
      ∃ (ibuf : Byte) (ibits : Fin 9) (tok : Option Instr) (dwin : Mem) (dr : Nat),
        exec (.decomp count) s =
          .next (raise { kind := .malformedBitstream, info := syms.length }
            { s with
              bin := rest, sout := s.sout ++ segment syms, symcnt := syms.length, count := count
              ibuf := ibuf, ibits := ibits, tok := tok, dwin := dwin, dr := dr }))

/-- 45_decoder.md R273: what COMP pushes for a segment, DECOMP with the segment's length as its count turns back into
the segment, on any engine whose `EI`, `EJ`, `F`, `SYMW` and `BLANK` are the same (`P` does not matter) and whose
`CT_CAP` admits the length. -/
def Obligations.DecompInvertsComp : Prop :=
  ∀ (s : State) (l : List Nat) (rest : List (Item Nat)), s.sin = segment l ++ rest →
    s.status.pkopen = false → s.cfg.codecOk s.params = true → l.length ≤ s.params.ctCap →
    (∀ v ∈ l, v < 2 ^ s.cfg.symw.toNat) →
    (tokensBits s.cfg.widths (streamTokens s.cfg l)).length ≤ 8 * s.params.outCap →
    ∃ (t : State) (z : List Byte),
      exec .comp s = .next t ∧ t.status.lasterr = 0 ∧ t.bout = s.bout ++ segment z ∧
      ∀ (u : State) (rest2 : List (Item Byte)),
        u.cfg.codecOk u.params = true → u.cfg.ei = s.cfg.ei → u.cfg.ej = s.cfg.ej → u.cfg.f = s.cfg.f →
        u.cfg.symw = s.cfg.symw → u.cfg.blank = s.cfg.blank → u.bin = segment z ++ rest2 →
        l.length ≤ u.params.ctCap →
        ∃ v, exec (.decomp l.length) u = .next v ∧ v.status.lasterr = 0 ∧
          v.resv = l.length ∧ v.bin = rest2 ∧ v.sout = u.sout ++ segment l

/-- 44_bitpacker.md R250: the session that puts the tokens COMP emits one by one and then flushes pushes the same
segment as COMP, every command of it succeeding. The premise on `ACC` and `NBITS` is the invariant of R249. -/
def Obligations.SessionEqualsComp : Prop :=
  ∀ (s : State) (l : List Nat) (rest : List (Item Nat)), s.sin = segment l ++ rest →
    s.status.pkopen = false → s.acc = 0 → s.nbits = 0 → s.cfg.codecOk s.params = true → l.length ≤ s.params.ctCap →
    (∀ v ∈ l, v < 2 ^ s.cfg.symw.toNat) →
    (tokensBits s.cfg.widths (streamTokens s.cfg l)).length ≤ 8 * s.params.outCap →
    ∃ t u : State,
      execAll ((streamTokens s.cfg l).map tokenCommand ++ [.flush]) s = .next t ∧
      t.res = s.res ++ List.replicate (streamTokens s.cfg l).length { code := 0, value := 0 } ++
        [{ code := 0, value := (streamBytes s.cfg l).length }] ∧
      exec .comp s = .next u ∧ t.bout = u.bout ∧ t.bytecnt = u.bytecnt ∧
      t.bout = s.bout ++ segment (streamBytes s.cfg l)

/-! ### The pipelines -/

/-- 46_control_pipeline.md R291: PROTECT encrypts the segment into `CTBUF` and pushes the bytes COMP's procedure gives
for the ciphertexts. `enc` and `win` are the encoder's own; that `WIN` beyond `2N` and `CTBUF` beyond the symbols hold
no value is the model's allocation of a memory per command (log 6). -/
def Obligations.ProtectCompressesTheCiphertext : Prop :=
  DecodesTo 0x40 (fun _ _ _ => .protect) ∧
  ∀ (s : State) (l : List Nat) (rest : List (Item Nat)), s.sin = segment l ++ rest →
    s.status.pkopen = false → s.cfg.codecOk s.params = true → s.status.pubv = true → l.length ≤ s.params.ctCap →
    (∀ m ∈ l, m < s.keys.kn ∧ s.keys.power m < 2 ^ s.cfg.symw.toNat) →
    (tokensBits s.cfg.widths (streamTokens s.cfg (l.map s.keys.power))).length ≤ 8 * s.params.outCap →
    ∃ (enc : EncRegs) (win ctbuf : Mem),
      (∀ i, 2 * s.cfg.n ≤ i → win.read i = none) ∧ (∀ i, ctbuf.read i = (l.map s.keys.power)[i]?) ∧
      exec .protect s =
        .next (done l.length
          { s with
            sin := rest, ctbuf := ctbuf, bout := s.bout ++ segment (streamBytes s.cfg (l.map s.keys.power))
            symcnt := l.length
            bytecnt := (streamBytes s.cfg (l.map s.keys.power)).length
            acc := 0, nbits := 0, enc := enc, win := win })

/-- 46_control_pipeline.md R297 (a). -/
def Obligations.ProtectIsEncsThenComp : Prop :=
  ∀ (s : State) (l : List Nat) (rest rest2 : List (Item Nat)), s.sin = segment l ++ rest →
    s.status.pkopen = false → s.cfg.codecOk s.params = true → s.status.pubv = true → s.keys.Keypair →
    s.keys.kn ≤ 2 ^ s.cfg.symw.toNat → l.length ≤ s.params.ctCap → (∀ m ∈ l, m < s.keys.kn) →
    (tokensBits s.cfg.widths (streamTokens s.cfg (l.map s.keys.power))).length ≤ 8 * s.params.outCap →
    ∃ (t t1 t2 : State) (c : List Nat),
      exec .protect s = .next t ∧ t.status.lasterr = 0 ∧
      exec .encs s = .next t1 ∧ t1.status.lasterr = 0 ∧ t1.sout = s.sout ++ segment c ∧
      exec .comp { t1 with sin := segment c ++ rest2 } = .next t2 ∧ t2.status.lasterr = 0 ∧ t2.bout = t.bout

/-- The errors of PROTECT (46_control_pipeline.md R291; 44_bitpacker.md R249 for the first, log 7; 60_exceptions.md
R333). An error of the first phase leaves the `BOUT` segment empty; a token of the second that would exceed `OUT_CAP`
(44_bitpacker.md R243) leaves the whole bytes of the tokens before it. That `CTBUF` beyond the symbols encrypted holds
no value is the model's allocation of a memory per command (log 6). -/
def Obligations.ProtectRaises : Prop :=
  ∀ s : State,
    (s.status.pkopen = true → exec .protect s = .next (raise { kind := .illegalCommand, info := 2 } s)) ∧
    (∀ (l : List Nat) (rest : List (Item Nat)), s.sin = segment l ++ rest → s.status.pkopen = false →
      (s.cfg.codecOk s.params = false →
        exec .protect s =
          .next (raise { kind := .badConfig, info := 0 }
            { s with sin := rest, bout := s.bout ++ segment [], acc := 0, nbits := 0 })) ∧
      (s.cfg.codecOk s.params = true → s.status.pubv = false →
        exec .protect s =
          .next (raise { kind := .noKey, info := 0 }
            { s with symcnt := 0, sin := rest, bout := s.bout ++ segment [], acc := 0, nbits := 0 })) ∧
      (∀ (l1 : List Nat) (m : Nat) (l2 : List Nat),
        s.cfg.codecOk s.params = true → s.status.pubv = true → l = l1 ++ m :: l2 → l1.length ≤ s.params.ctCap →
        (∀ x ∈ l1, x < s.keys.kn ∧ s.keys.power x < 2 ^ s.cfg.symw.toNat) →
        (l1.length < s.params.ctCap → s.keys.kn ≤ m ∨ 2 ^ s.cfg.symw.toNat ≤ s.keys.power m) →
        ∃ ctbuf : Mem, (∀ i, ctbuf.read i = (l1.map s.keys.power)[i]?) ∧
          exec .protect s =
            .next (raise
              (if l1.length = s.params.ctCap then { kind := .bufferOverrun, info := s.params.ctCap }
                else if s.keys.kn ≤ m then { kind := .invalidSymbol, info := m }
                else { kind := .invalidSymbol, info := s.keys.power m })
              { s with
                symcnt := l1.length, ctbuf := ctbuf, sin := rest, bout := s.bout ++ segment []
                acc := 0, nbits := 0 })) ∧
      (∀ (ts : List Instr) (i : Instr) (later : List Instr),
        s.cfg.codecOk s.params = true → s.status.pubv = true → l.length ≤ s.params.ctCap →
        (∀ x ∈ l, x < s.keys.kn ∧ s.keys.power x < 2 ^ s.cfg.symw.toNat) →
        ts ++ i :: later = streamTokens s.cfg (l.map s.keys.power) →
        let bits := tokensBits s.cfg.widths ts
        bits.length ≤ 8 * s.params.outCap →
        8 * s.params.outCap < bits.length + (tokenBits s.cfg.widths i).length →
        ∃ (enc : EncRegs) (win ctbuf : Mem), (∀ i, ctbuf.read i = (l.map s.keys.power)[i]?) ∧
          exec .protect s =
            .next (raise { kind := .bufferOverrun, info := bits.length / 8 }
              { s with
                sin := rest, bout := s.bout ++ segment (wholeBytes bits), symcnt := l.length, ctbuf := ctbuf
                bytecnt := bits.length / 8, acc := 0, nbits := 0, enc := enc, win := win })))

/-- 46_control_pipeline.md R294: a segment that begins with the bits of a token list is decoded into `CTBUF` and then
decrypted, symbol by symbol, by the recombination of 42_crt.md R195. That `DWIN` beyond `N` and `CTBUF` beyond the
count hold no value (log 6) and that the dead count keeps its value (log 22) are the model's choice. -/
def Obligations.RecoverDecryptsTheTokens : Prop :=
  DecodesTo 0x41 (fun a _ _ => .recover a) ∧
  ∀ (s : State) (count : Nat) (bytes : List Byte) (rest : List (Item Byte)) (ts : List Instr) (extra : List Bool)
    (syms : List Nat),
    s.bin = segment bytes ++ rest → s.cfg.codecOk s.params = true → s.status.prvv = true → count ≤ s.params.ctCap →
    (∀ i ∈ ts, i.isToken = true ∧ i.wellFormed s.params.kw s.cfg.widths = true) →
    bytes.flatMap byteBits = tokensBits s.cfg.widths ts ++ extra →
    expandTokens s.cfg ts = some syms → count ≤ syms.length →
    (∀ c ∈ syms.take count, c < s.keys.kn) →
    ∃ (ibuf : Byte) (ibits : Fin 9) (tok : Option Instr) (dwin ctbuf : Mem) (dr : Nat),
      (∀ i, s.cfg.n ≤ i → dwin.read i = none) ∧ (∀ i, ctbuf.read i = (syms.take count)[i]?) ∧
      exec (.recover count) s =
        .next (done count
          { s with
            bin := rest, sout := s.sout ++ segment ((syms.take count).map s.keys.reconstruct), symcnt := count
            count := count, ibuf := ibuf, ibits := ibits, tok := tok, dwin := dwin, ctbuf := ctbuf, dr := dr })

/-- 46_control_pipeline.md R297 (b) and (c): on an engine with the same key and configuration, RECOVER turns the bytes
of PROTECT back into the symbols, and so does DECOMP followed by DECS. -/
def Obligations.RecoverInvertsProtect : Prop :=
  ∀ (s : State) (l : List Nat) (rest : List (Item Nat)), s.sin = segment l ++ rest →
    s.status.pkopen = false → s.cfg.codecOk s.params = true → s.status.pubv = true → s.keys.Keypair →
    s.keys.kn ≤ 2 ^ s.cfg.symw.toNat → l.length ≤ s.params.ctCap → (∀ m ∈ l, m < s.keys.kn) →
    (tokensBits s.cfg.widths (streamTokens s.cfg (l.map s.keys.power))).length ≤ 8 * s.params.outCap →
    ∃ (t : State) (z : List Byte),
      exec .protect s = .next t ∧ t.status.lasterr = 0 ∧ t.bout = s.bout ++ segment z ∧
      ∀ (u : State) (rest2 : List (Item Byte)) (rest3 : List (Item Nat)),
        u.params = s.params → u.cfg = s.cfg → u.keys = s.keys → u.status.prvv = true → u.bin = segment z ++ rest2 →
        (∃ v, exec (.recover l.length) u = .next v ∧ v.status.lasterr = 0 ∧
          v.sout = u.sout ++ segment l) ∧
        (∃ (v1 v2 : State) (c : List Nat),
          exec (.decomp l.length) u = .next v1 ∧ v1.sout = u.sout ++ segment c ∧
          exec .decs { v1 with sin := segment c ++ rest3 } = .next v2 ∧ v2.status.lasterr = 0 ∧
          v2.sout = v1.sout ++ segment l)

/-- The errors of RECOVER (46_control_pipeline.md R294; 60_exceptions.md R333): configuration, key and count in that
order; a segment that ends too early leaves the `SOUT` segment empty; a decoded value not below the modulus stops the
second phase after the symbols before it. That the dead count keeps its value is the model's choice (log 22). -/
def Obligations.RecoverRaises : Prop :=
  ∀ (s : State) (count : Nat) (bytes : List Byte) (rest : List (Item Byte)), s.bin = segment bytes ++ rest →
    (s.cfg.codecOk s.params = false →
      exec (.recover count) s =
        .next (raise { kind := .badConfig, info := 0 } { s with bin := rest, sout := s.sout ++ segment [] })) ∧
    (s.cfg.codecOk s.params = true → s.status.prvv = false →
      exec (.recover count) s =
        .next (raise { kind := .noKey, info := 0 }
          { s with symcnt := 0, bin := rest, sout := s.sout ++ segment [] })) ∧
    (s.cfg.codecOk s.params = true → s.status.prvv = true → s.params.ctCap < count →
      exec (.recover count) s =
        .next (raise { kind := .bufferOverrun, info := count }
          { s with symcnt := 0, bin := rest, sout := s.sout ++ segment [] })) ∧
    (∀ (ts : List Instr) (extra : List Bool) (syms : List Nat),
      s.cfg.codecOk s.params = true → s.status.prvv = true → count ≤ s.params.ctCap →
      (∀ i ∈ ts, i.isToken = true ∧ i.wellFormed s.params.kw s.cfg.widths = true) →
      bytes.flatMap byteBits = tokensBits s.cfg.widths ts ++ extra → expandTokens s.cfg ts = some syms →
      (decodeToken s.cfg.widths extra = .error .outOfBits → syms.length < count →
        ∃ (ibuf : Byte) (ibits : Fin 9) (tok : Option Instr) (dwin ctbuf : Mem) (dr : Nat),
          exec (.recover count) s =
            .next (raise { kind := .malformedBitstream, info := syms.length }
              { s with
                bin := rest, sout := s.sout ++ segment [], symcnt := syms.length, count := count
                ibuf := ibuf, ibits := ibits, tok := tok, dwin := dwin, ctbuf := ctbuf, dr := dr })) ∧
      (∀ (l1 : List Nat) (c : Nat) (l2 : List Nat),
        count ≤ syms.length → syms.take count = l1 ++ c :: l2 →
        (∀ x ∈ l1, x < s.keys.kn) → s.keys.kn ≤ c →
        ∃ (ibuf : Byte) (ibits : Fin 9) (tok : Option Instr) (dwin ctbuf : Mem) (dr : Nat),
          exec (.recover count) s =
            .next (raise { kind := .invalidSymbol, info := c }
              { s with
                bin := rest, sout := s.sout ++ segment (l1.map s.keys.reconstruct), symcnt := l1.length
                count := count, ibuf := ibuf, ibits := ibits, tok := tok, dwin := dwin, ctbuf := ctbuf, dr := dr })))

/-! ### Encodings -/

/-- 30_encoding.md R110 and R111, for every `KW`: every command whose operands are of width `KW` decodes from its own
word, a word of the format's width; and a word that decodes gives such a command, which is encoded with the word's
opcode. -/
def Obligations.CommandWordRoundTrip : Prop :=
  (∀ (kw : Nat) (tw : TokenWidths) (i : Instr), i.isToken = false → i.wellFormed kw tw = true →
    ∃ w, encode kw tw i = .command w ∧ w < 2 ^ cmdBits kw ∧ decodeCommand kw w = .ok i) ∧
  (∀ (kw : Nat) (tw : TokenWidths) (w : CmdWord) (i : Instr), decodeCommand kw w = .ok i →
    i.isToken = false ∧ i.wellFormed kw tw = true ∧
    ∃ w1, encode kw tw i = .command w1 ∧ CmdWord.opcode kw w1 = CmdWord.opcode kw w)

/-- 30_encoding.md R92, R93 and R95: a token whose fields fit is read back from its bits, whatever follows them; and
bits that are read as a token are that token's bits followed by the rest. -/
def Obligations.TokenRoundTrip : Prop :=
  (∀ (kw : Nat) (tw : TokenWidths) (i : Instr) (rest : List Bool), i.isToken = true → i.wellFormed kw tw = true →
    encode kw tw i = .token (tokenBits tw i) ∧ decodeToken tw (tokenBits tw i ++ rest) = .ok (i, rest)) ∧
  (∀ (kw : Nat) (tw : TokenWidths) (bits rest : List Bool) (i : Instr), decodeToken tw bits = .ok (i, rest) →
    i.isToken = true ∧ i.wellFormed kw tw = true ∧ bits = tokenBits tw i ++ rest)

/-- 30_encoding.md R111 and R113 and 46_control_pipeline.md R281: the twenty opcodes are defined, every other one is
rejected by name, and the engine answers it with IllegalCommand(0) and no other effect. -/
def Obligations.ReservedOpcodesAreIllegal : Prop :=
  ∀ kw a b c : Nat, a < 2 ^ kw → b < 2 ^ kw → c < 2 ^ kw →
    (∀ op : Byte, op.toNat ∈ [0x00, 0x01, 0x02, 0x03, 0x04, 0x10, 0x11, 0x12, 0x20, 0x21, 0x22, 0x23, 0x24, 0x30, 0x31,
      0x32, 0x33, 0x34, 0x40, 0x41] → ∃ i, decodeCommand kw (.make kw op a b c) = .ok i) ∧
    (∀ op : Byte, (0x05 ≤ op.toNat ∧ op.toNat ≤ 0x0F) ∨ (0x13 ≤ op.toNat ∧ op.toNat ≤ 0x1F) ∨
        (0x25 ≤ op.toNat ∧ op.toNat ≤ 0x2F) ∨ (0x35 ≤ op.toNat ∧ op.toNat ≤ 0x3F) ∨ 0x42 ≤ op.toNat →
      decodeCommand kw (.make kw op a b c) = .error (.reservedOpcode op) ∧
      ∀ (s : State) (rest : List CmdWord),
        s.params.kw = kw → s.resetLine = false → s.phase = .idle → s.cmd = .make kw op a b c :: rest →
        step s = .next (raise { kind := .illegalCommand, info := 0 } { s with cmd := rest }))

/-- A few words written out from the tables of 30_encoding.md R92, R93, R110 and R111: one of each family. -/
def Obligations.SampleWordsDecode : Prop :=
  decodeCommand 32 0x00000000000000000000000000 = .ok .nop ∧
  decodeCommand 32 0x03000000140000000800000000 = .ok (.wrcfg 20 8) ∧
  decodeCommand 32 0x1100000F4D00000F5300000003 = .ok (.keyset 3917 3923 3) ∧
  decodeCommand 32 0x20000000410000000000000000 = .ok (.enc 65) ∧
  decodeCommand 32 0x22000430C10000000000000000 = .ok (.decc 274625) ∧
  decodeCommand 32 0x30FFFFFFFFFFFFFFFFFFFFFFFF = .ok .comp ∧
  decodeCommand 32 0x330000001F0000001300000000 = .ok (.putm 31 19) ∧
  decodeCommand 32 0x41000000040000000000000000 = .ok (.recover 4) ∧
  decodeCommand 32 0x05000000000000000000000000 = .error (.reservedOpcode 0x05) ∧
  decodeToken { symw := 8, ei := 6, ej := 5 } [true, false, true, false, false, false, false, false, true] =
    .ok (.literal 65, []) ∧
  decodeToken { symw := 8, ei := 6, ej := 5 }
    [false, false, true, true, true, true, true, true, false, false, false, true] = .ok (.matchTok 31 17, [])

/-! ### The step -/

/-- 46_control_pipeline.md R280, R281 and 70_reset_and_hazards.md R396: between commands, with no reset asked for, the
step takes one command word and runs what it decodes to; with none on `CMD` nothing changes (log 11). -/
def Obligations.StepRunsTheCommand : Prop :=
  ∀ s : State, s.resetLine = false → s.phase = .idle →
    (∀ (w : CmdWord) (rest : List CmdWord) (i : Instr), s.cmd = w :: rest → decodeCommand s.params.kw w = .ok i →
      step s = exec i { s with cmd := rest }) ∧
    (s.cmd = [] → step s = .next s)

/-- 70_reset_and_hazards.md R360 and R362: a step in which reset is asked for puts every register and flag at its reset
value and leaves the ports alone; no record is pushed (R361). The model uses the request up and lets it come before a
waiting command (log 10), and makes no statement here on memories and dead hidden registers (logs 5 and 6). -/
def Obligations.ResetLineRestoresResetState : Prop :=
  ∀ s : State, s.resetLine = true → ∃ t, step s = .next t ∧
    t.visible =
      ({ s with
        keys := publicKey 0 0, resv := 0, cfg := CfgRegs.atReset s.params
        status := { lasterr := 0, pubv := false, prvv := false, pkopen := false, errs := 0 }
        symcnt := 0, bytecnt := 0, acc := 0, nbits := 0, phase := .idle, running := .nothing
        resetLine := false } : State).visible

/-- 45_decoder.md R261 and R263 with 46_control_pipeline.md R300, on the model's steps (log 8): when a decode is
`Matching` and the bits still to read begin with a token, the step reads it, no further than the segment, the bits
after it remain to read, and the next step runs it; and whenever a decode is `Emitting` and holds a token, the step is
that instruction. -/
def Obligations.StepRunsTheToken : Prop :=
  (∀ (s : State) (i : Instr) (bits : List Bool),
    s.resetLine = false → s.phase = .matching → (s.running = .decomp ∨ s.running = .recover) →
    decodeToken s.cfg.widths s.pendingBits = .ok (i, bits) →
    i.isToken = true ∧
    ∃ (ibuf : Byte) (ibits : Fin 9) (k : Nat),
      k ≤ (segmentBytes s.bin).length ∧
      let t := { s with ibuf := ibuf, ibits := ibits, bin := s.bin.drop k, tok := some i, phase := .emitting }
      t.pendingBits = bits ∧ step s = .next t ∧ step t = exec i t) ∧
  (∀ (s : State) (i : Instr),
    s.resetLine = false → s.phase = .emitting → (s.running = .decomp ∨ s.running = .recover) → s.tok = some i →
    i.isToken = true → step s = exec i s)

/-! ### Rules about every command -/

/-- 30_encoding.md R112 and 46_control_pipeline.md R280: a command that completes pushes exactly one record, its value
is in `RESV` and its code, at most 7, in `LASTERR` (a successful RDREG leaves `STATUS` alone, 10_state.md R42), and
the engine is `Idle`. -/
def Obligations.OneResultRecordPerCommand : Prop :=
  ∀ (i : Instr) (s t : State), i.isToken = false → exec i s = .next t →
    ∃ r : ResultRecord, t.res = s.res ++ [r] ∧ t.resv = r.value ∧ r.code.toNat ≤ 7 ∧
      t.phase = .idle ∧ t.running = .nothing ∧
      (t.status.lasterr = r.code ∨ ((∃ idx, i = .rdreg idx) ∧ r.code = 0 ∧ t.status = s.status))

/-- 60_exceptions.md R332: a command of the list that ends with an error has the effects of raising that error and no
other (KEYGEN: and the draws it has taken; `budget` is its own register, 10_state.md R52). The one exception is a PUTL or
PUTM whose token does not fit: `BYTECNT` counts from the session's start, as the pseudocode of 44_bitpacker.md R245 and
R246 left it (60_exceptions.md R320, R331), which is the reading of log 23. -/
def Obligations.FailedCommandsChangeNothing : Prop :=
  ∀ (i : Instr) (s t : State) (r : ResultRecord),
    exec i s = .next t → t.res = s.res ++ [r] → r.code ≠ 0 →
    (match i with
      | .putl _ | .putm _ _ =>
        ∃ e : Exc, t = raise e (if e.kind = .bufferOverrun then { s with bytecnt := s.sessionBytes } else s)
      | .wrcfg _ _ | .rdreg _ | .keypub _ _ | .keyset _ _ _ | .enc _ | .decd _ | .decc _ => ∃ e : Exc, t = raise e s
      | .keygen _ => ∃ (e : Exc) (n : Nat), t = raise e { s with rng := s.rng.drop n, budget := t.budget }
      | .nop | .reset | .clrerr | .flush => False
      | .encs | .decs | .comp | .decomp _ | .protect | .recover _ | .literal _ | .matchTok _ _ => True)

/-- 60_exceptions.md R331, 44_bitpacker.md R249, 20_memory.md R70 and the "written by" columns of 10_state.md R21,
R40, R41: which kinds of state an instruction can change at all. The last clauses are the memories (10_state.md R45,
60_exceptions.md R346) and the input ports (20_memory.md R67); no instruction changes the parameters (00_scope.md R9).
-/
def Obligations.OnlyTheOwnersWrite : Prop :=
  ∀ (i : Instr) (s t : State), exec i s = .next t →
    (match i with
      | .keygen _ | .keyset _ _ _ | .keypub _ _ | .reset => True
      | _ => t.keys = s.keys ∧ t.status.pubv = s.status.pubv ∧ t.status.prvv = s.status.prvv) ∧
    (match i with
      | .wrcfg _ _ | .reset => True
      | _ => t.cfg = s.cfg) ∧
    (match i with
      | .keygen _ => True
      | .keyset _ _ _ => t.rng = s.rng
      | _ => t.rng = s.rng ∧ t.kout = s.kout) ∧
    (match i with
      | .putl _ | .putm _ _ | .flush | .comp | .protect | .reset => True
      | _ => t.acc = s.acc ∧ t.nbits = s.nbits ∧ t.bytecnt = s.bytecnt ∧ t.status.pkopen = s.status.pkopen ∧
          t.bout = s.bout) ∧
    (match i with
      | .encs | .decs | .comp | .protect | .decomp _ | .recover _ | .literal _ | .matchTok _ _ | .reset => True
      | _ => t.symcnt = s.symcnt) ∧
    (match i with
      | .encs | .decs | .decomp _ | .recover _ | .literal _ | .matchTok _ _ => True
      | _ => t.sout = s.sout) ∧
    (match i with
      | .comp | .protect | .reset => True
      | _ => t.win = s.win) ∧
    (match i with
      | .decomp _ | .recover _ | .literal _ | .matchTok _ _ | .reset => True
      | _ => t.dwin = s.dwin) ∧
    (match i with
      | .protect | .recover _ | .literal _ | .matchTok _ _ | .reset => True
      | _ => t.ctbuf = s.ctbuf) ∧
    (match i with
      | .encs | .decs | .comp | .protect => t.bin = s.bin
      | .decomp _ | .recover _ => t.sin = s.sin
      | _ => t.sin = s.sin ∧ t.bin = s.bin) ∧
    t.cmd = s.cmd ∧ t.resetLine = s.resetLine ∧ t.params = s.params

/-- 10_state.md R46: what a command does, as far as anything but the memories and the dead hidden registers can show,
depends on nothing that an earlier command left in them. -/
def Obligations.MemoriesAreNotObservable : Prop :=
  ∀ (i : Instr) (s u : State), i.isToken = false → s.visible = u.visible →
    outcomeMap State.visible (exec i s) = outcomeMap State.visible (exec i u)

/-- 20_memory.md R66 and R69: a stream command whose input segment the host has not completed does not complete, nor
does KEYGEN when the random source stops answering. That this shows as a fault is the model's choice (logs 3 and 4).
-/
def Obligations.IncompleteInputIsStuck : Prop :=
  ∀ s : State,
    ((∀ x ∈ s.sin, x ≠ .eos) →
      exec .encs s = .fault .sinIncomplete ∧ exec .decs s = .fault .sinIncomplete ∧
      (s.status.pkopen = false →
        exec .comp s = .fault .sinIncomplete ∧ exec .protect s = .fault .sinIncomplete)) ∧
    ((∀ x ∈ s.bin, x ≠ .eos) → ∀ n,
      (exec (.decomp n) s = .fault .binIncomplete ∨ exec (.decomp n) s = .fault .dwinUnwritten) ∧
      (exec (.recover n) s = .fault .binIncomplete ∨ exec (.recover n) s = .fault .dwinUnwritten)) ∧
    (∀ e : Nat, s.cfg.keygenOk s.params = true → s.rng.length < 2 * (s.cfg.retry + 1) →
      AllRejected s.cfg e s.rng → exec (.keygen e) s = .fault .rngSilent)

/-- 46_control_pipeline.md R300, R301 and R302: the model's phase steps (log 8) refine the commands. From the state in
which DECOMP, RECOVER or COMP has entered `Filling`, and from the one in which PROTECT's second phase has, with the
ciphertexts of the first in `CTBUF`, a number of steps ends as the command's one big step ends. -/
def Obligations.PhasesRefineTheCommands : Prop :=
  (∀ (s : State) (n : Nat), s.resetLine = false → s.cfg.codecOk s.params = true → n ≤ s.params.ctCap →
    (∃ k, Host.Core.run Sys2Proof.core k (startDecode .decomp n s) = exec (.decomp n) s) ∧
    (s.status.prvv = true →
      ∃ k, Host.Core.run Sys2Proof.core k (startDecode .recover n s) = exec (.recover n) s)) ∧
  (∀ s : State, s.resetLine = false → s.cfg.codecOk s.params = true → s.status.pkopen = false →
    (∃ k, Host.Core.run Sys2Proof.core k (startEncode .comp { s with symcnt := 0 }) = exec .comp s) ∧
    ∀ (l : List Nat) (rest : List (Item Nat)), s.sin = segment l ++ rest → s.status.pubv = true →
      l.length ≤ s.params.ctCap → (∀ m ∈ l, m < s.keys.kn ∧ s.keys.power m < 2 ^ s.cfg.symw.toNat) →
      ∃ ctbuf : Mem, (∀ i, ctbuf.read i = (l.map s.keys.power)[i]?) ∧
        ∃ k, Host.Core.run Sys2Proof.core k
          (startEncode .protect { s with sin := rest, ctbuf := ctbuf, symcnt := l.length }) = exec .protect s)

/-! ### Invariants of every step -/

/-- 10_state.md R22 and R23, kept by every step from every state that satisfies them (`State.KeyInv`). -/
def Obligations.KeyInvariantIsKept : Prop :=
  ∀ s t : State, s.KeyInv → step s = .next t → t.KeyInv

/-- 10_state.md R50 and R52, 44_bitpacker.md R249, 10_state.md R41 and 20_memory.md R68 (`State.RestInv`): what holds
between two commands holds after the next. So does, with the key invariant, that every value of width `KW` is below
`2^KW` (`State.Fits`: 00_scope.md R12, 10_state.md R24), under legal parameters (00_scope.md R9) whose capacities the
counters can hold (log 19). -/
def Obligations.RestInvariantIsKept : Prop :=
  ∀ s t : State, s.RestInv → step s = .next t →
    t.RestInv ∧ (s.params.Legal → CountersFit s.params → s.KeyInv → s.Fits → t.Fits)

/-- The canonical form of the memories is kept by every step, and between commands no memory holds a cell beyond its
capacity (10_state.md R45, 20_memory.md R62). -/
def Obligations.MemoryInvariantIsKept : Prop :=
  ∀ s t : State, s.MemInv → step s = .next t →
    t.MemInv ∧ (s.phase = .idle → s.MemBound → t.MemBound)

/-- The reset state satisfies the invariants, under every legal set of parameters. -/
def Obligations.ResetMeetsTheInvariants : Prop :=
  ∀ P : Params, P.Legal →
    (State.resetWith P).KeyInv ∧ (State.resetWith P).RestInv ∧ (State.resetWith P).Fits ∧
    (State.resetWith P).MemInv ∧ (State.resetWith P).MemBound

/-! ### Key records as text -/

/-- 30_encoding.md R101: the text of a record reads back as its two numbers; so do two numbers with any non-empty run of
spaces, tabs and line ends between them, where the byte 0x0D is a line end by the model's choice (log 20); a number in
decimal has no sign and no leading zero, and 0 is the one digit `0`. -/
def Obligations.KeyTextRoundTrip : Prop :=
  (∀ r : KeyRecord, readKeyText r.text = some (r.fst, r.snd) ∧
    r.text = decimal r.fst ++ [0x20] ++ decimal r.snd ++ [0x0A]) ∧
  (∀ (a b : Nat) (sep : List Byte), sep ≠ [] → (∀ x ∈ sep, x ∈ ([0x20, 0x09, 0x0A, 0x0D] : List Byte)) →
    readKeyText (decimal a ++ sep ++ decimal b ++ [0x0A]) = some (a, b)) ∧
  decimal 0 = [0x30] ∧ (∀ v : Nat, (decimal v).head? = some 0x30 → v = 0) ∧
  (∀ v : Nat, ∀ x ∈ decimal v, 48 ≤ x.toNat ∧ x.toNat ≤ 57)
end

