-- ==== Sys2Proof/Laws/Memory.lean ====
section
/-! SUPPORT. The memories: a read after a write, the cells a write leaves alone, and that every operation on a memory
keeps its canonical form. The reads hold of every list; only `Mem.wf` needs the form. -/

namespace Sys2Proof.Machine

open Sys2Proof

/-! ### Reading after writing -/

/-- The cell written reads the value written. -/
@[simp] theorem Mem.read_write_self (m : Mem) (i : Nat) (v : Nat) : (m.write i v).read i = some v := by
  induction m with
  | nil => simp [Mem.write, Mem.read]
  | cons a m ih =>
    obtain ⟨j, x⟩ := a
    simp only [Mem.write]
    split
    · simp [Mem.read]
    · split
      · simp [Mem.read]
      · simp only [Mem.read]
        rw [if_neg (by omega), if_neg (by omega), ih]

/-- Every other cell reads as before. -/
theorem Mem.read_write_ne (m : Mem) {i k : Nat} (v : Nat) (h : k ≠ i) : (m.write i v).read k = m.read k := by
  induction m with
  | nil => simp only [Mem.write, Mem.read, if_neg h]; split <;> rfl
  | cons a m ih =>
    obtain ⟨j, x⟩ := a
    simp only [Mem.write]
    split
    · next hij =>
      simp only [Mem.read, if_neg h]
      split
      · rw [if_neg (by omega), if_pos (by omega)]
      · rfl
    · split
      · next hij =>
        subst hij
        simp only [Mem.read, if_neg h]
      · simp only [Mem.read, ih]

theorem Mem.read_write (m : Mem) (i k : Nat) (v : Nat) :
    (m.write i v).read k = if k = i then some v else m.read k := by
  split
  · next h => rw [h, Mem.read_write_self]
  · next h => exact m.read_write_ne v h

@[simp] theorem Mem.read_nil (k : Nat) : Mem.read [] k = none := rfl

/-! ### The canonical form -/

/-- A cell of a written memory is the one written or was there before. -/
theorem Mem.mem_write {m : Mem} {i : Nat} {v : Nat} {a : Nat × Nat} (h : a ∈ m.write i v) : a = (i, v) ∨ a ∈ m := by
  induction m with
  | nil => exact .inl (by simpa [Mem.write] using h)
  | cons b m ih =>
    obtain ⟨j, x⟩ := b
    simp only [Mem.write] at h
    split at h
    · simpa using h
    · split at h
      · rcases List.mem_cons.1 h with h | h
        · exact .inl h
        · exact .inr (List.mem_cons_of_mem _ h)
      · rcases List.mem_cons.1 h with h | h
        · exact .inr (h ▸ List.mem_cons_self)
        · exact (ih h).imp_right (List.mem_cons_of_mem _)

theorem Mem.wf_nil : Mem.wf [] := List.Pairwise.nil

/-- A write keeps the canonical form. -/
theorem Mem.wf_write {m : Mem} (h : m.wf) (i : Nat) (v : Nat) : (m.write i v).wf := by
  induction m with
  | nil => simp [Mem.write, Mem.wf]
  | cons a m ih =>
    obtain ⟨j, x⟩ := a
    have hc := List.pairwise_cons.1 h
    simp only [Mem.write]
    split
    · next hij =>
      refine List.pairwise_cons.2 ⟨fun b hb => ?_, h⟩
      rcases List.mem_cons.1 hb with rfl | hb
      · exact hij
      · exact Nat.lt_trans hij (hc.1 b hb)
    · split
      · next hij =>
        subst hij
        exact List.pairwise_cons.2 ⟨hc.1, hc.2⟩
      · refine List.pairwise_cons.2 ⟨fun b hb => ?_, ih hc.2⟩
        rcases Mem.mem_write hb with rfl | hb
        · show j < i
          omega
        · exact hc.1 b hb

/-- The blank fill is in canonical form. -/
theorem Mem.wf_blank (n : Nat) (v : Nat) : (Mem.blank n v).wf :=
  List.pairwise_map.2 List.pairwise_lt_range

/-- A memory in canonical form reads nothing below its first cell. -/
theorem Mem.read_eq_none_of_lt {m : Mem} {k : Nat} (h : ∀ a ∈ m, k < a.1) : m.read k = none := by
  cases m with
  | nil => rfl
  | cons a m =>
    have := h a List.mem_cons_self
    simp only [Mem.read]
    rw [if_neg (by omega), if_pos this]

/-- What the blank fill reads. -/
theorem Mem.read_blank (n : Nat) (v : Nat) (k : Nat) : (Mem.blank n v).read k = if k < n then some v else none := by
  have key : ∀ (d a : Nat), Mem.read ((List.range' a d).map (fun i => (i, v))) k =
      if a ≤ k ∧ k < a + d then some v else none := by
    intro d
    induction d with
    | zero => intro a; simp
    | succ d ih =>
      intro a
      simp only [List.range'_succ, List.map_cons, Mem.read, ih]
      split
      · next h => subst h; simp
      · split
        · next h1 h2 => rw [if_neg (by omega)]
        · next h1 h2 =>
          by_cases h3 : a + 1 ≤ k ∧ k < a + 1 + d
          · rw [if_pos h3, if_pos (by omega)]
          · rw [if_neg h3, if_neg (by omega)]
  have := key n 0
  simpa [Mem.blank, List.range_eq_range'] using this

/-- The shift keeps the canonical form. -/
theorem Mem.wf_shiftCells (n : Nat) : ∀ (k i : Nat) {m : Mem}, m.wf → (shiftCells n k i m).wf
  | 0, _, _, h => h
  | k + 1, i, m, h => by
    simp only [shiftCells]
    split
    · exact Mem.wf_shiftCells n k (i + 1) (Mem.wf_write h _ _)
    · exact Mem.wf_shiftCells n k (i + 1) h

/-- The shift writes only the cells it copies to. -/
theorem Mem.read_shiftCells_of_le (n : Nat) :
    ∀ (k i : Nat) (m : Mem) (j : Nat), i + k ≤ j → (shiftCells n k i m).read j = m.read j
  | 0, _, _, _, _ => rfl
  | k + 1, i, m, j, h => by
    simp only [shiftCells]
    split
    · rw [Mem.read_shiftCells_of_le n k (i + 1) _ j (by omega), Mem.read_write_ne _ _ (by omega)]
    · exact Mem.read_shiftCells_of_le n k (i + 1) m j (by omega)

end Sys2Proof.Machine
end

