-- ==== Sys2Proof/Laws/State.lean ====
section
/-! SUPPORT. What each update of the state does to each field: one lemma per field and update, true by `rfl`, so that no
proof unfolds an update. Lemma `<update>_<field>`; the fields an update writes come first. -/

namespace Sys2Proof.Machine

open Sys2Proof

/-! ### `pushResult` -/

@[simp] theorem pushResult_resv (c : Byte) (v : Nat) (s : State) : (pushResult c v s).resv = v := rfl
@[simp] theorem pushResult_res (c : Byte) (v : Nat) (s : State) :
    (pushResult c v s).res = s.res ++ [{ code := c, value := v }] := rfl
@[simp] theorem pushResult_phase (c : Byte) (v : Nat) (s : State) : (pushResult c v s).phase = .idle := rfl
@[simp] theorem pushResult_running (c : Byte) (v : Nat) (s : State) : (pushResult c v s).running = .nothing := rfl
@[simp] theorem pushResult_params (c : Byte) (v : Nat) (s : State) : (pushResult c v s).params = s.params := rfl
@[simp] theorem pushResult_tok (c : Byte) (v : Nat) (s : State) : (pushResult c v s).tok = s.tok := rfl
@[simp] theorem pushResult_keys (c : Byte) (v : Nat) (s : State) : (pushResult c v s).keys = s.keys := rfl
@[simp] theorem pushResult_cfg (c : Byte) (v : Nat) (s : State) : (pushResult c v s).cfg = s.cfg := rfl
@[simp] theorem pushResult_status (c : Byte) (v : Nat) (s : State) : (pushResult c v s).status = s.status := rfl
@[simp] theorem pushResult_symcnt (c : Byte) (v : Nat) (s : State) : (pushResult c v s).symcnt = s.symcnt := rfl
@[simp] theorem pushResult_bytecnt (c : Byte) (v : Nat) (s : State) : (pushResult c v s).bytecnt = s.bytecnt := rfl
@[simp] theorem pushResult_acc (c : Byte) (v : Nat) (s : State) : (pushResult c v s).acc = s.acc := rfl
@[simp] theorem pushResult_nbits (c : Byte) (v : Nat) (s : State) : (pushResult c v s).nbits = s.nbits := rfl
@[simp] theorem pushResult_ibuf (c : Byte) (v : Nat) (s : State) : (pushResult c v s).ibuf = s.ibuf := rfl
@[simp] theorem pushResult_ibits (c : Byte) (v : Nat) (s : State) : (pushResult c v s).ibits = s.ibits := rfl
@[simp] theorem pushResult_enc (c : Byte) (v : Nat) (s : State) : (pushResult c v s).enc = s.enc := rfl
@[simp] theorem pushResult_dr (c : Byte) (v : Nat) (s : State) : (pushResult c v s).dr = s.dr := rfl
@[simp] theorem pushResult_count (c : Byte) (v : Nat) (s : State) : (pushResult c v s).count = s.count := rfl
@[simp] theorem pushResult_budget (c : Byte) (v : Nat) (s : State) : (pushResult c v s).budget = s.budget := rfl
@[simp] theorem pushResult_win (c : Byte) (v : Nat) (s : State) : (pushResult c v s).win = s.win := rfl
@[simp] theorem pushResult_dwin (c : Byte) (v : Nat) (s : State) : (pushResult c v s).dwin = s.dwin := rfl
@[simp] theorem pushResult_ctbuf (c : Byte) (v : Nat) (s : State) : (pushResult c v s).ctbuf = s.ctbuf := rfl
@[simp] theorem pushResult_cmd (c : Byte) (v : Nat) (s : State) : (pushResult c v s).cmd = s.cmd := rfl
@[simp] theorem pushResult_sin (c : Byte) (v : Nat) (s : State) : (pushResult c v s).sin = s.sin := rfl
@[simp] theorem pushResult_sout (c : Byte) (v : Nat) (s : State) : (pushResult c v s).sout = s.sout := rfl
@[simp] theorem pushResult_bin (c : Byte) (v : Nat) (s : State) : (pushResult c v s).bin = s.bin := rfl
@[simp] theorem pushResult_bout (c : Byte) (v : Nat) (s : State) : (pushResult c v s).bout = s.bout := rfl
@[simp] theorem pushResult_rng (c : Byte) (v : Nat) (s : State) : (pushResult c v s).rng = s.rng := rfl
@[simp] theorem pushResult_kout (c : Byte) (v : Nat) (s : State) : (pushResult c v s).kout = s.kout := rfl
@[simp] theorem pushResult_resetLine (c : Byte) (v : Nat) (s : State) :
    (pushResult c v s).resetLine = s.resetLine := rfl

/-! ### `complete` -/

@[simp] theorem complete_resv (c : Byte) (v : Nat) (s : State) : (complete c v s).resv = v := rfl
@[simp] theorem complete_res (c : Byte) (v : Nat) (s : State) :
    (complete c v s).res = s.res ++ [{ code := c, value := v }] := rfl
@[simp] theorem complete_phase (c : Byte) (v : Nat) (s : State) : (complete c v s).phase = .idle := rfl
@[simp] theorem complete_running (c : Byte) (v : Nat) (s : State) : (complete c v s).running = .nothing := rfl
@[simp] theorem complete_status (c : Byte) (v : Nat) (s : State) : (complete c v s).status = s.status.record c := rfl
@[simp] theorem complete_params (c : Byte) (v : Nat) (s : State) : (complete c v s).params = s.params := rfl
@[simp] theorem complete_tok (c : Byte) (v : Nat) (s : State) : (complete c v s).tok = s.tok := rfl
@[simp] theorem complete_keys (c : Byte) (v : Nat) (s : State) : (complete c v s).keys = s.keys := rfl
@[simp] theorem complete_cfg (c : Byte) (v : Nat) (s : State) : (complete c v s).cfg = s.cfg := rfl
@[simp] theorem complete_symcnt (c : Byte) (v : Nat) (s : State) : (complete c v s).symcnt = s.symcnt := rfl
@[simp] theorem complete_bytecnt (c : Byte) (v : Nat) (s : State) : (complete c v s).bytecnt = s.bytecnt := rfl
@[simp] theorem complete_acc (c : Byte) (v : Nat) (s : State) : (complete c v s).acc = s.acc := rfl
@[simp] theorem complete_nbits (c : Byte) (v : Nat) (s : State) : (complete c v s).nbits = s.nbits := rfl
@[simp] theorem complete_ibuf (c : Byte) (v : Nat) (s : State) : (complete c v s).ibuf = s.ibuf := rfl
@[simp] theorem complete_ibits (c : Byte) (v : Nat) (s : State) : (complete c v s).ibits = s.ibits := rfl
@[simp] theorem complete_enc (c : Byte) (v : Nat) (s : State) : (complete c v s).enc = s.enc := rfl
@[simp] theorem complete_dr (c : Byte) (v : Nat) (s : State) : (complete c v s).dr = s.dr := rfl
@[simp] theorem complete_count (c : Byte) (v : Nat) (s : State) : (complete c v s).count = s.count := rfl
@[simp] theorem complete_budget (c : Byte) (v : Nat) (s : State) : (complete c v s).budget = s.budget := rfl
@[simp] theorem complete_win (c : Byte) (v : Nat) (s : State) : (complete c v s).win = s.win := rfl
@[simp] theorem complete_dwin (c : Byte) (v : Nat) (s : State) : (complete c v s).dwin = s.dwin := rfl
@[simp] theorem complete_ctbuf (c : Byte) (v : Nat) (s : State) : (complete c v s).ctbuf = s.ctbuf := rfl
@[simp] theorem complete_cmd (c : Byte) (v : Nat) (s : State) : (complete c v s).cmd = s.cmd := rfl
@[simp] theorem complete_sin (c : Byte) (v : Nat) (s : State) : (complete c v s).sin = s.sin := rfl
@[simp] theorem complete_sout (c : Byte) (v : Nat) (s : State) : (complete c v s).sout = s.sout := rfl
@[simp] theorem complete_bin (c : Byte) (v : Nat) (s : State) : (complete c v s).bin = s.bin := rfl
@[simp] theorem complete_bout (c : Byte) (v : Nat) (s : State) : (complete c v s).bout = s.bout := rfl
@[simp] theorem complete_rng (c : Byte) (v : Nat) (s : State) : (complete c v s).rng = s.rng := rfl
@[simp] theorem complete_kout (c : Byte) (v : Nat) (s : State) : (complete c v s).kout = s.kout := rfl
@[simp] theorem complete_resetLine (c : Byte) (v : Nat) (s : State) : (complete c v s).resetLine = s.resetLine := rfl

/-! ### `done` -/

@[simp] theorem done_resv (v : Nat) (s : State) : (done v s).resv = v := rfl
@[simp] theorem done_res (v : Nat) (s : State) : (done v s).res = s.res ++ [{ code := 0, value := v }] := rfl
@[simp] theorem done_phase (v : Nat) (s : State) : (done v s).phase = .idle := rfl
@[simp] theorem done_running (v : Nat) (s : State) : (done v s).running = .nothing := rfl
@[simp] theorem done_status (v : Nat) (s : State) : (done v s).status = s.status.record 0 := rfl
@[simp] theorem done_params (v : Nat) (s : State) : (done v s).params = s.params := rfl
@[simp] theorem done_tok (v : Nat) (s : State) : (done v s).tok = s.tok := rfl
@[simp] theorem done_keys (v : Nat) (s : State) : (done v s).keys = s.keys := rfl
@[simp] theorem done_cfg (v : Nat) (s : State) : (done v s).cfg = s.cfg := rfl
@[simp] theorem done_symcnt (v : Nat) (s : State) : (done v s).symcnt = s.symcnt := rfl
@[simp] theorem done_bytecnt (v : Nat) (s : State) : (done v s).bytecnt = s.bytecnt := rfl
@[simp] theorem done_acc (v : Nat) (s : State) : (done v s).acc = s.acc := rfl
@[simp] theorem done_nbits (v : Nat) (s : State) : (done v s).nbits = s.nbits := rfl
@[simp] theorem done_ibuf (v : Nat) (s : State) : (done v s).ibuf = s.ibuf := rfl
@[simp] theorem done_ibits (v : Nat) (s : State) : (done v s).ibits = s.ibits := rfl
@[simp] theorem done_enc (v : Nat) (s : State) : (done v s).enc = s.enc := rfl
@[simp] theorem done_dr (v : Nat) (s : State) : (done v s).dr = s.dr := rfl
@[simp] theorem done_count (v : Nat) (s : State) : (done v s).count = s.count := rfl
@[simp] theorem done_budget (v : Nat) (s : State) : (done v s).budget = s.budget := rfl
@[simp] theorem done_win (v : Nat) (s : State) : (done v s).win = s.win := rfl
@[simp] theorem done_dwin (v : Nat) (s : State) : (done v s).dwin = s.dwin := rfl
@[simp] theorem done_ctbuf (v : Nat) (s : State) : (done v s).ctbuf = s.ctbuf := rfl
@[simp] theorem done_cmd (v : Nat) (s : State) : (done v s).cmd = s.cmd := rfl
@[simp] theorem done_sin (v : Nat) (s : State) : (done v s).sin = s.sin := rfl
@[simp] theorem done_sout (v : Nat) (s : State) : (done v s).sout = s.sout := rfl
@[simp] theorem done_bin (v : Nat) (s : State) : (done v s).bin = s.bin := rfl
@[simp] theorem done_bout (v : Nat) (s : State) : (done v s).bout = s.bout := rfl
@[simp] theorem done_rng (v : Nat) (s : State) : (done v s).rng = s.rng := rfl
@[simp] theorem done_kout (v : Nat) (s : State) : (done v s).kout = s.kout := rfl
@[simp] theorem done_resetLine (v : Nat) (s : State) : (done v s).resetLine = s.resetLine := rfl

/-! ### `raise` -/

@[simp] theorem raise_resv (e : Exc) (s : State) : (raise e s).resv = e.info := rfl
@[simp] theorem raise_res (e : Exc) (s : State) :
    (raise e s).res = s.res ++ [{ code := e.kind.code, value := e.info }] := rfl
@[simp] theorem raise_phase (e : Exc) (s : State) : (raise e s).phase = .idle := rfl
@[simp] theorem raise_running (e : Exc) (s : State) : (raise e s).running = .nothing := rfl
@[simp] theorem raise_status (e : Exc) (s : State) : (raise e s).status = s.status.record e.kind.code := rfl
@[simp] theorem raise_params (e : Exc) (s : State) : (raise e s).params = s.params := rfl
@[simp] theorem raise_tok (e : Exc) (s : State) : (raise e s).tok = s.tok := rfl
@[simp] theorem raise_keys (e : Exc) (s : State) : (raise e s).keys = s.keys := rfl
@[simp] theorem raise_cfg (e : Exc) (s : State) : (raise e s).cfg = s.cfg := rfl
@[simp] theorem raise_symcnt (e : Exc) (s : State) : (raise e s).symcnt = s.symcnt := rfl
@[simp] theorem raise_bytecnt (e : Exc) (s : State) : (raise e s).bytecnt = s.bytecnt := rfl
@[simp] theorem raise_acc (e : Exc) (s : State) : (raise e s).acc = s.acc := rfl
@[simp] theorem raise_nbits (e : Exc) (s : State) : (raise e s).nbits = s.nbits := rfl
@[simp] theorem raise_ibuf (e : Exc) (s : State) : (raise e s).ibuf = s.ibuf := rfl
@[simp] theorem raise_ibits (e : Exc) (s : State) : (raise e s).ibits = s.ibits := rfl
@[simp] theorem raise_enc (e : Exc) (s : State) : (raise e s).enc = s.enc := rfl
@[simp] theorem raise_dr (e : Exc) (s : State) : (raise e s).dr = s.dr := rfl
@[simp] theorem raise_count (e : Exc) (s : State) : (raise e s).count = s.count := rfl
@[simp] theorem raise_budget (e : Exc) (s : State) : (raise e s).budget = s.budget := rfl
@[simp] theorem raise_win (e : Exc) (s : State) : (raise e s).win = s.win := rfl
@[simp] theorem raise_dwin (e : Exc) (s : State) : (raise e s).dwin = s.dwin := rfl
@[simp] theorem raise_ctbuf (e : Exc) (s : State) : (raise e s).ctbuf = s.ctbuf := rfl
@[simp] theorem raise_cmd (e : Exc) (s : State) : (raise e s).cmd = s.cmd := rfl
@[simp] theorem raise_sin (e : Exc) (s : State) : (raise e s).sin = s.sin := rfl
@[simp] theorem raise_sout (e : Exc) (s : State) : (raise e s).sout = s.sout := rfl
@[simp] theorem raise_bin (e : Exc) (s : State) : (raise e s).bin = s.bin := rfl
@[simp] theorem raise_bout (e : Exc) (s : State) : (raise e s).bout = s.bout := rfl
@[simp] theorem raise_rng (e : Exc) (s : State) : (raise e s).rng = s.rng := rfl
@[simp] theorem raise_kout (e : Exc) (s : State) : (raise e s).kout = s.kout := rfl
@[simp] theorem raise_resetLine (e : Exc) (s : State) : (raise e s).resetLine = s.resetLine := rfl

/-! ### `clearPacker` -/

@[simp] theorem clearPacker_acc (s : State) : (clearPacker s).acc = 0 := rfl
@[simp] theorem clearPacker_nbits (s : State) : (clearPacker s).nbits = 0 := rfl
@[simp] theorem clearPacker_params (s : State) : (clearPacker s).params = s.params := rfl
@[simp] theorem clearPacker_tok (s : State) : (clearPacker s).tok = s.tok := rfl
@[simp] theorem clearPacker_keys (s : State) : (clearPacker s).keys = s.keys := rfl
@[simp] theorem clearPacker_resv (s : State) : (clearPacker s).resv = s.resv := rfl
@[simp] theorem clearPacker_cfg (s : State) : (clearPacker s).cfg = s.cfg := rfl
@[simp] theorem clearPacker_status (s : State) : (clearPacker s).status = s.status := rfl
@[simp] theorem clearPacker_symcnt (s : State) : (clearPacker s).symcnt = s.symcnt := rfl
@[simp] theorem clearPacker_bytecnt (s : State) : (clearPacker s).bytecnt = s.bytecnt := rfl
@[simp] theorem clearPacker_ibuf (s : State) : (clearPacker s).ibuf = s.ibuf := rfl
@[simp] theorem clearPacker_ibits (s : State) : (clearPacker s).ibits = s.ibits := rfl
@[simp] theorem clearPacker_enc (s : State) : (clearPacker s).enc = s.enc := rfl
@[simp] theorem clearPacker_dr (s : State) : (clearPacker s).dr = s.dr := rfl
@[simp] theorem clearPacker_count (s : State) : (clearPacker s).count = s.count := rfl
@[simp] theorem clearPacker_budget (s : State) : (clearPacker s).budget = s.budget := rfl
@[simp] theorem clearPacker_phase (s : State) : (clearPacker s).phase = s.phase := rfl
@[simp] theorem clearPacker_running (s : State) : (clearPacker s).running = s.running := rfl
@[simp] theorem clearPacker_win (s : State) : (clearPacker s).win = s.win := rfl
@[simp] theorem clearPacker_dwin (s : State) : (clearPacker s).dwin = s.dwin := rfl
@[simp] theorem clearPacker_ctbuf (s : State) : (clearPacker s).ctbuf = s.ctbuf := rfl
@[simp] theorem clearPacker_cmd (s : State) : (clearPacker s).cmd = s.cmd := rfl
@[simp] theorem clearPacker_res (s : State) : (clearPacker s).res = s.res := rfl
@[simp] theorem clearPacker_sin (s : State) : (clearPacker s).sin = s.sin := rfl
@[simp] theorem clearPacker_sout (s : State) : (clearPacker s).sout = s.sout := rfl
@[simp] theorem clearPacker_bin (s : State) : (clearPacker s).bin = s.bin := rfl
@[simp] theorem clearPacker_bout (s : State) : (clearPacker s).bout = s.bout := rfl
@[simp] theorem clearPacker_rng (s : State) : (clearPacker s).rng = s.rng := rfl
@[simp] theorem clearPacker_kout (s : State) : (clearPacker s).kout = s.kout := rfl
@[simp] theorem clearPacker_resetLine (s : State) : (clearPacker s).resetLine = s.resetLine := rfl

/-! ### `withPacker` -/

@[simp] theorem withPacker_acc (s : State) (p : Packer) : (s.withPacker p).acc = p.acc := rfl
@[simp] theorem withPacker_nbits (s : State) (p : Packer) : (s.withPacker p).nbits = p.nbits := rfl
@[simp] theorem withPacker_bytecnt (s : State) (p : Packer) : (s.withPacker p).bytecnt = p.bytecnt := rfl
@[simp] theorem withPacker_bout (s : State) (p : Packer) : (s.withPacker p).bout = p.bout := rfl
@[simp] theorem withPacker_params (s : State) (p : Packer) : (s.withPacker p).params = s.params := rfl
@[simp] theorem withPacker_tok (s : State) (p : Packer) : (s.withPacker p).tok = s.tok := rfl
@[simp] theorem withPacker_keys (s : State) (p : Packer) : (s.withPacker p).keys = s.keys := rfl
@[simp] theorem withPacker_resv (s : State) (p : Packer) : (s.withPacker p).resv = s.resv := rfl
@[simp] theorem withPacker_cfg (s : State) (p : Packer) : (s.withPacker p).cfg = s.cfg := rfl
@[simp] theorem withPacker_status (s : State) (p : Packer) : (s.withPacker p).status = s.status := rfl
@[simp] theorem withPacker_symcnt (s : State) (p : Packer) : (s.withPacker p).symcnt = s.symcnt := rfl
@[simp] theorem withPacker_ibuf (s : State) (p : Packer) : (s.withPacker p).ibuf = s.ibuf := rfl
@[simp] theorem withPacker_ibits (s : State) (p : Packer) : (s.withPacker p).ibits = s.ibits := rfl
@[simp] theorem withPacker_enc (s : State) (p : Packer) : (s.withPacker p).enc = s.enc := rfl
@[simp] theorem withPacker_dr (s : State) (p : Packer) : (s.withPacker p).dr = s.dr := rfl
@[simp] theorem withPacker_count (s : State) (p : Packer) : (s.withPacker p).count = s.count := rfl
@[simp] theorem withPacker_budget (s : State) (p : Packer) : (s.withPacker p).budget = s.budget := rfl
@[simp] theorem withPacker_phase (s : State) (p : Packer) : (s.withPacker p).phase = s.phase := rfl
@[simp] theorem withPacker_running (s : State) (p : Packer) : (s.withPacker p).running = s.running := rfl
@[simp] theorem withPacker_win (s : State) (p : Packer) : (s.withPacker p).win = s.win := rfl
@[simp] theorem withPacker_dwin (s : State) (p : Packer) : (s.withPacker p).dwin = s.dwin := rfl
@[simp] theorem withPacker_ctbuf (s : State) (p : Packer) : (s.withPacker p).ctbuf = s.ctbuf := rfl
@[simp] theorem withPacker_cmd (s : State) (p : Packer) : (s.withPacker p).cmd = s.cmd := rfl
@[simp] theorem withPacker_res (s : State) (p : Packer) : (s.withPacker p).res = s.res := rfl
@[simp] theorem withPacker_sin (s : State) (p : Packer) : (s.withPacker p).sin = s.sin := rfl
@[simp] theorem withPacker_sout (s : State) (p : Packer) : (s.withPacker p).sout = s.sout := rfl
@[simp] theorem withPacker_bin (s : State) (p : Packer) : (s.withPacker p).bin = s.bin := rfl
@[simp] theorem withPacker_rng (s : State) (p : Packer) : (s.withPacker p).rng = s.rng := rfl
@[simp] theorem withPacker_kout (s : State) (p : Packer) : (s.withPacker p).kout = s.kout := rfl
@[simp] theorem withPacker_resetLine (s : State) (p : Packer) : (s.withPacker p).resetLine = s.resetLine := rfl

/-! ### `withEncoder` -/

@[simp] theorem withEncoder_acc (s : State) (e : Encoder) : (s.withEncoder e).acc = e.pk.acc := rfl
@[simp] theorem withEncoder_nbits (s : State) (e : Encoder) : (s.withEncoder e).nbits = e.pk.nbits := rfl
@[simp] theorem withEncoder_bytecnt (s : State) (e : Encoder) :
    (s.withEncoder e).bytecnt = e.pk.bytecnt := rfl
@[simp] theorem withEncoder_bout (s : State) (e : Encoder) : (s.withEncoder e).bout = e.pk.bout := rfl
@[simp] theorem withEncoder_enc (s : State) (e : Encoder) : (s.withEncoder e).enc = e.regs := rfl
@[simp] theorem withEncoder_win (s : State) (e : Encoder) : (s.withEncoder e).win = e.win := rfl
@[simp] theorem withEncoder_sin (s : State) (e : Encoder) : (s.withEncoder e).sin = e.sin := rfl
@[simp] theorem withEncoder_symcnt (s : State) (e : Encoder) : (s.withEncoder e).symcnt = e.symcnt := rfl
@[simp] theorem withEncoder_phase (s : State) (e : Encoder) : (s.withEncoder e).phase = e.phase := rfl
@[simp] theorem withEncoder_params (s : State) (e : Encoder) : (s.withEncoder e).params = s.params := rfl
@[simp] theorem withEncoder_tok (s : State) (e : Encoder) : (s.withEncoder e).tok = s.tok := rfl
@[simp] theorem withEncoder_keys (s : State) (e : Encoder) : (s.withEncoder e).keys = s.keys := rfl
@[simp] theorem withEncoder_resv (s : State) (e : Encoder) : (s.withEncoder e).resv = s.resv := rfl
@[simp] theorem withEncoder_cfg (s : State) (e : Encoder) : (s.withEncoder e).cfg = s.cfg := rfl
@[simp] theorem withEncoder_status (s : State) (e : Encoder) : (s.withEncoder e).status = s.status := rfl
@[simp] theorem withEncoder_ibuf (s : State) (e : Encoder) : (s.withEncoder e).ibuf = s.ibuf := rfl
@[simp] theorem withEncoder_ibits (s : State) (e : Encoder) : (s.withEncoder e).ibits = s.ibits := rfl
@[simp] theorem withEncoder_dr (s : State) (e : Encoder) : (s.withEncoder e).dr = s.dr := rfl
@[simp] theorem withEncoder_count (s : State) (e : Encoder) : (s.withEncoder e).count = s.count := rfl
@[simp] theorem withEncoder_budget (s : State) (e : Encoder) : (s.withEncoder e).budget = s.budget := rfl
@[simp] theorem withEncoder_running (s : State) (e : Encoder) : (s.withEncoder e).running = s.running := rfl
@[simp] theorem withEncoder_dwin (s : State) (e : Encoder) : (s.withEncoder e).dwin = s.dwin := rfl
@[simp] theorem withEncoder_ctbuf (s : State) (e : Encoder) : (s.withEncoder e).ctbuf = s.ctbuf := rfl
@[simp] theorem withEncoder_cmd (s : State) (e : Encoder) : (s.withEncoder e).cmd = s.cmd := rfl
@[simp] theorem withEncoder_res (s : State) (e : Encoder) : (s.withEncoder e).res = s.res := rfl
@[simp] theorem withEncoder_sout (s : State) (e : Encoder) : (s.withEncoder e).sout = s.sout := rfl
@[simp] theorem withEncoder_bin (s : State) (e : Encoder) : (s.withEncoder e).bin = s.bin := rfl
@[simp] theorem withEncoder_rng (s : State) (e : Encoder) : (s.withEncoder e).rng = s.rng := rfl
@[simp] theorem withEncoder_kout (s : State) (e : Encoder) : (s.withEncoder e).kout = s.kout := rfl
@[simp] theorem withEncoder_resetLine (s : State) (e : Encoder) : (s.withEncoder e).resetLine = s.resetLine := rfl

/-! ### `withDecoder` -/

@[simp] theorem withDecoder_ibuf (s : State) (d : Decoder) : (s.withDecoder d).ibuf = d.unp.ibuf := rfl
@[simp] theorem withDecoder_ibits (s : State) (d : Decoder) : (s.withDecoder d).ibits = d.unp.ibits := rfl
@[simp] theorem withDecoder_bin (s : State) (d : Decoder) : (s.withDecoder d).bin = d.unp.bin := rfl
@[simp] theorem withDecoder_dwin (s : State) (d : Decoder) : (s.withDecoder d).dwin = d.dwin := rfl
@[simp] theorem withDecoder_dr (s : State) (d : Decoder) : (s.withDecoder d).dr = d.dr := rfl
@[simp] theorem withDecoder_symcnt (s : State) (d : Decoder) : (s.withDecoder d).symcnt = d.symcnt := rfl
@[simp] theorem withDecoder_sout (s : State) (d : Decoder) : (s.withDecoder d).sout = d.sout := rfl
@[simp] theorem withDecoder_ctbuf (s : State) (d : Decoder) : (s.withDecoder d).ctbuf = d.ctbuf := rfl
@[simp] theorem withDecoder_phase (s : State) (d : Decoder) : (s.withDecoder d).phase = d.phase := rfl
@[simp] theorem withDecoder_params (s : State) (d : Decoder) : (s.withDecoder d).params = s.params := rfl
@[simp] theorem withDecoder_tok (s : State) (d : Decoder) : (s.withDecoder d).tok = d.tok := rfl
@[simp] theorem withDecoder_keys (s : State) (d : Decoder) : (s.withDecoder d).keys = s.keys := rfl
@[simp] theorem withDecoder_resv (s : State) (d : Decoder) : (s.withDecoder d).resv = s.resv := rfl
@[simp] theorem withDecoder_cfg (s : State) (d : Decoder) : (s.withDecoder d).cfg = s.cfg := rfl
@[simp] theorem withDecoder_status (s : State) (d : Decoder) : (s.withDecoder d).status = s.status := rfl
@[simp] theorem withDecoder_bytecnt (s : State) (d : Decoder) : (s.withDecoder d).bytecnt = s.bytecnt := rfl
@[simp] theorem withDecoder_acc (s : State) (d : Decoder) : (s.withDecoder d).acc = s.acc := rfl
@[simp] theorem withDecoder_nbits (s : State) (d : Decoder) : (s.withDecoder d).nbits = s.nbits := rfl
@[simp] theorem withDecoder_enc (s : State) (d : Decoder) : (s.withDecoder d).enc = s.enc := rfl
@[simp] theorem withDecoder_count (s : State) (d : Decoder) : (s.withDecoder d).count = s.count := rfl
@[simp] theorem withDecoder_budget (s : State) (d : Decoder) : (s.withDecoder d).budget = s.budget := rfl
@[simp] theorem withDecoder_running (s : State) (d : Decoder) : (s.withDecoder d).running = s.running := rfl
@[simp] theorem withDecoder_win (s : State) (d : Decoder) : (s.withDecoder d).win = s.win := rfl
@[simp] theorem withDecoder_cmd (s : State) (d : Decoder) : (s.withDecoder d).cmd = s.cmd := rfl
@[simp] theorem withDecoder_res (s : State) (d : Decoder) : (s.withDecoder d).res = s.res := rfl
@[simp] theorem withDecoder_sin (s : State) (d : Decoder) : (s.withDecoder d).sin = s.sin := rfl
@[simp] theorem withDecoder_bout (s : State) (d : Decoder) : (s.withDecoder d).bout = s.bout := rfl
@[simp] theorem withDecoder_rng (s : State) (d : Decoder) : (s.withDecoder d).rng = s.rng := rfl
@[simp] theorem withDecoder_kout (s : State) (d : Decoder) : (s.withDecoder d).kout = s.kout := rfl
@[simp] theorem withDecoder_resetLine (s : State) (d : Decoder) : (s.withDecoder d).resetLine = s.resetLine := rfl

/-! ### `resetEngine` -/

@[simp] theorem resetEngine_params (s : State) : (resetEngine s).params = s.params := rfl
@[simp] theorem resetEngine_tok (s : State) : (resetEngine s).tok = (State.resetWith s.params).tok := rfl
@[simp] theorem resetEngine_keys (s : State) : (resetEngine s).keys = (State.resetWith s.params).keys := rfl
@[simp] theorem resetEngine_resv (s : State) : (resetEngine s).resv = (State.resetWith s.params).resv := rfl
@[simp] theorem resetEngine_cfg (s : State) : (resetEngine s).cfg = (State.resetWith s.params).cfg := rfl
@[simp] theorem resetEngine_status (s : State) : (resetEngine s).status = (State.resetWith s.params).status := rfl
@[simp] theorem resetEngine_symcnt (s : State) : (resetEngine s).symcnt = (State.resetWith s.params).symcnt := rfl
@[simp] theorem resetEngine_bytecnt (s : State) : (resetEngine s).bytecnt = (State.resetWith s.params).bytecnt := rfl
@[simp] theorem resetEngine_acc (s : State) : (resetEngine s).acc = (State.resetWith s.params).acc := rfl
@[simp] theorem resetEngine_nbits (s : State) : (resetEngine s).nbits = (State.resetWith s.params).nbits := rfl
@[simp] theorem resetEngine_ibuf (s : State) : (resetEngine s).ibuf = (State.resetWith s.params).ibuf := rfl
@[simp] theorem resetEngine_ibits (s : State) : (resetEngine s).ibits = (State.resetWith s.params).ibits := rfl
@[simp] theorem resetEngine_enc (s : State) : (resetEngine s).enc = (State.resetWith s.params).enc := rfl
@[simp] theorem resetEngine_dr (s : State) : (resetEngine s).dr = (State.resetWith s.params).dr := rfl
@[simp] theorem resetEngine_count (s : State) : (resetEngine s).count = (State.resetWith s.params).count := rfl
@[simp] theorem resetEngine_budget (s : State) : (resetEngine s).budget = (State.resetWith s.params).budget := rfl
@[simp] theorem resetEngine_phase (s : State) : (resetEngine s).phase = (State.resetWith s.params).phase := rfl
@[simp] theorem resetEngine_running (s : State) : (resetEngine s).running = (State.resetWith s.params).running := rfl
@[simp] theorem resetEngine_win (s : State) : (resetEngine s).win = (State.resetWith s.params).win := rfl
@[simp] theorem resetEngine_dwin (s : State) : (resetEngine s).dwin = (State.resetWith s.params).dwin := rfl
@[simp] theorem resetEngine_ctbuf (s : State) : (resetEngine s).ctbuf = (State.resetWith s.params).ctbuf := rfl
@[simp] theorem resetEngine_cmd (s : State) : (resetEngine s).cmd = s.cmd := rfl
@[simp] theorem resetEngine_res (s : State) : (resetEngine s).res = s.res := rfl
@[simp] theorem resetEngine_sin (s : State) : (resetEngine s).sin = s.sin := rfl
@[simp] theorem resetEngine_sout (s : State) : (resetEngine s).sout = s.sout := rfl
@[simp] theorem resetEngine_bin (s : State) : (resetEngine s).bin = s.bin := rfl
@[simp] theorem resetEngine_bout (s : State) : (resetEngine s).bout = s.bout := rfl
@[simp] theorem resetEngine_rng (s : State) : (resetEngine s).rng = s.rng := rfl
@[simp] theorem resetEngine_kout (s : State) : (resetEngine s).kout = s.kout := rfl
@[simp] theorem resetEngine_resetLine (s : State) : (resetEngine s).resetLine = s.resetLine := rfl

/-! ### `commit` -/

@[simp] theorem commit_params (p q e : Nat) (s : State) : (commit p q e s).params = s.params := rfl
@[simp] theorem commit_tok (p q e : Nat) (s : State) : (commit p q e s).tok = s.tok := rfl
@[simp] theorem commit_keys (p q e : Nat) (s : State) : (commit p q e s).keys = derive p q e := rfl
@[simp] theorem commit_status (p q e : Nat) (s : State) :
    (commit p q e s).status = s.status.setKeyValid true true := rfl
@[simp] theorem commit_kout (p q e : Nat) (s : State) :
    (commit p q e s).kout = s.kout ++ keyRecords (derive p q e) := rfl
@[simp] theorem commit_resv (p q e : Nat) (s : State) : (commit p q e s).resv = s.resv := rfl
@[simp] theorem commit_cfg (p q e : Nat) (s : State) : (commit p q e s).cfg = s.cfg := rfl
@[simp] theorem commit_symcnt (p q e : Nat) (s : State) : (commit p q e s).symcnt = s.symcnt := rfl
@[simp] theorem commit_bytecnt (p q e : Nat) (s : State) : (commit p q e s).bytecnt = s.bytecnt := rfl
@[simp] theorem commit_acc (p q e : Nat) (s : State) : (commit p q e s).acc = s.acc := rfl
@[simp] theorem commit_nbits (p q e : Nat) (s : State) : (commit p q e s).nbits = s.nbits := rfl
@[simp] theorem commit_ibuf (p q e : Nat) (s : State) : (commit p q e s).ibuf = s.ibuf := rfl
@[simp] theorem commit_ibits (p q e : Nat) (s : State) : (commit p q e s).ibits = s.ibits := rfl
@[simp] theorem commit_enc (p q e : Nat) (s : State) : (commit p q e s).enc = s.enc := rfl
@[simp] theorem commit_dr (p q e : Nat) (s : State) : (commit p q e s).dr = s.dr := rfl
@[simp] theorem commit_count (p q e : Nat) (s : State) : (commit p q e s).count = s.count := rfl
@[simp] theorem commit_budget (p q e : Nat) (s : State) : (commit p q e s).budget = s.budget := rfl
@[simp] theorem commit_phase (p q e : Nat) (s : State) : (commit p q e s).phase = s.phase := rfl
@[simp] theorem commit_running (p q e : Nat) (s : State) : (commit p q e s).running = s.running := rfl
@[simp] theorem commit_win (p q e : Nat) (s : State) : (commit p q e s).win = s.win := rfl
@[simp] theorem commit_dwin (p q e : Nat) (s : State) : (commit p q e s).dwin = s.dwin := rfl
@[simp] theorem commit_ctbuf (p q e : Nat) (s : State) : (commit p q e s).ctbuf = s.ctbuf := rfl
@[simp] theorem commit_cmd (p q e : Nat) (s : State) : (commit p q e s).cmd = s.cmd := rfl
@[simp] theorem commit_res (p q e : Nat) (s : State) : (commit p q e s).res = s.res := rfl
@[simp] theorem commit_sin (p q e : Nat) (s : State) : (commit p q e s).sin = s.sin := rfl
@[simp] theorem commit_sout (p q e : Nat) (s : State) : (commit p q e s).sout = s.sout := rfl
@[simp] theorem commit_bin (p q e : Nat) (s : State) : (commit p q e s).bin = s.bin := rfl
@[simp] theorem commit_bout (p q e : Nat) (s : State) : (commit p q e s).bout = s.bout := rfl
@[simp] theorem commit_rng (p q e : Nat) (s : State) : (commit p q e s).rng = s.rng := rfl
@[simp] theorem commit_resetLine (p q e : Nat) (s : State) : (commit p q e s).resetLine = s.resetLine := rfl

/-! ### `startEncode` -/

@[simp] theorem startEncode_bytecnt (r : Running) (s : State) : (startEncode r s).bytecnt = 0 := rfl
@[simp] theorem startEncode_acc (r : Running) (s : State) : (startEncode r s).acc = 0 := rfl
@[simp] theorem startEncode_nbits (r : Running) (s : State) : (startEncode r s).nbits = 0 := rfl
@[simp] theorem startEncode_phase (r : Running) (s : State) : (startEncode r s).phase = .filling := rfl
@[simp] theorem startEncode_running (r : Running) (s : State) : (startEncode r s).running = r := rfl
@[simp] theorem startEncode_enc (r : Running) (s : State) :
    (startEncode r s).enc = { s.enc with eos := false, taken := 0 } := rfl
@[simp] theorem startEncode_params (r : Running) (s : State) : (startEncode r s).params = s.params := rfl
@[simp] theorem startEncode_tok (r : Running) (s : State) : (startEncode r s).tok = s.tok := rfl
@[simp] theorem startEncode_keys (r : Running) (s : State) : (startEncode r s).keys = s.keys := rfl
@[simp] theorem startEncode_resv (r : Running) (s : State) : (startEncode r s).resv = s.resv := rfl
@[simp] theorem startEncode_cfg (r : Running) (s : State) : (startEncode r s).cfg = s.cfg := rfl
@[simp] theorem startEncode_status (r : Running) (s : State) : (startEncode r s).status = s.status := rfl
@[simp] theorem startEncode_symcnt (r : Running) (s : State) : (startEncode r s).symcnt = s.symcnt := rfl
@[simp] theorem startEncode_ibuf (r : Running) (s : State) : (startEncode r s).ibuf = s.ibuf := rfl
@[simp] theorem startEncode_ibits (r : Running) (s : State) : (startEncode r s).ibits = s.ibits := rfl
@[simp] theorem startEncode_dr (r : Running) (s : State) : (startEncode r s).dr = s.dr := rfl
@[simp] theorem startEncode_count (r : Running) (s : State) : (startEncode r s).count = s.count := rfl
@[simp] theorem startEncode_budget (r : Running) (s : State) : (startEncode r s).budget = s.budget := rfl
@[simp] theorem startEncode_win (r : Running) (s : State) : (startEncode r s).win = s.win := rfl
@[simp] theorem startEncode_dwin (r : Running) (s : State) : (startEncode r s).dwin = s.dwin := rfl
@[simp] theorem startEncode_ctbuf (r : Running) (s : State) : (startEncode r s).ctbuf = s.ctbuf := rfl
@[simp] theorem startEncode_cmd (r : Running) (s : State) : (startEncode r s).cmd = s.cmd := rfl
@[simp] theorem startEncode_res (r : Running) (s : State) : (startEncode r s).res = s.res := rfl
@[simp] theorem startEncode_sin (r : Running) (s : State) : (startEncode r s).sin = s.sin := rfl
@[simp] theorem startEncode_sout (r : Running) (s : State) : (startEncode r s).sout = s.sout := rfl
@[simp] theorem startEncode_bin (r : Running) (s : State) : (startEncode r s).bin = s.bin := rfl
@[simp] theorem startEncode_bout (r : Running) (s : State) : (startEncode r s).bout = s.bout := rfl
@[simp] theorem startEncode_rng (r : Running) (s : State) : (startEncode r s).rng = s.rng := rfl
@[simp] theorem startEncode_kout (r : Running) (s : State) : (startEncode r s).kout = s.kout := rfl
@[simp] theorem startEncode_resetLine (r : Running) (s : State) : (startEncode r s).resetLine = s.resetLine := rfl

/-! ### `startDecode` -/

@[simp] theorem startDecode_symcnt (r : Running) (n : Nat) (s : State) : (startDecode r n s).symcnt = 0 := rfl
@[simp] theorem startDecode_count (r : Running) (n : Nat) (s : State) : (startDecode r n s).count = n := rfl
@[simp] theorem startDecode_phase (r : Running) (n : Nat) (s : State) : (startDecode r n s).phase = .filling := rfl
@[simp] theorem startDecode_running (r : Running) (n : Nat) (s : State) : (startDecode r n s).running = r := rfl
@[simp] theorem startDecode_ctbuf (r : Running) (n : Nat) (s : State) :
    (startDecode r n s).ctbuf = if r = .recover then [] else s.ctbuf := rfl
@[simp] theorem startDecode_params (r : Running) (n : Nat) (s : State) : (startDecode r n s).params = s.params := rfl
@[simp] theorem startDecode_tok (r : Running) (n : Nat) (s : State) : (startDecode r n s).tok = s.tok := rfl
@[simp] theorem startDecode_keys (r : Running) (n : Nat) (s : State) : (startDecode r n s).keys = s.keys := rfl
@[simp] theorem startDecode_resv (r : Running) (n : Nat) (s : State) : (startDecode r n s).resv = s.resv := rfl
@[simp] theorem startDecode_cfg (r : Running) (n : Nat) (s : State) : (startDecode r n s).cfg = s.cfg := rfl
@[simp] theorem startDecode_status (r : Running) (n : Nat) (s : State) : (startDecode r n s).status = s.status := rfl
@[simp] theorem startDecode_bytecnt (r : Running) (n : Nat) (s : State) :
    (startDecode r n s).bytecnt = s.bytecnt := rfl
@[simp] theorem startDecode_acc (r : Running) (n : Nat) (s : State) : (startDecode r n s).acc = s.acc := rfl
@[simp] theorem startDecode_nbits (r : Running) (n : Nat) (s : State) : (startDecode r n s).nbits = s.nbits := rfl
@[simp] theorem startDecode_ibuf (r : Running) (n : Nat) (s : State) : (startDecode r n s).ibuf = s.ibuf := rfl
@[simp] theorem startDecode_ibits (r : Running) (n : Nat) (s : State) : (startDecode r n s).ibits = s.ibits := rfl
@[simp] theorem startDecode_enc (r : Running) (n : Nat) (s : State) : (startDecode r n s).enc = s.enc := rfl
@[simp] theorem startDecode_dr (r : Running) (n : Nat) (s : State) : (startDecode r n s).dr = s.dr := rfl
@[simp] theorem startDecode_budget (r : Running) (n : Nat) (s : State) : (startDecode r n s).budget = s.budget := rfl
@[simp] theorem startDecode_win (r : Running) (n : Nat) (s : State) : (startDecode r n s).win = s.win := rfl
@[simp] theorem startDecode_dwin (r : Running) (n : Nat) (s : State) : (startDecode r n s).dwin = s.dwin := rfl
@[simp] theorem startDecode_cmd (r : Running) (n : Nat) (s : State) : (startDecode r n s).cmd = s.cmd := rfl
@[simp] theorem startDecode_res (r : Running) (n : Nat) (s : State) : (startDecode r n s).res = s.res := rfl
@[simp] theorem startDecode_sin (r : Running) (n : Nat) (s : State) : (startDecode r n s).sin = s.sin := rfl
@[simp] theorem startDecode_sout (r : Running) (n : Nat) (s : State) : (startDecode r n s).sout = s.sout := rfl
@[simp] theorem startDecode_bin (r : Running) (n : Nat) (s : State) : (startDecode r n s).bin = s.bin := rfl
@[simp] theorem startDecode_bout (r : Running) (n : Nat) (s : State) : (startDecode r n s).bout = s.bout := rfl
@[simp] theorem startDecode_rng (r : Running) (n : Nat) (s : State) : (startDecode r n s).rng = s.rng := rfl
@[simp] theorem startDecode_kout (r : Running) (n : Nat) (s : State) : (startDecode r n s).kout = s.kout := rfl
@[simp] theorem startDecode_resetLine (r : Running) (n : Nat) (s : State) :
    (startDecode r n s).resetLine = s.resetLine := rfl

/-! ### The fields of `STATUS` -/

@[simp] theorem record_lasterr (c : Byte) (t : Status) : (t.record c).lasterr = c := rfl
@[simp] theorem record_pubv (c : Byte) (t : Status) : (t.record c).pubv = t.pubv := rfl
@[simp] theorem record_prvv (c : Byte) (t : Status) : (t.record c).prvv = t.prvv := rfl
@[simp] theorem record_pkopen (c : Byte) (t : Status) : (t.record c).pkopen = t.pkopen := rfl
@[simp] theorem record_zero_errs (t : Status) : (t.record 0).errs = t.errs := rfl
@[simp] theorem record_zero (t : Status) : t.record 0 = { t with lasterr := 0 } := rfl

/-- A kind's code is never 0, so an error sets its sticky bit. -/
theorem code_ne_zero (k : ErrKind) : k.code ≠ 0 := by cases k <;> decide

/-- A kind's code is at most 7. -/
theorem code_le_seven (k : ErrKind) : k.code.toNat ≤ 7 := by cases k <;> decide

theorem record_errs_of_ne_zero {c : Byte} (h : c ≠ 0) (t : Status) : (t.record c).errs = t.errs ||| errBit c :=
  if_neg h

/-! ### Views and updates cancel -/

@[simp] theorem withPacker_packer (s : State) (p : Packer) : (s.withPacker p).packer = p := rfl

@[simp] theorem withEncoder_encoder (s : State) (e : Encoder) :
    (s.withEncoder e).encoder = { e with running := s.running, ctbuf := s.ctbuf } := rfl

@[simp] theorem withDecoder_decoder (s : State) (d : Decoder) :
    (s.withDecoder d).decoder = { d with count := s.count, running := s.running } := rfl

/-- A view put back changes nothing. -/
@[simp] theorem withPacker_self (s : State) : s.withPacker s.packer = s := by
  simp [State.withPacker, State.packer]

@[simp] theorem withEncoder_self (s : State) : s.withEncoder s.encoder = s := by
  simp [State.withEncoder, State.withPacker, State.encoder, State.packer]

@[simp] theorem withDecoder_self (s : State) : s.withDecoder s.decoder = s := by
  simp [State.withDecoder, State.decoder]

/-- Of two replacements the later one stands. -/
@[simp] theorem withPacker_withPacker (s : State) (p q : Packer) : (s.withPacker p).withPacker q = s.withPacker q := rfl
@[simp] theorem withEncoder_withEncoder (s : State) (d e : Encoder) :
    (s.withEncoder d).withEncoder e = s.withEncoder e := rfl
@[simp] theorem withDecoder_withDecoder (s : State) (d e : Decoder) :
    (s.withDecoder d).withDecoder e = s.withDecoder e := rfl

end Sys2Proof.Machine
end

