-- ==== Sys2Proof/Laws/Operations.lean ====
section
/-! SUPPORT. For each operation the meanings share, one lemma that says all it can do: what holds if it answers a next
state, or what it answers. The provers cite these instead of unfolding the operation. -/

namespace Sys2Proof.Machine

open Sys2Proof

/-! ### Segments -/

/-- Discarding a complete segment leaves what follows it. -/
@[simp] theorem dropSegment_segment {α : Type} (l : List α) (rest : List (Item α)) :
    dropSegment (segment l ++ rest) = some rest := by
  induction l with
  | nil => rfl
  | cons a l ih => exact ih

/-- A port can be discarded from exactly when it holds an `EOS`: it is then a segment and the rest. -/
theorem dropSegment_eq_some {α : Type} {port rest : List (Item α)} :
    dropSegment port = some rest ↔ ∃ l, port = segment l ++ rest := by
  constructor
  · intro h
    induction port with
    | nil => cases h
    | cons a port ih =>
      cases a with
      | eos => exact ⟨[], by cases h; rfl⟩
      | sym a => obtain ⟨l, rfl⟩ := ih h; exact ⟨a :: l, rfl⟩
  · rintro ⟨l, rfl⟩
    exact dropSegment_segment l rest

theorem dropSegment_eq_none {α : Type} {port : List (Item α)} :
    dropSegment port = none ↔ ∀ x ∈ port, x ≠ .eos := by
  induction port with
  | nil => simp [dropSegment]
  | cons a port ih => cases a <;> simp [dropSegment, ih]

@[simp] theorem segment_nil {α : Type} : segment ([] : List α) = [.eos] := rfl

@[simp] theorem segment_cons {α : Type} (a : α) (l : List α) : segment (a :: l) = .sym a :: segment l := rfl

/-- The end of a stream command, by ports: the only next state, and when there is none. -/
theorem endStream_sinSout_next {p : Bool} {c : Byte} {v : Nat} {s t : State} :
    endStream .sinSout p c v s = .next t ↔
      ∃ rest, (if p then some s.sin else dropSegment s.sin) = some rest ∧
        t = complete c v { s with sin := rest, sout := s.sout ++ [.eos] } := by
  simp only [endStream]
  constructor
  · intro h
    split at h
    · exact ⟨_, ‹_›, by cases h; rfl⟩
    · cases h
  · rintro ⟨rest, h, rfl⟩
    rw [h]

theorem endStream_sinBout_next {p : Bool} {c : Byte} {v : Nat} {s t : State} :
    endStream .sinBout p c v s = .next t ↔
      ∃ rest, (if p then some s.sin else dropSegment s.sin) = some rest ∧
        t = complete c v { s with sin := rest, bout := s.bout ++ [.eos] } := by
  simp only [endStream]
  constructor
  · intro h
    split at h
    · exact ⟨_, ‹_›, by cases h; rfl⟩
    · cases h
  · rintro ⟨rest, h, rfl⟩
    rw [h]

theorem endStream_binSout_next {p : Bool} {c : Byte} {v : Nat} {s t : State} :
    endStream .binSout p c v s = .next t ↔
      ∃ rest, (if p then some s.bin else dropSegment s.bin) = some rest ∧
        t = complete c v { s with bin := rest, sout := s.sout ++ [.eos] } := by
  simp only [endStream]
  constructor
  · intro h
    split at h
    · exact ⟨_, ‹_›, by cases h; rfl⟩
    · cases h
  · rintro ⟨rest, h, rfl⟩
    rw [h]

/-- `raise` in a stream command on `SIN` and `SOUT`: only the ports and the result change. -/
theorem raiseStream_sinSout_next {p : Bool} {e : Exc} {s t : State} :
    raiseStream .sinSout p e s = .next t ↔
      ∃ rest, (if p then some s.sin else dropSegment s.sin) = some rest ∧
        t = raise e { s with sin := rest, sout := s.sout ++ [.eos] } :=
  endStream_sinSout_next

/-- `raise` in COMP or PROTECT: the packer is emptied as well. -/
theorem raiseStream_sinBout_next {p : Bool} {e : Exc} {s t : State} :
    raiseStream .sinBout p e s = .next t ↔
      ∃ rest, (if p then some s.sin else dropSegment s.sin) = some rest ∧
        t = raise e { s with sin := rest, bout := s.bout ++ [.eos], acc := 0, nbits := 0 } :=
  endStream_sinBout_next

/-- `raise` in DECOMP or RECOVER. -/
theorem raiseStream_binSout_next {p : Bool} {e : Exc} {s t : State} :
    raiseStream .binSout p e s = .next t ↔
      ∃ rest, (if p then some s.bin else dropSegment s.bin) = some rest ∧
        t = raise e { s with bin := rest, sout := s.sout ++ [.eos] } :=
  endStream_binSout_next

/-! ### One symbol -/

/-- ENC, DECD and DECC end in one of three ways, and always in a next state. -/
theorem oneSymbol_next {k : Bool} {f : Nat → Nat} {v : Nat} {s t : State} (h : oneSymbol k f v s = .next t) :
    (k = false ∧ t = raise { kind := .noKey, info := 0 } s) ∨
    (k = true ∧ s.keys.kn ≤ v ∧ t = raise { kind := .invalidSymbol, info := v } s) ∨
    (k = true ∧ v < s.keys.kn ∧ t = done (f v) s) := by
  simp only [oneSymbol] at h
  split at h
  · exact .inl ⟨‹_›, by cases h; rfl⟩
  · split at h
    · exact .inr (.inl ⟨by simpa using ‹¬ k = false›, ‹_›, by cases h; rfl⟩)
    · exact .inr (.inr ⟨by simpa using ‹¬ k = false›, by omega, by cases h; rfl⟩)

/-! ### A segment of symbols -/

/-- What the loop of ENCS and DECS leaves, whatever the port holds: a prefix of the segment was pulled, each symbol of
it in range and mapped, and the loop stopped at `EOS`, at a symbol with an error, or at the end of what was supplied. -/
theorem cipherLoop_spec (cap kn : Nat) (f : Nat → Nat) :
    ∀ (port : List (Item Nat)) (cnt : Nat), ∃ l : List Nat,
      (∀ v ∈ l, v < kn) ∧ (cipherLoop cap kn f cnt port).out = l.map f ∧
      (cipherLoop cap kn f cnt port).cnt = cnt + l.length ∧
      ((cipherLoop cap kn f cnt port).stop = none ∧ (cipherLoop cap kn f cnt port).pulled = true ∧
          port = segment l ++ (cipherLoop cap kn f cnt port).sin ∨
        (cipherLoop cap kn f cnt port).stop = some (.fault .sinIncomplete) ∧ port = l.map .sym ∨
        ∃ v, port = l.map .sym ++ .sym v :: (cipherLoop cap kn f cnt port).sin ∧
          (cipherLoop cap kn f cnt port).pulled = false ∧
          ((cnt + l.length = cap ∧
              (cipherLoop cap kn f cnt port).stop =
                some (.raise { kind := .bufferOverrun, info := cnt + l.length })) ∨
            (cnt + l.length ≠ cap ∧ kn ≤ v ∧
              (cipherLoop cap kn f cnt port).stop = some (.raise { kind := .invalidSymbol, info := v }))))
  | [], cnt => ⟨[], by simp [cipherLoop]⟩
  | .eos :: rest, cnt => ⟨[], by simp [cipherLoop]⟩
  | .sym v :: rest, cnt => by
    simp only [cipherLoop]
    split
    · exact ⟨[], by simp_all⟩
    · split
      · exact ⟨[], by simp_all⟩
      · obtain ⟨l, hl, ho, hc, hs⟩ := cipherLoop_spec cap kn f rest (cnt + 1)
        refine ⟨v :: l, ?_, ?_, ?_, ?_⟩
        · intro x hx
          rcases List.mem_cons.1 hx with rfl | hx
          · omega
          · exact hl x hx
        · simp [CipherRun.prepend, ho]
        · simp [CipherRun.prepend, hc]; omega
        · have e : cnt + (v :: l).length = cnt + 1 + l.length := by simp; omega
          rw [e]
          rcases hs with ⟨h1, h2, h3⟩ | ⟨h1, h2⟩ | ⟨x, h1, h2, h3⟩
          · refine .inl ⟨h1, h2, ?_⟩
            conv_lhs => rw [h3]
            rfl
          · exact .inr (.inl ⟨h1, by rw [h2]; rfl⟩)
          · refine .inr (.inr ⟨x, ?_, h2, h3⟩)
            conv_lhs => rw [h1]
            rfl

/-! ### KEYGEN's attempts -/

/-- A run of attempts that accepts: a pair of draws after `k` rejected pairs, the budget less `k`. -/
theorem attempts_accepted {c : CfgRegs} {e : Nat} :
    ∀ {budget : Nat} {draws : List Nat} {p q : Nat} {rest : List Nat} {b : Nat},
      attempts c e budget draws = .accepted p q rest b →
      ∃ (rej : List Nat) (v w : Nat), draws = rej ++ v :: w :: rest ∧ rej.length = 2 * (budget - b) ∧ b ≤ budget ∧
        p = candidate c v ∧ q = candidate c w ∧ refusedBy c p q e = none
  | budget, v :: w :: rest', p, q, rest, b, h => by
    unfold attempts at h
    split at h
    · next hr =>
      cases h
      exact ⟨[], v, w, rfl, by simp, Nat.le_refl _, rfl, rfl, hr⟩
    · next hr =>
      cases budget with
      | zero => cases h
      | succ n =>
        obtain ⟨rej, x, y, h1, h2, h3, h4, h5, h6⟩ := attempts_accepted h
        refine ⟨v :: w :: rej, x, y, by rw [h1]; rfl, ?_, by omega, h4, h5, h6⟩
        simp only [List.length_cons, h2]
        omega
  | _, [_], _, _, _, _, h => by simp [attempts] at h
  | _, [], _, _, _, _, h => by simp [attempts] at h

/-- What KEYGEN has taken from `RNG` is a prefix of the draws. -/
theorem attempts_spent {c : CfgRegs} {e : Nat} :
    ∀ {budget : Nat} {draws rest : List Nat}, attempts c e budget draws = .spent rest →
      ∃ rej : List Nat, draws = rej ++ rest ∧ rej.length = 2 * (budget + 1)
  | budget, v :: w :: rest', rest, h => by
    unfold attempts at h
    split at h
    · cases h
    · cases budget with
      | zero => cases h; exact ⟨[v, w], rfl, rfl⟩
      | succ n =>
        obtain ⟨rej, h1, h2⟩ := attempts_spent h
        exact ⟨v :: w :: rej, by rw [h1]; rfl, by simp only [List.length_cons, h2]; omega⟩
  | _, [_], _, h => by simp [attempts] at h
  | _, [], _, h => by simp [attempts] at h

/-! ### The packer -/

/-- A token goes in whole, within the capacity, or not at all. -/
theorem putToken_eq {P : Params} {p : Packer} {bits : List Bool} :
    p.putToken P bits =
      if 8 * p.bytecnt + p.nbits.val + bits.length > 8 * P.outCap then
        .error { kind := .bufferOverrun, info := p.bytecnt }
      else .ok (p.putBits bits) := by
  simp only [Packer.putToken, Packer.room]
  split <;> rename_i h <;> split at h <;> simp_all

/-- One bit more in the session. -/
theorem putBit_total (p : Packer) (b : Bool) :
    8 * (p.putBit b).bytecnt + (p.putBit b).nbits.val = 8 * p.bytecnt + p.nbits.val + 1 := by
  obtain ⟨acc, nbits, bytecnt, bout⟩ := p
  simp only [Packer.putBit]
  split
  · next h => simp only at h ⊢; simp; omega
  · next h =>
    simp only at h ⊢
    rw [Fin.val_add_one_of_lt (by rw [Fin.lt_def]; show nbits.val < 7; omega)]
    omega

/-- The session's bits after a token: as many more as the token has. -/
theorem putBits_total (bits : List Bool) (p : Packer) :
    8 * (p.putBits bits).bytecnt + (p.putBits bits).nbits.val = 8 * p.bytecnt + p.nbits.val + bits.length := by
  induction bits generalizing p with
  | nil => rfl
  | cons b bits ih =>
    show 8 * ((p.putBit b).putBits bits).bytecnt + ((p.putBit b).putBits bits).nbits.val = _
    rw [ih, putBit_total, List.length_cons]
    omega

/-- What `sessionPacker` counts from: the session's bytes so far. -/
@[simp] theorem sessionPacker_bytecnt (s : State) : s.sessionPacker.bytecnt = s.sessionBytes := by
  unfold State.sessionPacker State.sessionBytes State.packer
  cases s.status.pkopen <;> rfl

/-- The end of PUTL and PUTM: the error, when `BYTECNT` has started again where no session is open, or the packer's new
state and an open session. -/
theorem endPut_next {s t : State} {x : Except Exc Packer} (h : endPut s x = .next t) :
    (∃ e, x = .error e ∧ t = raise e { s with bytecnt := s.sessionBytes }) ∨
    (∃ p, x = .ok p ∧ t = done 0 { s.withPacker p with status := s.status.setOpen true }) := by
  cases x with
  | error e => exact .inl ⟨e, rfl, by cases h; rw [← sessionPacker_bytecnt]⟩
  | ok p => exact .inr ⟨p, rfl, by cases h; rfl⟩

/-! ### Lengths of token bits -/

@[simp] theorem fieldBits_length (v w : Nat) : (fieldBits v w).length = w := by
  induction w with
  | zero => rfl
  | succ w ih => simp [fieldBits, ih]

@[simp] theorem literalBits_length (symw v : Nat) : (literalBits symw v).length = 1 + symw := by
  simp [literalBits, Nat.add_comm]

@[simp] theorem matchBits_length (ei ej o l : Nat) : (matchBits ei ej o l).length = 1 + ei + ej := by
  simp [matchBits]; omega

/-! ### The encode and the decode of a command -/

/-- The end of an encode: the flush and completion with `SYMCNT`, or an error. -/
theorem endEncode_next {s t : State} {h : Option Halt} (ht : endEncode s h = .next t) :
    ∃ rest, (if s.running = .protect ∨ s.enc.eos = true then some s.sin else dropSegment s.sin) = some rest ∧
      ((h = none ∧
          t = done s.symcnt
            { s.withPacker s.packer.flush with sin := rest, bout := s.packer.flush.bout ++ [.eos] }) ∨
        ∃ e, h = some (.raise e) ∧
          t = raise e { s with sin := rest, bout := s.bout ++ [.eos], acc := 0, nbits := 0 }) := by
  rcases h with _ | (e | f)
  · obtain ⟨rest, h1, h2⟩ := endStream_sinBout_next.1 ht
    exact ⟨rest, by simpa using h1, .inl ⟨rfl, h2⟩⟩
  · obtain ⟨rest, h1, h2⟩ := raiseStream_sinBout_next.1 ht
    exact ⟨rest, by simpa using h1, .inr ⟨e, rfl, h2⟩⟩
  · cases ht

/-- The second phase of RECOVER: every symbol decrypted, or an error at the first one out of range. -/
theorem endRecover_next {s t : State} (ht : endRecover s = .next t) :
    ∃ rest, dropSegment s.bin = some rest ∧
      let x := recoverLoop s.keys s.ctbuf s.count 0
      let s1 := { s with
        sout := s.sout ++ x.out.map .sym ++ [.eos], symcnt := x.cnt, bin := rest }
      (x.stop = none ∧ t = done s.count s1) ∨ ∃ e, x.stop = some (.raise e) ∧ t = raise e s1 := by
  simp only [endRecover] at ht
  split at ht
  · next h =>
    obtain ⟨rest, h1, h2⟩ := endStream_binSout_next.1 ht
    exact ⟨rest, by simpa using h1, .inl ⟨h, h2⟩⟩
  · next e h =>
    obtain ⟨rest, h1, h2⟩ := raiseStream_binSout_next.1 ht
    exact ⟨rest, by simpa using h1, .inr ⟨e, h, h2⟩⟩
  · cases ht

/-- The end of a decode: completion of DECOMP, RECOVER's second phase, or MalformedBitstream with the `EOS` pulled. -/
theorem endDecode_next {s t : State} {h : Option Halt} (ht : endDecode s h = .next t) :
    (h = none ∧ s.running = .recover ∧ endRecover s = .next t) ∨
    (h = none ∧ s.running ≠ .recover ∧
      ∃ rest, dropSegment s.bin = some rest ∧
        t = done s.symcnt { s with bin := rest, sout := s.sout ++ [.eos] }) ∨
    ∃ e, h = some (.raise e) ∧ t = raise e { s with sout := s.sout ++ [.eos] } := by
  rcases h with _ | (e | f)
  · simp only [endDecode] at ht
    split at ht
    · exact .inl ⟨rfl, ‹_›, ht⟩
    · obtain ⟨rest, h1, h2⟩ := endStream_binSout_next.1 ht
      exact .inr (.inl ⟨rfl, ‹_›, rest, by simpa using h1, h2⟩)
  · obtain ⟨rest, h1, h2⟩ := raiseStream_binSout_next.1 ht
    have h1 : s.bin = rest := by simpa using h1
    exact .inr (.inr ⟨e, rfl, by subst h1; exact h2⟩)
  · cases ht

/-! ### The size of what COMP emits -/

/-- A token list from `tokensFrom` has at most as many tokens as its bound. -/
theorem tokensFrom_length_le (c : CfgRegs) (buf : List Nat) :
    ∀ fuel t : Nat, (tokensFrom c buf fuel t).length ≤ fuel
  | 0, _ => Nat.le_refl 0
  | fuel + 1, t => by
    simp only [tokensFrom]
    split
    · exact Nat.zero_le _
    · split <;> exact Nat.succ_le_succ (tokensFrom_length_le c buf fuel _)

/-- No token is longer than the longer of the two formats. -/
theorem tokenBits_length_le (tw : TokenWidths) (i : Instr) :
    (tokenBits tw i).length ≤ 1 + max tw.symw (tw.ei + tw.ej) := by
  cases i <;> (simp [tokenBits, encode]; try omega)

theorem tokensBits_length_le (tw : TokenWidths) (ts : List Instr) :
    (tokensBits tw ts).length ≤ ts.length * (1 + max tw.symw (tw.ei + tw.ej)) := by
  induction ts with
  | nil => simp [tokensBits]
  | cons i ts ih =>
    have h := tokenBits_length_le tw i
    simp only [tokensBits, List.flatMap_cons, List.length_append, List.length_cons, Nat.succ_mul] at ih ⊢
    omega

/-- Under a legal configuration the tokens of a segment within `CT_CAP` fit `OUT_CAP` bytes, where `CT_CAP` of the
longest tokens do; with the default parameters they do. -/
theorem streamTokens_fit {P : Params} {c : CfgRegs} {l : List Nat} (hc : c.codecOk P = true)
    (hl : l.length ≤ P.ctCap) (hP : P.ctCap * (1 + max P.kw (2 * P.eimax)) ≤ 8 * P.outCap) :
    (tokensBits c.widths (streamTokens c l)).length ≤ 8 * P.outCap := by
  have h1 := tokensBits_length_le c.widths (streamTokens c l)
  have h2 : (streamTokens c l).length ≤ P.ctCap :=
    Nat.le_trans (tokensFrom_length_le c (List.replicate c.h c.blank ++ l) l.length c.h) hl
  simp only [CfgRegs.codecOk, Bool.and_eq_true, decide_eq_true_eq] at hc
  have h3 : 1 + max c.widths.symw (c.widths.ei + c.widths.ej) ≤ 1 + max P.kw (2 * P.eimax) := by
    simp only [CfgRegs.widths]
    omega
  exact Nat.le_trans h1 (Nat.le_trans (Nat.mul_le_mul h2 h3) hP)

/-! ### Running the phases -/

/-- What every phase of the encoder keeps, the phases run one after the other keep, whatever ends them. -/
theorem Encoder.drive_preserves {P : Params} {c : CfgRegs} {K : Encoder → Prop}
    (hK : ∀ e, K e → K (e.phaseStep P c).1) :
    ∀ (fuel : Nat) (e : Encoder), K e → K (e.drive P c fuel).1
  | 0, _, h => h
  | fuel + 1, e, h => by
    simp only [Encoder.drive]
    have h1 := hK e h
    split
    · exact h
    · split
      · next he => rw [he] at h1; exact h1
      · next he => rw [he] at h1; exact Encoder.drive_preserves hK fuel _ h1

/-- What every phase of the decoder keeps, the phases run one after the other keep, whatever ends them. -/
theorem Decoder.drive_preserves {c : CfgRegs} {P : Decoder → Prop} (hP : ∀ d, P d → P (d.phaseStep c).1) :
    ∀ (fuel : Nat) (d : Decoder), P d → P (d.drive c fuel).1
  | 0, _, h => h
  | fuel + 1, d, h => by
    simp only [Decoder.drive]
    have h1 := hP d h
    split
    · exact h
    · split
      · next he => rw [he] at h1; exact h1
      · next he => rw [he] at h1; exact Decoder.drive_preserves hP fuel _ h1

/-- What one phase of the decoder answers, by the phase it is in. -/
theorem Decoder.phaseStep_next {c : CfgRegs} {d e : Decoder} (h : d.phaseStep c = (e, none)) :
    (d.phase = .filling ∧ e = d.filling c) ∨
    (d.phase = .matching ∧ ∃ i u, d.unp.getToken c.widths = .ok i u ∧
      e = { d with unp := u, tok := some i, phase := .emitting }) ∨
    (d.phase = .emitting ∧ ∃ i, d.tok = some i ∧ Decoder.token c.n i d = (e, none)) ∨
    (d.phase = .drained ∧ e = d) := by
  simp only [Decoder.phaseStep] at h
  split at h
  · next hp => exact .inl ⟨hp, by simpa using h.symm⟩
  · next hp =>
    simp only [Decoder.matching] at h
    split at h
    · next i u hu => exact .inr (.inl ⟨hp, i, u, hu, by simpa using h.symm⟩)
    · simp at h
    · simp at h
  · next hp =>
    simp only [Decoder.emitting] at h
    split at h
    · next i hi => exact .inr (.inr (.inl ⟨hp, i, hi, h⟩))
    · simp at h
  · next hp => exact .inr (.inr (.inr ⟨hp, by simpa using h.symm⟩))
  · simp at h
  · simp at h

/-! ### A command word taken from `CMD` -/

/-- What a step does, by what it finds: a request for reset, a command word, nothing, or a command under way. -/
theorem step_cases (s : State) :
    (s.resetLine = true ∧ step s = resetStep s) ∨
    (s.resetLine = false ∧ s.phase = .idle ∧ s.cmd = [] ∧ step s = .next s) ∨
    (s.resetLine = false ∧ s.phase = .idle ∧ ∃ w rest, s.cmd = w :: rest ∧ step s = runWord w { s with cmd := rest }) ∨
    (s.resetLine = false ∧ s.phase ≠ .idle ∧ step s = phaseStep s) := by
  simp only [step, nextStep]
  split
  · exact .inl ⟨‹_›, rfl⟩
  · have hr : s.resetLine = false := by simpa using ‹¬ s.resetLine = true›
    split
    · next hp =>
      simp only [commandStep]
      split
      · next hc => exact .inr (.inl ⟨hr, hp, hc, rfl⟩)
      · next w rest hc => exact .inr (.inr (.inl ⟨hr, hp, w, rest, hc, rfl⟩))
    · next hp => exact .inr (.inr (.inr ⟨hr, hp, rfl⟩))

end Sys2Proof.Machine
end

