-- ==== Sys2Proof/Laws/PerInstr.lean ====
section
/-! SUPPORT. Per-instruction lemmas. The family `EncodedForm`: a command is encoded as a word of the command format
with its opcode of 30_encoding.md R111; a token as a bit string of its format's length (R91 to R93) that begins with
its flag. One lemma for each constructor. -/

namespace Sys2Proof.Laws.EncodedForm

open Sys2Proof Sys2Proof.Machine

/-- The opcode of a command (30_encoding.md R111); a token has none. -/
def opcode : Instr → Option Byte
  | .nop => some 0x00
  | .reset => some 0x01
  | .clrerr => some 0x02
  | .wrcfg _ _ => some 0x03
  | .rdreg _ => some 0x04
  | .keygen _ => some 0x10
  | .keyset _ _ _ => some 0x11
  | .keypub _ _ => some 0x12
  | .enc _ => some 0x20
  | .decd _ => some 0x21
  | .decc _ => some 0x22
  | .encs => some 0x23
  | .decs => some 0x24
  | .comp => some 0x30
  | .decomp _ => some 0x31
  | .putl _ => some 0x32
  | .putm _ _ => some 0x33
  | .flush => some 0x34
  | .protect => some 0x40
  | .recover _ => some 0x41
  | .literal _ => none
  | .matchTok _ _ => none

/-- The number of bits of a token's format (30_encoding.md R91), and its flag; nothing for a command. -/
def tokenForm (tw : TokenWidths) : Instr → Option (Nat × Bool)
  | .literal _ => some (1 + tw.symw, true)
  | .matchTok _ _ => some (1 + tw.ei + tw.ej, false)
  | .nop | .reset | .clrerr | .wrcfg _ _ | .rdreg _ | .keygen _ | .keyset _ _ _ | .keypub _ _ | .enc _ | .decd _
  | .decc _ | .encs | .decs | .comp | .decomp _ | .putl _ | .putm _ _ | .flush | .protect | .recover _ => none

/-- The form of an instruction's encoding. -/
def Statement (i : Instr) : Prop :=
  ∀ (kw : Nat) (tw : TokenWidths), i.wellFormed kw tw = true →
    (∃ w op, encode kw tw i = .command w ∧ opcode i = some op ∧ CmdWord.opcode kw w = op ∧ w < 2 ^ cmdBits kw ∧
      tokenForm tw i = none ∧ i.isToken = false) ∨
    (∃ bits n flag, encode kw tw i = .token bits ∧ tokenForm tw i = some (n, flag) ∧ bits.length = n ∧
      bits.head? = some flag ∧ opcode i = none ∧ i.isToken = true)

theorem lt_of_fits {w v : Nat} (h : fits w v = true) : v < 2 ^ w := of_decide_eq_true h

/-- An assembled word has the opcode put in and the width of the command format. -/
theorem opcode_make (kw : Nat) (op : Byte) {a b c : Nat} (ha : a < 2 ^ kw) (hb : b < 2 ^ kw) (hc : c < 2 ^ kw) :
    CmdWord.opcode kw (CmdWord.make kw op a b c) = op ∧ CmdWord.make kw op a b c < 2 ^ cmdBits kw := by
  have hd : CmdWord.make kw op a b c / 2 ^ (3 * kw) = op.toNat := by
    rw [show 3 * kw = kw + kw + kw by omega, Nat.pow_add, Nat.pow_add, ← Nat.div_div_eq_div_mul,
      ← Nat.div_div_eq_div_mul]
    simp only [CmdWord.make]
    rw [Nat.add_comm, Nat.mul_comm _ (2 ^ kw), Nat.add_mul_div_left _ _ (by positivity), Nat.div_eq_of_lt hc,
      Nat.zero_add, Nat.add_comm, Nat.mul_comm _ (2 ^ kw), Nat.add_mul_div_left _ _ (by positivity),
      Nat.div_eq_of_lt hb, Nat.zero_add, Nat.add_comm, Nat.mul_comm _ (2 ^ kw),
      Nat.add_mul_div_left _ _ (by positivity), Nat.div_eq_of_lt ha, Nat.zero_add]
  refine ⟨by rw [CmdWord.opcode, hd]; simp, ?_⟩
  have h8 : op.toNat < 2 ^ 8 := op.isLt
  rw [← hd, Nat.div_lt_iff_lt_mul (by positivity), ← Nat.pow_add] at h8
  exact h8

theorem of_command {i : Instr} (op : Byte) (f : Nat → TokenWidths → Nat × Nat × Nat)
    (he : ∀ kw tw, encode kw tw i = .command (CmdWord.make kw op (f kw tw).1 (f kw tw).2.1 (f kw tw).2.2))
    (hf : ∀ kw tw, i.wellFormed kw tw = true →
      (f kw tw).1 < 2 ^ kw ∧ (f kw tw).2.1 < 2 ^ kw ∧ (f kw tw).2.2 < 2 ^ kw)
    (ho : opcode i = some op) (hn : ∀ tw, tokenForm tw i = none) (ht : i.isToken = false) : Statement i := by
  intro kw tw hw
  obtain ⟨h1, h2, h3⟩ := hf kw tw hw
  obtain ⟨h4, h5⟩ := opcode_make kw op h1 h2 h3
  exact .inl ⟨_, op, he kw tw, ho, h4, h5, hn tw, ht⟩

theorem of_no_operand {i : Instr} (op : Byte) (he : ∀ kw tw, encode kw tw i = .command (CmdWord.make kw op 0 0 0))
    (ho : opcode i = some op) (hn : ∀ tw, tokenForm tw i = none) (ht : i.isToken = false) : Statement i :=
  of_command op (fun _ _ => (0, 0, 0)) he (fun kw _ _ => ⟨by positivity, by positivity, by positivity⟩) ho hn ht

theorem of_one_operand {i : Instr} (op : Byte) (a : Nat)
    (he : ∀ kw tw, encode kw tw i = .command (CmdWord.make kw op a 0 0))
    (hw : ∀ kw tw, i.wellFormed kw tw = fits kw a)
    (ho : opcode i = some op) (hn : ∀ tw, tokenForm tw i = none) (ht : i.isToken = false) : Statement i :=
  of_command op (fun _ _ => (a, 0, 0)) he
    (fun kw tw h => ⟨lt_of_fits (hw kw tw ▸ h), by positivity, by positivity⟩) ho hn ht

theorem of_two_operands {i : Instr} (op : Byte) (a b : Nat)
    (he : ∀ kw tw, encode kw tw i = .command (CmdWord.make kw op a b 0))
    (hw : ∀ kw tw, i.wellFormed kw tw = (fits kw a && fits kw b))
    (ho : opcode i = some op) (hn : ∀ tw, tokenForm tw i = none) (ht : i.isToken = false) : Statement i :=
  of_command op (fun _ _ => (a, b, 0)) he
    (fun kw tw h => by
      rw [hw kw tw, Bool.and_eq_true] at h
      exact ⟨lt_of_fits h.1, lt_of_fits h.2, by positivity⟩) ho hn ht

theorem nop : Statement .nop := of_no_operand _ (fun _ _ => rfl) rfl (fun _ => rfl) rfl

theorem reset : Statement .reset := of_no_operand _ (fun _ _ => rfl) rfl (fun _ => rfl) rfl

theorem clrerr : Statement .clrerr := of_no_operand _ (fun _ _ => rfl) rfl (fun _ => rfl) rfl

theorem wrcfg (idx val : Nat) : Statement (.wrcfg idx val) :=
  of_two_operands _ idx val (fun _ _ => rfl) (fun _ _ => rfl) rfl (fun _ => rfl) rfl

theorem rdreg (idx : Nat) : Statement (.rdreg idx) :=
  of_one_operand _ idx (fun _ _ => rfl) (fun _ _ => rfl) rfl (fun _ => rfl) rfl

theorem keygen (e : Nat) : Statement (.keygen e) :=
  of_one_operand _ e (fun _ _ => rfl) (fun _ _ => rfl) rfl (fun _ => rfl) rfl

theorem keyset (p q e : Nat) : Statement (.keyset p q e) :=
  of_command _ (fun _ _ => (p, q, e)) (fun _ _ => rfl)
    (fun kw tw h => by
      have h : ((fits kw p && fits kw q) && fits kw e) = true := h
      simp only [Bool.and_eq_true] at h
      exact ⟨lt_of_fits h.1.1, lt_of_fits h.1.2, lt_of_fits h.2⟩) rfl (fun _ => rfl) rfl

theorem keypub (n e : Nat) : Statement (.keypub n e) :=
  of_two_operands _ n e (fun _ _ => rfl) (fun _ _ => rfl) rfl (fun _ => rfl) rfl

theorem enc (m : Nat) : Statement (.enc m) :=
  of_one_operand _ m (fun _ _ => rfl) (fun _ _ => rfl) rfl (fun _ => rfl) rfl

theorem decd (c : Nat) : Statement (.decd c) :=
  of_one_operand _ c (fun _ _ => rfl) (fun _ _ => rfl) rfl (fun _ => rfl) rfl

theorem decc (c : Nat) : Statement (.decc c) :=
  of_one_operand _ c (fun _ _ => rfl) (fun _ _ => rfl) rfl (fun _ => rfl) rfl

theorem encs : Statement .encs := of_no_operand _ (fun _ _ => rfl) rfl (fun _ => rfl) rfl

theorem decs : Statement .decs := of_no_operand _ (fun _ _ => rfl) rfl (fun _ => rfl) rfl

theorem comp : Statement .comp := of_no_operand _ (fun _ _ => rfl) rfl (fun _ => rfl) rfl

theorem decomp (count : Nat) : Statement (.decomp count) :=
  of_one_operand _ count (fun _ _ => rfl) (fun _ _ => rfl) rfl (fun _ => rfl) rfl

theorem putl (sym : Nat) : Statement (.putl sym) :=
  of_one_operand _ sym (fun _ _ => rfl) (fun _ _ => rfl) rfl (fun _ => rfl) rfl

theorem putm (off len : Nat) : Statement (.putm off len) :=
  of_two_operands _ off len (fun _ _ => rfl) (fun _ _ => rfl) rfl (fun _ => rfl) rfl

theorem flush : Statement .flush := of_no_operand _ (fun _ _ => rfl) rfl (fun _ => rfl) rfl

theorem protect : Statement .protect := of_no_operand _ (fun _ _ => rfl) rfl (fun _ => rfl) rfl

theorem recover (count : Nat) : Statement (.recover count) :=
  of_one_operand _ count (fun _ _ => rfl) (fun _ _ => rfl) rfl (fun _ => rfl) rfl

theorem literal (sym : Nat) : Statement (.literal sym) := fun _ _ _ =>
  .inr ⟨_, _, true, rfl, rfl, literalBits_length _ _, rfl, rfl, rfl⟩

theorem matchTok (off len2 : Nat) : Statement (.matchTok off len2) := fun _ _ _ =>
  .inr ⟨_, _, false, rfl, rfl, matchBits_length _ _ _ _, rfl, rfl, rfl⟩

end Sys2Proof.Laws.EncodedForm
end

