-- ==== Sys2Proof/Tests/Slice0.lean ====
section
/-! SUPPORT. Tests: the checks of `WellFormed`, one written-out word for every constructor, one or two steps of every
instruction against the spec's own examples, and for every statement with hypotheses a witness that meets them, at the
boundary values of its clauses. -/

namespace Sys2Proof.Tests

open Sys2Proof Sys2Proof.Machine

set_option Elab.async false

/-! ### Helpers -/

/-- What an outcome's next state satisfies. -/
def got (o : Outcome) (f : State → Bool) : Bool :=
  match o with
  | .next t => f t
  | .fault _ => false
  | .refused _ => false

/-- The last record of an outcome's next state, as numbers. -/
def answer (o : Outcome) : Option (Nat × Nat) :=
  match o with
  | .next t => t.res.getLast?.map (fun r => (r.code.toNat, r.value))
  | .fault _ => none
  | .refused _ => none

theorem exists_next {o : Outcome} {f : State → Bool} (h : got o f = true) : ∃ t, o = .next t ∧ f t = true := by
  cases o with
  | next t => exact ⟨t, rfl, h⟩
  | fault _ => cases h
  | refused _ => cases h

/-- A bounded statement over a list, checked element by element (a search for an instance would enumerate `Byte`). -/
theorem forall_of_all {α : Type} {l : List α} {p : α → Prop} [DecidablePred p]
    (h : l.all (fun x => decide (p x)) = true) : ∀ x ∈ l, p x :=
  fun x hx => of_decide_eq_true (List.all_eq_true.1 h x hx)

/-- A segment of symbols, a segment of bytes, from numbers. -/
def syms (l : List Nat) : List (Item Nat) := segment l
def bytes (l : List Nat) : List (Item Byte) := segment (l.map (BitVec.ofNat 8))

/-- The reset state with `SYMW = 8`, the geometry of the spec's examples. -/
def s8 : State := { State.reset with cfg := { State.reset.cfg with symw := 8 } }

/-- The key of 40_keygen.md R139. -/
def scenarioKey : KeyFile :=
  { kn := 15366391, ke := 3, kd := 10239035, kp := 3917, kq := 3923, kphi := 15358552, kdp := 2611, kdq := 2615,
    kqinv := 653 }

/-- The key of KEYSET 5, 11, 3 (40_keygen.md R140). -/
def smallKey : KeyFile := { kn := 55, ke := 3, kd := 27, kp := 5, kq := 11, kphi := 40, kdp := 3, kdq := 7, kqinv := 1 }

def withKey (k : KeyFile) (s : State) : State :=
  { s with keys := k, status := { s.status with pubv := true, prvv := true } }

def keyed : State := withKey scenarioKey State.reset
def small : State := withKey smallKey s8

/-! ### WellFormed refuses ill-formed terms (30_encoding.md R92, R93) -/

def tw8 : TokenWidths := { symw := 8, ei := 6, ej := 5 }

theorem test_wf_literal_too_wide : (Instr.literal 256).wellFormed 32 tw8 = false := by decide
theorem test_wf_match_offset_too_wide : (Instr.matchTok 64 0).wellFormed 32 tw8 = false := by decide
theorem test_wf_match_length_too_wide : (Instr.matchTok 0 32).wellFormed 32 tw8 = false := by decide
theorem test_wf_tokens_at_the_bound :
    (Instr.literal 255).wellFormed 32 tw8 = true ∧ (Instr.matchTok 63 31).wellFormed 32 tw8 = true := by decide
theorem test_wf_command : (Instr.keyset 0xFFFFFFFF 0 1).wellFormed 32 tw8 = true := by decide

/-! ### One word for every constructor (30_encoding.md R92, R93, R110, R111): opcode, then `A`, `B`, `C` -/

theorem test_decode_nop : decodeCommand 32 0x00000000000000000000000000 = .ok .nop := by decide
theorem test_decode_reset : decodeCommand 32 0x01000000000000000000000000 = .ok .reset := by decide
theorem test_decode_clrerr : decodeCommand 32 0x02000000000000000000000000 = .ok .clrerr := by decide
theorem test_decode_wrcfg : decodeCommand 32 0x03000000140000000800000000 = .ok (.wrcfg 20 8) := by decide
theorem test_decode_rdreg : decodeCommand 32 0x04000000200000000000000000 = .ok (.rdreg 32) := by decide
theorem test_decode_keygen : decodeCommand 32 0x10000000030000000000000000 = .ok (.keygen 3) := by decide
theorem test_decode_keyset : decodeCommand 32 0x1100000F4D00000F5300000003 = .ok (.keyset 3917 3923 3) := by decide
theorem test_decode_keypub : decodeCommand 32 0x1200EA79770000000300000000 = .ok (.keypub 15366519 3) := by decide
theorem test_decode_enc : decodeCommand 32 0x20000000410000000000000000 = .ok (.enc 65) := by decide
theorem test_decode_decd : decodeCommand 32 0x21000430C10000000000000000 = .ok (.decd 274625) := by decide
theorem test_decode_decc : decodeCommand 32 0x22000430C10000000000000000 = .ok (.decc 274625) := by decide
theorem test_decode_encs : decodeCommand 32 0x23000000000000000000000000 = .ok .encs := by decide
theorem test_decode_decs : decodeCommand 32 0x24000000000000000000000000 = .ok .decs := by decide
theorem test_decode_comp : decodeCommand 32 0x30000000000000000000000000 = .ok .comp := by decide
theorem test_decode_decomp : decodeCommand 32 0x31000000140000000000000000 = .ok (.decomp 20) := by decide
theorem test_decode_putl : decodeCommand 32 0x32000000410000000000000000 = .ok (.putl 65) := by decide
theorem test_decode_putm : decodeCommand 32 0x330000001F0000001300000000 = .ok (.putm 31 19) := by decide
theorem test_decode_flush : decodeCommand 32 0x34000000000000000000000000 = .ok .flush := by decide
theorem test_decode_protect : decodeCommand 32 0x40000000000000000000000000 = .ok .protect := by decide
theorem test_decode_recover : decodeCommand 32 0x41000000040000000000000000 = .ok (.recover 4) := by decide
theorem test_decode_unused_operands_ignored : decodeCommand 32 0x30FFFFFFFFFFFFFFFFFFFFFFFF = .ok .comp := by decide
theorem test_decode_reserved : decodeCommand 32 0x05000000000000000000000000 = .error (.reservedOpcode 5) := by decide
/-- `1 01000001` (30_encoding.md R92). -/
theorem test_decode_literal : decodeToken tw8 [true, false, true, false, false, false, false, false, true, false] =
    .ok (.literal 65, [false]) := by decide
/-- `0 011111 10001`, Match(31, 19), stored length 17 (30_encoding.md R93). -/
theorem test_decode_match :
    decodeToken tw8 [false, false, true, true, true, true, true, true, false, false, false, true] =
      .ok (.matchTok 31 17, []) := by decide
theorem test_decode_token_cut : decodeToken tw8 [true, false, true] = .error .outOfBits := by decide
theorem test_encode_keyset : encode 32 tw8 (.keyset 3917 3923 3) = .command 0x1100000F4D00000F5300000003 := by decide
theorem test_encode_literal : encode 32 tw8 (.literal 65) =
    .token [true, false, true, false, false, false, false, false, true] := by decide
theorem test_table_word_command : decodeTableWord 104 0x03000000140000000800000000 = some (.wrcfg 20 8) := by decide
theorem test_fetch_word :
    answer (step (State.reset.withFetchWord 104 0x03000000140000000800000000)) = some (0, 8) := by decide

/-- `KW = 8` (00_scope.md R9): 32-bit words, and `STATUS` shows its low 8 bits (10_state.md R20). -/
theorem test_decode_narrow : decodeCommand 8 0x03140800 = .ok (.wrcfg 20 8) := by decide
theorem test_status_narrow : answer (exec (.rdreg 32) (withKey smallKey
    { State.resetWith { Params.default with kw := 8 } with status := { State.reset.status with lasterr := 7 } })) =
      some (0, 7) := by decide

/-! ### System commands (46_control_pipeline.md R282 to R286) -/

theorem test_nop : answer (exec .nop { State.reset with resv := 9 }) = some (0, 0) := by decide
theorem test_reset_clears_the_key :
    got (exec .reset { keyed with bout := [.sym 0xA0], acc := 0x80, nbits := 1 })
      (fun t => t.status.toBits == 0 && t.keys.kn == 0 && t.bout == [.sym 0xA0] && t.nbits == 0) = true := by decide
theorem test_clrerr : got (exec .clrerr { State.reset with status := { State.reset.status with errs := 4 } })
    (fun t => t.status.toBits == 0) = true := by decide
theorem test_wrcfg_symw : got (exec (.wrcfg 20 8) State.reset) (fun t => t == done 8 s8) = true := by decide
theorem test_wrcfg_of_a_key_register : answer (exec (.wrcfg 0 1) State.reset) = some (5, 5) := by decide
theorem test_rdreg_kd : answer (exec (.rdreg 2) keyed) = some (0, 10239035) := by decide
theorem test_rdreg_status : answer (exec (.rdreg 32) keyed) = some (0, 0x300) := by decide

/-! ### Key commands (40_keygen.md R139, R140, R142) -/

def range : CfgRegs := { State.reset.cfg with pmin := 3900, pmax := 3930, retry := 10 }

theorem test_keygen_second_attempt :
    got (exec (.keygen 3) { State.reset with cfg := range, rng := [21, 17, 17, 23, 5] })
      (fun t => t.keys == scenarioKey && t.rng == [5] && t.budget == 9 && t.status.toBits == 0x300) = true := by
  decide +kernel
theorem test_keygen_budget_spent :
    answer (exec (.keygen 3) { State.reset with cfg := { range with retry := 0 }, rng := [21, 17, 17, 23] }) =
      some (1, 0) := by decide +kernel
theorem test_keyset_scenario : got (exec (.keyset 3917 3923 3) State.reset)
    (fun t => t.keys == scenarioKey && t.resv == 15366391 && t.kout.length == 3) = true := by decide +kernel
theorem test_keyset_refuses_a_composite : answer (exec (.keyset 9 7 5) State.reset) = some (1, 2) := by decide +kernel
theorem test_keypub : got (exec (.keypub 15366391 3) keyed)
    (fun t => t.keys.kd == 0 && t.status.toBits == 0x100 && t.resv == 15366391) = true := by decide
theorem test_keypub_small_modulus : answer (exec (.keypub 1 3) keyed) = some (5, 1) := by decide

/-! ### Cipher commands (41_cipher.md R170 to R174, 42_crt.md R195, R198) -/

theorem test_enc : answer (exec (.enc 65) keyed) = some (0, 274625) := by decide +kernel
theorem test_enc_no_key : answer (exec (.enc 65) State.reset) = some (7, 0) := by decide
theorem test_decd : answer (exec (.decd 274625) keyed) = some (0, 65) := by decide +kernel
theorem test_decd_out_of_range : answer (exec (.decd 15366391) keyed) = some (2, 15366391) := by decide
theorem test_decc : answer (exec (.decc 274625) keyed) = some (0, 65) := by decide +kernel
/-- `m1 < m2` needs the correction of 42_crt.md R193: under `p = 5`, `q = 11`, 50 has residues 0 and 6; 50^27 = 40. -/
theorem test_decc_sign : answer (exec (.decc 50) small) = answer (exec (.decd 50) small) := by decide +kernel
theorem test_encs : got (exec .encs { keyed with sin := syms [72, 105] })
    (fun t => t.sout == syms [373248, 1157625] && t.resv == 2 && t.sin == []) = true := by decide +kernel
theorem test_encs_error : got (exec .encs { keyed with sin := syms [72, 20000000, 105] })
    (fun t => t.sout == syms [373248] && t.resv == 20000000 && t.symcnt == 1 && t.status.lasterr == 2) = true := by
  decide +kernel
theorem test_decs : got (exec .decs { keyed with sin := syms [373248, 1157625] })
    (fun t => t.sout == syms [72, 105] && t.resv == 2) = true := by decide +kernel

/-! ### Codec commands (43_compressor.md R226, 44_bitpacker.md R245 to R248, 45_decoder.md R274) -/

theorem test_comp_run : got (exec .comp { s8 with sin := syms (List.replicate 20 65) })
    (fun t => t.bout == bytes [0xA0, 0x9F, 0x88] && t.resv == 20 && t.bytecnt == 3) = true := by decide +kernel
theorem test_comp_wide_symbol : got (exec .comp { s8 with sin := syms [65, 65, 300, 65] })
    (fun t => t.bout == bytes [] && t.symcnt == 2 && t.sin == []) = true := by decide +kernel
/-- `OUT_CAP = 1` (00_scope.md R9) is too small for a Literal of 9 bits (44_bitpacker.md R243). -/
theorem test_comp_overrun :
    got (exec .comp { s8 with params := { Params.default with outCap := 1 }, sin := syms [65] })
      (fun t => t.bout == bytes [] && t.status.lasterr == 3 && t.resv == 0 && t.sin == []) = true := by decide +kernel
theorem test_decomp_run : got (exec (.decomp 20) { s8 with bin := bytes [0xA0, 0x9F, 0x88] })
    (fun t => t.sout == syms (List.replicate 20 65) && t.resv == 20) = true := by decide +kernel
theorem test_decomp_malformed : got (exec (.decomp 20) { s8 with bin := bytes [0xA0, 0x9F] })
    (fun t => t.sout == syms [65] && t.resv == 1 && t.status.lasterr == 4) = true := by decide +kernel
theorem test_putl : got (exec (.putl 65) s8)
    (fun t => t.bout == [.sym 0xA0] && t.acc == 0x80 && t.nbits == 1 && t.bytecnt == 1 && t.status.pkopen) = true := by
  decide
def session : State :=
  { s8 with acc := 0x80, nbits := 1, bytecnt := 1, bout := [.sym 0xA0], status := { s8.status with pkopen := true } }
theorem test_putm : got (exec (.putm 31 19) session)
    (fun t => t.bout == [.sym 0xA0, .sym 0x9F] && t.acc == 0x88 && t.nbits == 5 && t.bytecnt == 2) = true := by decide
theorem test_flush :
    got (exec .flush { session with acc := 0x88, nbits := 5, bytecnt := 2, bout := [.sym 0xA0, .sym 0x9F] })
      (fun t => t.bout == bytes [0xA0, 0x9F, 0x88] && t.resv == 3 && !t.status.pkopen) = true := by decide
theorem test_flush_without_a_session : got (exec .flush { s8 with bytecnt := 3 })
    (fun t => t.bout == bytes [] && t.resv == 0) = true := by decide
def s24 : State := { keyed with cfg := { State.reset.cfg with symw := 24 } }
theorem test_protect : got (exec .protect { s24 with sin := syms [65, 65, 65, 8] })
    (fun t => t.bout == bytes [0x82, 0x18, 0x60, 0x9F, 0x04, 0x00, 0x08, 0x00] && t.resv == 4) = true := by decide +kernel
theorem test_recover :
    got (exec (.recover 4) { s24 with bin := bytes [0x82, 0x18, 0x60, 0x9F, 0x04, 0x00, 0x08, 0x00] })
      (fun t => t.sout == syms [65, 65, 65, 8] && t.resv == 4) = true := by decide +kernel
/-- A decode of `[L(65), M(31, 19)]` before its first token (45_decoder.md R274). -/
def decoding : State :=
  { startDecode .decomp 20 { s8 with bin := bytes [0xA0, 0x9F, 0x88] } with
    phase := .matching, dwin := Mem.blank 31 32, dr := 31 }
/-- The decode after the bits of its Literal have been read (46_control_pipeline.md R300). -/
def holding : State :=
  { decoding with
    phase := .emitting, tok := some (.literal 65), ibuf := 0x9F, ibits := 7, bin := bytes [0x88] }
theorem test_token_is_read : step decoding = .next holding := by rfl
theorem test_literal : got (step holding)
    (fun t => t.sout == [.sym 65] && t.dwin.read 31 == some 65 && t.dr == 32 && t.phase == .matching) = true := by decide
/-- The decode of `decoding` after its Literal. -/
def copying : State :=
  { decoding with dwin := decoding.dwin.write 31 65, dr := 32, symcnt := 1, sout := [.sym 65] }
theorem test_match_overlaps_itself : got (exec (.matchTok 31 17) copying)
    (fun t => t.sout.length == 20 && t.dwin.read 50 == some 65 && t.dwin.read 51 == none && t.phase == .drained) = true := by
  decide +kernel
theorem test_match_unwritten : exec (.matchTok 40 0) copying = .fault .dwinUnwritten := by rfl

/-! ### Witnesses: the hypotheses of every statement are met

Theorem `test_hyps_<Name>` meets the hypotheses of `Obligations.<Name>`, clause by clause. The capacities are parameters
(00_scope.md R9), so the boundary of a clause is met on an engine whose capacities are small. -/

/-- An engine with `CT_CAP = 3` and `OUT_CAP = 5`. -/
def lesser : Params := { kw := 16, eimax := 6, ctCap := 3, outCap := 5 }

theorem lesser_legal : lesser.Legal ∧ CountersFit lesser := by decide +kernel

/-- Its reset state with `SYMW = 8` and a key. -/
def sSmall : State :=
  withKey smallKey { State.resetWith lesser with cfg := { CfgRegs.atReset lesser with symw := 8 } }

/-- The same without a key, and with a configuration no codec command accepts. -/
def sKeyless : State := { sSmall with status := State.reset.status }
def sBad : State := { sKeyless with cfg := { CfgRegs.atReset lesser with f := 200, pmin := 2 } }

/-- A state with its stream inputs replaced. -/
def fed (p : List (Item Nat)) (s : State) : State := { s with sin := p }
def fedBytes (p : List (Item Byte)) (s : State) : State := { s with bin := p }

theorem prime_5 : Nat.Prime 5 := by norm_num
theorem prime_11 : Nat.Prime 11 := by norm_num

theorem smallKey_keypair : smallKey.Keypair := ⟨prime_5, prime_11, by decide +kernel⟩

theorem test_hyps_ResetStateHoldsTheStatedValues : Params.default.Legal ∧ lesser.Legal ∧ lesser.kw ≤ 255 := by
  decide +kernel

theorem test_hyps_CompletionAndRaise : (0 : Nat) < 8 ∧ (7 : Nat) < 8 := by decide +kernel

theorem test_hyps_StatusWordLayout :
    ((11 : Nat) ≤ 11 ∧ (11 : Nat) ≤ 15) ∧ (11 ≤ 15 ∧ 15 ≤ 15) ∧ 24 ≤ 24 ∧ 24 ≤ State.reset.params.kw := by
  decide +kernel

theorem test_hyps_WrcfgWritesOneConfigurationRegister :
    (15 < 16 ∧ 24 < 25) ∧ (16 ∈ [16, 17, 20] ∧ 256 ≤ 256) ∧
    ((16 ≤ 16 ∧ 16 ≤ 24) ∧ (16 ∈ [16, 17, 20] → 255 < 256)) ∧
    ((16 ≤ 24 ∧ 24 ≤ 24) ∧ (24 ∈ [16, 17, 20] → 0xFFFFFFFF < 256)) ∧ 0 ≠ 16 := by decide +kernel

theorem test_hyps_RdregReadsEveryDefinedIndex :
    (∀ idx ∈ [10, 15, 25, 31, 35, 0xFFFFFFFF],
      idx ∉ [0, 1, 2, 3, 4, 5, 6, 7, 8, 9, 16, 17, 18, 19, 20, 21, 22, 23, 24, 32, 33, 34]) ∧
    24 ≤ State.reset.params.kw := by decide +kernel

theorem test_hyps_KeysetCommitsAnAcceptedPair :
    sBad.cfg.keygenOk sBad.params = false ∧ State.reset.cfg.keygenOk State.reset.params = true ∧
    FailsTest State.reset.cfg 2 5 3 1 ∧ FailsTest State.reset.cfg 5 65536 3 1 ∧ FailsTest State.reset.cfg 9 7 5 2 ∧
    FailsTest State.reset.cfg 5 5 3 3 ∧ FailsTest State.reset.cfg 5 7 3 4 ∧ AcceptedPair State.reset.cfg 5 11 3 ∧
    AcceptedPair State.reset.cfg 3 65521 11 := by
  have h3 : Nat.Prime 3 := by norm_num
  have h7 : Nat.Prime 7 := by norm_num
  have h9 : ¬ Nat.Prime 9 := by norm_num
  have hb : Nat.Prime 65521 := by norm_num
  have h : AcceptedPair State.reset.cfg 5 11 3 ∧ AcceptedPair State.reset.cfg 3 65521 11 := by
    simp only [AcceptedPair, prime_5, prime_11, h3, hb, true_and]
    decide +kernel
  exact ⟨by decide +kernel, by decide +kernel, by show ¬ _; decide, by show ¬ _; decide,
    ⟨by decide, fun h => h9 h.1⟩, ⟨by decide, prime_5, rfl⟩, ⟨by decide, ⟨prime_5, h7⟩, by decide⟩, h⟩

theorem test_hyps_KeypubLoadsThePublicHalf : 1 < 2 ∧ 2 ≤ 2 := by decide +kernel

/-- With one rejection tolerated: draws 1, 1 give the pair (4, 4), draws 2, 8 the pair (5, 11). -/
def oneRetry : CfgRegs := { State.reset.cfg with retry := 1 }

theorem rejected_pair : ¬ AcceptedPair oneRetry (drawn oneRetry 1) (drawn oneRetry 1) 3 := by
  intro h
  exact h.2.2.2.2.1 rfl

theorem accepted_draws : AcceptedPair oneRetry (drawn oneRetry 2) (drawn oneRetry 8) 3 := by
  simp only [AcceptedPair, show drawn oneRetry 2 = 5 from rfl, show drawn oneRetry 8 = 11 from rfl, prime_5, prime_11,
    true_and]
  decide +kernel

theorem test_hyps_KeygenCommitsTheFirstAcceptedPair :
    sBad.cfg.keygenOk sBad.params = false ∧ oneRetry.keygenOk Params.default = true ∧
    ([2, 8, 7] = [] ++ 2 :: 8 :: [7] ∧ ([] : List Nat).length = 2 * 0 ∧ 0 ≤ oneRetry.retry ∧
      AllRejected oneRetry 3 [] ∧ AcceptedPair oneRetry (drawn oneRetry 2) (drawn oneRetry 8) 3) ∧
    ([1, 1, 2, 8] = [1, 1] ++ 2 :: 8 :: [] ∧ [1, 1].length = 2 * 1 ∧ 1 ≤ oneRetry.retry ∧ AllRejected oneRetry 3 [1, 1]) ∧
    ([1, 1, 1, 1].length = 2 * (oneRetry.retry + 1) ∧ AllRejected oneRetry 3 [1, 1, 1, 1]) :=
  ⟨by decide, by decide, ⟨rfl, rfl, by decide, trivial, accepted_draws⟩,
    ⟨rfl, rfl, by decide, rejected_pair, trivial⟩, ⟨rfl, rejected_pair, rejected_pair, trivial⟩⟩

theorem test_hyps_ModexpIsThePower : 1 ≤ 1 := by decide +kernel

theorem test_hyps_EgcdAndModinv : 1 ≤ 1 ∧ 2 ≤ 2 ∧ Nat.gcd 1 2 = 1 ∧ Nat.gcd 3 40 = 1 := by decide +kernel

theorem test_hyps_EncIsThePublicPower :
    sKeyless.status.pubv = false ∧ small.status.pubv = true ∧ small.keys.kn ≤ 55 ∧ 54 < small.keys.kn := by
  decide +kernel

theorem test_hyps_DecdIsThePrivatePower :
    sKeyless.status.prvv = false ∧ small.status.prvv = true ∧ small.keys.kn ≤ 55 ∧ 54 < small.keys.kn := by
  decide +kernel

theorem test_hyps_DeccIsTheReconstruction :
    sKeyless.status.prvv = false ∧ small.status.prvv = true ∧ small.keys.kn ≤ 55 ∧ 0 < small.keys.kn := by
  decide +kernel

theorem test_hyps_CrtAgreesWithTheDirectPath : smallKey.Keypair ∧ 54 < smallKey.kn := ⟨smallKey_keypair, by decide⟩

theorem test_hyps_DecryptInvertsEncrypt :
    (∃ s1, exec (.keyset 5 11 3) State.reset = .next s1 ∧
      (s1.status.lasterr == 0 && decide (54 < s1.keys.kn)) = true) ∧
    ∃ s1, exec (.keygen 3) { State.reset with rng := [2, 8] } = .next s1 ∧
      (s1.status.lasterr == 0 && decide (54 < s1.keys.kn)) = true :=
  ⟨exists_next (by decide +kernel), exists_next (by decide +kernel)⟩

/-- A segment with as many symbols as `CT_CAP` admits, one with a symbol out of range, one with a symbol too many. -/
theorem test_hyps_EncsEncryptsASegment :
    (fed (segment [0, 7, 54] ++ [.sym 1]) sSmall).sin = segment [0, 7, 54] ++ [.sym 1] ∧
    sKeyless.status.pubv = false ∧ sSmall.status.pubv = true ∧
    ([0, 7, 54].length ≤ sSmall.params.ctCap ∧ ∀ m ∈ [0, 7, 54], m < sSmall.keys.kn) ∧
    ([7, 7] ++ 55 :: [9] = [7, 7, 55, 9] ∧ (∀ x ∈ [7, 7], x < sSmall.keys.kn) ∧
      [7, 7].length < sSmall.params.ctCap ∧ sSmall.keys.kn ≤ 55) ∧
    [0, 7, 54].length = sSmall.params.ctCap := by decide +kernel

theorem test_hyps_DecsDecryptsASegment :
    (fed (segment [0, 7, 54] ++ [.sym 1]) sSmall).sin = segment [0, 7, 54] ++ [.sym 1] ∧
    sKeyless.status.prvv = false ∧ sSmall.status.prvv = true ∧
    ([0, 7, 54].length ≤ sSmall.params.ctCap ∧ ∀ m ∈ [0, 7, 54], m < sSmall.keys.kn) ∧
    ([7] ++ 60 :: [9] = [7, 60, 9] ∧ (∀ x ∈ [7], x < sSmall.keys.kn) ∧
      [7].length < sSmall.params.ctCap ∧ sSmall.keys.kn ≤ 60) ∧
    [0, 7, 54].length = sSmall.params.ctCap := by decide +kernel

/-- A session with `n` bytes pushed and `k` zero bits pending. -/
def openSession (n : Nat) (k : Fin 8) : State :=
  { sSmall with nbits := k, bytecnt := n, status := { sSmall.status with pkopen := true } }

/-- No session, three bytes counted in the last one, and no room for a token. -/
def closedFull : State := { sSmall with params := { lesser with outCap := 1 }, bytecnt := 3 }

/-- A Literal that does not fit, with no session open: `BYTECNT <- 0` comes before `room` (44_bitpacker.md R245, R243), and
the error keeps it (60_exceptions.md R320, R331). -/
theorem test_putl_overrun_without_a_session :
    exec (.putl 65) closedFull = .next (raise { kind := .bufferOverrun, info := 0 } { closedFull with bytecnt := 0 }) := by
  rfl

theorem test_hyps_PutlPutsALiteral :
    (∀ s ∈ [session, sBad, openSession 4 0, openSession 3 7], s.acc.toNat % 2 ^ (8 - s.nbits.val) = 0) ∧
    sBad.cfg.codecOk sBad.params = false ∧ sSmall.cfg.codecOk sSmall.params = true ∧
    2 ^ sSmall.cfg.symw.toNat ≤ 256 ∧ 255 < 2 ^ sSmall.cfg.symw.toNat ∧
    (∃ s, s = openSession 4 0 ∧ 8 * s.params.outCap < 8 * s.sessionBytes + s.nbits.val + (1 + s.cfg.symw.toNat)) ∧
    (∃ s, s = openSession 3 7 ∧ 8 * s.sessionBytes + s.nbits.val + (1 + s.cfg.symw.toNat) = 8 * s.params.outCap) ∧
    (∃ s, s = closedFull ∧ s.status.pkopen = false ∧ s.cfg.codecOk s.params = true ∧ s.acc = 0 ∧
      8 * s.params.outCap < 8 * s.sessionBytes + s.nbits.val + (1 + s.cfg.symw.toNat)) := by
  refine ⟨forall_of_all (by decide +kernel), by decide +kernel, by decide +kernel, by decide +kernel, by decide +kernel,
    ⟨_, rfl, ?_⟩, ⟨_, rfl, ?_⟩, ⟨_, rfl, ?_⟩⟩ <;> decide +kernel

theorem test_hyps_PutmPutsAMatch :
    (∀ s ∈ [session, sBad, openSession 3 5, openSession 3 4], s.acc.toNat % 2 ^ (8 - s.nbits.val) = 0) ∧
    (2 ^ sSmall.cfg.ei.toNat ≤ 64 ∧ 63 < 2 ^ sSmall.cfg.ei.toNat ∧ 1 < sSmall.cfg.p + 1 ∧ sSmall.cfg.f - 1 < 33 ∧
      sSmall.cfg.p + 1 ≤ 2 ∧ 32 ≤ sSmall.cfg.f - 1) ∧
    (∃ s, s = openSession 3 5 ∧
      8 * s.params.outCap < 8 * s.sessionBytes + s.nbits.val + (1 + s.cfg.ei.toNat + s.cfg.ej.toNat)) ∧
    (∃ s, s = openSession 3 4 ∧
      8 * s.sessionBytes + s.nbits.val + (1 + s.cfg.ei.toNat + s.cfg.ej.toNat) = 8 * s.params.outCap) ∧
    (∃ s, s = closedFull ∧ s.status.pkopen = false ∧ s.cfg.codecOk s.params = true ∧ s.acc = 0 ∧
      8 * s.params.outCap < 8 * s.sessionBytes + s.nbits.val + (1 + s.cfg.ei.toNat + s.cfg.ej.toNat)) := by
  refine ⟨forall_of_all (by decide +kernel), by decide +kernel, ⟨_, rfl, ?_⟩, ⟨_, rfl, ?_⟩, ⟨_, rfl, ?_⟩⟩ <;>
    decide +kernel

theorem test_hyps_SearchFindsTheNearestLongestMatch :
    Mem.read [(0, 7), (1, 7), (2, 7)] 1 = some 7 ∧ 0 ≤ 1 ∧ 1 ≤ 1 ∧
    search [(0, 7), (1, 7), (2, 7)] 7 1 0 1 = (0, 1) ∧ search [(0, 7), (1, 7), (2, 7)] 7 1 0 2 = (0, 2) := by
  decide +kernel

/-- The smallest geometry: `N = 4`, `F = 3`, `H = 1`. -/
def tiny : CfgRegs := { State.reset.cfg with ei := 2, ej := 1, f := 3, symw := 8 }

def tinyEncoder (r s b y f1 : Nat) (eos : Bool) (win : Mem) (p : Phase) : Encoder :=
  { { State.reset with running := .comp }.encoder with
    regs := { r := r, s := s, bufferend := b, x := 0, y := y, f1 := f1, eos := eos, taken := 0 }
    win := win, phase := p }

/-- `LoopInv` with its clause on the cells as a check of a list of positions. -/
theorem loopInv_of {c : CfgRegs} {e : Encoder}
    (h1 : e.regs.r = e.regs.s + c.h ∧ e.regs.r ≤ e.regs.bufferend ∧ e.regs.bufferend ≤ 2 * c.n ∧
      (e.regs.eos = false → e.regs.bufferend = 2 * c.n))
    (h2 : ∀ i ∈ List.range e.regs.bufferend, e.regs.s ≤ i → (e.win.read i).isSome = true)
    (h3 : e.phase = .matching ∧ e.regs.r < 2 * c.n - c.f ∧ e.regs.r < e.regs.bufferend ∨
      e.phase = .emitting ∧ e.regs.r < 2 * c.n - c.f ∧ e.regs.r < e.regs.bufferend ∧
        1 ≤ e.regs.y ∧ e.regs.y ≤ e.regs.f1 ∧ e.regs.f1 = min c.maxMatch (e.regs.bufferend - e.regs.r) ∨
      e.phase = .shifting ∧ 2 * c.n - c.f ≤ e.regs.r ∧ e.regs.r ≤ 2 * c.n - 2 ∨
      e.phase = .drained ∧ e.regs.r < 2 * c.n - c.f ∧ e.regs.r = e.regs.bufferend ∧ e.regs.eos = true) :
    e.LoopInv c :=
  ⟨h1.1, h1.2.1, h1.2.2.1, h1.2.2.2, fun i hs hb => h2 i (List.mem_range.2 hb) hs, h3⟩

theorem test_hyps_EncoderKeepsTheLoopInvariant :
    tiny.codecOk lesser = true ∧
    (∃ e, e = { tinyEncoder 0 0 0 0 0 false [] .filling with sin := syms [5] } ∧
      e.phase = .filling ∧ (e.phaseStep lesser tiny).2 = none) ∧
    (tinyEncoder 1 0 2 1 1 true [(0, 32), (1, 5)] .matching).LoopInv tiny ∧
    (tinyEncoder 1 0 2 1 1 true [(0, 32), (1, 5)] .emitting).LoopInv tiny ∧
    (tinyEncoder 6 5 6 1 1 true [(5, 5)] .shifting).LoopInv tiny ∧
    (tinyEncoder 2 1 2 1 1 true [(1, 5)] .drained).LoopInv tiny := by
  refine ⟨by decide, ⟨_, rfl, rfl, by decide +kernel⟩, ?_, ?_, ?_, ?_⟩ <;>
    exact loopInv_of (by decide +kernel) (by decide +kernel) (by decide +kernel)

/-- No symbol, one, and as many as `CT_CAP` admits. -/
theorem test_hyps_CompEmitsTheStreamTokens :
    (fed (segment [65, 65, 65] ++ [.eos]) sSmall).sin = segment [65, 65, 65] ++ [.eos] ∧
    sSmall.status.pkopen = false ∧ sSmall.cfg.codecOk sSmall.params = true ∧
    ∀ l ∈ [[], [255], [65, 65, 65]], l.length ≤ sSmall.params.ctCap ∧ (∀ v ∈ l, v < 2 ^ sSmall.cfg.symw.toNat) ∧
      (tokensBits sSmall.cfg.widths (streamTokens sSmall.cfg l)).length ≤ 8 * sSmall.params.outCap := by
  decide +kernel

/-- The smallest geometry and room for one byte: two Literals take 18 bits. -/
def sTiny : State :=
  { State.resetWith { kw := 16, eimax := 6, ctCap := 20, outCap := 1 } with cfg := { tiny with symw := 3, blank := 0 } }

theorem test_hyps_CompRaises :
    session.status.pkopen = true ∧ sBad.status.pkopen = false ∧ sBad.cfg.codecOk sBad.params = false ∧
    sSmall.cfg.codecOk sSmall.params = true ∧
    (∀ l1 ∈ [[], [65, 255]], (∀ x ∈ l1, x < 2 ^ sSmall.cfg.symw.toNat) ∧ l1.length < sSmall.params.ctCap ∧
      2 ^ sSmall.cfg.symw.toNat ≤ 256 ∧
      (tokensBits sSmall.cfg.widths (tokensPutBefore sSmall.cfg l1)).length ≤ 8 * sSmall.params.outCap) ∧
    ((∀ x ∈ [1, 2, 3], x < 2 ^ sSmall.cfg.symw.toNat) ∧ [1, 2, 3].length = sSmall.params.ctCap) ∧
    (sTiny.cfg.codecOk sTiny.params = true ∧ sTiny.status.pkopen = false ∧
      (∀ x ∈ [1, 2, 3, 4, 5, 6, 7], x < 2 ^ sTiny.cfg.symw.toNat ∧ 7 ≤ sTiny.params.ctCap ∧
        2 ^ sTiny.cfg.symw.toNat ≤ 8) ∧
      [.literal 1, .literal 2] ++ .literal 3 :: [.literal 4] = tokensPutBefore sTiny.cfg [1, 2, 3, 4, 5, 6, 7] ∧
      [.literal 1, .literal 2] ++ .literal 3 :: [] = streamTokens sTiny.cfg [1, 2, 3] ∧
      (tokensBits sTiny.cfg.widths [.literal 1, .literal 2]).length = 8 * sTiny.params.outCap ∧
      0 < (tokenBits sTiny.cfg.widths (.literal 3)).length) := by decide +kernel

theorem test_hyps_EmittedTokenLaws :
    s8.cfg.codecOk s8.params = true ∧ (Instr.matchTok 31 17) ∈ streamTokens s8.cfg (List.replicate 20 65) ∧
    [32, 65].Nodup ∧ ∀ i ∈ [Instr.literal 65, .matchTok 31 17], i.isToken = true := by decide +kernel

/-- Both places a Literal can go to: RECOVER's `CTBUF`, and DECOMP's `SOUT`. -/
theorem test_hyps_LiteralIsWrittenAtTheCursor :
    { copying with running := .recover }.running = .recover ∧ copying.running ≠ .recover ∧
    got (exec (.literal 9) { copying with running := .recover })
      (fun t => t.ctbuf.read 1 == some 9 && t.sout == copying.sout) = true := by decide +kernel

theorem test_hyps_MatchCopiesOneSymbolAtATime :
    (∀ s ∈ [copying, { copying with running := .recover }, { copying with symcnt := 20 }],
      s.dr < s.cfg.n ∧ s.symcnt ≤ s.count) ∧
    (∃ syms : List Nat, syms.length = min (0 + 2) (copying.count - copying.symcnt) ∧
      (copying.dr + 0) % copying.cfg.n ≠ (31 + 0) % copying.cfg.n ∧
      copying.dwin.read ((31 + 0) % copying.cfg.n) = syms[0]? ∧
      (copying.dr + 0) % copying.cfg.n = (31 + 1) % copying.cfg.n ∧ syms[1]? = syms[0]?) ∧
    (0 < min (0 + 2) (copying.count - copying.symcnt) ∧ copying.dwin.read ((40 + 0) % copying.cfg.n) = none) ∧
    min (0 + 2) ({ copying with symcnt := 20 }.count - { copying with symcnt := 20 }.symcnt) = 0 ∧
    got (exec (.matchTok 31 0) { copying with running := .recover })
      (fun t => t.ctbuf == [(1, 65), (2, 65)] && t.sout == copying.sout) = true :=
  ⟨forall_of_all (by decide +kernel), ⟨[65, 65], by decide +kernel⟩, by decide +kernel⟩

/-- The bytes of `[L(65), M(31, 19)]` under `tw8`. -/
def run20 : List Byte := [0xA0, 0x9F, 0x88]
def run20Tokens : List Instr := [.literal 65, .matchTok 31 17]

theorem test_hyps_DecompExpandsTokens :
    s8.cfg.codecOk s8.params = true ∧ (fedBytes (segment run20 ++ [.sym 1]) s8).bin = segment run20 ++ [.sym 1] ∧
    (∀ i ∈ run20Tokens, i.isToken = true ∧ i.wellFormed s8.params.kw s8.cfg.widths = true) ∧
    run20.flatMap byteBits = tokensBits s8.cfg.widths run20Tokens ++ [false, false, false] ∧
    expandTokens s8.cfg run20Tokens = some (List.replicate 20 65) ∧
    ∀ count ∈ [0, 1, 20], count ≤ s8.params.ctCap ∧ count ≤ (List.replicate 20 65).length := by decide +kernel

theorem test_hyps_DecompRaises :
    sBad.cfg.codecOk sBad.params = false ∧ sSmall.cfg.codecOk sSmall.params = true ∧ sSmall.params.ctCap < 4 ∧
    3 ≤ sSmall.params.ctCap ∧
    (∀ i ∈ [Instr.literal 65], i.isToken = true ∧ i.wellFormed sSmall.params.kw sSmall.cfg.widths = true) ∧
    ([0xA0, 0x9F] : List Byte).flatMap byteBits =
      tokensBits sSmall.cfg.widths [.literal 65] ++ [false, false, true, true, true, true, true] ∧
    decodeToken sSmall.cfg.widths [false, false, true, true, true, true, true] = .error .outOfBits ∧
    expandTokens sSmall.cfg [.literal 65] = some [65] ∧ [65].length < 3 := by decide +kernel

/-- Another threshold: an engine that is the same but for `P`. -/
theorem test_hyps_DecompInvertsComp :
    sSmall.status.pkopen = false ∧ sSmall.cfg.codecOk sSmall.params = true ∧ [9, 9, 9].length ≤ sSmall.params.ctCap ∧
    (∀ v ∈ [9, 9, 9], v < 2 ^ sSmall.cfg.symw.toNat) ∧
    (tokensBits sSmall.cfg.widths (streamTokens sSmall.cfg [9, 9, 9])).length ≤ 8 * sSmall.params.outCap ∧
    (∃ u : CfgRegs, u = { sSmall.cfg with p := 2 } ∧ u.codecOk lesser = true ∧ u.ei = sSmall.cfg.ei ∧
      u.ej = sSmall.cfg.ej ∧ u.f = sSmall.cfg.f ∧ u.symw = sSmall.cfg.symw ∧ u.blank = sSmall.cfg.blank ∧
      [9, 9, 9].length ≤ lesser.ctCap) :=
  ⟨rfl, by decide +kernel, by decide, by decide, by decide +kernel, _, rfl, by decide +kernel, rfl, rfl, rfl, rfl, rfl,
    by decide⟩

theorem test_hyps_SessionEqualsComp :
    (sSmall.status.pkopen = false ∧ sSmall.acc = 0 ∧ sSmall.nbits = 0) ∧
    (fed (segment [9, 9, 9]) sSmall).sin = segment [9, 9, 9] ++ [] ∧
    sSmall.cfg.codecOk sSmall.params = true ∧ [9, 9, 9].length ≤ sSmall.params.ctCap ∧
    (∀ v ∈ [9, 9, 9], v < 2 ^ sSmall.cfg.symw.toNat) ∧
    (tokensBits sSmall.cfg.widths (streamTokens sSmall.cfg [9, 9, 9])).length ≤ 8 * sSmall.params.outCap := by
  decide +kernel

theorem test_hyps_ProtectCompressesTheCiphertext :
    sSmall.status.pkopen = false ∧ sSmall.cfg.codecOk sSmall.params = true ∧ sSmall.status.pubv = true ∧
    ∀ l ∈ [[], [0, 54, 7]], l.length ≤ sSmall.params.ctCap ∧
      (∀ m ∈ l, m < sSmall.keys.kn ∧ sSmall.keys.power m < 2 ^ sSmall.cfg.symw.toNat) ∧
      (tokensBits sSmall.cfg.widths (streamTokens sSmall.cfg (l.map sSmall.keys.power))).length ≤
        8 * sSmall.params.outCap := by decide +kernel

theorem test_hyps_ProtectIsEncsThenComp :
    sSmall.keys.Keypair ∧ sSmall.status.pkopen = false ∧ sSmall.cfg.codecOk sSmall.params = true ∧
    sSmall.status.pubv = true ∧ sSmall.keys.kn ≤ 2 ^ sSmall.cfg.symw.toNat ∧ [0, 54].length ≤ sSmall.params.ctCap ∧
    (∀ m ∈ [0, 54], m < sSmall.keys.kn) ∧
    (tokensBits sSmall.cfg.widths (streamTokens sSmall.cfg ([0, 54].map sSmall.keys.power))).length ≤
      8 * sSmall.params.outCap := ⟨smallKey_keypair, by decide +kernel⟩

/-- `SYMW = 5` is too narrow for the ciphertext 51 of 6 under the small key. -/
def narrow : State := { sSmall with cfg := { sSmall.cfg with symw := 5, blank := 0 } }

/-- Room for one byte under the small key: a Literal of 8 bits takes 9. -/
def cramped : State := { sSmall with params := { lesser with outCap := 1 } }

theorem test_hyps_ProtectRaises :
    session.status.pkopen = true ∧ sBad.status.pkopen = false ∧ sBad.cfg.codecOk sBad.params = false ∧
    (sKeyless.cfg.codecOk sKeyless.params = true ∧ sKeyless.status.pubv = false) ∧
    (narrow.cfg.codecOk narrow.params = true ∧ narrow.status.pubv = true) ∧
    (∀ x ∈ [1, 2], x < narrow.keys.kn ∧ narrow.keys.power x < 2 ^ narrow.cfg.symw.toNat) ∧
    (narrow.keys.kn ≤ 55 ∧ [1, 2].length < narrow.params.ctCap) ∧
    (6 < narrow.keys.kn ∧ 2 ^ narrow.cfg.symw.toNat ≤ narrow.keys.power 6) ∧
    ((∀ x ∈ [0, 7, 54], x < sSmall.keys.kn ∧ sSmall.keys.power x < 2 ^ sSmall.cfg.symw.toNat) ∧
      [0, 7, 54].length = sSmall.params.ctCap) ∧
    (cramped.cfg.codecOk cramped.params = true ∧ cramped.status.pubv = true ∧
      [] ++ .literal 8 :: [.literal 13] = streamTokens cramped.cfg ([2, 7].map cramped.keys.power) ∧
      (tokensBits cramped.cfg.widths []).length ≤ 8 * cramped.params.outCap ∧
      8 * cramped.params.outCap < 0 + (tokenBits cramped.cfg.widths (.literal 8)).length) := by decide +kernel

/-- Two Literals of 8 and 4, the ciphertexts of 2 and 49 under the small key, and the start of a third. -/
def twoTokens : List Instr := [.literal 8, .literal 4]
def twoBytes : List Byte := [0x84, 0x41, 0x00]

theorem test_hyps_RecoverDecryptsTheTokens :
    sSmall.cfg.codecOk sSmall.params = true ∧ sSmall.status.prvv = true ∧
    (∀ i ∈ twoTokens, i.isToken = true ∧ i.wellFormed sSmall.params.kw sSmall.cfg.widths = true) ∧
    twoBytes.flatMap byteBits = tokensBits sSmall.cfg.widths twoTokens ++ List.replicate 6 false ∧
    expandTokens sSmall.cfg twoTokens = some [8, 4] ∧
    ∀ count ∈ [0, 1, 2], count ≤ sSmall.params.ctCap ∧ count ≤ [8, 4].length ∧
      ∀ c ∈ [8, 4].take count, c < sSmall.keys.kn := by decide +kernel

theorem test_hyps_RecoverInvertsProtect :
    sSmall.keys.Keypair ∧ sSmall.status.pkopen = false ∧ sSmall.cfg.codecOk sSmall.params = true ∧
    sSmall.status.pubv = true ∧ sSmall.status.prvv = true ∧ sSmall.keys.kn ≤ 2 ^ sSmall.cfg.symw.toNat ∧
    [0, 54].length ≤ sSmall.params.ctCap ∧ (∀ m ∈ [0, 54], m < sSmall.keys.kn) ∧
    (tokensBits sSmall.cfg.widths (streamTokens sSmall.cfg ([0, 54].map sSmall.keys.power))).length ≤
      8 * sSmall.params.outCap := ⟨smallKey_keypair, by decide +kernel⟩

theorem test_hyps_RecoverRaises :
    sBad.cfg.codecOk sBad.params = false ∧ (sKeyless.cfg.codecOk sKeyless.params = true ∧ sKeyless.status.prvv = false) ∧
    (sSmall.cfg.codecOk sSmall.params = true ∧ sSmall.status.prvv = true) ∧ sSmall.params.ctCap < 4 ∧
    3 ≤ sSmall.params.ctCap ∧
    twoBytes.flatMap byteBits = tokensBits sSmall.cfg.widths twoTokens ++ List.replicate 6 false ∧
    decodeToken sSmall.cfg.widths (List.replicate 6 false) = .error .outOfBits ∧
    expandTokens sSmall.cfg twoTokens = some [8, 4] ∧ [8, 4].length < 3 ∧
    expandTokens sSmall.cfg [.literal 8, .literal 55] = some [8, 55] ∧ [8, 55].take 2 = [8] ++ 55 :: [] ∧
    (∀ x ∈ [8], x < sSmall.keys.kn) ∧ sSmall.keys.kn ≤ 55 := by decide +kernel

theorem test_hyps_CommandWordRoundTrip :
    (Instr.keyset 1 2 0xFFFFFFFF).isToken = false ∧ (Instr.keyset 1 2 0xFFFFFFFF).wellFormed 32 tw8 = true ∧
    decodeCommand 32 0x30FFFFFFFFFFFFFFFFFFFFFFFF = .ok .comp := by decide +kernel

theorem test_hyps_TokenRoundTrip :
    (Instr.literal 255).isToken = true ∧ (Instr.literal 255).wellFormed 32 tw8 = true ∧
    (Instr.matchTok 63 31).wellFormed 32 tw8 = true ∧
    decodeToken tw8 [true, false, true, false, false, false, false, false, true, false] =
      .ok (.literal 65, [false]) := by decide +kernel

theorem test_hyps_ReservedOpcodesAreIllegal :
    (0 < 2 ^ 32 ∧ 0xFFFFFFFF < 2 ^ 32) ∧
    (∀ op ∈ ([0x05, 0x0F, 0x13, 0x1F, 0x25, 0x2F, 0x35, 0x3F, 0x42, 0xFF] : List Byte),
      (0x05 ≤ op.toNat ∧ op.toNat ≤ 0x0F) ∨ (0x13 ≤ op.toNat ∧ op.toNat ≤ 0x1F) ∨
      (0x25 ≤ op.toNat ∧ op.toNat ≤ 0x2F) ∨ (0x35 ≤ op.toNat ∧ op.toNat ≤ 0x3F) ∨ 0x42 ≤ op.toNat) ∧
    (0x41 : Byte).toNat ∈ [0x00, 0x01, 0x02, 0x03, 0x04, 0x10, 0x11, 0x12, 0x20, 0x21, 0x22, 0x23, 0x24, 0x30, 0x31,
      0x32, 0x33, 0x34, 0x40, 0x41] ∧
    (∃ s : State, s = { State.reset with cmd := [CmdWord.make 32 5 0 0 0] } ∧
      s.params.kw = 32 ∧ s.resetLine = false ∧ s.phase = .idle) :=
  ⟨by decide, by decide +kernel, by decide, _, rfl, rfl, rfl, rfl⟩

theorem test_hyps_StepRunsTheCommand :
    State.reset.resetLine = false ∧ State.reset.phase = .idle ∧ State.reset.cmd = [] ∧
    { State.reset with cmd := [0, 1] }.cmd = 0 :: [1] ∧ decodeCommand State.reset.params.kw 0 = .ok .nop := by
  decide +kernel

theorem test_hyps_ResetLineRestoresResetState : { keyed with resetLine := true }.resetLine = true := rfl

theorem test_hyps_StepRunsTheToken :
    decoding.resetLine = false ∧ decoding.phase = .matching ∧ decoding.running = .decomp ∧
    (decodeToken decoding.cfg.widths decoding.pendingBits).toOption.map Prod.fst = some (.literal 65) ∧
    (∃ s : State, s = { copying with phase := .emitting, tok := some (.matchTok 31 17), running := .recover } ∧
      s.resetLine = false ∧ s.phase = .emitting ∧ s.running = .recover ∧ (Instr.matchTok 31 17).isToken = true) :=
  ⟨rfl, rfl, rfl, by decide +kernel, _, rfl, rfl, rfl, rfl, rfl⟩

theorem test_hyps_OneResultRecordPerCommand : Instr.nop.isToken = false ∧ ∃ t, exec .nop State.reset = .next t :=
  ⟨rfl, _, rfl⟩

theorem test_hyps_FailedCommandsChangeNothing :
    (∃ t, exec (.enc 5) State.reset = .next t ∧ t.res = State.reset.res ++ [{ code := 7, value := 0 }]) ∧
    (∃ t, exec (.putm 0 2) closedFull = .next t ∧ t.res = closedFull.res ++ [{ code := 3, value := 0 }]) ∧
    (7 : Byte) ≠ 0 ∧ (3 : Byte) ≠ 0 := ⟨⟨_, rfl, rfl⟩, ⟨_, rfl, rfl⟩, by decide, by decide⟩

theorem test_hyps_OnlyTheOwnersWrite : ∃ t, exec .clrerr session = .next t := ⟨_, rfl⟩

theorem test_hyps_MemoriesAreNotObservable :
    Instr.comp.isToken = false ∧
    ∃ u : State, u = { s8 with win := [(0, 1)], ctbuf := [(3, 2)], dr := 5, tok := some .nop } ∧ u ≠ s8 ∧
      s8.visible = u.visible := ⟨rfl, _, rfl, by decide +kernel, rfl⟩

theorem test_hyps_IncompleteInputIsStuck :
    ((∀ x ∈ State.reset.sin, x ≠ .eos) ∧ (∀ x ∈ [Item.sym 1], x ≠ .eos) ∧
      (∀ x ∈ ([.sym 0xA0] : List (Item Byte)), x ≠ .eos) ∧ State.reset.status.pkopen = false) ∧
    (oneRetry.keygenOk Params.default = true ∧ ([] : List Nat).length < 2 * (oneRetry.retry + 1) ∧
      [1, 1, 1].length < 2 * (oneRetry.retry + 1)) ∧
    AllRejected oneRetry 3 [] ∧ AllRejected oneRetry 3 [1, 1, 1] :=
  ⟨by decide +kernel, by decide +kernel, trivial, rejected_pair, trivial⟩

theorem test_hyps_PhasesRefineTheCommands :
    sSmall.resetLine = false ∧ sSmall.cfg.codecOk sSmall.params = true ∧ sSmall.status.prvv = true ∧
    sSmall.status.pkopen = false ∧ sSmall.status.pubv = true ∧ 0 ≤ sSmall.params.ctCap ∧ 3 ≤ sSmall.params.ctCap ∧
    (fed (segment [0, 7, 54] ++ [.eos]) sSmall).sin = segment [0, 7, 54] ++ [.eos] ∧
    ∀ m ∈ [0, 7, 54], m < sSmall.keys.kn ∧ sSmall.keys.power m < 2 ^ sSmall.cfg.symw.toNat := by decide +kernel

theorem small_keyInv : small.KeyInv := ⟨fun _ => ⟨rfl, smallKey_keypair⟩, by decide +kernel, by decide +kernel⟩

theorem test_hyps_KeyInvariantIsKept : small.KeyInv ∧ ∃ t, step { small with cmd := [0] } = .next t :=
  ⟨small_keyInv, _, rfl⟩

/-- What `RDREG` reads fits where the 22 registers do. -/
theorem readReg_fits {s : State} {k : Nat} (h : ∀ i ∈ List.range 35, ∀ v ∈ s.readReg i, v < k) :
    ∀ i v, s.readReg i = some v → v < k := by
  intro i v hv
  by_cases hi : i < 35
  · exact h i (List.mem_range.2 hi) v hv
  · exfalso
    simp only [State.readReg] at hv
    split at hv <;> first | omega | cases hv

theorem test_hyps_RestInvariantIsKept :
    session.RestInv ∧ (∃ t, step { session with cmd := [0] } = .next t) ∧
    (sSmall.RestInv ∧ sSmall.params.Legal ∧ CountersFit sSmall.params ∧ sSmall.KeyInv ∧ sSmall.Fits) := by
  refine ⟨by unfold State.RestInv; decide +kernel, ⟨_, rfl⟩, by unfold State.RestInv; decide +kernel, lesser_legal.1,
    lesser_legal.2, ⟨fun _ => ⟨rfl, smallKey_keypair⟩, by decide +kernel, by decide +kernel⟩,
    readReg_fits (by decide +kernel), by decide +kernel, by decide +kernel, ?_, ?_⟩
  · intro m hm i v hv
    have hn : m = [] := by simpa [sSmall, withKey, State.resetWith] using hm
    rw [hn] at hv
    cases hv
  · exact ⟨nofun, nofun, fun _ h => (h.elim nofun nofun), nofun, nofun⟩

theorem test_hyps_MemoryInvariantIsKept :
    State.reset.MemInv ∧ State.reset.MemBound ∧ State.reset.phase = .idle ∧
    decoding.MemInv ∧ ∃ t, step { State.reset with cmd := [0] } = .next t :=
  ⟨⟨Mem.wf_nil, Mem.wf_nil, Mem.wf_nil⟩, ⟨fun _ _ => rfl, fun _ _ => rfl, fun _ _ => rfl⟩, rfl,
    ⟨Mem.wf_nil, Mem.wf_blank _ _, Mem.wf_nil⟩, _, rfl⟩

theorem test_hyps_ResetMeetsTheInvariants : Params.default.Legal ∧ lesser.Legal := by decide +kernel

theorem test_hyps_KeyTextRoundTrip :
    ([0x20] : List Byte) ≠ [] ∧
    (∀ x ∈ ([0x20, 0x09, 0x0D, 0x0A] : List Byte), x ∈ ([0x20, 0x09, 0x0A, 0x0D] : List Byte)) ∧
    (decimal 0).head? = some 0x30 ∧ (0x35 : Byte) ∈ decimal 15 := by decide +kernel

/-- The text of 30_encoding.md R101: `3917 3923` and a line feed. -/
theorem test_key_text : (KeyRecord.mk .pq 3917 3923).text =
    [0x33, 0x39, 0x31, 0x37, 0x20, 0x33, 0x39, 0x32, 0x33, 0x0A] := by decide +kernel

end Sys2Proof.Tests
end

section
/-! Bounds on what the arithmetic of the cipher answers (41_cipher.md R161 to R166, 42_crt.md R195): the values a key
command stores and a cipher command pushes are below the modulus they are taken of. -/

namespace Sys2Proof.Machine

open Sys2Proof

theorem powLoop_lt {m : Nat} (hm : 0 < m) :
    ∀ (fuel b k acc : Nat), acc < m → powLoop m fuel b k acc < m
  | 0, _, _, _, h => h
  | fuel + 1, b, k, acc, h => by
    simp only [powLoop]
    split
    · exact h
    · refine powLoop_lt hm fuel _ _ _ ?_
      split
      · exact Nat.mod_lt _ hm
      · exact h

/-- `modexp` answers a reduced value (41_cipher.md R162). -/
theorem modexp_lt {m : Nat} (hm : 0 < m) (b k : Nat) : modexp b k m < m :=
  powLoop_lt hm k _ k _ (Nat.mod_lt _ hm)

/-- The coefficient of the extended Euclidean algorithm stays within the modulus: the weighted sum of the two
coefficients never grows. -/
theorem egcdLoop_coeff_le {m : Nat} :
    ∀ (fuel r0 r1 : Nat) (s0 s1 : Int), s0.natAbs ≤ m → s1.natAbs ≤ m →
      s0.natAbs * r1 + s1.natAbs * r0 ≤ m → (egcdLoop fuel r0 r1 s0 s1).2.natAbs ≤ m
  | 0, _, _, _, _, h0, _, _ => h0
  | fuel + 1, r0, r1, s0, s1, h0, h1, hs => by
    simp only [egcdLoop]
    split
    · exact h0
    · next hr =>
      have hnew : (s0 - (r0 / r1 : Nat) * s1).natAbs ≤ s0.natAbs + r0 / r1 * s1.natAbs := by
        have h := Int.natAbs_sub_le s0 ((r0 / r1 : Nat) * s1)
        rwa [Int.natAbs_mul, Int.natAbs_natCast] at h
      have hsum : s1.natAbs * (r0 - r0 / r1 * r1) + (s0 - (r0 / r1 : Nat) * s1).natAbs * r1 ≤ m :=
        calc s1.natAbs * (r0 - r0 / r1 * r1) + (s0 - (r0 / r1 : Nat) * s1).natAbs * r1
            ≤ s1.natAbs * (r0 - r0 / r1 * r1) + (s0.natAbs + r0 / r1 * s1.natAbs) * r1 := by gcongr
          _ = s0.natAbs * r1 + s1.natAbs * (r0 - r0 / r1 * r1 + r0 / r1 * r1) := by ring
          _ = s0.natAbs * r1 + s1.natAbs * r0 := by rw [Nat.sub_add_cancel (Nat.div_mul_le_self r0 r1)]
          _ ≤ m := hs
      have hle : (s0 - (r0 / r1 : Nat) * s1).natAbs ≤ m :=
        calc (s0 - (r0 / r1 : Nat) * s1).natAbs
            ≤ (s0 - (r0 / r1 : Nat) * s1).natAbs * r1 := Nat.le_mul_of_pos_right _ (Nat.pos_of_ne_zero hr)
          _ ≤ m := by omega
      exact egcdLoop_coeff_le fuel _ _ _ _ h1 hle hsum

/-- `modinv` answers a value within the modulus, whatever it is asked to invert (41_cipher.md R166). -/
theorem modinv_le {m : Nat} (hm : 1 ≤ m) (a : Nat) : modinv a m ≤ m := by
  have h : (egcd a m).2.natAbs ≤ m := egcdLoop_coeff_le (m + 1) a m 1 0 hm (Nat.zero_le _) (by simp)
  simp only [modinv]
  split <;> omega

/-- The recombination of 42_crt.md R195 answers a value below the product of the primes. -/
theorem crt_lt {k : KeyFile} (hp : 0 < k.kp) (hq : 0 < k.kq) (c : Nat) : k.crt c < k.kp * k.kq := by
  have hm2 : modexp c k.kdq k.kq < k.kq := modexp_lt hq c _
  have hh : ∀ x, modmul k.kqinv x k.kp + 1 ≤ k.kp := fun x => Nat.mod_lt _ hp
  have hmul := Nat.mul_le_mul_right k.kq (hh (crtDiff (modexp c k.kdp k.kp) (modexp c k.kdq k.kq) k.kp))
  rw [Nat.succ_mul] at hmul
  simp only [KeyFile.crt]
  omega

/-- Under the public key every symbol is mapped below the modulus. -/
theorem encrypt_lt {k : KeyFile} {v : Nat} (h : v < k.kn) : k.encrypt v < k.kn := modexp_lt (by omega) _ _

/-- So it is by the direct decrypt. -/
theorem decryptDirect_lt {k : KeyFile} {v : Nat} (h : v < k.kn) : k.decryptDirect v < k.kn := modexp_lt (by omega) _ _

/-- With a keypair held the recombination answers a value below the modulus (42_crt.md R194). -/
theorem crt_lt_kn {k : KeyFile} (h : k.Keypair) (c : Nat) : k.crt c < k.kn := by
  obtain ⟨hp, hq, -, -, -, hn, -⟩ := h
  exact hn ▸ crt_lt hp.pos hq.pos c

end Sys2Proof.Machine
end

section
/-! Predicates on the values a memory or a port holds, and what the operations on memories and ports do to them. -/

namespace Sys2Proof.Machine

open Sys2Proof

/-- Every cell of a memory that holds a value holds one that satisfies `V`. -/
def Mem.All (V : Nat → Prop) (m : Mem) : Prop := ∀ i v, m.read i = some v → V v

/-- Every symbol on a port satisfies `V`. -/
def PortAll (V : Nat → Prop) (port : List (Item Nat)) : Prop := ∀ v, .sym v ∈ port → V v

variable {V : Nat → Prop}

theorem Mem.all_nil : Mem.All V [] := by
  intro i v h
  cases h

theorem Mem.All.write {m : Mem} (h : m.All V) (i : Nat) {v : Nat} (hv : V v) : (m.write i v).All V := by
  intro j x hx
  rw [Mem.read_write] at hx
  split at hx
  · cases hx; exact hv
  · exact h j x hx

theorem Mem.all_blank (n : Nat) {v : Nat} (hv : V v) : (Mem.blank n v).All V := by
  intro j x hx
  rw [Mem.read_blank] at hx
  split at hx
  · cases hx; exact hv
  · cases hx

theorem Mem.All.shiftCells (n : Nat) :
    ∀ (k i : Nat) {m : Mem}, m.All V → (shiftCells n k i m).All V
  | 0, _, _, h => h
  | k + 1, i, m, h => by
    simp only [Machine.shiftCells]
    split
    · next v hv => exact Mem.All.shiftCells n k (i + 1) (h.write i (h _ v hv))
    · exact Mem.All.shiftCells n k (i + 1) h

/-- What holds of a port holds of every part of it. -/
theorem PortAll.mono {p q : List (Item Nat)} (h : PortAll V p) (hq : ∀ x ∈ q, x ∈ p) : PortAll V q :=
  fun v hv => h v (hq _ hv)

theorem PortAll.tail {a : Item Nat} {p : List (Item Nat)} (h : PortAll V (a :: p)) : PortAll V p :=
  h.mono fun _ => List.mem_cons_of_mem a

theorem PortAll.append_syms {p : List (Item Nat)} (h : PortAll V p) {l : List Nat} (hl : ∀ v ∈ l, V v) :
    PortAll V (p ++ l.map .sym) := by
  intro v hv
  rcases List.mem_append.1 hv with hv | hv
  · exact h v hv
  · obtain ⟨w, hw, he⟩ := List.mem_map.1 hv
    cases he
    exact hl _ hw

theorem PortAll.append_eos {p : List (Item Nat)} (h : PortAll V p) : PortAll V (p ++ [.eos]) := by
  intro v hv
  rcases List.mem_append.1 hv with hv | hv
  · exact h v hv
  · cases List.mem_singleton.1 hv

/-- What the end of a stream command leaves on its input port stood there before (20_memory.md R67). -/
theorem mem_of_mem_dropped {α : Type} {pulled : Bool} {port rest : List (Item α)}
    (h : (if pulled then some port else dropSegment port) = some rest) : ∀ x ∈ rest, x ∈ port := by
  intro x hx
  cases pulled
  · obtain ⟨l, rfl⟩ := dropSegment_eq_some.1 h
    exact List.mem_append_right _ hx
  · cases h
    exact hx

end Sys2Proof.Machine
end

section
/-! The packer's registers (10_state.md R50): the unused bits of `ACC` stay 0, and a session stays within its capacity
(44_bitpacker.md R243). -/

namespace Sys2Proof.Machine

open Sys2Proof

/-- The session's bits are within `8 * OUT_CAP` (44_bitpacker.md R243). -/
def Packer.InCap (P : Params) (p : Packer) : Prop := 8 * p.bytecnt + p.nbits.val ≤ 8 * P.outCap

/-- The bits of `ACC` below the `NBITS` held are 0 (10_state.md R50). -/
def Packer.LowZero (p : Packer) : Prop := p.acc.toNat % 2 ^ (8 - p.nbits.val) = 0

/-- The bit `putbit` adds stands above the bits left free. -/
theorem newBit_low_zero : ∀ (n : Fin 8) (b : Bool),
    (BitVec.ofNat 8 b.toNat <<< (7 - n.val)).toNat % 2 ^ (7 - n.val) = 0 := by decide

theorem Packer.LowZero.putBit {p : Packer} (h : p.LowZero) (b : Bool) : (p.putBit b).LowZero := by
  simp only [Packer.putBit]
  split
  · rfl
  · next hn =>
    have hval : (p.nbits + 1).val = p.nbits.val + 1 :=
      Fin.val_add_one_of_lt (by rw [Fin.lt_def]; show p.nbits.val < 7; omega)
    have hacc : p.acc.toNat % 2 ^ (7 - p.nbits.val) = 0 :=
      Nat.mod_eq_zero_of_dvd
        ((Nat.pow_dvd_pow 2 (by omega)).trans (Nat.dvd_of_mod_eq_zero (h : _ % 2 ^ (8 - p.nbits.val) = 0)))
    have hexp : 8 - (p.nbits + 1).val = 7 - p.nbits.val := by omega
    simp only [Packer.LowZero, hexp, BitVec.toNat_or, Nat.or_mod_two_pow, hacc, newBit_low_zero p.nbits b, Nat.or_self]

theorem Packer.LowZero.putBits {p : Packer} (h : p.LowZero) (bits : List Bool) : (p.putBits bits).LowZero := by
  induction bits generalizing p with
  | nil => exact h
  | cons b bits ih => exact ih (h.putBit b)

/-- A token that goes in keeps the session within its capacity and the unused bits of `ACC` at 0; one that does not
raises with `BYTECNT` (44_bitpacker.md R243). -/
theorem putToken_cases {P : Params} {p : Packer} {bits : List Bool} :
    p.putToken P bits = .error { kind := .bufferOverrun, info := p.bytecnt } ∨
    ∃ q : Packer, p.putToken P bits = .ok q ∧ q.InCap P ∧ (p.LowZero → q.LowZero) := by
  rw [putToken_eq]
  split
  · exact .inl rfl
  · next h => exact .inr ⟨_, rfl, by rw [Packer.InCap, putBits_total]; omega, fun hp => hp.putBits bits⟩

@[simp] theorem flush_acc (p : Packer) : p.flush.acc = 0 := by
  simp only [Packer.flush]; split <;> rfl

@[simp] theorem flush_nbits (p : Packer) : p.flush.nbits = 0 := by
  simp only [Packer.flush]; split <;> rfl

/-- The byte a flush adds had its bits counted before (44_bitpacker.md R244). -/
theorem Packer.InCap.flush {P : Params} {p : Packer} (h : p.InCap P) : p.flush.InCap P := by
  simp only [Packer.InCap, Packer.flush] at h ⊢
  split <;> simp only [Fin.val_zero] <;> omega

theorem Packer.InCap.bytecnt_le {P : Params} {p : Packer} (h : p.InCap P) : p.bytecnt ≤ P.outCap := by
  simp only [Packer.InCap] at h; omega

end Sys2Proof.Machine
end

section
/-! The encoder keeps its counters within their capacities and its values within any bound `V` its input respects
(43_compressor.md R211, 44_bitpacker.md R243, 20_memory.md R68). `V` is a parameter: the bound `2^KW` where widths are
asked about, and no bound at all where only the counters are. -/

namespace Sys2Proof.Machine

open Sys2Proof

/-- The counters of an encode are within their capacities and every value it can reach satisfies `V`. -/
structure Encoder.Inv (P : Params) (V : Nat → Prop) (e : Encoder) : Prop where
  pk : e.pk.InCap P
  symcnt : e.symcnt ≤ P.ctCap
  win : e.win.All V
  sin : PortAll V e.sin
  ctbuf : e.ctbuf.All V

/-- An error a unit stops with carries an information word that satisfies `V` (60_exceptions.md R322). -/
def HaltInfo (V : Nat → Prop) (h : Option Halt) : Prop := ∀ x, h = some (.raise x) → V x.info

/-- What a part of an encode leaves: the invariant, and an admitted information word if it raises. -/
def Encoder.Good (P : Params) (V : Nat → Prop) (r : Encoder × Option Halt) : Prop := r.1.Inv P V ∧ HaltInfo V r.2

/-- The values the encoder makes by itself satisfy `V`: the filler symbol and the values of its counters. -/
structure Encoder.Admits (P : Params) (c : CfgRegs) (V : Nat → Prop) : Prop where
  blank : V c.blank
  symcnt : ∀ n ≤ P.ctCap, V n
  bytecnt : ∀ n ≤ P.outCap, V n

@[simp] theorem haltInfo_none (V : Nat → Prop) : HaltInfo V none := nofun

@[simp] theorem haltInfo_fault (V : Nat → Prop) (f : Fault) : HaltInfo V (some (.fault f)) := nofun

@[simp] theorem haltInfo_raise (V : Nat → Prop) (x : Exc) : HaltInfo V (some (.raise x)) ↔ V x.info :=
  ⟨fun h => h x rfl, fun h _ hx => by cases hx; exact h⟩

variable {P : Params} {c : CfgRegs} {V : Nat → Prop} {e : Encoder}

/-- A symbol pulled is one the port or `CTBUF` held. -/
theorem Encoder.Inv.pull_sym (h : e.Inv P V) {v : Nat} {e1 : Encoder} (hp : e.pull = .sym v e1) :
    V v ∧ e1.Inv P V := by
  simp only [Encoder.pull] at hp
  split at hp
  · split at hp
    · split at hp
      · next hr => cases hp; exact ⟨h.ctbuf _ _ hr, { h with }⟩
      · cases hp
    · cases hp
  all_goals
    split at hp
    · cases hp
    · cases hp
    · next hs =>
      cases hp
      have hsin := h.sin
      rw [hs] at hsin
      exact ⟨hsin _ List.mem_cons_self, { h with sin := hsin.tail }⟩

theorem Encoder.Inv.pull_eos (h : e.Inv P V) {e1 : Encoder} (hp : e.pull = .eos e1) : e1.Inv P V := by
  simp only [Encoder.pull] at hp
  split at hp
  · split at hp
    · split at hp <;> cases hp
    · cases hp; exact h
  all_goals
    split at hp
    · cases hp
    · next hs =>
      cases hp
      have hsin := h.sin
      rw [hs] at hsin
      exact { h with sin := hsin.tail }
    · cases hp

/-- A refusal names the symbol, or the capacity the count has reached. -/
theorem Encoder.Inv.refuses_info (h : e.Inv P V) (hV : Encoder.Admits P c V) {v : Nat} (hv : V v) {x : Exc}
    (hx : e.refuses P c v = some x) : V x.info := by
  simp only [Encoder.refuses] at hx
  split at hx
  · cases hx
  all_goals
    split at hx
    · cases hx; exact hV.symcnt _ h.symcnt
    · split at hx
      · cases hx; exact hv
      · cases hx

/-- What is not refused can be counted: outside PROTECT the count has not reached the capacity. -/
theorem Encoder.symcnt_ne_of_not_refused {v : Nat} (hx : e.refuses P c v = none) (hr : e.running ≠ .protect) :
    e.symcnt ≠ P.ctCap := by
  intro hc
  cases he : e.running <;> simp_all [Encoder.refuses]

theorem Encoder.Inv.load (h : e.Inv P V) {v : Nat} (hv : V v) (hx : e.refuses P c v = none) : (e.load v).Inv P V := by
  refine { h with win := h.win.write _ hv, symcnt := ?_ }
  have hle := h.symcnt
  simp only [Encoder.load]
  split
  · exact hle
  · next hr => have hne := Encoder.symcnt_ne_of_not_refused hx hr; omega

theorem Encoder.Inv.fill (hV : Encoder.Admits P c V) :
    ∀ (room : Nat) {e : Encoder}, e.Inv P V → Encoder.Good P V (fill P c room e)
  | 0, _, h => ⟨h, haltInfo_none V⟩
  | room + 1, e, h => by
    simp only [Machine.fill]
    split
    · exact ⟨h, haltInfo_none V⟩
    · split
      · exact ⟨h, haltInfo_fault V _⟩
      · next e1 he => exact ⟨{ h.pull_eos he with }, haltInfo_none V⟩
      · next v e1 he =>
        obtain ⟨hv, h1⟩ := h.pull_sym he
        split
        · next x hx => exact ⟨h1, (haltInfo_raise V x).2 (h1.refuses_info hV hv hx)⟩
        · next hx => exact Encoder.Inv.fill hV room (h1.load hv hx)

theorem Encoder.Inv.resume (h : e.Inv P V) : e.resume.Inv P V := { h with }

theorem Encoder.Inv.rebase (h : e.Inv P V) : (e.rebase c).Inv P V := { h with win := h.win.shiftCells _ _ _ }

theorem Encoder.Inv.advance (h : e.Inv P V) {pk : Packer} (hpk : pk.InCap P) (y : Nat) :
    (e.advance c y pk).Inv P V := by
  simp only [Encoder.advance]
  split
  · exact { h with pk := hpk }
  · exact Encoder.Inv.resume { h with pk := hpk }

theorem Encoder.Inv.filling (h : e.Inv P V) (hV : Encoder.Admits P c V) : Encoder.Good P V (e.filling P c) := by
  simp only [Encoder.filling]
  have hg := Encoder.Inv.fill hV (2 * c.n - c.h)
    (e := { e with win := Mem.blank c.h c.blank, regs := { e.regs with bufferend := c.h, eos := false } })
    { h with win := Mem.all_blank _ hV.blank }
  split
  · next hf => rw [hf] at hg; exact hg
  · next hf => rw [hf] at hg; exact ⟨Encoder.Inv.resume { hg.1 with }, haltInfo_none V⟩

theorem Encoder.Inv.matching (h : e.Inv P V) : Encoder.Good P V (e.matching c) := by
  simp only [Encoder.matching]
  split
  · exact ⟨h, haltInfo_fault V _⟩
  · exact ⟨{ h with }, haltInfo_none V⟩

theorem Encoder.Inv.emitting (h : e.Inv P V) (hV : Encoder.Admits P c V) : Encoder.Good P V (e.emitting P c) := by
  have hinfo : V e.pk.bytecnt := hV.bytecnt _ h.pk.bytecnt_le
  simp only [Encoder.emitting, Packer.putLiteral, Packer.putMatch]
  split
  · exact ⟨h, haltInfo_fault V _⟩
  · next sym _ =>
    split
    · rcases putToken_cases (P := P) (p := e.pk) (bits := literalBits c.symw.toNat sym) with hp | ⟨q, hp, hq, -⟩
      · rw [hp]; exact ⟨{ h with }, (haltInfo_raise V _).2 hinfo⟩
      · rw [hp]; exact ⟨h.advance hq 1, haltInfo_none V⟩
    · rcases putToken_cases (P := P) (p := e.pk)
        (bits := matchBits c.ei.toNat c.ej.toNat (e.regs.x % c.n) (e.regs.y - 2)) with hp | ⟨q, hp, hq, -⟩
      · rw [hp]; exact ⟨h, (haltInfo_raise V _).2 hinfo⟩
      · rw [hp]; exact ⟨h.advance hq e.regs.y, haltInfo_none V⟩

theorem Encoder.Inv.shifting (h : e.Inv P V) (hV : Encoder.Admits P c V) : Encoder.Good P V (e.shifting P c) := by
  simp only [Encoder.shifting]
  have hg := Encoder.Inv.fill hV (2 * c.n - (e.rebase c).regs.bufferend) (h.rebase (c := c))
  split
  · next hf => rw [hf] at hg; exact hg
  · next hf => rw [hf] at hg; exact ⟨hg.1.resume, haltInfo_none V⟩

/-- Every phase of the encoder keeps its invariant (46_control_pipeline.md R300). -/
theorem Encoder.Inv.phaseStep (h : e.Inv P V) (hV : Encoder.Admits P c V) : Encoder.Good P V (e.phaseStep P c) := by
  simp only [Encoder.phaseStep]
  split
  · exact h.filling hV
  · exact h.matching
  · exact h.emitting hV
  · exact h.shifting hV
  · exact ⟨h, haltInfo_none V⟩
  · exact ⟨h, haltInfo_fault V _⟩

/-- So do the phases run one after the other. -/
theorem Encoder.Inv.drive (hV : Encoder.Admits P c V) :
    ∀ (fuel : Nat) {e : Encoder}, e.Inv P V → Encoder.Good P V (e.drive P c fuel)
  | 0, _, h => ⟨h, haltInfo_none V⟩
  | fuel + 1, e, h => by
    have hg := h.phaseStep hV
    simp only [Encoder.drive]
    split
    · exact ⟨h, haltInfo_none V⟩
    · split
      · next hs => rw [hs] at hg; exact hg
      · next hs => rw [hs] at hg; exact Encoder.Inv.drive hV fuel hg.1

end Sys2Proof.Machine
end

section
/-! The decoder keeps its count within the expected count and its values within any bound `V` its input respects
(45_decoder.md R260 to R269). -/

namespace Sys2Proof.Machine

open Sys2Proof

/-- A decode that expects `n` symbols has counted at most `n`, and every value it can reach satisfies `V`. This holds in
the middle of a token too. -/
structure Decoder.Mid (n : Nat) (V : Nat → Prop) (d : Decoder) : Prop where
  count : d.count = n
  symcnt : d.symcnt ≤ n
  dwin : d.dwin.All V
  sout : PortAll V d.sout
  ctbuf : d.ctbuf.All V

/-- Between two phases the count is also below `n` while a token is due (45_decoder.md R263), and a Literal that waits
to be executed satisfies `V`. -/
structure Decoder.Inv (n : Nat) (V : Nat → Prop) (d : Decoder) : Prop extends Decoder.Mid n V d where
  due : d.phase = .matching ∨ d.phase = .emitting → d.symcnt < n
  tok : d.phase = .emitting → ∀ v, d.tok = some (.literal v) → V v

/-- What a part of a decode leaves: the invariant, and an admitted information word if it raises. -/
def Decoder.Good (n : Nat) (V : Nat → Prop) (r : Decoder × Option Halt) : Prop := r.1.Inv n V ∧ HaltInfo V r.2

/-- The values the decoder makes by itself satisfy `V`: the filler symbol, what a Literal's field can hold and the
values of its counter. -/
structure Decoder.Admits (n : Nat) (c : CfgRegs) (V : Nat → Prop) : Prop where
  blank : V c.blank
  literal : ∀ v < 2 ^ c.symw.toNat, V v
  symcnt : ∀ k ≤ n, V k

/-- A field of `w` bits holds a value below `2^w` (45_decoder.md R261). -/
theorem getBits_lt : ∀ (w v : Nat) {u u1 : Unpacker} {a : Nat}, u.getBits w v = .ok a u1 → a < 2 ^ w * (v + 1)
  | 0, v, _, _, _, h => by
    simp only [Unpacker.getBits] at h
    cases h
    omega
  | w + 1, v, u, u1, a, h => by
    simp only [Unpacker.getBits] at h
    split at h
    · next b u2 _ =>
      have hb : b.toNat ≤ 1 := b.toNat_le
      calc a < 2 ^ w * (2 * v + b.toNat + 1) := getBits_lt w _ h
        _ ≤ 2 ^ w * (2 * (v + 1)) := Nat.mul_le_mul_left _ (by omega)
        _ = 2 ^ (w + 1) * (v + 1) := by ring
    · cases h
    · cases h

/-- A Literal read from the stream fits its field (30_encoding.md R92). -/
theorem getToken_literal_lt {tw : TokenWidths} {u u1 : Unpacker} {v : Nat} (h : u.getToken tw = .ok (.literal v) u1) :
    v < 2 ^ tw.symw := by
  simp only [Unpacker.getToken] at h
  split at h
  · cases h
  · cases h
  · split at h
    · next hg => cases h; simpa using getBits_lt tw.symw 0 hg
    · cases h
    · cases h
  · split at h
    · cases h
    · cases h
    · split at h <;> cases h

variable {n : Nat} {c : CfgRegs} {V : Nat → Prop} {d : Decoder}

@[simp] theorem out_count (m v : Nat) (d : Decoder) : (d.out m v).count = d.count := by
  simp only [Decoder.out, Decoder.emit]; split <;> rfl

@[simp] theorem out_phase (m v : Nat) (d : Decoder) : (d.out m v).phase = d.phase := by
  simp only [Decoder.out, Decoder.emit]; split <;> rfl

@[simp] theorem out_tok (m v : Nat) (d : Decoder) : (d.out m v).tok = d.tok := by
  simp only [Decoder.out, Decoder.emit]; split <;> rfl

@[simp] theorem out_dwin (m v : Nat) (d : Decoder) : (d.out m v).dwin = d.dwin.write d.dr v := rfl

/-- A symbol goes to `SOUT` or to `CTBUF` (45_decoder.md R265, 46_control_pipeline.md R294). -/
theorem out_ports (m : Nat) {v : Nat} (hv : V v) {d : Decoder} (hs : PortAll V d.sout) (hc : d.ctbuf.All V) :
    PortAll V (d.out m v).sout ∧ (d.out m v).ctbuf.All V := by
  simp only [Decoder.out, Decoder.emit]
  split
  · exact ⟨hs, hc.write _ hv⟩
  all_goals exact ⟨hs.append_syms (l := [v]) (by simpa using hv), hc⟩

theorem Decoder.Mid.out (h : d.Mid n V) (hlt : d.symcnt < n) (m : Nat) {v : Nat} (hv : V v) : (d.out m v).Mid n V := by
  obtain ⟨hsout, hctbuf⟩ := out_ports m hv h.sout h.ctbuf
  exact { count := by rw [out_count, h.count], symcnt := hlt, dwin := by rw [out_dwin]; exact h.dwin.write _ hv,
          sout := hsout, ctbuf := hctbuf }

/-- The test of 45_decoder.md R263 starts the next token only while symbols are missing. -/
theorem Decoder.Mid.resume (h : d.Mid n V) : d.resume.Inv n V := by
  have hlt : d.resume.phase ≠ .drained → d.symcnt < n := by
    simp only [Decoder.resume, h.count]
    split
    · exact fun _ => ‹_›
    · exact fun hp => absurd rfl hp
  have hne : d.resume.phase ≠ .emitting := by
    simp only [Decoder.resume]
    split <;> exact nofun
  exact { h with due := fun hp => hlt (by rcases hp with hp | hp <;> rw [hp] <;> exact nofun),
                 tok := fun hp => absurd hp hne }

/-- The copy of a Match stops at the expected count, so it stays within it (45_decoder.md R269); it copies values the
window holds. -/
theorem Decoder.Mid.copy (m off : Nat) :
    ∀ (todo k : Nat) {d : Decoder}, d.Mid n V → (Decoder.copy m off todo k d).1.Mid n V ∧
      (Decoder.copy m off todo k d).1.phase = d.phase ∧ (Decoder.copy m off todo k d).1.tok = d.tok ∧
      ((Decoder.copy m off todo k d).2 ≠ none → (Decoder.copy m off todo k d).1.symcnt < n)
  | 0, _, _, h => ⟨h, rfl, rfl, fun hf => absurd rfl hf⟩
  | todo + 1, k, d, h => by
    simp only [Decoder.copy]
    split
    · exact ⟨h, rfl, rfl, fun hf => absurd rfl hf⟩
    · next hne =>
      have hlt : d.symcnt < n := Nat.lt_of_le_of_ne h.symcnt (h.count ▸ hne)
      split
      · exact ⟨h, rfl, rfl, fun _ => hlt⟩
      · next v hv =>
        obtain ⟨h1, hp, ht, hf⟩ := Decoder.Mid.copy m off todo (k + 1) (h.out hlt m (h.dwin _ v hv))
        exact ⟨h1, by rw [hp, out_phase], by rw [ht, out_tok], hf⟩

theorem Decoder.Inv.matchTok (h : d.Inv n V) (m off len2 : Nat) : (d.matchTok m off len2).1.Inv n V := by
  obtain ⟨h1, hp, ht, hf⟩ := Decoder.Mid.copy m off (len2 + 2) 0 h.toMid
  simp only [Decoder.matchTok]
  split
  · next hc => rw [hc] at h1; exact h1.resume
  · next hc =>
    rw [hc] at h1 hp ht hf
    exact { h1 with due := fun _ => hf nofun, tok := fun he => ht ▸ h.tok (hp ▸ he) }

/-- Executing the token held keeps the invariant (45_decoder.md R264 to R267). -/
theorem Decoder.Inv.emitting (h : d.Inv n V) (hp : d.phase = .emitting) : Decoder.Good n V (d.emitting c) := by
  simp only [Decoder.emitting]
  split
  · next i hi =>
    simp only [Decoder.token]
    split
    · next sym =>
      have hlt : d.symcnt < n := h.due (.inr hp)
      exact ⟨(h.toMid.out hlt c.n (h.tok hp sym hi)).resume, haltInfo_none V⟩
    · next off len2 =>
      have hm := h.matchTok c.n off len2
      split
      · next he => rw [he] at hm; exact ⟨hm, haltInfo_none V⟩
      · next he => rw [he] at hm; exact ⟨hm, haltInfo_fault V _⟩
    all_goals exact ⟨h, haltInfo_fault V _⟩
  · exact ⟨h, haltInfo_fault V _⟩

theorem Decoder.Inv.matching (h : d.Inv n V) (hV : Decoder.Admits n c V) (hp : d.phase = .matching) :
    Decoder.Good n V (d.matching c) := by
  have hlt : d.symcnt < n := h.due (.inl hp)
  simp only [Decoder.matching]
  split
  · next i u hu =>
    refine ⟨{ h with due := fun _ => hlt, tok := fun _ v hv => ?_ }, haltInfo_none V⟩
    cases hv
    exact hV.literal v (getToken_literal_lt hu)
  · exact ⟨{ h with }, (haltInfo_raise V _).2 (hV.symcnt _ h.symcnt)⟩
  · exact ⟨h, haltInfo_fault V _⟩

theorem Decoder.Inv.filling (h : d.Inv n V) (hV : Decoder.Admits n c V) : (d.filling c).Inv n V :=
  Decoder.Mid.resume { h.toMid with dwin := Mem.all_blank _ hV.blank }

/-- Every phase of the decoder keeps its invariant (46_control_pipeline.md R300). -/
theorem Decoder.Inv.phaseStep (h : d.Inv n V) (hV : Decoder.Admits n c V) : Decoder.Good n V (d.phaseStep c) := by
  simp only [Decoder.phaseStep]
  split
  · exact ⟨h.filling hV, haltInfo_none V⟩
  · exact h.matching hV ‹_›
  · exact h.emitting ‹_›
  · exact ⟨h, haltInfo_none V⟩
  · exact ⟨h, haltInfo_fault V _⟩
  · exact ⟨h, haltInfo_fault V _⟩

/-- So do the phases run one after the other. -/
theorem Decoder.Inv.drive (hV : Decoder.Admits n c V) :
    ∀ (fuel : Nat) {d : Decoder}, d.Inv n V → Decoder.Good n V (d.drive c fuel)
  | 0, _, h => ⟨h, haltInfo_none V⟩
  | fuel + 1, d, h => by
    have hg := h.phaseStep hV
    simp only [Decoder.drive]
    split
    · exact ⟨h, haltInfo_none V⟩
    · split
      · next hs => rw [hs] at hg; exact hg
      · next hs => rw [hs] at hg; exact Decoder.Inv.drive hV fuel hg.1

end Sys2Proof.Machine
end

section
/-! The loops of the stream commands over symbols, and the key file a key command commits: counts within the capacity,
values within any bound `V` their input respects. -/

namespace Sys2Proof.Machine

open Sys2Proof

variable {V : Nat → Prop}

/-- The loop of ENCS and DECS: the count stays within `CT_CAP` (41_cipher.md R174, 42_crt.md R198). -/
theorem cipherLoop_good {cap kn : Nat} {f : Nat → Nat} (hcap : ∀ n ≤ cap, V n) (hf : ∀ v < kn, V (f v)) :
    ∀ (port : List (Item Nat)) (cnt : Nat), cnt ≤ cap → PortAll V port →
      (cipherLoop cap kn f cnt port).cnt ≤ cap ∧ PortAll V (cipherLoop cap kn f cnt port).sin ∧
      (∀ v ∈ (cipherLoop cap kn f cnt port).out, V v) ∧ HaltInfo V (cipherLoop cap kn f cnt port).stop
  | [], _, hc, hp => ⟨hc, hp, nofun, haltInfo_fault V _⟩
  | .eos :: rest, _, hc, hp => ⟨hc, hp.tail, nofun, haltInfo_none V⟩
  | .sym v :: rest, cnt, hc, hp => by
    simp only [cipherLoop]
    split
    · exact ⟨hc, hp.tail, nofun, (haltInfo_raise V _).2 (hcap _ hc)⟩
    · split
      · exact ⟨hc, hp.tail, nofun, (haltInfo_raise V _).2 (hp v List.mem_cons_self)⟩
      · obtain ⟨hcnt, hsin, hout, hstop⟩ := cipherLoop_good hcap hf rest (cnt + 1) (by omega) hp.tail
        refine ⟨hcnt, hsin, fun w hw => ?_, hstop⟩
        rcases List.mem_cons.1 hw with rfl | hw
        · exact hf v (by omega)
        · exact hout w hw

/-- The first phase of PROTECT (46_control_pipeline.md R291). -/
theorem protectLoop_good {P : Params} {c : CfgRegs} {k : KeyFile} (hcap : ∀ n ≤ P.ctCap, V n)
    (hk : ∀ v < k.kn, V (k.encrypt v)) :
    ∀ (port : List (Item Nat)) (cnt : Nat) (m : Mem), cnt ≤ P.ctCap → m.All V → PortAll V port →
      (protectLoop P c k cnt m port).cnt ≤ P.ctCap ∧ (protectLoop P c k cnt m port).ctbuf.All V ∧
      PortAll V (protectLoop P c k cnt m port).sin ∧ HaltInfo V (protectLoop P c k cnt m port).stop
  | [], _, _, hc, hm, hp => ⟨hc, hm, hp, haltInfo_fault V _⟩
  | .eos :: rest, _, _, hc, hm, hp => ⟨hc, hm, hp.tail, haltInfo_none V⟩
  | .sym v :: rest, cnt, m, hc, hm, hp => by
    simp only [protectLoop]
    split
    · exact ⟨hc, hm, hp.tail, (haltInfo_raise V _).2 (hcap _ hc)⟩
    · split
      · exact ⟨hc, hm, hp.tail, (haltInfo_raise V _).2 (hp v List.mem_cons_self)⟩
      · have hv : V (k.encrypt v) := hk v (by omega)
        split
        · exact ⟨hc, hm, hp.tail, (haltInfo_raise V _).2 hv⟩
        · exact protectLoop_good hcap hk rest (cnt + 1) _ (by omega) (hm.write _ hv) hp.tail

/-- The second phase of RECOVER (46_control_pipeline.md R294). -/
theorem recoverLoop_good {k : KeyFile} {m : Mem} (hk : ∀ c, V (k.crt c)) (hm : m.All V) :
    ∀ todo i : Nat, (∀ v ∈ (recoverLoop k m todo i).out, V v) ∧ HaltInfo V (recoverLoop k m todo i).stop
  | 0, _ => ⟨nofun, haltInfo_none V⟩
  | todo + 1, i => by
    simp only [recoverLoop]
    split
    · exact ⟨nofun, haltInfo_fault V _⟩
    · next c hc =>
      split
      · exact ⟨nofun, (haltInfo_raise V _).2 (hm i c hc)⟩
      · obtain ⟨hout, hstop⟩ := recoverLoop_good hk hm todo (i + 1)
        refine ⟨fun w hw => ?_, hstop⟩
        rcases List.mem_cons.1 hw with rfl | hw
        · exact hk c
        · exact hout w hw

theorem recoverLoop_cnt_le (k : KeyFile) (m : Mem) :
    ∀ todo i : Nat, (recoverLoop k m todo i).cnt ≤ i + todo
  | 0, _ => Nat.le_refl _
  | todo + 1, i => by
    simp only [recoverLoop]
    split
    · exact Nat.le_add_right _ _
    · split
      · exact Nat.le_add_right _ _
      · have h := recoverLoop_cnt_le k m todo (i + 1)
        simp only [RecoverRun.prepend]
        omega

/-- Every register of the key file is below `b` (10_state.md R24). -/
structure KeyFile.Below (b : Nat) (k : KeyFile) : Prop where
  kn : k.kn < b
  ke : k.ke < b
  kd : k.kd < b
  kp : k.kp < b
  kq : k.kq < b
  kphi : k.kphi < b
  kdp : k.kdp < b
  kdq : k.kdq < b
  kqinv : k.kqinv < b

/-- A public key alone: its two numbers, the rest 0 (40_keygen.md R142). -/
theorem publicKey_below {b n e : Nat} (hn : n < b) (he : e < b) : (publicKey n e).Below b :=
  have hb : 0 < b := Nat.zero_lt_of_lt hn
  ⟨hn, he, hb, hb, hb, hb, hb, hb, hb⟩

/-- A pair that passes the range test under a legal configuration has a product of width `KW` (10_state.md R38). -/
theorem accepted_bounds {c : CfgRegs} {P : Params} {p q e : Nat} (hc : c.keygenOk P = true)
    (h : refusedBy c p q e = none) : 3 ≤ p ∧ 3 ≤ q ∧ p * q < 2 ^ P.kw := by
  simp only [CfgRegs.keygenOk, Bool.and_eq_true, decide_eq_true_eq] at hc
  obtain ⟨⟨hmin, -⟩, hmax⟩ := hc
  have hrange : (c.pmin ≤ p ∧ p ≤ c.pmax) ∧ c.pmin ≤ q ∧ q ≤ c.pmax := by
    by_contra hr
    rw [refusedBy, if_pos hr] at h
    cases h
  have hpos : 0 < 2 ^ (P.kw / 2) := by positivity
  have hprod : p * q < 2 ^ (P.kw / 2) * 2 ^ (P.kw / 2) := Nat.mul_lt_mul'' (by omega) (by omega)
  rw [← Nat.pow_add] at hprod
  exact ⟨by omega, by omega, Nat.lt_of_lt_of_le hprod (Nat.pow_le_pow_right (by omega) (by omega))⟩

/-- The number of the test that refuses a pair is at most 4 (40_keygen.md R131). -/
theorem refusedBy_le {c : CfgRegs} {p q e t : Nat} (h : refusedBy c p q e = some t) : t ≤ 4 := by
  simp only [refusedBy] at h
  repeat' split at h
  all_goals cases h <;> decide

/-- The key file derived from such a pair has registers of width `KW` (40_keygen.md R133, 42_crt.md R191). -/
theorem derive_below {p q e b : Nat} (hp : 3 ≤ p) (hq : 3 ≤ q) (hn : p * q < b) (he : e < b) :
    (derive p q e).Below b := by
  have hpn : p ≤ p * q := Nat.le_mul_of_pos_right p (by omega)
  have hqn : q ≤ p * q := Nat.le_mul_of_pos_left q (by omega)
  have hphi : 1 ≤ totient p q ∧ totient p q < b := by simp only [totient]; omega
  have hd : modinv e (totient p q) < b := Nat.lt_of_le_of_lt (modinv_le hphi.1 e) hphi.2
  exact { kn := hn, ke := he, kd := hd, kp := by simp only [derive]; omega, kq := by simp only [derive]; omega,
          kphi := hphi.2, kdp := Nat.lt_of_le_of_lt (Nat.mod_le _ _) hd,
          kdq := Nat.lt_of_le_of_lt (Nat.mod_le _ _) hd,
          kqinv := Nat.lt_of_le_of_lt (modinv_le (by omega) _) (by omega) }

/-- Every configuration register is below `b` (10_state.md R30). -/
structure CfgRegs.Below (b : Nat) (c : CfgRegs) : Prop where
  ei : c.ei.toNat < b
  ej : c.ej.toNat < b
  f : c.f < b
  p : c.p < b
  symw : c.symw.toNat < b
  blank : c.blank < b
  pmin : c.pmin < b
  pmax : c.pmax < b
  retry : c.retry < b

/-- A write keeps the registers below `b`: an 8-bit register keeps the low bits of the value. -/
theorem CfgRegs.Below.write {b : Nat} {c : CfgRegs} (h : c.Below b) (idx : Nat) {val : Nat} (hv : val < b) :
    (c.write idx val).Below b := by
  have h8 : (BitVec.ofNat 8 val).toNat < b := by
    rw [BitVec.toNat_ofNat]
    exact Nat.lt_of_le_of_lt (Nat.mod_le _ _) hv
  simp only [CfgRegs.write]
  split
  · exact { h with ei := h8 }
  · exact { h with ej := h8 }
  · exact { h with f := hv }
  · exact { h with p := hv }
  · exact { h with symw := h8 }
  · exact { h with blank := hv }
  · exact { h with pmin := hv }
  · exact { h with pmax := hv }
  · exact { h with retry := hv }
  · exact h

/-- A number below 256 is of width `KW` under legal parameters (00_scope.md R9). -/
theorem lt_of_legal {P : Params} (hP : P.Legal) {n : Nat} (hn : n < 256) : n < 2 ^ P.kw :=
  Nat.lt_of_lt_of_le hn (Nat.pow_le_pow_right (by omega) hP.2.1 : 2 ^ 8 ≤ 2 ^ P.kw)

/-- The reset values of the configuration are of width `KW` (10_state.md R55). -/
theorem atReset_below {P : Params} (hP : P.Legal) : (CfgRegs.atReset P).Below (2 ^ P.kw) := by
  have hhalf : 2 ^ (P.kw / 2) ≤ 2 ^ P.kw := Nat.pow_le_pow_right (by omega) (Nat.div_le_self _ _)
  have hpos : 0 < 2 ^ (P.kw / 2) := by positivity
  have hconst : ∀ n < 256, n < 2 ^ P.kw := fun _ => lt_of_legal hP
  exact { ei := hconst _ (BitVec.isLt _), ej := hconst _ (BitVec.isLt _), f := hconst 33 (by decide),
          p := hconst 1 (by decide), symw := hconst _ (BitVec.isLt _), blank := hconst 32 (by decide),
          pmin := hconst 3 (by decide), pmax := by simp only [CfgRegs.atReset]; omega,
          retry := by simp only [CfgRegs.atReset]; omega }

end Sys2Proof.Machine
end

section
/-! The invariants of the state between commands, taken apart: the counters, the packer, the values. -/

namespace Sys2Proof.Machine

open Sys2Proof

/-- What holds of `STATUS` and the counters even in the middle of an encode (10_state.md R41, 60_exceptions.md R321,
20_memory.md R68). -/
structure State.CountInv (s : State) : Prop where
  errs : s.status.errs.getLsbD 0 = false
  lasterr : s.status.lasterr.toNat ≤ 7
  symcnt : s.symcnt ≤ s.params.ctCap
  pk : s.packer.InCap s.params

/-- What `State.RestInv` says of all but the phase: the packer's registers too (10_state.md R50, 44_bitpacker.md
R249). -/
structure State.RegInv (s : State) : Prop extends State.CountInv s where
  low : s.packer.LowZero
  closed : s.status.pkopen = false → s.acc = 0 ∧ s.nbits = 0

theorem restInv_iff {s : State} : s.RestInv ↔ s.phase = .idle ∧ s.running = .nothing ∧ s.RegInv :=
  ⟨fun ⟨hp, hr, low, closed, errs, lasterr, symcnt, pk⟩ => ⟨hp, hr, ⟨⟨errs, lasterr, symcnt, pk⟩, low, closed⟩⟩,
   fun ⟨hp, hr, h⟩ => ⟨hp, hr, h.low, h.closed, h.errs, h.lasterr, h.symcnt, h.pk⟩⟩

/-- An empty accumulator meets what is asked of the packer. -/
theorem State.CountInv.regInv {s : State} (h : s.CountInv) (hacc : s.acc = 0) (hnbits : s.nbits = 0) : s.RegInv where
  toCountInv := h
  low := by simp [Packer.LowZero, State.packer, hacc, hnbits]
  closed := fun _ => ⟨hacc, hnbits⟩

/-- Every value of width `KW` but the two counters is below `2^KW` (00_scope.md R12). -/
structure State.Bounded (s : State) : Prop where
  keys : s.keys.Below (2 ^ s.params.kw)
  resv : s.resv < 2 ^ s.params.kw
  cfg : s.cfg.Below (2 ^ s.params.kw)
  count : s.count < 2 ^ s.params.kw
  budget : s.budget < 2 ^ s.params.kw
  win : s.win.All (· < 2 ^ s.params.kw)
  dwin : s.dwin.All (· < 2 ^ s.params.kw)
  ctbuf : s.ctbuf.All (· < 2 ^ s.params.kw)
  cmd : ∀ w ∈ s.cmd, w < 2 ^ cmdBits s.params.kw
  res : ∀ r ∈ s.res, r.value < 2 ^ s.params.kw
  sin : PortAll (· < 2 ^ s.params.kw) s.sin
  sout : PortAll (· < 2 ^ s.params.kw) s.sout
  rng : ∀ v ∈ s.rng, v < 2 ^ s.params.kw
  kout : ∀ r ∈ s.kout, r.fst < 2 ^ s.params.kw ∧ r.snd < 2 ^ s.params.kw

/-- What `RDREG` can read is what the registers hold (10_state.md R20). -/
theorem readReg_lt_iff {s : State} :
    (∀ i v, s.readReg i = some v → v < 2 ^ s.params.kw) ↔
      s.keys.Below (2 ^ s.params.kw) ∧ s.resv < 2 ^ s.params.kw ∧ s.cfg.Below (2 ^ s.params.kw) ∧
      s.symcnt < 2 ^ s.params.kw ∧ s.bytecnt < 2 ^ s.params.kw := by
  constructor
  · intro h
    exact ⟨⟨h 0 _ rfl, h 1 _ rfl, h 2 _ rfl, h 3 _ rfl, h 4 _ rfl, h 5 _ rfl, h 6 _ rfl, h 7 _ rfl, h 8 _ rfl⟩,
      h 9 _ rfl,
      ⟨h 16 _ rfl, h 17 _ rfl, h 18 _ rfl, h 19 _ rfl, h 20 _ rfl, h 21 _ rfl, h 22 _ rfl, h 23 _ rfl, h 24 _ rfl⟩,
      h 33 _ rfl, h 34 _ rfl⟩
  · rintro ⟨⟨_, _, _, _, _, _, _, _, _⟩, _, ⟨_, _, _, _, _, _, _, _, _⟩, _, _⟩ i v hv
    have hstatus : s.status.toWord s.params.kw < 2 ^ s.params.kw := Nat.mod_lt _ (by positivity)
    simp only [State.readReg] at hv
    split at hv <;> cases hv <;> assumption

theorem fits_iff {s : State} :
    s.Fits ↔ s.Bounded ∧ s.symcnt < 2 ^ s.params.kw ∧ s.bytecnt < 2 ^ s.params.kw := by
  constructor
  · rintro ⟨hreg, hcount, hbudget, hmem, hcmd, hres, hsym, hrng, hkout⟩
    obtain ⟨hkeys, hresv, hcfg, hsymcnt, hbytecnt⟩ := readReg_lt_iff.1 hreg
    exact ⟨{ keys := hkeys, resv := hresv, cfg := hcfg, count := hcount, budget := hbudget, win := hmem _ (by simp),
             dwin := hmem _ (by simp), ctbuf := hmem _ (by simp), cmd := hcmd, res := hres,
             sin := fun v hv => hsym v (.inl hv), sout := fun v hv => hsym v (.inr hv), rng := hrng, kout := hkout },
      hsymcnt, hbytecnt⟩
  · rintro ⟨h, hsymcnt, hbytecnt⟩
    refine ⟨readReg_lt_iff.2 ⟨h.keys, h.resv, h.cfg, hsymcnt, hbytecnt⟩, h.count, h.budget, ?_, h.cmd,
      h.res, fun v hv => hv.elim (h.sin v) (h.sout v), h.rng, h.kout⟩
    intro m hm
    simp only [List.mem_cons, List.not_mem_nil, or_false] at hm
    rcases hm with rfl | rfl | rfl
    · exact h.win
    · exact h.dwin
    · exact h.ctbuf

/-- The values are within their widths, and the counters can hold their capacities (log 19). -/
structure State.Sized (s : State) : Prop extends State.Bounded s where
  counters : CountersFit s.params

variable {s : State}

theorem State.Sized.symcnt_lt (h : s.Sized) : ∀ n ≤ s.params.ctCap, n < 2 ^ s.params.kw :=
  fun _ hn => Nat.lt_of_le_of_lt hn h.counters.1

theorem State.Sized.bytecnt_lt (h : s.Sized) : ∀ n ≤ s.params.outCap, n < 2 ^ s.params.kw :=
  fun _ hn => Nat.lt_of_le_of_lt hn h.counters.2

/-- With the counters within their capacities too, every value is within its width. -/
theorem State.Sized.fits (h : s.Sized) (hs : s.RegInv) : s.Fits :=
  fits_iff.2 ⟨h.toBounded, h.symcnt_lt _ hs.symcnt, h.bytecnt_lt _ hs.pk.bytecnt_le⟩

/-- What the width of every value rests on: legal parameters whose capacities the counters hold, the key invariant, and
the widths so far. -/
structure State.Premise (s : State) : Prop extends State.Sized s where
  legal : s.params.Legal
  keyInv : s.KeyInv

theorem State.Premise.small (h : s.Premise) {n : Nat} (hn : n < 256) : n < 2 ^ s.params.kw := lt_of_legal h.legal hn

theorem State.Premise.keypair (h : s.Premise) (hv : s.status.prvv = true) : s.keys.Keypair := (h.keyInv.1 hv).2

/-- Every symbol is encrypted to a value of width `KW`. -/
theorem State.Premise.encrypt_lt (h : s.Premise) {v : Nat} (hv : v < s.keys.kn) : s.keys.encrypt v < 2 ^ s.params.kw :=
  (Machine.encrypt_lt hv).trans h.keys.kn

theorem State.Premise.crt_lt (h : s.Premise) (hv : s.status.prvv = true) (c : Nat) : s.keys.crt c < 2 ^ s.params.kw :=
  (crt_lt_kn (h.keypair hv) c).trans h.keys.kn

/-! ### Reset -/

theorem countInv_resetWith (P : Params) : (State.resetWith P).CountInv where
  errs := BitVec.getLsbD_zero
  lasterr := Nat.zero_le _
  symcnt := Nat.zero_le _
  pk := Nat.zero_le _

theorem bounded_resetWith {P : Params} (hP : P.Legal) : (State.resetWith P).Bounded where
  keys := publicKey_below (lt_of_legal hP (by decide)) (lt_of_legal hP (by decide))
  resv := lt_of_legal hP (n := 0) (by decide)
  cfg := atReset_below hP
  count := lt_of_legal hP (n := 0) (by decide)
  budget := lt_of_legal hP (n := 0) (by decide)
  win := Mem.all_nil
  dwin := Mem.all_nil
  ctbuf := Mem.all_nil
  cmd := nofun
  res := nofun
  sin := nofun
  sout := nofun
  rng := nofun
  kout := nofun

/-- The reset of a running engine keeps what is on the ports (70_reset_and_hazards.md R362). -/
theorem State.Premise.sized_resetEngine (h : s.Premise) : (resetEngine s).Sized :=
  { bounded_resetWith h.legal with
    counters := h.counters, cmd := h.cmd, res := h.res, sin := h.sin, sout := h.sout, rng := h.rng, kout := h.kout }

theorem regInv_resetEngine (s : State) : (resetEngine s).RegInv :=
  State.CountInv.regInv { countInv_resetWith s.params with } rfl rfl

end Sys2Proof.Machine
end

section
/-! How a command ends: every completion leaves the invariants of 10_state.md R50, R52 and of 00_scope.md R12, if the
state it completes from meets them but for the phase. -/

namespace Sys2Proof.Machine

open Sys2Proof

/-- The next state an outcome answers, if it answers one, meets `State.RestInv`, and under the premise `W` its values
are within their widths. -/
def Keeps (W : Prop) (o : Outcome) : Prop := ∀ t, o = .next t → t.RestInv ∧ (W → t.Sized)

variable {W : Prop} {u : State}

theorem keeps_fault (f : Fault) : Keeps W (.fault f) := by
  intro t h
  cases h

/-- No code but 0 sets a bit of `ERRS`, and none sets bit 0 (10_state.md R41). -/
theorem record_errs_bit_zero {t : Status} (h : t.errs.getLsbD 0 = false) (code : Byte) :
    (t.record code).errs.getLsbD 0 = false := by
  by_cases hc : code = 0
  · rw [hc, record_zero_errs, h]
  · have hpos : 0 < code.toNat := Nat.pos_of_ne_zero fun h0 => hc (BitVec.eq_of_toNat_eq h0)
    rw [record_errs_of_ne_zero hc, BitVec.getLsbD_or, h, errBit, BitVec.getLsbD_shiftLeft]
    simp [hpos]

/-- A result pushed keeps what holds of the other registers. -/
theorem Keeps.pushResult {code : Byte} {v : Nat} (hu : u.RegInv) (hb : W → u.Sized ∧ v < 2 ^ u.params.kw) :
    Keeps W (.next (pushResult code v u)) := by
  rintro _ ⟨⟩
  refine ⟨restInv_iff.2 ⟨rfl, rfl, { hu with }⟩, fun hW => ?_⟩
  obtain ⟨hs, hv⟩ := hb hW
  refine { hs with resv := hv, res := fun r hr => ?_ }
  rcases List.mem_append.1 hr with hr | hr
  · exact hs.res r hr
  · cases List.mem_singleton.1 hr
    exact hv

/-- `complete` (46_control_pipeline.md R280). -/
theorem Keeps.complete {code : Byte} {v : Nat} (hu : u.RegInv) (hc : code.toNat ≤ 7)
    (hb : W → u.Sized ∧ v < 2 ^ u.params.kw) : Keeps W (.next (complete code v u)) :=
  Keeps.pushResult (u := { u with status := u.status.record code })
    { hu with errs := record_errs_bit_zero hu.errs code, lasterr := hc }
    fun hW => ⟨{ (hb hW).1 with }, (hb hW).2⟩

theorem Keeps.done {v : Nat} (hu : u.RegInv) (hb : W → u.Sized ∧ v < 2 ^ u.params.kw) : Keeps W (.next (done v u)) :=
  Keeps.complete hu (Nat.zero_le _) hb

theorem Keeps.raise {e : Exc} (hu : u.RegInv) (hb : W → u.Sized ∧ e.info < 2 ^ u.params.kw) :
    Keeps W (.next (raise e u)) :=
  Keeps.complete hu (code_le_seven e.kind) hb

/-- The end of a stream command only takes from its input port and closes its output port (20_memory.md R67). -/
theorem Keeps.endStream {ports : StreamPorts} {pulled : Bool} {code : Byte} {v : Nat} (hu : u.RegInv)
    (hc : code.toNat ≤ 7) (hb : W → u.Sized ∧ v < 2 ^ u.params.kw) : Keeps W (endStream ports pulled code v u) := by
  intro t ht
  cases ports with
  | sinSout =>
    obtain ⟨rest, hrest, rfl⟩ := endStream_sinSout_next.1 ht
    refine Keeps.complete (u := { u with sin := rest, sout := u.sout ++ [.eos] })
      { hu with } hc (fun hW => ?_) _ rfl
    obtain ⟨hs, hv⟩ := hb hW
    exact ⟨{ hs with sin := hs.sin.mono (mem_of_mem_dropped hrest), sout := hs.sout.append_eos }, hv⟩
  | sinBout =>
    obtain ⟨rest, hrest, rfl⟩ := endStream_sinBout_next.1 ht
    refine Keeps.complete (u := { u with sin := rest, bout := u.bout ++ [.eos] })
      { hu with } hc (fun hW => ?_) _ rfl
    obtain ⟨hs, hv⟩ := hb hW
    exact ⟨{ hs with sin := hs.sin.mono (mem_of_mem_dropped hrest) }, hv⟩
  | binSout =>
    obtain ⟨rest, hrest, rfl⟩ := endStream_binSout_next.1 ht
    refine Keeps.complete (u := { u with bin := rest, sout := u.sout ++ [.eos] })
      { hu with } hc (fun hW => ?_) _ rfl
    obtain ⟨hs, hv⟩ := hb hW
    exact ⟨{ hs with sout := hs.sout.append_eos }, hv⟩

/-- Dropping the bits of the unfinished byte (60_exceptions.md R333) restores the packer's invariant. -/
theorem State.CountInv.clearPacker (h : u.CountInv) : (clearPacker u).RegInv :=
  State.CountInv.regInv
    { h with pk := (Nat.mul_le_mul_left 8 h.pk.bytecnt_le : 8 * u.bytecnt + 0 ≤ 8 * u.params.outCap) } rfl rfl

/-- An error of COMP or PROTECT, from the middle of an encode too. -/
theorem Keeps.raiseSinBout {pulled : Bool} {e : Exc} (hu : u.CountInv) (hb : W → u.Sized ∧ e.info < 2 ^ u.params.kw) :
    Keeps W (raiseStream .sinBout pulled e u) :=
  Keeps.endStream (u := clearPacker u) hu.clearPacker (code_le_seven e.kind)
    fun hW => ⟨{ (hb hW).1 with }, (hb hW).2⟩

/-- An error of any stream command from a state between commands. -/
theorem Keeps.raiseStream {ports : StreamPorts} {pulled : Bool} {e : Exc} (hu : u.RegInv)
    (hb : W → u.Sized ∧ e.info < 2 ^ u.params.kw) : Keeps W (raiseStream ports pulled e u) := by
  cases ports with
  | sinSout => exact Keeps.endStream (u := u) hu (code_le_seven e.kind) hb
  | sinBout => exact Keeps.raiseSinBout hu.toCountInv hb
  | binSout => exact Keeps.endStream (u := u) hu (code_le_seven e.kind) hb

/-! ### The end of an encode -/

theorem Keeps.endEncode {h : Option Halt} (hu : u.CountInv) (hb : W → u.Sized ∧ HaltInfo (· < 2 ^ u.params.kw) h) :
    Keeps W (endEncode u h) := by
  rcases h with _ | (e | f)
  · simp only [Machine.endEncode]
    refine Keeps.endStream (u := u.withPacker u.packer.flush) ?_ (Nat.zero_le _) fun hW => ?_
    · exact State.CountInv.regInv { hu with pk := hu.pk.flush } (flush_acc _) (flush_nbits _)
    · exact ⟨{ (hb hW).1 with }, (hb hW).1.symcnt_lt _ hu.symcnt⟩
  · exact Keeps.raiseSinBout hu fun hW => ⟨(hb hW).1, (hb hW).2 e rfl⟩
  · exact keeps_fault f

/-- An encode keeps the invariants from its start in `Filling` to its end (43_compressor.md R210,
46_control_pipeline.md R291). -/
theorem Keeps.runEncode (hu : u.CountInv) (hb : W → u.Sized) : Keeps W (runEncode u) := by
  have hcount : Encoder.Good u.params (fun _ => True) (u.encoder.drive u.params u.cfg (encodePhases u.params)) :=
    Encoder.Inv.drive ⟨trivial, fun _ _ => trivial, fun _ _ => trivial⟩ _
      ⟨hu.pk, hu.symcnt, fun _ _ _ => trivial, fun _ _ => trivial, fun _ _ _ => trivial⟩
  have hvalues : W → Encoder.Good u.params (· < 2 ^ u.params.kw)
      (u.encoder.drive u.params u.cfg (encodePhases u.params)) := fun hW =>
    have hs := hb hW
    Encoder.Inv.drive ⟨hs.cfg.blank, hs.symcnt_lt, hs.bytecnt_lt⟩ _ ⟨hu.pk, hu.symcnt, hs.win, hs.sin, hs.ctbuf⟩
  refine Keeps.endEncode { hu with symcnt := hcount.1.symcnt, pk := hcount.1.pk } fun hW => ?_
  obtain ⟨he, hinfo⟩ := hvalues hW
  exact ⟨{ hb hW with win := he.win, sin := he.sin }, hinfo⟩

/-- The start of an encode: no bit and no byte counted (43_compressor.md R210). -/
theorem countInv_startEncode {which : Running} (hu : u.CountInv) : (startEncode which u).CountInv :=
  { hu with pk := Nat.zero_le _ }

/-! ### The end of a decode -/

theorem Keeps.endRecover (hu : u.RegInv) (hcount : u.count ≤ u.params.ctCap)
    (hb : W → u.Sized ∧ ∀ c, u.keys.crt c < 2 ^ u.params.kw) : Keeps W (endRecover u) := by
  have hcnt : (recoverLoop u.keys u.ctbuf u.count 0).cnt ≤ u.params.ctCap :=
    Nat.le_trans (recoverLoop_cnt_le _ _ _ _) (by omega)
  have hsized : W → State.Sized { u with
      sout := u.sout ++ (recoverLoop u.keys u.ctbuf u.count 0).out.map .sym
      symcnt := (recoverLoop u.keys u.ctbuf u.count 0).cnt } := fun hW =>
    have ⟨hs, hcrt⟩ := hb hW
    { hs with sout := hs.sout.append_syms (recoverLoop_good hcrt hs.ctbuf _ _).1 }
  simp only [Machine.endRecover]
  split
  · exact Keeps.endStream { hu with symcnt := hcnt } (Nat.zero_le _) fun hW => ⟨hsized hW, (hb hW).1.count⟩
  · next e he =>
    refine Keeps.raiseStream { hu with symcnt := hcnt } fun hW => ⟨hsized hW, ?_⟩
    obtain ⟨hs, hcrt⟩ := hb hW
    exact (recoverLoop_good hcrt hs.ctbuf _ _).2 e he
  · exact keeps_fault _

theorem Keeps.endDecode {h : Option Halt} (hu : u.RegInv) (hcount : u.count ≤ u.params.ctCap)
    (hb : W → u.Sized ∧ HaltInfo (· < 2 ^ u.params.kw) h)
    (hcrt : W → u.running = .recover → ∀ c, u.keys.crt c < 2 ^ u.params.kw) : Keeps W (endDecode u h) := by
  rcases h with _ | (e | f)
  · simp only [Machine.endDecode]
    split
    · next hr => exact Keeps.endRecover hu hcount fun hW => ⟨(hb hW).1, hcrt hW hr⟩
    · exact Keeps.endStream hu (Nat.zero_le _) fun hW => ⟨(hb hW).1, (hb hW).1.symcnt_lt _ hu.symcnt⟩
  · exact Keeps.raiseStream hu fun hW => ⟨(hb hW).1, (hb hW).2 e rfl⟩
  · exact keeps_fault f

/-- A decode keeps the invariants from its start to its end (45_decoder.md R260, 46_control_pipeline.md R294). -/
theorem Keeps.runDecode {which : Running} {n : Nat} (hu : u.RegInv) (hn : n ≤ u.params.ctCap)
    (hsymw : u.cfg.symw.toNat ≤ u.params.kw) (hb : W → u.Sized)
    (hcrt : W → which = .recover → ∀ c, u.keys.crt c < 2 ^ u.params.kw) :
    Keeps W (runDecode (startDecode which n u)) := by
  have hctbuf : ∀ {V : Nat → Prop}, u.ctbuf.All V → (startDecode which n u).ctbuf.All V := by
    intro V h
    simp only [startDecode]
    split
    · exact Mem.all_nil
    · exact h
  have hcount : Decoder.Good n (fun _ => True) ((startDecode which n u).decoder.drive u.cfg (2 * n + 1)) :=
    Decoder.Inv.drive ⟨trivial, fun _ _ => trivial, fun _ _ => trivial⟩ _
      { count := rfl, symcnt := Nat.zero_le _, due := nofun, tok := nofun, dwin := fun _ _ _ => trivial,
        sout := fun _ _ => trivial, ctbuf := fun _ _ _ => trivial }
  have hvalues : W → Decoder.Good n (· < 2 ^ u.params.kw)
      ((startDecode which n u).decoder.drive u.cfg (2 * n + 1)) := fun hW =>
    have hs := hb hW
    Decoder.Inv.drive
      { blank := hs.cfg.blank
        literal := fun _ hv => Nat.lt_of_lt_of_le hv (Nat.pow_le_pow_right (by omega) hsymw)
        symcnt := fun k hk => hs.symcnt_lt k (hk.trans hn) } _
      { count := rfl, symcnt := Nat.zero_le _, due := nofun, tok := nofun, dwin := hs.dwin, sout := hs.sout,
        ctbuf := hctbuf hs.ctbuf }
  refine Keeps.endDecode { hu with symcnt := hcount.1.symcnt.trans hn } hn (fun hW => ?_) hcrt
  obtain ⟨hd, hinfo⟩ := hvalues hW
  have hs := hb hW
  exact ⟨{ hs with count := hs.symcnt_lt n hn, dwin := hd.dwin, ctbuf := hd.ctbuf, sout := hd.sout }, hinfo⟩

end Sys2Proof.Machine
end

section
/-! Every command keeps the invariants that hold between commands, and so does every step. -/

namespace Sys2Proof.Machine

open Sys2Proof

/-- A command word decodes to a command, with operands of width `KW` (30_encoding.md R110, R111). -/
theorem decodeCommand_ok {kw : Nat} {w : CmdWord} {i : Instr} (h : decodeCommand kw w = .ok i) (tw : TokenWidths) :
    i.isToken = false ∧ i.wellFormed kw tw = true := by
  have hA : fits kw (CmdWord.opA kw w) = true := decide_eq_true (Nat.mod_lt _ (by positivity))
  have hB : fits kw (CmdWord.opB kw w) = true := decide_eq_true (Nat.mod_lt _ (by positivity))
  have hC : fits kw (CmdWord.opC kw w) = true := decide_eq_true (Nat.mod_lt _ (by positivity))
  simp only [decodeCommand] at h
  split at h <;> cases h <;> simp [Instr.isToken, Instr.wellFormed, hA, hB, hC]

variable {s : State}

/-! ### System commands -/

theorem keeps_nop (h : s.RegInv) : Keeps s.Premise (execNop s) :=
  Keeps.done h fun hp => ⟨hp.toSized, hp.small (by decide)⟩

theorem keeps_reset (s : State) : Keeps s.Premise (execReset s) :=
  Keeps.done (regInv_resetEngine s) fun hp => ⟨hp.sized_resetEngine, hp.small (n := 0) (by decide)⟩

theorem keeps_clrerr (h : s.RegInv) : Keeps s.Premise (execClrerr s) :=
  Keeps.done (u := { s with status := s.status.clearErrs }) { h with errs := BitVec.getLsbD_zero }
    fun hp => ⟨{ hp with }, hp.small (n := 0) (by decide)⟩

theorem keeps_wrcfg (h : s.RegInv) (idx : Nat) {val : Nat} (hv : val < 2 ^ s.params.kw) :
    Keeps s.Premise (execWrcfg idx val s) := by
  simp only [execWrcfg]
  split
  · exact Keeps.raise h fun hp => ⟨hp.toSized, hp.small (by decide)⟩
  · split
    · exact Keeps.raise h fun hp => ⟨hp.toSized, hp.small (by decide)⟩
    · exact Keeps.done (u := { s with cfg := s.cfg.write idx val }) { h with }
        fun hp => ⟨{ hp with cfg := hp.cfg.write idx hv }, hv⟩

theorem keeps_rdreg (h : s.RegInv) (idx : Nat) : Keeps s.Premise (execRdreg idx s) := by
  simp only [execRdreg]
  split
  · exact Keeps.raise h fun hp => ⟨hp.toSized, hp.small (by decide)⟩
  · next v hv => exact Keeps.pushResult h fun hp => ⟨hp.toSized, (hp.fits h).1 idx v hv⟩

/-! ### Key commands -/

/-- An accepted pair is committed (40_keygen.md R134), from any state that meets the invariants. -/
theorem keeps_commit {W : Prop} {u : State} {p q e : Nat} (h : u.RegInv) (hc : u.cfg.keygenOk u.params = true)
    (ha : refusedBy u.cfg p q e = none) (he : e < 2 ^ u.params.kw) (hb : W → u.Sized) :
    Keeps W (.next (done (p * q) (commit p q e u))) := by
  obtain ⟨hp, hq, hn⟩ := accepted_bounds hc ha
  have hk := derive_below hp hq hn he
  refine Keeps.done { h with } fun hW => ⟨{ hb hW with keys := hk, kout := fun r hr => ?_ }, hn⟩
  rcases List.mem_append.1 hr with hr | hr
  · exact (hb hW).kout r hr
  · simp only [keyRecords, List.mem_cons, List.not_mem_nil, or_false] at hr
    rcases hr with rfl | rfl | rfl
    · exact ⟨hk.kn, hk.ke⟩
    · exact ⟨hk.kn, hk.kd⟩
    · exact ⟨hk.kp, hk.kq⟩

theorem keeps_keygen (h : s.RegInv) {e : Nat} (he : e < 2 ^ s.params.kw) : Keeps s.Premise (execKeygen e s) := by
  simp only [execKeygen]
  split
  · exact Keeps.raise h fun hp => ⟨hp.toSized, hp.small (by decide)⟩
  · next hc =>
    split
    · next p q rest b ha =>
      obtain ⟨rej, v, w, hrng, -, hle, -, -, hacc⟩ := attempts_accepted ha
      refine keeps_commit (u := { s with rng := rest, budget := b }) { h with } (by simpa using hc) hacc he fun hp => ?_
      exact { hp with rng := fun x hx => hp.rng x (by simp [hrng, hx]), budget := Nat.lt_of_le_of_lt hle hp.cfg.retry }
    · next rest hs =>
      obtain ⟨rej, hrng, -⟩ := attempts_spent hs
      refine Keeps.raise (u := { s with rng := rest, budget := 0 }) { h with } fun hp => ⟨?_, hp.small (by decide)⟩
      exact { hp with rng := fun x hx => hp.rng x (by simp [hrng, hx]), budget := hp.small (n := 0) (by decide) }
    · exact keeps_fault _

theorem keeps_keyset (h : s.RegInv) (p q : Nat) {e : Nat} (he : e < 2 ^ s.params.kw) :
    Keeps s.Premise (execKeyset p q e s) := by
  simp only [execKeyset]
  split
  · exact Keeps.raise h fun hp => ⟨hp.toSized, hp.small (by decide)⟩
  · next hc =>
    split
    · next t ht =>
      have hsmall : t < 256 := Nat.lt_of_le_of_lt (refusedBy_le ht) (by decide)
      exact Keeps.raise h fun hp => ⟨hp.toSized, hp.small hsmall⟩
    · next ha => exact keeps_commit h (by simpa using hc) ha he fun hp => hp.toSized

theorem keeps_keypub (h : s.RegInv) {n e : Nat} (hn : n < 2 ^ s.params.kw) (he : e < 2 ^ s.params.kw) :
    Keeps s.Premise (execKeypub n e s) := by
  simp only [execKeypub]
  split
  · exact Keeps.raise h fun hp => ⟨hp.toSized, hp.small (by decide)⟩
  · exact Keeps.done (u := { s with keys := publicKey n e, status := s.status.setKeyValid true false }) { h with }
      fun hp => ⟨{ hp with keys := publicKey_below hn he }, hn⟩

/-! ### Cipher commands -/

theorem keeps_oneSymbol (h : s.RegInv) {hasKey : Bool} {f : Nat → Nat} {v : Nat} (hv : v < 2 ^ s.params.kw)
    (hf : s.Premise → hasKey = true → v < s.keys.kn → f v < 2 ^ s.params.kw) :
    Keeps s.Premise (oneSymbol hasKey f v s) := by
  intro t ht
  rcases oneSymbol_next ht with ⟨-, rfl⟩ | ⟨-, -, rfl⟩ | ⟨hk, hlt, rfl⟩
  · exact Keeps.raise h (fun hp => ⟨hp.toSized, hp.small (by decide)⟩) _ rfl
  · exact Keeps.raise h (fun hp => ⟨hp.toSized, hv⟩) _ rfl
  · exact Keeps.done h (fun hp => ⟨hp.toSized, hf hp hk hlt⟩) _ rfl

theorem keeps_cipherStream (h : s.RegInv) {hasKey : Bool} {f : Nat → Nat}
    (hf : s.Premise → hasKey = true → ∀ v < s.keys.kn, f v < 2 ^ s.params.kw) :
    Keeps s.Premise (cipherStream hasKey f s) := by
  simp only [cipherStream]
  split
  · exact Keeps.raiseStream (u := { s with symcnt := 0 }) { h with symcnt := Nat.zero_le _ }
      fun hp => ⟨{ hp with }, hp.small (by decide)⟩
  · next hk =>
    have hcnt := (cipherLoop_good (V := fun _ => True) (f := f) (kn := s.keys.kn) (fun _ _ => trivial)
      (fun _ _ => trivial) s.sin 0 (Nat.zero_le s.params.ctCap) fun _ _ => trivial).1
    have hvalues := fun hp : s.Premise => (cipherLoop_good hp.symcnt_lt (hf hp (by simpa using hk)) s.sin 0
      (Nat.zero_le _) hp.sin).2
    have hsized : s.Premise → State.Sized { s with
        sin := (cipherLoop s.params.ctCap s.keys.kn f 0 s.sin).sin
        sout := s.sout ++ (cipherLoop s.params.ctCap s.keys.kn f 0 s.sin).out.map .sym
        symcnt := (cipherLoop s.params.ctCap s.keys.kn f 0 s.sin).cnt } := fun hp =>
      have ⟨hsin, hout, _⟩ := hvalues hp
      { hp with sin := hsin, sout := hp.sout.append_syms hout }
    split
    · exact Keeps.endStream { h with symcnt := hcnt } (Nat.zero_le _) fun hp => ⟨hsized hp, hp.symcnt_lt _ hcnt⟩
    · next e he =>
      exact Keeps.raiseStream { h with symcnt := hcnt } fun hp => ⟨hsized hp, (hvalues hp).2.2 e he⟩
    · exact keeps_fault _

theorem keeps_enc (h : s.RegInv) {m : Nat} (hm : m < 2 ^ s.params.kw) : Keeps s.Premise (execEnc m s) :=
  keeps_oneSymbol h hm fun hp _ hlt => hp.encrypt_lt hlt

theorem keeps_decd (h : s.RegInv) {c : Nat} (hc : c < 2 ^ s.params.kw) : Keeps s.Premise (execDecd c s) :=
  keeps_oneSymbol h hc fun hp _ hlt => (decryptDirect_lt hlt).trans hp.keys.kn

theorem keeps_decc (h : s.RegInv) {c : Nat} (hc : c < 2 ^ s.params.kw) : Keeps s.Premise (execDecc c s) :=
  keeps_oneSymbol h hc fun hp hk _ => hp.crt_lt hk c

theorem keeps_encs (h : s.RegInv) : Keeps s.Premise (execEncs s) :=
  keeps_cipherStream h fun hp _ _ hlt => hp.encrypt_lt hlt

theorem keeps_decs (h : s.RegInv) : Keeps s.Premise (execDecs s) :=
  keeps_cipherStream h fun hp hk c _ => hp.crt_lt hk c

/-! ### The packer's commands -/

/-- The packer at the start of PUTL, PUTM and FLUSH is within its capacity: where no session is open it is empty
(44_bitpacker.md R249). -/
theorem sessionPacker_inCap (h : s.RegInv) : s.sessionPacker.InCap s.params := by
  simp only [State.sessionPacker]
  split
  · next ho =>
    have hn := (h.closed ho).2
    simp [Packer.InCap, State.packer, hn]
  · exact h.pk

theorem sessionPacker_lowZero (h : s.RegInv) : s.sessionPacker.LowZero := by
  simp only [State.sessionPacker]
  split <;> exact h.low

/-- PUTL and PUTM, whatever the token (44_bitpacker.md R245, R246). -/
theorem keeps_put (h : s.RegInv) (bits : List Bool) :
    Keeps s.Premise (endPut s (s.sessionPacker.putToken s.params bits)) := by
  have hcap := sessionPacker_inCap h
  rcases putToken_cases (P := s.params) (p := s.sessionPacker) (bits := bits) with hx | ⟨q, hx, hq, hlow⟩
  · rw [hx]
    refine Keeps.raise (u := { s with bytecnt := s.sessionPacker.bytecnt }) { h with pk := ?_ }
      fun hp => ⟨{ hp with }, hp.bytecnt_lt _ hcap.bytecnt_le⟩
    have hn : s.sessionPacker.nbits = s.nbits := by simp only [State.sessionPacker]; split <;> rfl
    exact (hn ▸ hcap : 8 * s.sessionPacker.bytecnt + s.nbits.val ≤ 8 * s.params.outCap)
  · rw [hx]
    exact Keeps.done (u := { s.withPacker q with status := s.status.setOpen true })
      { h with pk := hq, low := hlow (sessionPacker_lowZero h), closed := nofun }
      fun hp => ⟨{ hp with }, hp.small (n := 0) (by decide)⟩

theorem keeps_putl (h : s.RegInv) {sym : Nat} (hs : sym < 2 ^ s.params.kw) : Keeps s.Premise (execPutl sym s) := by
  simp only [execPutl]
  split
  · exact Keeps.raise h fun hp => ⟨hp.toSized, hp.small (by decide)⟩
  · split
    · exact Keeps.raise h fun hp => ⟨hp.toSized, hs⟩
    · exact keeps_put h _

theorem keeps_putm (h : s.RegInv) (off len : Nat) : Keeps s.Premise (execPutm off len s) := by
  simp only [execPutm]
  split
  · exact Keeps.raise h fun hp => ⟨hp.toSized, hp.small (by decide)⟩
  · split
    · exact Keeps.raise h fun hp => ⟨hp.toSized, hp.small (by decide)⟩
    · split
      · exact Keeps.raise h fun hp => ⟨hp.toSized, hp.small (by decide)⟩
      · exact keeps_put h _

theorem keeps_flush (h : s.RegInv) : Keeps s.Premise (execFlush s) := by
  have hcap := (sessionPacker_inCap h).flush
  refine Keeps.done (State.CountInv.regInv { h with pk := hcap } (flush_acc _) (flush_nbits _))
    fun hp => ⟨{ hp with }, hp.bytecnt_lt _ hcap.bytecnt_le⟩

/-! ### The codec's commands -/

theorem keeps_comp (h : s.RegInv) : Keeps s.Premise (execComp s) := by
  simp only [execComp]
  split
  · exact Keeps.raise h fun hp => ⟨hp.toSized, hp.small (by decide)⟩
  · split
    · exact Keeps.raiseStream h fun hp => ⟨hp.toSized, hp.small (by decide)⟩
    · exact Keeps.runEncode (countInv_startEncode (u := { s with symcnt := 0 }) { h with symcnt := Nat.zero_le _ })
        fun hp => { hp with }

theorem keeps_protect (h : s.RegInv) : Keeps s.Premise (execProtect s) := by
  simp only [execProtect]
  split
  · exact Keeps.raise h fun hp => ⟨hp.toSized, hp.small (by decide)⟩
  · split
    · exact Keeps.raiseStream h fun hp => ⟨hp.toSized, hp.small (by decide)⟩
    · split
      · exact Keeps.raiseStream (u := { s with symcnt := 0 }) { h with symcnt := Nat.zero_le _ }
          fun hp => ⟨{ hp with }, hp.small (by decide)⟩
      · have hcnt := (protectLoop_good (V := fun _ => True) (P := s.params) (c := s.cfg) (k := s.keys)
          (fun _ _ => trivial) (fun _ _ => trivial) s.sin 0 [] (Nat.zero_le _) Mem.all_nil fun _ _ => trivial).1
        have hvalues := fun hp : s.Premise => (protectLoop_good (c := s.cfg) hp.symcnt_lt (fun _ => hp.encrypt_lt)
          s.sin 0 [] (Nat.zero_le _) Mem.all_nil hp.sin).2
        have hsized : s.Premise → State.Sized { s with
            sin := (protectLoop s.params s.cfg s.keys 0 [] s.sin).sin
            ctbuf := (protectLoop s.params s.cfg s.keys 0 [] s.sin).ctbuf
            symcnt := (protectLoop s.params s.cfg s.keys 0 [] s.sin).cnt } := fun hp =>
          have ⟨hctbuf, hsin, _⟩ := hvalues hp
          { hp with sin := hsin, ctbuf := hctbuf }
        split
        · exact Keeps.runEncode (countInv_startEncode { h with symcnt := hcnt }) fun hp => { hsized hp with }
        · next e he =>
          exact Keeps.raiseStream { h with symcnt := hcnt } fun hp => ⟨hsized hp, (hvalues hp).2.2 e he⟩
        · exact keeps_fault _

/-- A codec configuration in force has a symbol width of at most `KW` (10_state.md R38). -/
theorem symw_le_of_codecOk {c : CfgRegs} {P : Params} (h : c.codecOk P = true) : c.symw.toNat ≤ P.kw := by
  simp only [CfgRegs.codecOk, Bool.and_eq_true, decide_eq_true_eq] at h
  exact h.1.2.2

theorem keeps_decomp (h : s.RegInv) {count : Nat} (hn : count < 2 ^ s.params.kw) :
    Keeps s.Premise (execDecomp count s) := by
  simp only [execDecomp]
  split
  · exact Keeps.raiseStream h fun hp => ⟨hp.toSized, hp.small (by decide)⟩
  · next hc =>
    split
    · exact Keeps.raiseStream (u := { s with symcnt := 0 }) { h with symcnt := Nat.zero_le _ }
        fun hp => ⟨{ hp with }, hn⟩
    · exact Keeps.runDecode h (by omega) (symw_le_of_codecOk (by simpa using hc)) (fun hp => hp.toSized) fun _ => nofun

theorem keeps_recover (h : s.RegInv) {count : Nat} (hn : count < 2 ^ s.params.kw) :
    Keeps s.Premise (execRecover count s) := by
  have h0 : State.RegInv { s with symcnt := 0 } := { h with symcnt := Nat.zero_le _ }
  simp only [execRecover]
  split
  · exact Keeps.raiseStream h fun hp => ⟨hp.toSized, hp.small (by decide)⟩
  · next hc =>
    split
    · exact Keeps.raiseStream h0 fun hp => ⟨{ hp with }, hp.small (by decide)⟩
    · next hk =>
      split
      · exact Keeps.raiseStream h0 fun hp => ⟨{ hp with }, hn⟩
      · exact Keeps.runDecode h (by omega) (symw_le_of_codecOk (by simpa using hc)) (fun hp => hp.toSized)
          fun hp _ => hp.crt_lt (by simpa using hk)

/-! ### The dispatch and the step -/

/-- Every command with operands of width `KW` keeps the invariants. -/
theorem keeps_exec (h : s.RegInv) {i : Instr} (hi : i.isToken = false)
    (hw : i.wellFormed s.params.kw s.cfg.widths = true) : Keeps s.Premise (exec i s) := by
  cases i <;> simp only [Instr.wellFormed, fits, Bool.and_eq_true, decide_eq_true_eq] at hw
  case nop => exact keeps_nop h
  case reset => exact keeps_reset s
  case clrerr => exact keeps_clrerr h
  case wrcfg idx val => exact keeps_wrcfg h idx hw.2
  case rdreg idx => exact keeps_rdreg h idx
  case keygen e => exact keeps_keygen h hw
  case keyset p q e => exact keeps_keyset h p q hw.2
  case keypub n e => exact keeps_keypub h hw.1 hw.2
  case enc m => exact keeps_enc h hw
  case decd c => exact keeps_decd h hw
  case decc c => exact keeps_decc h hw
  case encs => exact keeps_encs h
  case decs => exact keeps_decs h
  case comp => exact keeps_comp h
  case decomp count => exact keeps_decomp h hw
  case putl sym => exact keeps_putl h hw
  case putm off len => exact keeps_putm h off len
  case flush => exact keeps_flush h
  case protect => exact keeps_protect h
  case recover count => exact keeps_recover h hw
  case literal => cases hi
  case matchTok => cases hi

/-- A command word keeps them, whatever it decodes to (46_control_pipeline.md R281). -/
theorem keeps_runWord (h : s.RegInv) (w : CmdWord) : Keeps s.Premise (runWord w s) := by
  simp only [runWord]
  split
  · next i hi =>
    obtain ⟨htok, hwf⟩ := decodeCommand_ok hi s.cfg.widths
    exact keeps_exec h htok hwf
  · exact Keeps.raise h fun hp => ⟨hp.toSized, hp.small (by decide)⟩

/-- A step between commands keeps them: a reset, a command, or waiting. -/
theorem keeps_step (h : s.RestInv) : Keeps s.Premise (step s) := by
  obtain ⟨hphase, hrunning, hreg⟩ := restInv_iff.1 h
  rcases step_cases s with ⟨-, hs⟩ | ⟨-, -, -, hs⟩ | ⟨-, -, w, rest, hcmd, hs⟩ | ⟨-, hne, -⟩
  · rw [hs]
    rintro _ ⟨⟩
    exact ⟨restInv_iff.2 ⟨rfl, rfl, regInv_resetEngine _⟩,
      fun hp => State.Premise.sized_resetEngine { hp with }⟩
  · rw [hs]
    rintro _ ⟨⟩
    exact ⟨h, fun hp => hp.toSized⟩
  · rw [hs]
    intro t ht
    obtain ⟨hrest, hsized⟩ := keeps_runWord (s := { s with cmd := rest }) { hreg with } w t ht
    exact ⟨hrest, fun hp => hsized { hp with cmd := fun x hx => hp.cmd x (hcmd ▸ List.mem_cons_of_mem w hx) }⟩
  · exact absurd hphase hne

end Sys2Proof.Machine
end

section
/-! The obligations of the scope: the invariants between commands hold at reset and are kept by every step. -/

namespace Sys2Proof.Machine

open Sys2Proof

/-- Settles O57: a step from a state between commands is a reset, a command or waiting, and each keeps the invariants
(`keeps_step`). -/
theorem restInvariantIsKept : Obligations.RestInvariantIsKept := by
  intro s t hs ht
  obtain ⟨hrest, hsized⟩ := keeps_step hs t ht
  refine ⟨hrest, fun hlegal hcounters hkey hfits => ?_⟩
  have hpremise : s.Premise :=
    { (fits_iff.1 hfits).1 with counters := hcounters, legal := hlegal, keyInv := hkey }
  exact (hsized hpremise).fits (restInv_iff.1 hrest).2.2

/-- Settles O59: at reset the registers hold 0 or constants below 256, and the memories and ports are empty. -/
theorem resetMeetsTheInvariants : Obligations.ResetMeetsTheInvariants := by
  intro P hP
  have hkey : (State.resetWith P).KeyInv := ⟨nofun, fun ⟨h, _⟩ => (Bool.false_ne_true h).elim, fun _ => rfl⟩
  have hrest : (State.resetWith P).RestInv :=
    restInv_iff.2 ⟨rfl, rfl, (countInv_resetWith P).regInv rfl rfl⟩
  have hfits : (State.resetWith P).Fits :=
    fits_iff.2 ⟨bounded_resetWith hP, lt_of_legal hP (n := 0) (by decide), lt_of_legal hP (n := 0) (by decide)⟩
  have hmem : (State.resetWith P).MemInv := ⟨Mem.wf_nil, Mem.wf_nil, Mem.wf_nil⟩
  exact ⟨hkey, hrest, hfits, hmem, fun _ _ => rfl, fun _ _ => rfl, fun _ _ => rfl⟩

end Sys2Proof.Machine
end

section
/-! A segment the host has not completed (20_memory.md R66): no `EOS` stands on the port. What a pull leaves of such a
port is such a port, and the end of a stream command, which discards the rest of its segment, is stuck. -/

namespace Sys2Proof.Machine

open Sys2Proof

/-- The host has not completed the segment on a port: no `EOS` stands on it (20_memory.md R66). -/
def NoEos {α : Type} (port : List (Item α)) : Prop := ∀ x ∈ port, x ≠ .eos

theorem NoEos.tail {α : Type} {a : Item α} {port : List (Item α)} (h : NoEos (a :: port)) : NoEos port :=
  fun x hx => h x (List.mem_cons_of_mem a hx)

theorem NoEos.of_append {α : Type} {p q : List (Item α)} (h : NoEos (p ++ q)) : NoEos q :=
  fun x hx => h x (List.mem_append_right p hx)

theorem not_noEos_eos_cons {α : Type} {port : List (Item α)} : ¬ NoEos (.eos :: port) :=
  fun h => h _ List.mem_cons_self rfl

theorem not_noEos_segment {α : Type} {l : List α} {rest : List (Item α)} : ¬ NoEos (segment l ++ rest) :=
  fun h => h .eos (by simp [segment]) rfl

/-- The input port of a stream command has no `EOS`. -/
def StreamPorts.Awaits : StreamPorts → State → Prop
  | .sinSout, s => NoEos s.sin
  | .sinBout, s => NoEos s.sin
  | .binSout, s => NoEos s.bin

/-- The fault of an incomplete segment on the input port of a stream command (log 3). -/
def StreamPorts.incomplete : StreamPorts → Fault
  | .sinSout => .sinIncomplete
  | .sinBout => .sinIncomplete
  | .binSout => .binIncomplete

/-- A stream command that has not pulled the `EOS` of its segment cannot end (20_memory.md R67). -/
theorem endStream_of_awaits {ports : StreamPorts} {code : Byte} {v : Nat} {s : State} (h : ports.Awaits s) :
    endStream ports false code v s = .fault ports.incomplete := by
  cases ports <;> simp [endStream, StreamPorts.incomplete, dropSegment_eq_none.2 h]

/-- Nor can it raise an error (60_exceptions.md R333). -/
theorem raiseStream_of_awaits {ports : StreamPorts} {e : Exc} {s : State} (h : ports.Awaits s) :
    raiseStream ports false e s = .fault ports.incomplete := by
  cases ports <;> exact endStream_of_awaits h

end Sys2Proof.Machine
end

section
/-! The loops over the symbols of a `SIN` segment without `EOS`: ENCS, DECS and PROTECT's first phase. -/

namespace Sys2Proof.Machine

open Sys2Proof

/-- ENCS and DECS (41_cipher.md R174, 42_crt.md R198): the loop comes to the end of what was supplied, or to an error
with the rest of the segment still to be discarded. -/
theorem cipherStream_of_noEos {hasKey : Bool} {f : Nat → Nat} {s : State} (h : NoEos s.sin) :
    cipherStream hasKey f s = .fault .sinIncomplete := by
  obtain ⟨l, -, -, -, hstop⟩ := cipherLoop_spec s.params.ctCap s.keys.kn f s.sin 0
  simp only [cipherStream]
  split
  · exact raiseStream_of_awaits (ports := .sinSout) h
  · rcases hstop with ⟨-, -, hport⟩ | ⟨hstop, -⟩ | ⟨v, hport, hpulled, hstop⟩
    · exact absurd (hport ▸ h) not_noEos_segment
    · rw [hstop]
    · have hrest : NoEos (cipherLoop s.params.ctCap s.keys.kn f 0 s.sin).sin := NoEos.tail (NoEos.of_append (hport ▸ h))
      rw [hpulled]
      rcases hstop with ⟨-, hstop⟩ | ⟨-, -, hstop⟩ <;> rw [hstop] <;>
        exact raiseStream_of_awaits (ports := .sinSout) hrest

/-- PROTECT's first phase (46_control_pipeline.md R291) does not come to its end: it is stuck, or raises with the rest
of the segment still to be discarded. -/
theorem protectLoop_of_noEos {P : Params} {c : CfgRegs} {k : KeyFile} :
    ∀ (port : List (Item Nat)) (cnt : Nat) (m : Mem), NoEos port →
      (protectLoop P c k cnt m port).stop = some (.fault .sinIncomplete) ∨
      ∃ e, (protectLoop P c k cnt m port).stop = some (.raise e) ∧ NoEos (protectLoop P c k cnt m port).sin
  | [], _, _, _ => .inl rfl
  | .eos :: _, _, _, h => absurd h not_noEos_eos_cons
  | .sym v :: rest, cnt, m, h => by
    simp only [protectLoop]
    split
    · exact .inr ⟨_, rfl, h.tail⟩
    · split
      · exact .inr ⟨_, rfl, h.tail⟩
      · split
        · exact .inr ⟨_, rfl, h.tail⟩
        · exact protectLoop_of_noEos rest _ _ h.tail

/-- PROTECT outside a session never reaches its second phase. -/
theorem execProtect_of_noEos {s : State} (h : NoEos s.sin) (hopen : s.status.pkopen = false) :
    execProtect s = .fault .sinIncomplete := by
  rw [execProtect, if_neg (by rw [hopen]; exact Bool.false_ne_true)]
  split
  · exact raiseStream_of_awaits (ports := .sinBout) h
  · split
    · exact raiseStream_of_awaits (ports := .sinBout) h
    · rcases protectLoop_of_noEos (P := s.params) (c := s.cfg) (k := s.keys) s.sin 0 [] h with hstop | ⟨e, hstop, hrest⟩
      · simp only [hstop]
      · simp only [hstop]
        exact raiseStream_of_awaits (ports := .sinBout) hrest

end Sys2Proof.Machine
end

section
/-! COMP on a segment without `EOS`. Every cell of `WIN` below `bufferend` has been written and the cursor is below
`bufferend` where a symbol is due, so the encoder reads no unwritten cell (43_compressor.md R224): it runs out of
symbols, raises an error, or goes on, and never learns that its input has ended. -/

namespace Sys2Proof.Machine

open Sys2Proof

/-- A write leaves no cell without a value that had one. -/
theorem Mem.isSome_read_write {m : Mem} {j : Nat} (h : (m.read j).isSome = true) (i v : Nat) :
    ((m.write i v).read j).isSome = true := by
  rw [Mem.read_write]
  split
  · rfl
  · exact h

/-- Nor does the encoder's shift (43_compressor.md R218). -/
theorem Mem.isSome_read_shiftCells (n : Nat) {j : Nat} :
    ∀ (k i : Nat) {m : Mem}, (m.read j).isSome = true → ((shiftCells n k i m).read j).isSome = true
  | 0, _, _, h => h
  | k + 1, i, m, h => by
    simp only [shiftCells]
    split
    · exact Mem.isSome_read_shiftCells n k (i + 1) (Mem.isSome_read_write h _ _)
    · exact Mem.isSome_read_shiftCells n k (i + 1) h

/-- The encoder in COMP, its segment not completed: no `EOS` has been pulled and none is there to pull. -/
structure Encoder.Starved (e : Encoder) : Prop where
  running : e.running = .comp
  eos : e.regs.eos = false
  sin : NoEos e.sin

/-- The same, with a value in every cell of `WIN` below `bufferend`. -/
structure Encoder.StarvedLoaded (e : Encoder) : Prop extends Encoder.Starved e where
  written : ∀ i < e.regs.bufferend, (e.win.read i).isSome = true

/-- A starved encoder between two phases: it is in a phase of 46_control_pipeline.md R300, `WIN` has been loaded once
`Filling` is over, and a symbol is there to encode where one is due. -/
structure Encoder.StarvedBetween (e : Encoder) : Prop extends Encoder.Starved e where
  busy : e.phase ≠ .idle
  loaded : e.phase ≠ .filling → e.StarvedLoaded
  due : e.phase = .matching ∨ e.phase = .emitting → e.regs.r < e.regs.bufferend

/-- The only fault is that of an incomplete `SIN` segment. -/
def OnlySinIncomplete (h : Option Halt) : Prop := ∀ f, h = some (.fault f) → f = .sinIncomplete

/-- What a phase leaves of a starved encoder. -/
structure Encoder.StarvedStep (r : Encoder × Option Halt) : Prop where
  starved : r.1.Starved
  halt : OnlySinIncomplete r.2
  next : r.2 = none → r.1.StarvedBetween

theorem onlySinIncomplete_none : OnlySinIncomplete none := nofun

theorem onlySinIncomplete_raise (x : Exc) : OnlySinIncomplete (some (.raise x)) := nofun

theorem onlySinIncomplete_fault : OnlySinIncomplete (some (.fault .sinIncomplete)) := fun _ h => by cases h; rfl

variable {P : Params} {c : CfgRegs} {e : Encoder}

/-- A phase that raises ends the encode. -/
theorem Encoder.Starved.raises (h : e.Starved) (x : Exc) : Encoder.StarvedStep (e, some (.raise x)) :=
  ⟨h, onlySinIncomplete_raise x, nofun⟩

theorem Encoder.StarvedBetween.goesOn (h : e.StarvedBetween) : Encoder.StarvedStep (e, none) :=
  ⟨h.toStarved, onlySinIncomplete_none, fun _ => h⟩

/-- A pull finds a symbol or nothing (20_memory.md R66), and leaves `WIN` alone. -/
theorem Encoder.StarvedLoaded.pull (h : e.StarvedLoaded) :
    e.pull = .stuck .sinIncomplete ∨ ∃ v e1, e.pull = .sym v e1 ∧ e1.StarvedLoaded := by
  have hsin := h.sin
  simp only [Encoder.pull, h.running]
  split
  · exact .inl rfl
  · next hs => rw [hs] at hsin; exact absurd hsin not_noEos_eos_cons
  · next hs => rw [hs] at hsin; exact .inr ⟨_, _, rfl, { h with sin := hsin.tail, running := rfl }⟩

/-- A symbol loaded extends the written part of `WIN` by one cell. -/
theorem Encoder.StarvedLoaded.load (h : e.StarvedLoaded) (v : Nat) : (e.load v).StarvedLoaded := by
  refine { h with written := fun i hi => ?_ }
  by_cases hb : i = e.regs.bufferend
  · subst hb; simp [Encoder.load]
  · exact Mem.isSome_read_write (h.written i (by simp only [Encoder.load] at hi; omega)) _ _

theorem Encoder.StarvedLoaded.fill :
    ∀ (room : Nat) {e : Encoder}, e.StarvedLoaded →
      (fill P c room e).1.StarvedLoaded ∧ OnlySinIncomplete (fill P c room e).2
  | 0, _, h => ⟨h, onlySinIncomplete_none⟩
  | room + 1, e, h => by
    simp only [Machine.fill, h.eos, Bool.false_eq_true, if_false]
    rcases h.pull with hp | ⟨v, e1, hp, h1⟩
    · simp only [hp]
      exact ⟨h, onlySinIncomplete_fault⟩
    · simp only [hp]
      cases hx : e1.refuses P c v with
      | some x => exact ⟨h1, onlySinIncomplete_raise x⟩
      | none => exact Encoder.StarvedLoaded.fill room (h1.load v)

/-- The test of the main loop (43_compressor.md R213) enters `Matching` only with a symbol to encode. -/
theorem Encoder.StarvedLoaded.resume (h : e.StarvedLoaded) : e.resume.StarvedBetween := by
  have hl : e.resume.StarvedLoaded := { h with }
  by_cases hlt : e.regs.r < e.regs.bufferend
  · have hp : e.resume.phase = .matching := if_pos hlt
    exact { hl with busy := by simp [hp], loaded := fun _ => hl, due := fun _ => hlt }
  · have hp : e.resume.phase = .drained := if_neg hlt
    exact { hl with busy := by simp [hp], loaded := fun _ => hl, due := by simp [hp] }

theorem Encoder.StarvedLoaded.advance (h : e.StarvedLoaded) (y : Nat) (pk : Packer) :
    (e.advance c y pk).StarvedBetween := by
  simp only [Encoder.advance]
  split
  · exact { h with busy := nofun, loaded := fun _ => { h with }, due := by simp }
  · exact Encoder.StarvedLoaded.resume { h with }

/-- The shift rebases `bufferend` downwards and takes no value away. -/
theorem Encoder.StarvedLoaded.rebase (h : e.StarvedLoaded) : (e.rebase c).StarvedLoaded :=
  { h with
    written := fun i hi => Mem.isSome_read_shiftCells _ _ _ (h.written i (by simp only [Encoder.rebase] at hi; omega)) }

/-- `Filling` starts from a window of blanks (43_compressor.md R212). -/
theorem Encoder.Starved.filling (h : e.Starved) : Encoder.StarvedStep (e.filling P c) := by
  have hblank : Encoder.StarvedLoaded
      { e with win := Mem.blank c.h c.blank, regs := { e.regs with bufferend := c.h, eos := false } } :=
    { h with eos := rfl, written := fun i hi => by simp only [Mem.read_blank, if_pos hi, Option.isSome_some] }
  have hg := hblank.fill (P := P) (c := c) (2 * c.n - c.h)
  simp only [Encoder.filling]
  split
  · next hf => rw [hf] at hg; exact ⟨hg.1.toStarved, hg.2, nofun⟩
  · next hf => rw [hf] at hg; exact Encoder.StarvedBetween.goesOn (Encoder.StarvedLoaded.resume { hg.1 with })

theorem Encoder.StarvedBetween.matching (h : e.StarvedBetween) (hp : e.phase = .matching) :
    Encoder.StarvedStep (e.matching c) := by
  have hl : e.StarvedLoaded := h.loaded (hp ▸ nofun)
  have hr : e.regs.r < e.regs.bufferend := h.due (.inl hp)
  obtain ⟨sym, hsym⟩ := Option.isSome_iff_exists.1 (hl.written _ hr)
  simp only [Encoder.matching, hsym]
  exact Encoder.StarvedBetween.goesOn { h with busy := nofun, loaded := fun _ => { hl with }, due := fun _ => hr }

theorem Encoder.StarvedBetween.emitting (h : e.StarvedBetween) (hp : e.phase = .emitting) :
    Encoder.StarvedStep (e.emitting P c) := by
  have hl : e.StarvedLoaded := h.loaded (hp ▸ nofun)
  obtain ⟨sym, hsym⟩ := Option.isSome_iff_exists.1 (hl.written _ (h.due (.inr hp)))
  simp only [Encoder.emitting, hsym]
  split <;> split
  · exact Encoder.Starved.raises (e := { e with regs := { e.regs with y := 1 } }) { h.toStarved with } _
  · exact (hl.advance _ _).goesOn
  · exact h.raises _
  · exact (hl.advance _ _).goesOn

theorem Encoder.StarvedLoaded.shifting (h : e.StarvedLoaded) : Encoder.StarvedStep (e.shifting P c) := by
  have hg := (h.rebase (c := c)).fill (P := P) (c := c) (2 * c.n - (e.rebase c).regs.bufferend)
  simp only [Encoder.shifting]
  split
  · next hf => rw [hf] at hg; exact ⟨hg.1.toStarved, hg.2, nofun⟩
  · next hf => rw [hf] at hg; exact hg.1.resume.goesOn

/-- Every phase of the encoder (46_control_pipeline.md R300) leaves it starved. -/
theorem Encoder.StarvedBetween.phaseStep (h : e.StarvedBetween) : Encoder.StarvedStep (e.phaseStep P c) := by
  simp only [Encoder.phaseStep]
  split
  · exact h.filling
  · exact h.matching ‹_›
  · exact h.emitting ‹_›
  · next hp => exact (h.loaded (hp ▸ nofun)).shifting
  · exact h.goesOn
  · exact absurd ‹_› h.busy

/-- So do the phases run one after the other. -/
theorem Encoder.StarvedBetween.drive :
    ∀ (fuel : Nat) {e : Encoder}, e.StarvedBetween → Encoder.StarvedStep (e.drive P c fuel)
  | 0, _, h => h.goesOn
  | fuel + 1, e, h => by
    have hg := h.phaseStep (P := P) (c := c)
    simp only [Encoder.drive]
    split
    · exact h.goesOn
    · split
      · next hs => rw [hs] at hg; exact hg
      · next hs => rw [hs] at hg; exact Encoder.StarvedBetween.drive fuel (hg.next rfl)

/-- The end of an encode in COMP before `EOS` has been pulled: the segment is still to be discarded. -/
theorem endEncode_of_starved {s : State} {r : Encoder × Option Halt} (hs : s.running = .comp)
    (h : Encoder.StarvedStep r) : endEncode (s.withEncoder r.1) r.2 = .fault .sinIncomplete := by
  obtain ⟨⟨-, heos, hsin⟩, hhalt, -⟩ := h
  have hpulled : ((s.withEncoder r.1).running = .protect || (s.withEncoder r.1).enc.eos) = false := by
    simp [hs, State.withEncoder, heos]
  rcases hr : r.2 with _ | (x | f)
  · simp only [endEncode, hpulled]
    exact endStream_of_awaits (ports := .sinBout) hsin
  · simp only [endEncode, hpulled]
    exact raiseStream_of_awaits (ports := .sinBout) hsin
  · rw [hhalt f hr]
    rfl

/-- COMP outside a session: however the encode ends, its segment is still to be discarded. -/
theorem execComp_of_noEos {s : State} (h : NoEos s.sin) (hopen : s.status.pkopen = false) :
    execComp s = .fault .sinIncomplete := by
  rw [execComp, if_neg (by rw [hopen]; exact Bool.false_ne_true)]
  split
  · exact raiseStream_of_awaits (ports := .sinBout) h
  · have hstart : (startEncode .comp { s with symcnt := 0 }).encoder.StarvedBetween :=
      { running := rfl, eos := rfl, sin := h, busy := nofun, loaded := fun hne => absurd rfl hne, due := nofun }
    exact endEncode_of_starved rfl (hstart.drive _)

end Sys2Proof.Machine
end

section
/-! The decoder on a `BIN` segment without `EOS`. No read finds the end of the segment, so no error is raised: every
phase makes progress or stops at a fault, of an incomplete segment or of a cell of `DWIN` no rule has written
(45_decoder.md R268). A decode that comes to its end has the segment still to discard. -/

namespace Sys2Proof.Machine

open Sys2Proof

/-- A read from a segment without `EOS` does not find its end, and leaves such a segment. -/
def Got.Waits {α : Type} : Got α → Prop
  | .ok _ u => NoEos u.bin
  | .ended _ => False
  | .stuck => True

theorem getBit_waits {u : Unpacker} (h : NoEos u.bin) : u.getBit.Waits := by
  simp only [Unpacker.getBit]
  split
  · split
    · trivial
    · next hb => rw [hb] at h; exact absurd h not_noEos_eos_cons
    · next hb => rw [hb] at h; exact h.tail
  · exact h

theorem getBits_waits : ∀ (w v : Nat) {u : Unpacker}, NoEos u.bin → (u.getBits w v).Waits
  | 0, _, _, h => h
  | w + 1, v, u, h => by
    have hbit := getBit_waits h
    simp only [Unpacker.getBits]
    split
    · next hg => rw [hg] at hbit; exact getBits_waits w _ hbit
    · next hg => rw [hg] at hbit; exact hbit
    · trivial

theorem getToken_waits (tw : TokenWidths) {u : Unpacker} (h : NoEos u.bin) : (u.getToken tw).Waits := by
  have hflag := getBit_waits h
  simp only [Unpacker.getToken]
  split <;> rename_i hg <;> rw [hg] at hflag
  · trivial
  · exact hflag
  · have hsym := getBits_waits tw.symw 0 hflag
    split <;> rename_i hs <;> rw [hs] at hsym <;> exact hsym
  · have hoff := getBits_waits tw.ei 0 hflag
    split <;> rename_i ho <;> rw [ho] at hoff
    · trivial
    · exact hoff
    · have hlen := getBits_waits tw.ej 0 hoff
      split <;> rename_i hl <;> rw [hl] at hlen <;> exact hlen

/-- What comes out of the unpacker is a token (45_decoder.md R263). -/
theorem getToken_isToken {tw : TokenWidths} {u u1 : Unpacker} {i : Instr} (h : u.getToken tw = .ok i u1) :
    i.isToken = true := by
  simp only [Unpacker.getToken] at h
  split at h
  · cases h
  · cases h
  · split at h <;> cases h
    rfl
  · split at h
    · cases h
    · cases h
    · split at h <;> cases h
      rfl

/-- A decode of `n` symbols whose segment has no `EOS`; in RECOVER every symbol counted stands in `CTBUF`
(46_control_pipeline.md R294). This holds in the middle of a token too. -/
structure Decoder.Starved (which : Running) (n : Nat) (d : Decoder) : Prop extends Decoder.Mid n (fun _ => True) d where
  running : d.running = which
  bin : NoEos d.unp.bin
  stored : which = .recover → ∀ i < d.symcnt, (d.ctbuf.read i).isSome = true

/-- The same between two phases: symbols are missing while a token is due and none when `Drained`, and a token waits to
be executed in `Emitting` (46_control_pipeline.md R300). -/
structure Decoder.StarvedBetween (which : Running) (n : Nat) (d : Decoder) : Prop
    extends Decoder.Starved which n d where
  admitted : d.phase ≠ .idle ∧ d.phase ≠ .shifting
  due : d.phase = .matching ∨ d.phase = .emitting → d.symcnt < n
  held : d.phase = .emitting → ∃ i, d.tok = some i ∧ i.isToken = true
  full : d.phase = .drained → d.symcnt = n

/-- How many phases a decode can still take: two for each symbol missing (46_control_pipeline.md R302). -/
def Decoder.work (d : Decoder) : Nat :=
  match d.phase with
  | .filling => 2 * (d.count - d.symcnt) + 1
  | .matching => 2 * (d.count - d.symcnt)
  | .emitting => 2 * (d.count - d.symcnt) - 1
  | .drained | .shifting | .idle => 0

/-- The faults of a decode that the host has left without the end of its input. -/
def DecodeFault (f : Fault) : Prop := f = .binIncomplete ∨ f = .dwinUnwritten

/-- A starved decode stops at one of those faults or goes on with `k` phases of work at most. -/
def Decoder.StopsOrGoesOn (which : Running) (n k : Nat) (r : Decoder × Option Halt) : Prop :=
  (∃ f, r.2 = some (.fault f) ∧ DecodeFault f) ∨ (r.2 = none ∧ r.1.StarvedBetween which n ∧ r.1.work ≤ k)

variable {which : Running} {n : Nat} {c : CfgRegs} {d : Decoder}

@[simp] theorem out_running (m v : Nat) (d : Decoder) : (d.out m v).running = d.running := by
  simp only [Decoder.out, Decoder.emit]; split <;> rfl

@[simp] theorem out_unp (m v : Nat) (d : Decoder) : (d.out m v).unp = d.unp := by
  simp only [Decoder.out, Decoder.emit]; split <;> rfl

@[simp] theorem out_symcnt (m v : Nat) (d : Decoder) : (d.out m v).symcnt = d.symcnt + 1 := rfl

/-- RECOVER emits to the cell of `CTBUF` that the count names (46_control_pipeline.md R294). -/
theorem out_ctbuf_of_recover (m v : Nat) (h : d.running = .recover) :
    (d.out m v).ctbuf = d.ctbuf.write d.symcnt v := by
  simp only [Decoder.out, Decoder.emit, h]

theorem Decoder.Starved.out (h : d.Starved which n) (hlt : d.symcnt < n) (m v : Nat) :
    (d.out m v).Starved which n := by
  have hmid := h.toMid.out hlt m (v := v) trivial
  refine { hmid with running := ?_, bin := ?_, stored := fun hw i hi => ?_ }
  · rw [out_running, h.running]
  · rw [out_unp]; exact h.bin
  · rw [out_ctbuf_of_recover m v (h.running.trans hw)]
    by_cases hs : i = d.symcnt
    · subst hs; simp
    · exact Mem.isSome_read_write (h.stored hw i (by simp only [out_symcnt] at hi; omega)) _ _

/-- After a token the decode takes two phases for each symbol still missing (45_decoder.md R263). -/
theorem Decoder.work_resume (d : Decoder) : d.resume.work = 2 * (d.count - d.symcnt) := by
  simp only [Decoder.work, Decoder.resume]
  by_cases hlt : d.symcnt < d.count
  · rw [if_pos hlt]
  · rw [if_neg hlt]
    show 0 = _
    omega

theorem Decoder.Starved.resume (h : d.Starved which n) :
    d.resume.StarvedBetween which n ∧ d.resume.work ≤ 2 * (n - d.symcnt) := by
  refine ⟨?_, by rw [Decoder.work_resume, h.count]⟩
  have hle := h.symcnt
  by_cases hlt : d.symcnt < n
  · have hp : d.resume.phase = .matching := if_pos (h.count.symm ▸ hlt)
    exact { h with admitted := by simp [hp], due := fun _ => hlt, held := by simp [hp], full := by simp [hp] }
  · have hp : d.resume.phase = .drained := if_neg (h.count.symm ▸ hlt)
    have hfull : d.symcnt = n := by omega
    exact { h with admitted := by simp [hp], due := by simp [hp], held := by simp [hp], full := fun _ => hfull }

/-- The copy of a Match stops at an unwritten cell, or adds its symbols up to the count (45_decoder.md R268, R269). -/
theorem Decoder.Starved.copy (m off : Nat) :
    ∀ (todo k : Nat) {d : Decoder}, d.Starved which n →
      (Decoder.copy m off todo k d).2 = some .dwinUnwritten ∨
      ((Decoder.copy m off todo k d).2 = none ∧ (Decoder.copy m off todo k d).1.Starved which n ∧
        (Decoder.copy m off todo k d).1.symcnt = min n (d.symcnt + todo))
  | 0, _, d, h => .inr ⟨rfl, h, by have := h.symcnt; simp only [Decoder.copy]; omega⟩
  | todo + 1, k, d, h => by
    have hle := h.symcnt
    simp only [Decoder.copy]
    split
    · next heq => exact .inr ⟨rfl, h, by rw [h.count] at heq; simp only; omega⟩
    · next hne =>
      split
      · exact .inl rfl
      · next v _ =>
        have hlt : d.symcnt < n := by rw [h.count] at hne; omega
        rcases Decoder.Starved.copy m off todo (k + 1) (h.out hlt m v) with hf | ⟨hnone, hs, hcnt⟩
        · exact .inl hf
        · exact .inr ⟨hnone, hs, by rw [hcnt, out_symcnt]; omega⟩

/-- A Match produces a symbol at least, so it brings the decode forward. -/
theorem Decoder.Starved.matchTok (h : d.Starved which n) (hlt : d.symcnt < n) (m off len2 : Nat) :
    (d.matchTok m off len2).2 = some .dwinUnwritten ∨
    ((d.matchTok m off len2).2 = none ∧ (d.matchTok m off len2).1.StarvedBetween which n ∧
      (d.matchTok m off len2).1.work ≤ 2 * (n - (d.symcnt + 1))) := by
  have hcopy := Decoder.Starved.copy m off (len2 + 2) 0 h
  simp only [Decoder.matchTok]
  split <;> rename_i he <;> rw [he] at hcopy
  · obtain ⟨-, hs, hcnt⟩ := hcopy.resolve_left nofun
    obtain ⟨hb, hwork⟩ := hs.resume
    exact .inr ⟨rfl, hb, Nat.le_trans hwork (by simp only at hcnt ⊢; omega)⟩
  · exact hcopy.imp id fun ⟨hnone, _⟩ => by cases hnone

/-- Filling takes one phase (45_decoder.md R262). -/
theorem Decoder.Starved.filling (h : d.Starved which n) :
    Decoder.StopsOrGoesOn which n (2 * (n - d.symcnt)) (d.filling c, none) := by
  have hs : Decoder.Starved which n
      { d with dwin := Mem.blank c.h c.blank, dr := c.h, unp := { d.unp with ibits := 0 } } :=
    { h with dwin := fun _ _ _ => trivial }
  exact .inr ⟨rfl, hs.resume⟩

theorem Decoder.StarvedBetween.matching (h : d.StarvedBetween which n) (hp : d.phase = .matching) :
    Decoder.StopsOrGoesOn which n (2 * (n - d.symcnt) - 1) (d.matching c) := by
  have hlt : d.symcnt < n := h.due (.inl hp)
  have hwait := getToken_waits c.widths h.bin
  simp only [Decoder.matching]
  split <;> rename_i hg <;> rw [hg] at hwait
  · next i u =>
    have hb : Decoder.StarvedBetween which n { d with unp := u, tok := some i, phase := .emitting } :=
      { h with
        bin := hwait, admitted := ⟨nofun, nofun⟩, due := fun _ => hlt
        held := fun _ => ⟨i, rfl, getToken_isToken hg⟩, full := nofun }
    exact .inr ⟨rfl, hb, by simp only [Decoder.work, h.count]; omega⟩
  · exact hwait.elim
  · exact .inl ⟨_, rfl, .inl rfl⟩

theorem Decoder.StarvedBetween.emitting (h : d.StarvedBetween which n) (hp : d.phase = .emitting) :
    Decoder.StopsOrGoesOn which n (2 * (n - (d.symcnt + 1))) (d.emitting c) := by
  have hlt : d.symcnt < n := h.due (.inr hp)
  obtain ⟨i, hi, htok⟩ := h.held hp
  simp only [Decoder.emitting, hi]
  cases i with
  | literal sym => exact .inr ⟨rfl, (h.toStarved.out hlt c.n sym).resume⟩
  | matchTok off len2 =>
    have hm := h.toStarved.matchTok hlt c.n off len2
    simp only [Decoder.token]
    split <;> rename_i he <;> rw [he] at hm
    · obtain ⟨-, hgo⟩ := hm.resolve_left nofun
      exact .inr ⟨rfl, hgo⟩
    · cases hm.resolve_right fun ⟨hnone, _⟩ => by cases hnone
      exact .inl ⟨_, rfl, .inr rfl⟩
  | _ => cases htok

/-- No work is left only at `Drained`. -/
theorem Decoder.StarvedBetween.work_pos (h : d.StarvedBetween which n) (hp : d.phase ≠ .drained) : 0 < d.work := by
  have hdue := h.due
  obtain ⟨hidle, hshift⟩ := h.admitted
  simp only [Decoder.work, h.count]
  cases hph : d.phase with
  | filling => exact Nat.succ_pos _
  | matching => have := hdue (.inl hph); simp only; omega
  | emitting => have := hdue (.inr hph); simp only; omega
  | drained => exact absurd hph hp
  | shifting => exact absurd hph hshift
  | idle => exact absurd hph hidle

/-- Every phase before `Drained` stops at a fault or brings the decode forward. -/
theorem Decoder.StarvedBetween.phaseStep (h : d.StarvedBetween which n) (hp : d.phase ≠ .drained) :
    Decoder.StopsOrGoesOn which n (d.work - 1) (d.phaseStep c) := by
  obtain ⟨hidle, hshift⟩ := h.admitted
  simp only [Decoder.phaseStep, Decoder.work, h.count]
  cases hph : d.phase with
  | filling => exact h.filling
  | matching => exact h.matching hph
  | emitting =>
    have hk : 2 * (n - (d.symcnt + 1)) = 2 * (n - d.symcnt) - 1 - 1 := by omega
    exact hk ▸ h.emitting hph
  | drained => exact absurd hph hp
  | shifting => exact absurd hph hshift
  | idle => exact absurd hph hidle

/-- With as many phases as there is work a starved decode stops at a fault or comes to `Drained`. -/
theorem Decoder.StarvedBetween.drive :
    ∀ (fuel : Nat) {d : Decoder}, d.StarvedBetween which n → d.work ≤ fuel →
      Decoder.StopsOrGoesOn which n 0 (d.drive c fuel)
  | 0, _, h, hw => .inr ⟨rfl, h, hw⟩
  | fuel + 1, d, h, hw => by
    simp only [Decoder.drive]
    split
    · next hp => exact .inr ⟨rfl, h, by simp [Decoder.work, hp]⟩
    · next hp =>
      have hg := h.phaseStep (c := c) hp
      split <;> rename_i hs <;> rw [hs] at hg
      · rcases hg with ⟨f, hf, hstop⟩ | ⟨hnone, -⟩
        · exact .inl ⟨f, hf, hstop⟩
        · cases hnone
      · rcases hg with ⟨f, hf, -⟩ | ⟨-, hb, hk⟩
        · cases hf
        · exact Decoder.StarvedBetween.drive fuel hb (by simp only at hk; omega)

/-- Without work left every symbol has been counted. -/
theorem Decoder.StarvedBetween.symcnt_eq_of_work (h : d.StarvedBetween which n) (hw : d.work ≤ 0) : d.symcnt = n := by
  by_cases hp : d.phase = .drained
  · exact h.full hp
  · exact absurd (h.work_pos hp) (by omega)

end Sys2Proof.Machine
end

section
/-! DECOMP and RECOVER on a segment without `EOS` end at a fault. -/

namespace Sys2Proof.Machine

open Sys2Proof

/-- RECOVER's second phase reads no unwritten cell where the first has stored every symbol (46_control_pipeline.md
R294, R295). -/
theorem recoverLoop_stop_of_stored (k : KeyFile) {m : Mem} :
    ∀ todo i : Nat, (∀ j < i + todo, (m.read j).isSome = true) →
      (recoverLoop k m todo i).stop = none ∨ ∃ e, (recoverLoop k m todo i).stop = some (.raise e)
  | 0, _, _ => .inl rfl
  | todo + 1, i, h => by
    obtain ⟨c, hc⟩ := Option.isSome_iff_exists.1 (h i (by omega))
    simp only [recoverLoop, hc]
    split
    · exact .inr ⟨_, rfl⟩
    · exact recoverLoop_stop_of_stored k todo (i + 1) fun j hj => h j (by omega)

theorem endRecover_of_noEos {s : State} (h : NoEos s.bin)
    (hstored : ∀ i < s.count, (s.ctbuf.read i).isSome = true) : endRecover s = .fault .binIncomplete := by
  simp only [endRecover]
  rcases recoverLoop_stop_of_stored s.keys s.count 0 (by simpa using hstored) with hstop | ⟨e, hstop⟩ <;>
    simp only [hstop]
  · exact endStream_of_awaits (ports := .binSout) h
  · exact raiseStream_of_awaits (ports := .binSout) h

/-- The outcomes of a decode that the host has left without the end of its input. -/
def DecodeStuck (o : Outcome) : Prop := o = .fault .binIncomplete ∨ o = .fault .dwinUnwritten

/-- A decode that has come to its end still has to discard its segment (20_memory.md R67). -/
theorem endDecode_of_starved {s : State} {r : Decoder × Option Halt}
    (h : Decoder.StopsOrGoesOn s.running s.count 0 r) : DecodeStuck (endDecode (s.withDecoder r.1) r.2) := by
  rcases h with ⟨f, hf, hstop⟩ | ⟨hnone, hb, hwork⟩
  · rw [hf]
    exact hstop.imp (congrArg _) (congrArg _)
  · have hcnt : r.1.symcnt = s.count := hb.symcnt_eq_of_work hwork
    rw [hnone]
    simp only [endDecode]
    split
    · next hr => exact .inl (endRecover_of_noEos hb.bin fun i hi => hb.stored hr i (hcnt ▸ hi))
    · exact .inl (endStream_of_awaits (ports := .binSout) hb.bin)

theorem runDecode_of_noEos {s : State} (h : NoEos s.bin) (which : Running) (n : Nat) :
    DecodeStuck (runDecode (startDecode which n s)) := by
  have hstart : (startDecode which n s).decoder.StarvedBetween which n :=
    { count := rfl, symcnt := Nat.zero_le _, dwin := fun _ _ _ => trivial, sout := fun _ _ => trivial,
      ctbuf := fun _ _ _ => trivial, running := rfl, bin := h, stored := fun _ i hi => absurd hi (Nat.not_lt_zero i),
      admitted := ⟨nofun, nofun⟩, due := nofun, held := nofun, full := nofun }
  exact endDecode_of_starved (hstart.drive _ (Nat.le_refl _))

theorem execDecomp_of_noEos {s : State} (h : NoEos s.bin) (n : Nat) : DecodeStuck (execDecomp n s) := by
  simp only [execDecomp]
  split
  · exact .inl (raiseStream_of_awaits (ports := .binSout) h)
  · split
    · exact .inl (raiseStream_of_awaits (ports := .binSout) h)
    · exact runDecode_of_noEos h _ n

theorem execRecover_of_noEos {s : State} (h : NoEos s.bin) (n : Nat) : DecodeStuck (execRecover n s) := by
  simp only [execRecover]
  split
  · exact .inl (raiseStream_of_awaits (ports := .binSout) h)
  · split
    · exact .inl (raiseStream_of_awaits (ports := .binSout) h)
    · split
      · exact .inl (raiseStream_of_awaits (ports := .binSout) h)
      · exact runDecode_of_noEos h _ n

end Sys2Proof.Machine
end

section
/-! KEYGEN's tests (40_keygen.md R130, R131) in the terms of number theory, and a random source that stops answering
(20_memory.md R69). -/

namespace Sys2Proof.Machine

open Sys2Proof

/-- Trial division finds no divisor exactly when there is none from `t` on up to the square root, the bound on the
number of trials permitting (40_keygen.md R130). -/
theorem noDivisor_iff {x : Nat} : ∀ (fuel t : Nat), x < (t + fuel) * (t + fuel) →
    (noDivisor x fuel t = true ↔ ∀ d, t ≤ d → d * d ≤ x → ¬ d ∣ x)
  | 0, t, hx => by
    refine ⟨fun _ d hd hdx => ?_, fun _ => rfl⟩
    have := Nat.mul_le_mul hd hd
    rw [Nat.add_zero] at hx
    omega
  | fuel + 1, t, hx => by
    simp only [noDivisor]
    split
    · next hlt =>
      refine ⟨fun _ d hd hdx => ?_, fun _ => rfl⟩
      have := Nat.mul_le_mul hd hd
      omega
    · next hle =>
      split
      · next hmod =>
        exact ⟨nofun, fun h => absurd (Nat.dvd_of_mod_eq_zero hmod) (h t (Nat.le_refl t) (by omega))⟩
      · next hmod =>
        rw [noDivisor_iff fuel (t + 1) (by rwa [show t + 1 + fuel = t + (fuel + 1) by omega])]
        refine ⟨fun h d hd => ?_, fun h d hd => h d (by omega)⟩
        rcases Nat.eq_or_lt_of_le hd with rfl | hlt
        · exact fun _ hdvd => hmod (Nat.mod_eq_zero_of_dvd hdvd)
        · exact h d hlt

/-- `is_prime` decides primality (40_keygen.md R130). -/
theorem isPrime_iff {x : Nat} : isPrime x = true ↔ Nat.Prime x := by
  have hbound : x < (2 + x) * (2 + x) := by nlinarith
  simp only [isPrime, Bool.and_eq_true, decide_eq_true_eq, noDivisor_iff x 2 hbound, Nat.prime_def_le_sqrt,
    Nat.le_sqrt]

/-- `totient` of two numbers above 1 is the product of their predecessors (40_keygen.md R132). -/
theorem totient_eq {p q : Nat} (hp : 2 ≤ p) (hq : 2 ≤ q) : totient p q = (p - 1) * (q - 1) := by
  obtain ⟨a, rfl⟩ := Nat.exists_eq_add_of_le' (Nat.le_of_succ_le hp)
  obtain ⟨b, rfl⟩ := Nat.exists_eq_add_of_le' (Nat.le_of_succ_le hq)
  have hprod : (a + 1) * (b + 1) = a * b + a + b + 1 := by ring
  have hpos : 0 < a * b := Nat.mul_pos (by omega) (by omega)
  rw [totient, hprod, Nat.add_sub_cancel, Nat.add_sub_cancel]
  omega

/-- A pair passes the tests of `accept` exactly when it is an accepted pair (40_keygen.md R131). -/
theorem refusedBy_eq_none_iff {c : CfgRegs} {p q e : Nat} : refusedBy c p q e = none ↔ AcceptedPair c p q e := by
  have htest : refusedBy c p q e = none ↔
      ((c.pmin ≤ p ∧ p ≤ c.pmax) ∧ c.pmin ≤ q ∧ q ≤ c.pmax) ∧ (isPrime p = true ∧ isPrime q = true) ∧ p ≠ q ∧
        Nat.gcd e (totient p q) = 1 := by
    simp only [refusedBy]
    split
    · next hrange => exact ⟨nofun, fun ⟨hr, _⟩ => absurd hr hrange⟩
    · next hrange =>
      split
      · next hprime => exact ⟨nofun, fun ⟨_, hp, _⟩ => absurd hp hprime⟩
      · next hprime =>
        split
        · next heq => exact ⟨nofun, fun ⟨_, _, hne, _⟩ => absurd heq hne⟩
        · next hne =>
          split
          · next hgcd => exact ⟨nofun, fun ⟨_, _, _, hg⟩ => absurd hg hgcd⟩
          · next hgcd =>
            exact ⟨fun _ => ⟨not_not.1 hrange, not_not.1 hprime, hne, not_not.1 hgcd⟩, fun _ => rfl⟩
  rw [htest, isPrime_iff, isPrime_iff]
  constructor
  · rintro ⟨⟨hp, hq⟩, ⟨hpp, hqp⟩, hne, hgcd⟩
    exact ⟨hp, hq, hpp, hqp, hne, totient_eq hpp.two_le hqp.two_le ▸ hgcd⟩
  · rintro ⟨hp, hq, hpp, hqp, hne, hgcd⟩
    exact ⟨⟨hp, hq⟩, ⟨hpp, hqp⟩, hne, totient_eq hpp.two_le hqp.two_le ▸ hgcd⟩

/-- With fewer draws than the budget admits, and no pair among them accepted, KEYGEN waits for the next draw. -/
theorem attempts_silent {c : CfgRegs} {e : Nat} :
    ∀ {budget : Nat} {draws : List Nat}, draws.length < 2 * (budget + 1) → AllRejected c e draws →
      attempts c e budget draws = .silent
  | budget, v :: w :: rest, hlen, ⟨hpair, hrest⟩ => by
    unfold attempts
    split
    · next hr => exact absurd (refusedBy_eq_none_iff.1 hr) hpair
    · cases budget with
      | zero => simp at hlen
      | succ b => exact attempts_silent (by simp only [List.length_cons] at hlen; omega) hrest
  | _, [_], _, _ => by simp only [attempts]
  | _, [], _, _ => by simp only [attempts]

theorem execKeygen_of_rejected {s : State} {e : Nat} (hcfg : s.cfg.keygenOk s.params = true)
    (hlen : s.rng.length < 2 * (s.cfg.retry + 1)) (hrej : AllRejected s.cfg e s.rng) :
    execKeygen e s = .fault .rngSilent := by
  simp only [execKeygen, hcfg, attempts_silent hlen hrej, Bool.true_eq_false, if_false]

end Sys2Proof.Machine
end

section
/-! The obligation of incomplete input, command by command. -/

namespace Sys2Proof.Machine

open Sys2Proof

/-- Settles O54: a stream command has to discard the rest of its segment before it can end (`endStream_of_awaits`), and
neither the encoder nor the decoder comes upon an `EOS` that is not there; KEYGEN rejects every pair drawn and has
budget for one more (`attempts_silent`). -/
theorem incompleteInputIsStuck : Obligations.IncompleteInputIsStuck := by
  intro s
  refine ⟨fun hsin => ⟨cipherStream_of_noEos hsin, cipherStream_of_noEos hsin, fun hopen => ?_⟩, fun hbin n => ?_, ?_⟩
  · exact ⟨execComp_of_noEos hsin hopen, execProtect_of_noEos hsin hopen⟩
  · exact ⟨execDecomp_of_noEos hbin n, execRecover_of_noEos hbin n⟩
  · exact fun e => execKeygen_of_rejected

end Sys2Proof.Machine
end

section
/-! The fields of an assembled command word read back (30_encoding.md R110), and what each opcode of R111 decodes to. -/

namespace Sys2Proof.Machine

open Sys2Proof Sys2Proof.Laws

/-- The quotient of a number put together from a high part and a low part below `n` is the high part. -/
theorem mul_add_div_of_lt {n y : Nat} (h : y < n) (x : Nat) : (x * n + y) / n = x := by
  rw [Nat.mul_comm, Nat.mul_add_div (by omega), Nat.div_eq_of_lt h, Nat.add_zero]

theorem opC_make (kw : Nat) (op : Byte) (a b : Nat) {c : Nat} (hc : c < 2 ^ kw) :
    CmdWord.opC kw (.make kw op a b c) = c :=
  Nat.mul_add_mod_of_lt hc

theorem opB_make (kw : Nat) (op : Byte) (a : Nat) {b c : Nat} (hb : b < 2 ^ kw) (hc : c < 2 ^ kw) :
    CmdWord.opB kw (.make kw op a b c) = b := by
  simp only [CmdWord.opB, CmdWord.make]
  rw [mul_add_div_of_lt hc, Nat.mul_add_mod_of_lt hb]

theorem opA_make (kw : Nat) (op : Byte) {a b c : Nat} (ha : a < 2 ^ kw) (hb : b < 2 ^ kw) (hc : c < 2 ^ kw) :
    CmdWord.opA kw (.make kw op a b c) = a := by
  simp only [CmdWord.opA, CmdWord.make]
  rw [Nat.two_mul, Nat.pow_add, ← Nat.div_div_eq_div_mul, mul_add_div_of_lt hc, mul_add_div_of_lt hb,
    Nat.mul_add_mod_of_lt ha]

/-- To know what an opcode decodes to, it is enough to know it of the operand fields as they stand in the word. -/
theorem decodesTo_of_opcode {op : Byte} {f : Nat → Nat → Nat → Instr}
    (h : ∀ kw w, CmdWord.opcode kw w = op →
      decodeCommand kw w = .ok (f (CmdWord.opA kw w) (CmdWord.opB kw w) (CmdWord.opC kw w))) : DecodesTo op f := by
  intro kw a b c ha hb hc
  rw [h kw _ (EncodedForm.opcode_make kw op ha hb hc).1, opA_make kw op ha hb hc, opB_make kw op a hb hc,
    opC_make kw op a b hc]

theorem decodesTo_nop : DecodesTo 0x00 (fun _ _ _ => .nop) :=
  decodesTo_of_opcode fun _ _ h => by rw [decodeCommand, h]; rfl

theorem decodesTo_reset : DecodesTo 0x01 (fun _ _ _ => .reset) :=
  decodesTo_of_opcode fun _ _ h => by rw [decodeCommand, h]; rfl

theorem decodesTo_clrerr : DecodesTo 0x02 (fun _ _ _ => .clrerr) :=
  decodesTo_of_opcode fun _ _ h => by rw [decodeCommand, h]; rfl

theorem decodesTo_wrcfg : DecodesTo 0x03 (fun a b _ => .wrcfg a b) :=
  decodesTo_of_opcode fun _ _ h => by rw [decodeCommand, h]; rfl

theorem decodesTo_rdreg : DecodesTo 0x04 (fun a _ _ => .rdreg a) :=
  decodesTo_of_opcode fun _ _ h => by rw [decodeCommand, h]; rfl

theorem decodesTo_keygen : DecodesTo 0x10 (fun a _ _ => .keygen a) :=
  decodesTo_of_opcode fun _ _ h => by rw [decodeCommand, h]; rfl

theorem decodesTo_keyset : DecodesTo 0x11 (fun a b c => .keyset a b c) :=
  decodesTo_of_opcode fun _ _ h => by rw [decodeCommand, h]; rfl

theorem decodesTo_keypub : DecodesTo 0x12 (fun a b _ => .keypub a b) :=
  decodesTo_of_opcode fun _ _ h => by rw [decodeCommand, h]; rfl

theorem decodesTo_enc : DecodesTo 0x20 (fun a _ _ => .enc a) :=
  decodesTo_of_opcode fun _ _ h => by rw [decodeCommand, h]; rfl

theorem decodesTo_decd : DecodesTo 0x21 (fun a _ _ => .decd a) :=
  decodesTo_of_opcode fun _ _ h => by rw [decodeCommand, h]; rfl

theorem decodesTo_decc : DecodesTo 0x22 (fun a _ _ => .decc a) :=
  decodesTo_of_opcode fun _ _ h => by rw [decodeCommand, h]; rfl

theorem decodesTo_encs : DecodesTo 0x23 (fun _ _ _ => .encs) :=
  decodesTo_of_opcode fun _ _ h => by rw [decodeCommand, h]; rfl

theorem decodesTo_decs : DecodesTo 0x24 (fun _ _ _ => .decs) :=
  decodesTo_of_opcode fun _ _ h => by rw [decodeCommand, h]; rfl

theorem decodesTo_comp : DecodesTo 0x30 (fun _ _ _ => .comp) :=
  decodesTo_of_opcode fun _ _ h => by rw [decodeCommand, h]; rfl

theorem decodesTo_decomp : DecodesTo 0x31 (fun a _ _ => .decomp a) :=
  decodesTo_of_opcode fun _ _ h => by rw [decodeCommand, h]; rfl

theorem decodesTo_putl : DecodesTo 0x32 (fun a _ _ => .putl a) :=
  decodesTo_of_opcode fun _ _ h => by rw [decodeCommand, h]; rfl

theorem decodesTo_putm : DecodesTo 0x33 (fun a b _ => .putm a b) :=
  decodesTo_of_opcode fun _ _ h => by rw [decodeCommand, h]; rfl

theorem decodesTo_flush : DecodesTo 0x34 (fun _ _ _ => .flush) :=
  decodesTo_of_opcode fun _ _ h => by rw [decodeCommand, h]; rfl

theorem decodesTo_protect : DecodesTo 0x40 (fun _ _ _ => .protect) :=
  decodesTo_of_opcode fun _ _ h => by rw [decodeCommand, h]; rfl

theorem decodesTo_recover : DecodesTo 0x41 (fun a _ _ => .recover a) :=
  decodesTo_of_opcode fun _ _ h => by rw [decodeCommand, h]; rfl

end Sys2Proof.Machine
end

section
/-! The obligation of the command word: the round trip through `encode` and `decodeCommand`. -/

namespace Sys2Proof.Machine

open Sys2Proof Sys2Proof.Laws

/-- A command assembled under the opcode that decodes to it is read back from its word (30_encoding.md R110, R111). -/
theorem DecodesTo.roundTrip {op : Byte} {f : Nat → Nat → Nat → Instr} (hd : DecodesTo op f) {kw : Nat}
    {tw : TokenWidths} {a b c : Nat} (he : encode kw tw (f a b c) = .command (.make kw op a b c)) (ha : a < 2 ^ kw)
    (hb : b < 2 ^ kw) (hc : c < 2 ^ kw) :
    ∃ w, encode kw tw (f a b c) = .command w ∧ w < 2 ^ cmdBits kw ∧ decodeCommand kw w = .ok (f a b c) :=
  ⟨_, he, (EncodedForm.opcode_make kw op ha hb hc).2, hd kw a b c ha hb hc⟩

theorem command_roundTrip {kw : Nat} {tw : TokenWidths} {i : Instr} (hi : i.isToken = false)
    (hw : i.wellFormed kw tw = true) :
    ∃ w, encode kw tw i = .command w ∧ w < 2 ^ cmdBits kw ∧ decodeCommand kw w = .ok i := by
  have h0 : 0 < 2 ^ kw := Nat.two_pow_pos kw
  cases i <;> simp only [Instr.wellFormed, fits, Bool.and_eq_true, decide_eq_true_eq] at hw
  case nop => exact decodesTo_nop.roundTrip rfl h0 h0 h0
  case reset => exact decodesTo_reset.roundTrip rfl h0 h0 h0
  case clrerr => exact decodesTo_clrerr.roundTrip rfl h0 h0 h0
  case wrcfg idx val => exact decodesTo_wrcfg.roundTrip rfl hw.1 hw.2 h0
  case rdreg idx => exact decodesTo_rdreg.roundTrip rfl hw h0 h0
  case keygen e => exact decodesTo_keygen.roundTrip rfl hw h0 h0
  case keyset p q e => exact decodesTo_keyset.roundTrip rfl hw.1.1 hw.1.2 hw.2
  case keypub n e => exact decodesTo_keypub.roundTrip rfl hw.1 hw.2 h0
  case enc m => exact decodesTo_enc.roundTrip rfl hw h0 h0
  case decd c => exact decodesTo_decd.roundTrip rfl hw h0 h0
  case decc c => exact decodesTo_decc.roundTrip rfl hw h0 h0
  case encs => exact decodesTo_encs.roundTrip rfl h0 h0 h0
  case decs => exact decodesTo_decs.roundTrip rfl h0 h0 h0
  case comp => exact decodesTo_comp.roundTrip rfl h0 h0 h0
  case decomp count => exact decodesTo_decomp.roundTrip rfl hw h0 h0
  case putl sym => exact decodesTo_putl.roundTrip rfl hw h0 h0
  case putm off len => exact decodesTo_putm.roundTrip rfl hw.1 hw.2 h0
  case flush => exact decodesTo_flush.roundTrip rfl h0 h0 h0
  case protect => exact decodesTo_protect.roundTrip rfl h0 h0 h0
  case recover count => exact decodesTo_recover.roundTrip rfl hw h0 h0
  case literal => cases hi
  case matchTok => cases hi

/-- The opcode of a word that decodes is its command's (30_encoding.md R111). -/
theorem opcode_of_decodeCommand {kw : Nat} {w : CmdWord} {i : Instr} (h : decodeCommand kw w = .ok i) :
    EncodedForm.opcode i = some (CmdWord.opcode kw w) := by
  simp only [decodeCommand] at h
  split at h <;> cases h <;> exact congrArg some (BitVec.eq_of_toNat_eq (Eq.symm ‹_›))

/-- Settles O43: each opcode decodes to its command with the operands in their places (`decodesTo_of_opcode`), and a
word that decodes bears the opcode of its command, under which the command is assembled again. -/
theorem commandWordRoundTrip : Obligations.CommandWordRoundTrip := by
  refine ⟨fun kw tw i => command_roundTrip, fun kw tw w i h => ?_⟩
  obtain ⟨htok, hwf⟩ := decodeCommand_ok h tw
  obtain ⟨w1, he, -, hd⟩ := command_roundTrip htok hwf
  have hop : some (CmdWord.opcode kw w1) = some (CmdWord.opcode kw w) :=
    (opcode_of_decodeCommand hd).symm.trans (opcode_of_decodeCommand h)
  exact ⟨htok, hwf, w1, he, Option.some.inj hop⟩

end Sys2Proof.Machine
end

section
/-! The bit fields of the compressed stream (20_memory.md R72, R73; 30_encoding.md R95): what a field's bits are read as,
and that what is read are a field's bits. -/

namespace Sys2Proof.Machine

open Sys2Proof

/-- A field of `w` bits is read as the low `w` bits of what was put, below the value read before it. -/
theorem readField_fieldBits (x : Nat) (rest : List Bool) :
    ∀ w v : Nat, readField w v (fieldBits x w ++ rest) = some (v * 2 ^ w + x % 2 ^ w, rest)
  | 0, v => by simp [readField, fieldBits, Nat.mod_one]
  | w + 1, v => by
    have hvalue : (2 * v + (x.testBit w).toNat) * 2 ^ w + x % 2 ^ w = v * 2 ^ (w + 1) + x % 2 ^ (w + 1) := by
      rw [Nat.toNat_testBit, Nat.mod_pow_succ, Nat.pow_succ]
      ring
    rw [← hvalue, ← readField_fieldBits x rest w]
    rfl

theorem readField_fieldBits_of_lt {w x : Nat} (h : x < 2 ^ w) (rest : List Bool) :
    readField w 0 (fieldBits x w ++ rest) = some (x, rest) := by
  rw [readField_fieldBits, Nat.zero_mul, Nat.zero_add, Nat.mod_eq_of_lt h]

/-- A field's bits depend on the low bits of its value only. -/
theorem fieldBits_congr {x y : Nat} :
    ∀ {w : Nat}, (∀ j < w, x.testBit j = y.testBit j) → fieldBits x w = fieldBits y w
  | 0, _ => rfl
  | w + 1, h => by
    rw [fieldBits, fieldBits, h w (Nat.lt_succ_self w), fieldBits_congr fun j hj => h j (by omega)]

/-- One more bit in front of a field is the top bit of its value. -/
theorem fieldBits_bit_add {w y : Nat} (hy : y < 2 ^ w) (b : Bool) :
    fieldBits (2 ^ w * b.toNat + y) (w + 1) = b :: fieldBits y w := by
  have htop : (2 ^ w * b.toNat + y).testBit w = b := by
    rw [Nat.testBit_two_pow_mul_add _ hy, if_neg (Nat.lt_irrefl w), Nat.sub_self]
    cases b <;> rfl
  have hlow : ∀ j < w, (2 ^ w * b.toNat + y).testBit j = y.testBit j := fun j hj => by
    rw [Nat.testBit_two_pow_mul_add _ hy, if_pos hj]
  rw [fieldBits, htop, fieldBits_congr hlow]

/-- What `readField` reads are the bits of a field of that width, in front of those it leaves. -/
theorem readField_eq_some {rest : List Bool} {x : Nat} :
    ∀ {w v : Nat} {bs : List Bool}, readField w v bs = some (x, rest) →
      ∃ y < 2 ^ w, x = v * 2 ^ w + y ∧ bs = fieldBits y w ++ rest
  | 0, v, bs, h => by
    cases h
    exact ⟨0, by simp, by simp, rfl⟩
  | w + 1, v, [], h => by cases h
  | w + 1, v, b :: bs, h => by
    obtain ⟨y, hy, rfl, rfl⟩ := readField_eq_some (w := w) h
    have hbit : b.toNat ≤ 1 := Bool.toNat_le b
    refine ⟨2 ^ w * b.toNat + y, ?_, by rw [Nat.pow_succ]; ring, by rw [fieldBits_bit_add hy]; rfl⟩
    calc 2 ^ w * b.toNat + y < 2 ^ w * 1 + 2 ^ w := Nat.add_lt_add_of_le_of_lt (Nat.mul_le_mul_left _ hbit) hy
      _ = 2 ^ (w + 1) := by ring

theorem readField_zero_eq_some {rest bs : List Bool} {w x : Nat} (h : readField w 0 bs = some (x, rest)) :
    fits w x = true ∧ bs = fieldBits x w ++ rest := by
  obtain ⟨y, hy, rfl, hbs⟩ := readField_eq_some h
  rw [Nat.zero_mul, Nat.zero_add]
  exact ⟨decide_eq_true hy, hbs⟩

end Sys2Proof.Machine
end

section
/-! The obligation of the token formats: the round trip through `tokenBits` and `decodeToken`. -/

namespace Sys2Proof.Machine

open Sys2Proof Sys2Proof.Laws

section

variable {tw : TokenWidths}

/-- A Literal is read back from its bits (30_encoding.md R92). -/
theorem decodeToken_literalBits {sym : Nat} (h : sym < 2 ^ tw.symw) (rest : List Bool) :
    decodeToken tw (literalBits tw.symw sym ++ rest) = .ok (.literal sym, rest) := by
  simp only [literalBits, List.cons_append, decodeToken, readField_fieldBits_of_lt h]

/-- A Match is read back from its bits (30_encoding.md R93). -/
theorem decodeToken_matchBits {off len2 : Nat} (ho : off < 2 ^ tw.ei) (hl : len2 < 2 ^ tw.ej) (rest : List Bool) :
    decodeToken tw (matchBits tw.ei tw.ej off len2 ++ rest) = .ok (.matchTok off len2, rest) := by
  simp only [matchBits, List.cons_append, List.append_assoc, decodeToken, readField_fieldBits_of_lt ho,
    readField_fieldBits_of_lt hl]

/-- Bits that decode are a Literal's or a Match's, its fields within their widths, and the bits left. -/
theorem decodeToken_eq_ok {bits rest : List Bool} {i : Instr} (h : decodeToken tw bits = .ok (i, rest)) :
    (∃ sym, i = .literal sym ∧ fits tw.symw sym = true ∧ bits = literalBits tw.symw sym ++ rest) ∨
    ∃ off len2, i = .matchTok off len2 ∧ (fits tw.ei off = true ∧ fits tw.ej len2 = true) ∧
      bits = matchBits tw.ei tw.ej off len2 ++ rest := by
  match bits with
  | [] => cases h
  | true :: bs =>
    simp only [decodeToken] at h
    split at h
    · next hsym =>
      cases h
      obtain ⟨hfits, rfl⟩ := readField_zero_eq_some hsym
      exact .inl ⟨_, rfl, hfits, rfl⟩
    · cases h
  | false :: bs =>
    simp only [decodeToken] at h
    split at h
    · cases h
    · next hoff =>
      split at h
      · cases h
      · next hlen =>
        cases h
        obtain ⟨hfo, rfl⟩ := readField_zero_eq_some hoff
        obtain ⟨hfl, rfl⟩ := readField_zero_eq_some hlen
        exact .inr ⟨_, _, rfl, ⟨hfo, hfl⟩, by simp only [matchBits, List.cons_append, List.append_assoc]⟩

end

/-- Settles O44: a field is read as the value put in it (`readField_fieldBits`), and the bits read are those of the
field that holds the value (`readField_eq_some`). -/
theorem tokenRoundTrip : Obligations.TokenRoundTrip := by
  refine ⟨fun kw tw i rest hi hw => ?_, fun kw tw bits rest i h => ?_⟩
  · cases i with
    | literal sym => exact ⟨rfl, decodeToken_literalBits (EncodedForm.lt_of_fits hw) rest⟩
    | matchTok off len2 =>
      obtain ⟨ho, hl⟩ := Bool.and_eq_true_iff.1 hw
      exact ⟨rfl, decodeToken_matchBits (EncodedForm.lt_of_fits ho) (EncodedForm.lt_of_fits hl) rest⟩
    | _ => cases hi
  · rcases decodeToken_eq_ok h with ⟨sym, rfl, hsym, hbits⟩ | ⟨off, len2, rfl, hfits, hbits⟩
    · exact ⟨rfl, hsym, hbits⟩
    · exact ⟨rfl, Bool.and_eq_true_iff.2 hfits, hbits⟩

end Sys2Proof.Machine
end

section
/-! How every command ends (46_control_pipeline.md R280): whatever comes before it, the last thing a command does is
`complete`, with a code of 60_exceptions.md R321 and with `RES` as the command found it; but a successful RDREG pushes
its record alone. -/

namespace Sys2Proof.Machine

open Sys2Proof

/-- A state that a command has ended in by `complete`, where `RES` held the records `l` until then. -/
def CompletedFrom (l : List ResultRecord) (t : State) : Prop :=
  ∃ (code : Byte) (v : Nat) (u : State), code.toNat ≤ 7 ∧ u.res = l ∧ t = complete code v u

/-- The next state an outcome answers, if it answers one, is completed. -/
def Completes (l : List ResultRecord) (o : Outcome) : Prop := ∀ t, o = .next t → CompletedFrom l t

section

variable {s u : State} {l : List ResultRecord}

theorem completedFrom_done {v : Nat} (h : u.res = l) : CompletedFrom l (done v u) :=
  ⟨0, v, u, by decide, h, rfl⟩

theorem completedFrom_raise {e : Exc} (h : u.res = l) : CompletedFrom l (raise e u) :=
  ⟨e.kind.code, e.info, u, code_le_seven e.kind, h, rfl⟩

theorem completes_fault (f : Fault) : Completes l (.fault f) := by
  intro t h
  cases h

theorem Completes.of_completedFrom {t : State} (h : CompletedFrom l t) : Completes l (.next t) := by
  rintro _ ⟨⟩
  exact h

theorem completes_done {v : Nat} (h : u.res = l) : Completes l (.next (done v u)) :=
  .of_completedFrom (completedFrom_done h)

theorem completes_raise {e : Exc} (h : u.res = l) : Completes l (.next (raise e u)) :=
  .of_completedFrom (completedFrom_raise h)

/-! ### The end of a stream command -/

theorem completes_endStream {ports : StreamPorts} {pulled : Bool} {code : Byte} {v : Nat} (hc : code.toNat ≤ 7)
    (h : u.res = l) : Completes l (endStream ports pulled code v u) := by
  intro t ht
  cases ports with
  | sinSout =>
    obtain ⟨rest, -, rfl⟩ := endStream_sinSout_next.1 ht
    exact ⟨code, v, { u with sin := rest, sout := u.sout ++ [.eos] }, hc, h, rfl⟩
  | sinBout =>
    obtain ⟨rest, -, rfl⟩ := endStream_sinBout_next.1 ht
    exact ⟨code, v, { u with sin := rest, bout := u.bout ++ [.eos] }, hc, h, rfl⟩
  | binSout =>
    obtain ⟨rest, -, rfl⟩ := endStream_binSout_next.1 ht
    exact ⟨code, v, { u with bin := rest, sout := u.sout ++ [.eos] }, hc, h, rfl⟩

theorem completes_raiseStream {ports : StreamPorts} {pulled : Bool} {e : Exc} (h : u.res = l) :
    Completes l (raiseStream ports pulled e u) := by
  have hres : (if ports = .sinBout then clearPacker u else u).res = l := by
    split <;> exact h
  exact completes_endStream (code_le_seven e.kind) hres

theorem completes_runEncode (h : u.res = l) : Completes l (runEncode u) := by
  intro t ht
  obtain ⟨rest, -, ⟨-, rfl⟩ | ⟨e, -, rfl⟩⟩ := endEncode_next ht
  · exact completedFrom_done h
  · exact completedFrom_raise h

theorem completes_endRecover (h : u.res = l) : Completes l (endRecover u) := by
  intro t ht
  obtain ⟨rest, -, ⟨-, rfl⟩ | ⟨e, -, rfl⟩⟩ := endRecover_next ht
  · exact completedFrom_done h
  · exact completedFrom_raise h

theorem completes_runDecode (h : u.res = l) : Completes l (runDecode u) := by
  intro t ht
  rcases endDecode_next ht with ⟨-, -, hrecover⟩ | ⟨-, -, rest, -, rfl⟩ | ⟨e, -, rfl⟩
  · exact completes_endRecover (u := u.withDecoder _) h t hrecover
  · exact completedFrom_done h
  · exact completedFrom_raise h

/-! ### The commands -/

theorem completes_wrcfg (idx val : Nat) : Completes s.res (execWrcfg idx val s) := by
  simp only [execWrcfg]
  split
  · exact completes_raise rfl
  · split
    · exact completes_raise rfl
    · exact completes_done rfl

theorem completes_keygen (e : Nat) : Completes s.res (execKeygen e s) := by
  simp only [execKeygen]
  split
  · exact completes_raise rfl
  · split
    · exact completes_done rfl
    · exact completes_raise rfl
    · exact completes_fault _

theorem completes_keyset (p q e : Nat) : Completes s.res (execKeyset p q e s) := by
  simp only [execKeyset]
  split
  · exact completes_raise rfl
  · split
    · exact completes_raise rfl
    · exact completes_done rfl

theorem completes_keypub (n e : Nat) : Completes s.res (execKeypub n e s) := by
  simp only [execKeypub]
  split
  · exact completes_raise rfl
  · exact completes_done rfl

theorem completes_oneSymbol (hasKey : Bool) (f : Nat → Nat) (v : Nat) : Completes s.res (oneSymbol hasKey f v s) := by
  intro t ht
  rcases oneSymbol_next ht with ⟨-, rfl⟩ | ⟨-, -, rfl⟩ | ⟨-, -, rfl⟩
  · exact completedFrom_raise rfl
  · exact completedFrom_raise rfl
  · exact completedFrom_done rfl

theorem completes_cipherStream (hasKey : Bool) (f : Nat → Nat) : Completes s.res (cipherStream hasKey f s) := by
  simp only [cipherStream]
  split
  · exact completes_raiseStream rfl
  · split
    · exact completes_endStream (by decide) rfl
    · exact completes_raiseStream rfl
    · exact completes_fault _

theorem completes_endPut (x : Except Exc Packer) : Completes s.res (endPut s x) := by
  intro t ht
  rcases endPut_next ht with ⟨e, -, rfl⟩ | ⟨p, -, rfl⟩
  · exact completedFrom_raise rfl
  · exact completedFrom_done rfl

theorem completes_putl (sym : Nat) : Completes s.res (execPutl sym s) := by
  simp only [execPutl]
  split
  · exact completes_raise rfl
  · split
    · exact completes_raise rfl
    · exact completes_endPut _

theorem completes_putm (off len : Nat) : Completes s.res (execPutm off len s) := by
  simp only [execPutm]
  split
  · exact completes_raise rfl
  · split
    · exact completes_raise rfl
    · split
      · exact completes_raise rfl
      · exact completes_endPut _

theorem completes_comp : Completes s.res (execComp s) := by
  simp only [execComp]
  split
  · exact completes_raise rfl
  · split
    · exact completes_raiseStream rfl
    · exact completes_runEncode rfl

theorem completes_protect : Completes s.res (execProtect s) := by
  simp only [execProtect]
  split
  · exact completes_raise rfl
  · split
    · exact completes_raiseStream rfl
    · split
      · exact completes_raiseStream rfl
      · split
        · exact completes_runEncode rfl
        · exact completes_raiseStream rfl
        · exact completes_fault _

theorem completes_decomp (count : Nat) : Completes s.res (execDecomp count s) := by
  simp only [execDecomp]
  split
  · exact completes_raiseStream rfl
  · split
    · exact completes_raiseStream rfl
    · exact completes_runDecode rfl

theorem completes_recover (count : Nat) : Completes s.res (execRecover count s) := by
  simp only [execRecover]
  split
  · exact completes_raiseStream rfl
  · split
    · exact completes_raiseStream rfl
    · split
      · exact completes_raiseStream rfl
      · exact completes_runDecode rfl

/-- Every command but RDREG ends by `complete`. -/
theorem completes_exec {i : Instr} (hi : i.isToken = false) (hr : ∀ idx, i ≠ .rdreg idx) :
    Completes s.res (exec i s) := by
  cases i with
  | nop => exact completes_done rfl
  | reset => exact completes_done rfl
  | clrerr => exact completes_done rfl
  | wrcfg idx val => exact completes_wrcfg idx val
  | rdreg idx => exact absurd rfl (hr idx)
  | keygen e => exact completes_keygen e
  | keyset p q e => exact completes_keyset p q e
  | keypub n e => exact completes_keypub n e
  | enc m => exact completes_oneSymbol _ _ m
  | decd c => exact completes_oneSymbol _ _ c
  | decc c => exact completes_oneSymbol _ _ c
  | encs => exact completes_cipherStream _ _
  | decs => exact completes_cipherStream _ _
  | comp => exact completes_comp
  | decomp count => exact completes_decomp count
  | putl sym => exact completes_putl sym
  | putm off len => exact completes_putm off len
  | flush => exact completes_done rfl
  | protect => exact completes_protect
  | recover count => exact completes_recover count
  | literal sym => cases hi
  | matchTok off len2 => cases hi

/-- RDREG refuses an index with IllegalCommand(5), or pushes a register's value and leaves `STATUS` alone
(46_control_pipeline.md R285). -/
theorem execRdreg_next {idx : Nat} {t : State} (h : execRdreg idx s = .next t) :
    t = raise { kind := .illegalCommand, info := 5 } s ∨ ∃ v, s.readReg idx = some v ∧ t = pushResult 0 v s := by
  simp only [execRdreg] at h
  split at h
  · exact .inl (by cases h; rfl)
  · next v hv => exact .inr ⟨v, hv, by cases h; rfl⟩

/-- What a command leaves: a completed state, or the record of a successful RDREG. -/
theorem exec_next {i : Instr} {t : State} (hi : i.isToken = false) (h : exec i s = .next t) :
    CompletedFrom s.res t ∨ ∃ idx v, i = .rdreg idx ∧ s.readReg idx = some v ∧ t = pushResult 0 v s := by
  by_cases hr : ∃ idx, i = .rdreg idx
  · obtain ⟨idx, rfl⟩ := hr
    rcases execRdreg_next h with rfl | ⟨v, hv, rfl⟩
    · exact .inl (completedFrom_raise rfl)
    · exact .inr ⟨idx, v, rfl, hv, rfl⟩
  · exact .inl (completes_exec hi (fun idx hidx => hr ⟨idx, hidx⟩) t h)

end

/-- Settles O50: every command ends by `complete` (`completes_exec`), which pushes one record and sets `LASTERR` to its
code; a successful RDREG ends by `pushResult`, which leaves `STATUS` alone. -/
theorem oneResultRecordPerCommand : Obligations.OneResultRecordPerCommand := by
  intro i s t hi h
  rcases exec_next hi h with ⟨code, v, u, hcode, hres, rfl⟩ | ⟨idx, v, rfl, -, rfl⟩
  · exact ⟨{ code := code, value := v }, by rw [complete_res, hres], rfl, hcode, rfl, rfl, .inl rfl⟩
  · exact ⟨{ code := 0, value := v }, rfl, rfl, Nat.zero_le 7, rfl, rfl, .inr ⟨⟨idx, rfl⟩, rfl, rfl⟩⟩

end Sys2Proof.Machine
end

section
/-! The decimal text of a number (30_encoding.md R101), and what the reader of key text makes of it. -/

namespace Sys2Proof.Machine

open Sys2Proof

/-! ### Digits and blanks -/

theorem digitByte_toNat {d : Nat} (h : d < 10) : (digitByte d).toNat = 48 + d := by
  rw [digitByte, BitVec.toNat_ofNat, Nat.mod_eq_of_lt (by omega)]

theorem isDigit_iff {x : Byte} : isDigit x = true ↔ 48 ≤ x.toNat ∧ x.toNat ≤ 57 := by
  simp [isDigit]

theorem isDigit_digitByte {d : Nat} (h : d < 10) : isDigit (digitByte d) = true :=
  isDigit_iff.2 (by rw [digitByte_toNat h]; omega)

theorem isBlankByte_iff {x : Byte} : isBlankByte x = true ↔ x ∈ ([0x20, 0x09, 0x0A, 0x0D] : List Byte) := by
  simp [isBlankByte, or_assoc]

/-- Every blank lies below the digits, so a blank ends a number. -/
theorem isDigit_of_isBlankByte {x : Byte} (h : isBlankByte x = true) : isDigit x = false := by
  have hmem := isBlankByte_iff.1 h
  simp only [List.mem_cons, List.not_mem_nil, or_false] at hmem
  rcases hmem with rfl | rfl | rfl | rfl <;> rfl

theorem isBlankByte_of_isDigit {x : Byte} (h : isDigit x = true) : isBlankByte x = false := by
  cases hb : isBlankByte x with
  | false => rfl
  | true => rw [isDigit_of_isBlankByte hb] at h; cases h

/-! ### The writer -/

/-- The digits go in front of what is there. -/
theorem decimalLoop_eq_append (fuel v : Nat) (acc : List Byte) :
    decimalLoop fuel v acc = decimalLoop fuel v [] ++ acc := by
  induction fuel generalizing v acc with
  | zero => rfl
  | succ fuel ih =>
    simp only [decimalLoop]
    split
    · rfl
    · rw [ih, ih (acc := [_]), List.append_assoc, List.singleton_append]

/-- The text begins with a digit, which is 0 only for the number 0. -/
theorem decimalLoop_head {fuel v : Nat} (h : v < fuel) (acc : List Byte) :
    ∃ d ds, decimalLoop fuel v acc = digitByte d :: ds ∧ d < 10 ∧ (d = 0 → v = 0) := by
  induction fuel generalizing v acc with
  | zero => omega
  | succ fuel ih =>
    simp only [decimalLoop]
    split
    · next hv => exact ⟨v, acc, rfl, hv, id⟩
    · obtain ⟨d, ds, heq, hd, hzero⟩ := ih (v := v / 10) (by omega) (digitByte (v % 10) :: acc)
      exact ⟨d, ds, heq, hd, fun h0 => by have := hzero h0; omega⟩

theorem isDigit_of_mem_decimalLoop {x : Byte} (fuel v : Nat) {acc : List Byte} (hacc : ∀ y ∈ acc, isDigit y = true)
    (hx : x ∈ decimalLoop fuel v acc) : isDigit x = true := by
  induction fuel generalizing v acc with
  | zero => exact hacc x hx
  | succ fuel ih =>
    simp only [decimalLoop] at hx
    split at hx
    · next hv => exact (List.forall_mem_cons (p := (isDigit · = true))).2 ⟨isDigit_digitByte hv, hacc⟩ x hx
    · exact ih _ (List.forall_mem_cons.2 ⟨isDigit_digitByte (Nat.mod_lt v (by decide)), hacc⟩) hx

theorem decimal_head (v : Nat) : ∃ d ds, decimal v = digitByte d :: ds ∧ d < 10 ∧ (d = 0 → v = 0) :=
  decimalLoop_head (Nat.lt_succ_self v) []

theorem isDigit_of_mem_decimal {x : Byte} {v : Nat} (h : x ∈ decimal v) : isDigit x = true :=
  isDigit_of_mem_decimalLoop (v + 1) v (List.forall_mem_nil _) h

/-- No leading zero (30_encoding.md R101). -/
theorem eq_zero_of_decimal_head {v : Nat} (h : (decimal v).head? = some 0x30) : v = 0 := by
  obtain ⟨d, ds, heq, hd, hzero⟩ := decimal_head v
  rw [heq, List.head?_cons, Option.some.injEq] at h
  have hnat : 48 + d = 48 := by rw [← digitByte_toNat hd, h]; rfl
  exact hzero (by omega)

/-! ### The reader -/

theorem readDigits_digitByte {d : Nat} (h : d < 10) (v : Nat) (bs : List Byte) :
    readDigits v (digitByte d :: bs) = readDigits (10 * v + d) bs := by
  rw [readDigits, if_pos (isDigit_digitByte h), digitByte_toNat h, Nat.add_sub_cancel_left]

theorem readDigits_of_not_digit {b : Byte} (h : isDigit b = false) (v : Nat) (bs : List Byte) :
    readDigits v (b :: bs) = (v, b :: bs) := by
  rw [readDigits, h]
  rfl

/-- The digits of `v` are read as `v`: all but the last as `v / 10`, then the last. -/
theorem readDigits_decimalLoop {fuel v : Nat} (h : v < fuel) (acc : List Byte) :
    readDigits 0 (decimalLoop fuel v acc) = readDigits v acc := by
  induction fuel generalizing v acc with
  | zero => omega
  | succ fuel ih =>
    simp only [decimalLoop]
    split
    · next hv => rw [readDigits_digitByte hv, Nat.mul_zero, Nat.zero_add]
    · rw [ih (by omega), readDigits_digitByte (Nat.mod_lt v (by decide)), Nat.div_add_mod]

/-- A number in decimal in front of a byte that is no digit. -/
theorem readNumber_decimal (v : Nat) {b : Byte} (hb : isDigit b = false) (bs : List Byte) :
    readNumber (decimal v ++ b :: bs) = some (v, b :: bs) := by
  have hread : readDigits 0 (decimal v ++ b :: bs) = (v, b :: bs) := by
    rw [decimal, ← decimalLoop_eq_append, readDigits_decimalLoop (Nat.lt_succ_self v), readDigits_of_not_digit hb]
  obtain ⟨d, ds, heq, hd, -⟩ := decimal_head v
  rw [heq, List.cons_append] at hread ⊢
  rw [readNumber, if_pos (isDigit_digitByte hd), hread]

theorem skipBlanks_append {sep : List Byte} (hsep : ∀ x ∈ sep, isBlankByte x = true) (bs : List Byte) :
    skipBlanks (sep ++ bs) = skipBlanks bs := by
  induction sep with
  | nil => rfl
  | cons x sep ih =>
    obtain ⟨hx, hrest⟩ := List.forall_mem_cons.1 hsep
    rw [List.cons_append, skipBlanks, if_pos hx, ih hrest]

theorem skipBlanks_decimal (v : Nat) (bs : List Byte) : skipBlanks (decimal v ++ bs) = decimal v ++ bs := by
  obtain ⟨d, ds, heq, hd, -⟩ := decimal_head v
  rw [heq, List.cons_append, skipBlanks, isBlankByte_of_isDigit (isDigit_digitByte hd)]
  rfl

/-- Two numbers with blanks between them and a line feed after (30_encoding.md R101). -/
theorem readKeyText_decimal (a b : Nat) {sep : List Byte} (hne : sep ≠ []) (hsep : ∀ x ∈ sep, isBlankByte x = true) :
    readKeyText (decimal a ++ sep ++ decimal b ++ [0x0A]) = some (a, b) := by
  obtain ⟨x, seps, rfl⟩ := List.exists_cons_of_ne_nil hne
  have hx : isBlankByte x = true := hsep x List.mem_cons_self
  have hfirst : readNumber (decimal a ++ x :: (seps ++ (decimal b ++ [0x0A]))) =
      some (a, x :: (seps ++ (decimal b ++ [0x0A]))) := readNumber_decimal a (isDigit_of_isBlankByte hx) _
  have hskip : skipBlanks (x :: (seps ++ (decimal b ++ [0x0A]))) = decimal b ++ [0x0A] := by
    rw [← List.cons_append, skipBlanks_append hsep, skipBlanks_decimal]
  have hsecond : readNumber (decimal b ++ [0x0A]) = some (b, [0x0A]) := readNumber_decimal b rfl []
  have hend : skipBlanks [0x0A] = [] := rfl
  rw [List.append_assoc, List.append_assoc, List.cons_append, readKeyText]
  simp only [hfirst, hx, hskip, hsecond, hend, if_true]

/-- Settles O60: the digits written are read as the number (`readDigits_decimalLoop`), a blank ends it, and the first
digit is 0 only for 0 (`decimalLoop_head`). -/
theorem keyTextRoundTrip : Obligations.KeyTextRoundTrip := by
  refine ⟨fun r => ⟨?_, rfl⟩, fun a b sep hne hsep => ?_, rfl, fun v => eq_zero_of_decimal_head,
    fun v x hx => isDigit_iff.1 (isDigit_of_mem_decimal hx)⟩
  · exact readKeyText_decimal r.fst r.snd (sep := [0x20]) nofun fun x hx => by rw [List.mem_singleton.1 hx]; rfl
  · exact readKeyText_decimal a b hne fun x hx => isBlankByte_iff.2 (hsep x hx)

end Sys2Proof.Machine
end

section
/-! The obligation of the sample words. -/

namespace Sys2Proof.Machine

open Sys2Proof

/-- Settles O46: the decoder evaluated on each word and each bit string. -/
theorem sampleWordsDecode : Obligations.SampleWordsDecode :=
  ⟨rfl, rfl, rfl, rfl, rfl, rfl, rfl, rfl, rfl, rfl, rfl⟩

end Sys2Proof.Machine
end

section
/-! What the arithmetic of the cipher computes (41_cipher.md R162, R165, R166): `modexp` the reduced power, `egcd` the
greatest common divisor with a coefficient, `modinv` the inverse in range. -/

namespace Sys2Proof.Machine

open Sys2Proof

/-- Square and multiply: as many turns as the exponent has suffice, since every turn halves it. -/
theorem powLoop_modEq {m : Nat} :
    ∀ (fuel b k acc : Nat), k ≤ fuel → powLoop m fuel b k acc ≡ acc * b ^ k [MOD m]
  | 0, b, k, acc, hk => by
    rw [Nat.le_zero.1 hk, pow_zero, mul_one]
    rfl
  | fuel + 1, b, k, acc, hk => by
    simp only [powLoop]
    split
    · next h0 => rw [h0, pow_zero, mul_one]
    · next h0 =>
      have hsq : modmul b b m ^ (k / 2) ≡ b ^ (2 * (k / 2)) [MOD m] := by
        rw [pow_mul, pow_two]
        exact (Nat.mod_modEq _ _).pow _
      have hhalf : k / 2 ≤ fuel := by omega
      split
      · next hodd =>
        calc powLoop m fuel (modmul b b m) (k / 2) (modmul acc b m)
            ≡ modmul acc b m * modmul b b m ^ (k / 2) [MOD m] := powLoop_modEq fuel _ _ _ hhalf
          _ ≡ acc * b * b ^ (2 * (k / 2)) [MOD m] := (Nat.mod_modEq _ _).mul hsq
          _ = acc * b ^ (2 * (k / 2) + 1) := by ring
          _ = acc * b ^ k := by rw [show 2 * (k / 2) + 1 = k by omega]
      · next heven =>
        calc powLoop m fuel (modmul b b m) (k / 2) acc
            ≡ acc * modmul b b m ^ (k / 2) [MOD m] := powLoop_modEq fuel _ _ _ hhalf
          _ ≡ acc * b ^ (2 * (k / 2)) [MOD m] := hsq.mul_left _
          _ = acc * b ^ k := by rw [show 2 * (k / 2) = k by omega]

/-- `modexp` is the power, reduced (41_cipher.md R162). -/
theorem modexp_eq {m : Nat} (hm : 0 < m) (b k : Nat) : modexp b k m = b ^ k % m := by
  have hpow : modexp b k m ≡ b ^ k [MOD m] :=
    calc modexp b k m ≡ 1 % m * (b % m) ^ k [MOD m] := powLoop_modEq k _ k _ (Nat.le_refl k)
      _ ≡ 1 * b ^ k [MOD m] := (Nat.mod_modEq _ _).mul ((Nat.mod_modEq _ _).pow k)
      _ = b ^ k := one_mul _
  rw [← hpow, Nat.mod_eq_of_lt (modexp_lt hm b k)]

/-- The loop of `egcd` ends at the greatest common divisor, since every turn keeps it. -/
theorem egcdLoop_fst : ∀ (fuel r0 r1 : Nat) (s0 s1 : Int), r1 < fuel →
    (egcdLoop fuel r0 r1 s0 s1).1 = Nat.gcd r0 r1
  | fuel + 1, r0, r1, s0, s1, hr => by
    simp only [egcdLoop, ← Nat.mod_eq_sub_div_mul]
    split
    · next h0 => rw [h0, Nat.gcd_zero_right]
    · next h0 =>
      have hlt : r0 % r1 < r1 := Nat.mod_lt _ (Nat.pos_of_ne_zero h0)
      rw [egcdLoop_fst fuel _ _ _ _ (by omega), Nat.gcd_comm, ← Nat.gcd_rec, Nat.gcd_comm]

/-- Every turn of `egcd` keeps each remainder congruent to `a` times its coefficient. -/
theorem egcdLoop_modEq {a m : Int} : ∀ (fuel r0 r1 : Nat) (s0 s1 : Int),
    a * s0 ≡ r0 [ZMOD m] → a * s1 ≡ r1 [ZMOD m] →
    a * (egcdLoop fuel r0 r1 s0 s1).2 ≡ (egcdLoop fuel r0 r1 s0 s1).1 [ZMOD m]
  | 0, _, _, _, _, h0, _ => h0
  | fuel + 1, r0, r1, s0, s1, h0, h1 => by
    simp only [egcdLoop]
    split
    · exact h0
    · refine egcdLoop_modEq fuel _ _ _ _ h1 ?_
      rw [Nat.cast_sub (Nat.div_mul_le_self r0 r1), Nat.cast_mul, mul_sub, mul_left_comm]
      exact h0.sub (h1.mul_left _)

/-- `egcd` answers the greatest common divisor (41_cipher.md R165). -/
theorem egcd_fst (a m : Nat) : (egcd a m).1 = Nat.gcd a m :=
  egcdLoop_fst (m + 1) a m 1 0 (Nat.lt_succ_self m)

/-- The coefficient of `egcd` (41_cipher.md R165). -/
theorem egcd_modEq (a m : Nat) : (a : Int) * (egcd a m).2 ≡ (Nat.gcd a m : Int) [ZMOD m] := by
  rw [← egcd_fst a m]
  exact egcdLoop_modEq (m + 1) a m 1 0 (by rw [mul_one]) (by simp [Int.ModEq])

/-- As an integer, `modinv` is the coefficient or the coefficient and one modulus (41_cipher.md R166). -/
theorem modinv_modEq_egcd {m : Nat} (hm : 1 ≤ m) (a : Nat) : (modinv a m : Int) ≡ (egcd a m).2 [ZMOD m] := by
  have hle : (egcd a m).2.natAbs ≤ m := egcdLoop_coeff_le (m + 1) a m 1 0 hm (Nat.zero_le _) (by simp)
  simp only [modinv]
  split
  · rw [Int.toNat_of_nonneg (by omega)]
    exact Int.add_modEq_right
  · rw [Int.toNat_of_nonneg (by omega)]

theorem mul_modinv_modEq {m : Nat} (hm : 1 ≤ m) (a : Nat) : a * modinv a m ≡ Nat.gcd a m [MOD m] := by
  rw [← Int.natCast_modEq_iff, Nat.cast_mul]
  exact ((modinv_modEq_egcd hm a).mul_left _).trans (egcd_modEq a m)

/-- `modinv` is the inverse of a number prime to the modulus, between 1 and the modulus less 1 (41_cipher.md R166): it
is at most the modulus (`modinv_le`), and neither 0 nor the modulus has a product that leaves 1. -/
theorem modinv_inverse {a m : Nat} (hm : 2 ≤ m) (h : Nat.gcd a m = 1) :
    1 ≤ modinv a m ∧ modinv a m < m ∧ a * modinv a m % m = 1 := by
  have hle : modinv a m ≤ m := modinv_le (by omega) a
  have hmul : a * modinv a m % m = 1 := by
    rw [mul_modinv_modEq (by omega) a, h, Nat.mod_eq_of_lt hm]
  refine ⟨Nat.pos_of_ne_zero fun h0 => ?_, lt_of_le_of_ne hle fun heq => ?_, hmul⟩
  · simp [h0] at hmul
  · simp [heq] at hmul

end Sys2Proof.Machine
end

section
/-! Both decrypts invert the public power under the keypair invariant (40_keygen.md R145, 42_crt.md R197): exponents
that agree modulo `r - 1` give powers that agree modulo the prime `r`, and the two primes together give the modulus. -/

namespace Sys2Proof.Machine

open Sys2Proof

/-- Fermat's little theorem for exponents that are not 0, whether or not the prime divides the base. -/
theorem pow_modEq_pow_of_modEq_sub_one {r a b : Nat} (hr : r.Prime) (ha : a ≠ 0) (hb : b ≠ 0)
    (h : a ≡ b [MOD r - 1]) (c : Nat) : c ^ a ≡ c ^ b [MOD r] := by
  have : Fact r.Prime := ⟨hr⟩
  rw [← ZMod.natCast_eq_natCast_iff, Nat.cast_pow, Nat.cast_pow]
  by_cases hc : (c : ZMod r) = 0
  · rw [hc, zero_pow ha, zero_pow hb]
  · have hone : (c : ZMod r) ^ (r - 1) = 1 := ZMod.pow_card_sub_one_eq_one hc
    rw [pow_eq_pow_mod a hone, h, ← pow_eq_pow_mod b hone]

section

variable {r phi e d : Nat}

/-- One prime's share of R145: `e` and `d` inverse to each other modulo a multiple of `r - 1`. -/
theorem pow_mul_modEq_self (hr : r.Prime) (hphi : r - 1 ∣ phi) (hed : e * d % phi = 1) (m : Nat) :
    m ^ (e * d) ≡ m [MOD r] := by
  have hone : e * d ≡ 1 [MOD phi] := by
    rw [← hed]
    exact (Nat.mod_modEq _ _).symm
  have hne : e * d ≠ 0 := fun h0 => by simp [h0] at hed
  simpa using pow_modEq_pow_of_modEq_sub_one hr hne one_ne_zero (hone.of_dvd hphi) m

/-- The decrypting exponent may be reduced modulo `r - 1` (42_crt.md R191): it does not vanish there, being
invertible. -/
theorem pow_mod_sub_one_modEq (hr : r.Prime) (h3 : 3 ≤ r) (hphi : r - 1 ∣ phi) (hed : e * d % phi = 1) (c : Nat) :
    c ^ (d % (r - 1)) ≡ c ^ d [MOD r] := by
  have hmod : d % (r - 1) ≠ 0 := fun h0 => by
    have hdvd : r - 1 ∣ e * d % phi := (Nat.dvd_mod_iff hphi).2 ((Nat.dvd_of_mod_eq_zero h0).mul_left e)
    rw [hed, Nat.dvd_one] at hdvd
    omega
  have hd : d ≠ 0 := fun h0 => hmod (by rw [h0, Nat.zero_mod])
  exact pow_modEq_pow_of_modEq_sub_one hr hmod hd (Nat.mod_modEq _ _) c

end

/-- `crtDiff` is the difference modulo the prime (42_crt.md R193). -/
theorem add_crtDiff_modEq {p : Nat} (hp : 0 < p) (m1 m2 : Nat) : m2 + crtDiff m1 m2 p ≡ m1 [MOD p] := by
  rw [← Int.natCast_modEq_iff, Nat.cast_add, crtDiff, Int.toNat_of_nonneg (Int.emod_nonneg _ (by omega))]
  simpa using (Int.mod_modEq ((m1 : Int) - m2) p).add_left (m2 : Int)

namespace KeyFile.Keypair

variable {k : KeyFile} (h : k.Keypair)

include h

/-- Two numbers that agree modulo each prime agree modulo the modulus. -/
theorem modEq_kn {a b : Nat} (hp : a ≡ b [MOD k.kp]) (hq : a ≡ b [MOD k.kq]) : a ≡ b [MOD k.kn] := by
  obtain ⟨hpp, hqp, hne, -, -, hn, -⟩ := h
  rw [hn]
  exact (Nat.modEq_and_modEq_iff_modEq_mul ((Nat.coprime_primes hpp hqp).2 hne)).1 ⟨hp, hq⟩

theorem kn_pos : 0 < k.kn := by
  obtain ⟨hpp, hqp, -, -, -, hn, -⟩ := h
  exact hn ▸ Nat.mul_pos hpp.pos hqp.pos

theorem pow_ke_mul_kd_modEq (m : Nat) : m ^ (k.ke * k.kd) ≡ m [MOD k.kn] := by
  have ⟨hpp, hqp, _, _, _, _, hphi, _, _, _, hed, _⟩ := h
  exact h.modEq_kn (pow_mul_modEq_self hpp (hphi ▸ Nat.dvd_mul_right _ _) hed m)
    (pow_mul_modEq_self hqp (hphi ▸ Nat.dvd_mul_left _ _) hed m)

/-- The direct decrypt inverts the public power (40_keygen.md R145). -/
theorem decryptDirect_encrypt {m : Nat} (hm : m < k.kn) : k.decryptDirect (k.encrypt m) = m := by
  have hpow : (m ^ k.ke % k.kn) ^ k.kd ≡ m [MOD k.kn] :=
    calc (m ^ k.ke % k.kn) ^ k.kd ≡ (m ^ k.ke) ^ k.kd [MOD k.kn] := (Nat.mod_modEq _ _).pow _
      _ = m ^ (k.ke * k.kd) := (pow_mul _ _ _).symm
      _ ≡ m [MOD k.kn] := h.pow_ke_mul_kd_modEq m
  rw [encrypt, decryptDirect, modexp_eq h.kn_pos, modexp_eq h.kn_pos, hpow, Nat.mod_eq_of_lt hm]

/-- Modulo `KP` the recombination is the first small power: `KQ` and `KQINV` cancel, and the difference is made good. -/
theorem crt_modEq_kp (c : Nat) : k.crt c ≡ c ^ k.kd [MOD k.kp] := by
  obtain ⟨hpp, -, -, h3, -, -, hphi, -, -, -, hed, hdp, -, -, -, hinv⟩ := h
  have hone : k.kq * k.kqinv ≡ 1 [MOD k.kp] := by rw [Nat.ModEq, hinv, Nat.mod_eq_of_lt hpp.one_lt]
  simp only [crt, modmul]
  generalize modexp c k.kdq k.kq = m2
  generalize ht : crtDiff (modexp c k.kdp k.kp) m2 k.kp = t
  calc m2 + k.kqinv * t % k.kp * k.kq ≡ m2 + k.kqinv * t * k.kq [MOD k.kp] :=
        ((Nat.mod_modEq _ _).mul_right _).add_left _
    _ = m2 + k.kq * k.kqinv * t := by ring
    _ ≡ m2 + 1 * t [MOD k.kp] := (hone.mul_right t).add_left m2
    _ = m2 + t := by rw [one_mul]
    _ ≡ modexp c k.kdp k.kp [MOD k.kp] := ht ▸ add_crtDiff_modEq hpp.pos _ m2
    _ = c ^ k.kdp % k.kp := modexp_eq hpp.pos c _
    _ ≡ c ^ k.kdp [MOD k.kp] := Nat.mod_modEq _ _
    _ ≡ c ^ k.kd [MOD k.kp] := hdp ▸ pow_mod_sub_one_modEq hpp h3 (hphi ▸ Nat.dvd_mul_right _ _) hed c

/-- Modulo `KQ` it is the second small power. -/
theorem crt_modEq_kq (c : Nat) : k.crt c ≡ c ^ k.kd [MOD k.kq] := by
  obtain ⟨-, hqp, -, -, h3, -, hphi, -, -, -, hed, -, hdq, -⟩ := h
  simp only [crt]
  calc _ ≡ modexp c k.kdq k.kq [MOD k.kq] := Nat.add_mul_mod_self_right _ _ _
    _ = c ^ k.kdq % k.kq := modexp_eq hqp.pos c _
    _ ≡ c ^ k.kdq [MOD k.kq] := Nat.mod_modEq _ _
    _ ≡ c ^ k.kd [MOD k.kq] := hdq ▸ pow_mod_sub_one_modEq hqp h3 (hphi ▸ Nat.dvd_mul_left _ _) hed c

/-- The recombination is the direct path's value (42_crt.md R197). -/
theorem crt_eq_decryptDirect (c : Nat) : k.crt c = k.decryptDirect c := by
  rw [decryptDirect, modexp_eq h.kn_pos, ← h.modEq_kn (h.crt_modEq_kp c) (h.crt_modEq_kq c),
    Nat.mod_eq_of_lt (crt_lt_kn h c)]

end KeyFile.Keypair

end Sys2Proof.Machine
end

section
/-! The key commands: each outcome of KEYGEN and KEYSET by its cause (40_keygen.md R136, R140), and the key file of an
accepted pair (R133, R134). -/

namespace Sys2Proof.Machine

open Sys2Proof

/-- The key file derived from an accepted pair satisfies the keypair invariant (10_state.md R22). -/
theorem derive_keypair {c : CfgRegs} {P : Params} {p q e : Nat} (hc : c.keygenOk P = true)
    (ha : AcceptedPair c p q e) : (derive p q e).Keypair := by
  obtain ⟨h3p, h3q, -⟩ := accepted_bounds hc (refusedBy_eq_none_iff.2 ha)
  obtain ⟨-, -, hp, hq, hne, hgcd⟩ := ha
  have hphi : totient p q = (p - 1) * (q - 1) := totient_eq hp.two_le hq.two_le
  have hphi2 : 2 ≤ totient p q := by
    have := Nat.mul_le_mul (show 2 ≤ p - 1 by omega) (show 2 ≤ q - 1 by omega)
    omega
  have hgcdq : Nat.gcd (q % p) p = 1 := by
    rw [← Nat.gcd_rec]
    exact (Nat.coprime_primes hp hq).2 hne
  rw [← hphi] at hgcd
  obtain ⟨hd1, hdlt, hed⟩ := modinv_inverse hphi2 hgcd
  obtain ⟨hi1, hilt, hqi⟩ := modinv_inverse hp.two_le hgcdq
  rw [Nat.mod_mul_mod] at hqi
  exact ⟨hp, hq, hne, h3p, h3q, rfl, hphi, hgcd, hd1, hdlt, hed, rfl, rfl, hi1, hilt, hqi⟩

/-- The test that refuses a pair is the first that fails (40_keygen.md R131). -/
theorem refusedBy_of_failsTest {c : CfgRegs} {p q e : Nat} :
    ∀ {t : Nat}, FailsTest c p q e t → refusedBy c p q e = some t
  | 1, hrange => if_pos hrange
  | 2, ⟨hrange, hprime⟩ => by
    rw [refusedBy, if_neg (not_not_intro hrange), if_pos (mt (and_congr isPrime_iff isPrime_iff).1 hprime)]
  | 3, ⟨hrange, hp, heq⟩ => by
    subst heq
    have hprime := isPrime_iff.2 hp
    rw [refusedBy, if_neg (not_not_intro ⟨hrange, hrange⟩), if_neg (not_not_intro ⟨hprime, hprime⟩), if_pos rfl]
  | 4, ⟨hrange, hprime, hne, hgcd⟩ => by
    rw [refusedBy, if_neg (not_not_intro hrange),
      if_neg (not_not_intro ((and_congr isPrime_iff isPrime_iff).2 hprime)), if_neg hne, totient, if_pos hgcd]

section

variable {c : CfgRegs} {e : Nat}

theorem refusedBy_of_not_accepted {p q : Nat} (h : ¬ AcceptedPair c p q e) : ∃ t, refusedBy c p q e = some t :=
  Option.ne_none_iff_exists'.1 (mt refusedBy_eq_none_iff.1 h)

/-- A rejected pair of draws costs one unit of budget (40_keygen.md R136). -/
theorem attempts_succ_of_not_accepted {v w : Nat} (h : ¬ AcceptedPair c (drawn c v) (drawn c w) e) (b : Nat)
    (rest : List Nat) : attempts c e (b + 1) (v :: w :: rest) = attempts c e b rest := by
  obtain ⟨t, ht⟩ : ∃ t, refusedBy c (candidate c v) (candidate c w) e = some t := refusedBy_of_not_accepted h
  simp only [attempts, ht]

/-- With no budget left it ends the attempts. -/
theorem attempts_zero_of_not_accepted {v w : Nat} (h : ¬ AcceptedPair c (drawn c v) (drawn c w) e)
    (rest : List Nat) : attempts c e 0 (v :: w :: rest) = .spent rest := by
  obtain ⟨t, ht⟩ : ∃ t, refusedBy c (candidate c v) (candidate c w) e = some t := refusedBy_of_not_accepted h
  simp only [attempts, ht]

theorem attempts_of_accepted {v w : Nat} (h : AcceptedPair c (drawn c v) (drawn c w) e) (budget : Nat)
    (rest : List Nat) : attempts c e budget (v :: w :: rest) = .accepted (drawn c v) (drawn c w) rest budget := by
  have hr : refusedBy c (candidate c v) (candidate c w) e = none := refusedBy_eq_none_iff.2 h
  unfold attempts
  rw [hr]
  rfl

/-- Rejected pairs within the budget are passed over. -/
theorem attempts_append_of_rejected {rest : List Nat} :
    ∀ {rej : List Nat} {k budget : Nat}, rej.length = 2 * k → k ≤ budget → AllRejected c e rej →
      attempts c e budget (rej ++ rest) = attempts c e (budget - k) rest
  | [], k, budget, hlen, _, _ => by
    obtain rfl : k = 0 := by simpa using hlen
    rfl
  | [_], _, _, hlen, _, _ => by simp only [List.length_singleton] at hlen; omega
  | v :: w :: rej, k, budget, hlen, hk, ⟨hpair, hrest⟩ => by
    simp only [List.length_cons] at hlen
    obtain ⟨k, rfl⟩ := Nat.exists_eq_add_of_le' (show 1 ≤ k by omega)
    obtain ⟨b, rfl⟩ := Nat.exists_eq_add_of_le' (show 1 ≤ budget by omega)
    rw [List.cons_append, List.cons_append, attempts_succ_of_not_accepted hpair, Nat.add_sub_add_right]
    exact attempts_append_of_rejected (by omega) (by omega) hrest

/-- One rejected pair more than the budget admits ends the attempts. -/
theorem attempts_spent_of_rejected {budget : Nat} {rej rest : List Nat} (hlen : rej.length = 2 * (budget + 1))
    (hrej : AllRejected c e rej) : attempts c e budget (rej ++ rest) = .spent rest := by
  induction budget generalizing rej with
  | zero =>
    obtain ⟨v, w, rfl⟩ := List.length_eq_two.1 hlen
    exact attempts_zero_of_not_accepted hrej.1 rest
  | succ b ih =>
    match rej, hlen, hrej with
    | v :: w :: rej, hlen, ⟨hpair, hrest⟩ =>
      simp only [List.length_cons] at hlen
      rw [List.cons_append, List.cons_append, attempts_succ_of_not_accepted hpair]
      exact ih (by omega) hrest

end

section

variable {s t : State} {e : Nat}

/-- A bad configuration is refused before anything else (40_keygen.md R136, R140). -/
theorem execKeygen_of_badConfig (h : s.cfg.keygenOk s.params = false) :
    execKeygen e s = .next (raise { kind := .badConfig, info := 0 } s) := if_pos h

theorem execKeyset_of_badConfig {p q : Nat} (h : s.cfg.keygenOk s.params = false) :
    execKeyset p q e s = .next (raise { kind := .badConfig, info := 0 } s) := if_pos h

theorem execKeygen_of_attempts_accepted {p q b : Nat} {rest : List Nat} (h : s.cfg.keygenOk s.params = true)
    (ha : attempts s.cfg e s.cfg.retry s.rng = .accepted p q rest b) :
    execKeygen e s = .next (done (p * q) (commit p q e { s with rng := rest, budget := b })) := by
  simp only [execKeygen, h, ha, Bool.true_eq_false, if_false]

theorem execKeygen_of_attempts_spent {rest : List Nat} (h : s.cfg.keygenOk s.params = true)
    (ha : attempts s.cfg e s.cfg.retry s.rng = .spent rest) :
    execKeygen e s =
      .next (raise { kind := .keyGenerationFailed, info := 0 } { s with rng := rest, budget := 0 }) := by
  simp only [execKeygen, h, ha, Bool.true_eq_false, if_false]

theorem execKeyset_of_refused {p q n : Nat} (h : s.cfg.keygenOk s.params = true)
    (hr : refusedBy s.cfg p q e = some n) :
    execKeyset p q e s = .next (raise { kind := .keyGenerationFailed, info := n } s) := by
  simp only [execKeyset, h, hr, Bool.true_eq_false, if_false]

theorem execKeyset_of_accepted {p q : Nat} (h : s.cfg.keygenOk s.params = true) (ha : AcceptedPair s.cfg p q e) :
    execKeyset p q e s = .next (done (p * q) (commit p q e s)) := by
  simp only [execKeyset, h, refusedBy_eq_none_iff.2 ha, Bool.true_eq_false, if_false]

/-- A key command raises an error, or commits an accepted pair: `rng` and `budget` are the draws and the attempts left,
which only KEYGEN changes. -/
def KeyOutcome (s : State) (e : Nat) (t : State) : Prop :=
  ∃ (rng : List Nat) (budget : Nat),
    (∃ x, t = raise x { s with rng := rng, budget := budget }) ∨
    ∃ p q, s.cfg.keygenOk s.params = true ∧ AcceptedPair s.cfg p q e ∧
      t = done (p * q) (commit p q e { s with rng := rng, budget := budget })

theorem execKeygen_next (h : execKeygen e s = .next t) : KeyOutcome s e t := by
  simp only [execKeygen] at h
  split at h
  · cases h; exact ⟨s.rng, s.budget, .inl ⟨_, rfl⟩⟩
  · next hc =>
    split at h
    · next p q rest b ha =>
      obtain ⟨_, _, _, -, -, -, -, -, hr⟩ := attempts_accepted ha
      cases h
      exact ⟨rest, b, .inr ⟨p, q, by simpa using hc, refusedBy_eq_none_iff.1 hr, rfl⟩⟩
    · cases h; exact ⟨_, 0, .inl ⟨_, rfl⟩⟩
    · cases h

theorem execKeyset_next {p q : Nat} (h : execKeyset p q e s = .next t) : KeyOutcome s e t := by
  simp only [execKeyset] at h
  refine ⟨s.rng, s.budget, ?_⟩
  split at h
  · cases h; exact .inl ⟨_, rfl⟩
  · next hc =>
    split at h
    · cases h; exact .inl ⟨_, rfl⟩
    · next hr => cases h; exact .inr ⟨p, q, by simpa using hc, refusedBy_eq_none_iff.1 hr, rfl⟩

/-- A key command that answers code 0 leaves a keypair with both valid flags set. -/
theorem KeyOutcome.keypair_of_success (h : KeyOutcome s e t) (hcode : t.status.lasterr = 0) :
    t.keys.Keypair ∧ t.status.pubv = true ∧ t.status.prvv = true := by
  obtain ⟨rng, budget, ⟨x, rfl⟩ | ⟨p, q, hc, ha, rfl⟩⟩ := h
  · exact absurd hcode (code_ne_zero x.kind)
  · exact ⟨derive_keypair hc ha, rfl, rfl⟩

end

/-- ENC, DECD and DECC on a symbol in range, with the key they need. -/
theorem oneSymbol_of_lt {hasKey : Bool} {f : Nat → Nat} {v : Nat} {s : State} (hk : hasKey = true)
    (hv : v < s.keys.kn) : oneSymbol hasKey f v s = .next (done (f v) s) := by
  rw [oneSymbol, if_neg (by simp [hk]), if_neg (by omega)]

end Sys2Proof.Machine
end

section
/-! The obligations of the key commands. -/

namespace Sys2Proof.Machine

open Sys2Proof

/-- Settles O10: the loop tries every divisor up to the square root (`noDivisor_iff`, `isPrime_iff`), and a number with
none there is prime. -/
theorem isPrimeIsPrimality : Obligations.IsPrimeIsPrimality := by
  refine fun x => ⟨isPrime_iff.trans ?_, isPrime_iff⟩
  simp only [Nat.prime_def_le_sqrt, Nat.le_sqrt]

/-- Settles O11: the first failing test is the one reported (`refusedBy_of_failsTest`); the file an accepted pair gives
is `derive` of it (`derive_keypair`). -/
theorem keysetCommitsAnAcceptedPair : Obligations.KeysetCommitsAnAcceptedPair := by
  refine ⟨decodesTo_keyset, fun p q e s => ⟨execKeyset_of_badConfig, fun hc => ⟨fun t ht => ?_, fun ha => ?_⟩⟩⟩
  · exact execKeyset_of_refused hc (refusedBy_of_failsTest ht)
  · exact ⟨derive p q e, derive_keypair hc ha, rfl, rfl, rfl, execKeyset_of_accepted hc ha⟩

/-- Settles O12: `execKeypub` tests the modulus and loads `publicKey`. -/
theorem keypubLoadsThePublicHalf : Obligations.KeypubLoadsThePublicHalf :=
  ⟨decodesTo_keypub, fun _ _ _ => ⟨fun hlt => if_pos hlt, fun hle => if_neg (Nat.not_lt.2 hle)⟩⟩

/-- Settles O13: the rejected pairs are passed over (`attempts_append_of_rejected`) and the first accepted one is
committed, or the budget runs out with the last of them (`attempts_spent_of_rejected`). -/
theorem keygenCommitsTheFirstAcceptedPair : Obligations.KeygenCommitsTheFirstAcceptedPair := by
  refine ⟨decodesTo_keygen, fun e s => ⟨execKeygen_of_badConfig, fun hc => ⟨?_, ?_⟩⟩⟩
  · intro rej v w rest k hrng hlen hk hrej ha
    have hatt : attempts s.cfg e s.cfg.retry s.rng =
        .accepted (drawn s.cfg v) (drawn s.cfg w) rest (s.cfg.retry - k) := by
      rw [hrng, attempts_append_of_rejected hlen hk hrej, attempts_of_accepted ha]
    exact ⟨derive (drawn s.cfg v) (drawn s.cfg w) e, s.cfg.retry - k, derive_keypair hc ha, rfl, rfl, rfl,
      execKeygen_of_attempts_accepted hc hatt⟩
  · intro rej rest hrng hlen hrej
    exact ⟨0, execKeygen_of_attempts_spent hc (hrng ▸ attempts_spent_of_rejected hlen hrej)⟩

/-- Settles O20: a success leaves a keypair (`KeyOutcome.keypair_of_success`), under which the direct decrypt inverts
the public power and the recombination is the direct decrypt. -/
theorem decryptInvertsEncrypt : Obligations.DecryptInvertsEncrypt := by
  intro i s s1 hi hexec hcode m hm
  have hkey : ∃ e, KeyOutcome s e s1 := by
    rcases hi with ⟨e, rfl⟩ | ⟨p, q, e, rfl⟩
    · exact ⟨e, execKeygen_next hexec⟩
    · exact ⟨e, execKeyset_next hexec⟩
  obtain ⟨e, hout⟩ := hkey
  obtain ⟨hpair, hpub, hprv⟩ := hout.keypair_of_success hcode
  have hc : s1.keys.encrypt m < s1.keys.kn := encrypt_lt hm
  have hdirect : s1.keys.decryptDirect (s1.keys.encrypt m) = m := hpair.decryptDirect_encrypt hm
  have hcrt : s1.keys.crt (s1.keys.encrypt m) = m := (hpair.crt_eq_decryptDirect _).trans hdirect
  refine ⟨s1.keys.encrypt m, oneSymbol_of_lt hpub hm, ?_, ?_⟩
  · exact (oneSymbol_of_lt (s := done _ s1) hprv hc).trans (by rw [done_keys, hdirect])
  · exact (oneSymbol_of_lt (s := done _ s1) hprv hc).trans (by rw [done_keys, hcrt])

end Sys2Proof.Machine
end

section
/-! What the cipher commands answer: ENC, DECD and DECC on one symbol, ENCS and DECS on a complete `SIN` segment
(41_cipher.md R170 to R174, 42_crt.md R195, R198); and that an inverse in range is unique (41_cipher.md R166). -/

namespace Sys2Proof.Machine

open Sys2Proof

/-- `modinv` is the only inverse in range (41_cipher.md R166): a number prime to the modulus cancels. -/
theorem eq_modinv_of_inverse {a m x : Nat} (hm : 2 ≤ m) (h : Nat.gcd a m = 1) (hx : x < m) (hmul : a * x % m = 1) :
    x = modinv a m := by
  obtain ⟨-, hlt, hinv⟩ := modinv_inverse hm h
  have hprod : a * x ≡ a * modinv a m [MOD m] := hmul.trans hinv.symm
  have hmod : x ≡ modinv a m [MOD m] := hprod.cancel_left_of_coprime (Nat.gcd_comm a m ▸ h)
  exact hmod.eq_of_lt_of_lt hx hlt

theorem encrypt_eq_power {k : KeyFile} {m : Nat} (h : m < k.kn) : k.encrypt m = k.power m :=
  modexp_eq (Nat.zero_lt_of_lt h) m k.ke

theorem decryptDirect_eq_pow {k : KeyFile} {c : Nat} (h : c < k.kn) : k.decryptDirect c = c ^ k.kd % k.kn :=
  modexp_eq (Nat.zero_lt_of_lt h) c k.kd

theorem map_encrypt_eq_map_power {k : KeyFile} {l : List Nat} (h : ∀ m ∈ l, m < k.kn) :
    l.map k.encrypt = l.map k.power :=
  List.map_congr_left fun m hm => encrypt_eq_power (h m hm)

section

variable {hasKey : Bool} {f : Nat → Nat} {s : State}

/-- ENC, DECD and DECC by cause: no key, an operand out of range, or the value `w` the function has in range. -/
theorem oneSymbol_by_cause {v w : Nat} (hw : v < s.keys.kn → f v = w) :
    (hasKey = false → oneSymbol hasKey f v s = .next (raise { kind := .noKey, info := 0 } s)) ∧
    (hasKey = true → s.keys.kn ≤ v →
      oneSymbol hasKey f v s = .next (raise { kind := .invalidSymbol, info := v } s)) ∧
    (hasKey = true → v < s.keys.kn → oneSymbol hasKey f v s = .next (done w s)) := by
  refine ⟨fun hk => if_pos hk, fun hk hv => ?_, fun hk hv => ?_⟩
  · rw [oneSymbol, if_neg (by simp [hk]), if_pos hv]
  · rw [oneSymbol_of_lt hk hv, hw hv]

/-- The loop of ENCS and DECS passes over symbols in range, as long as the capacity admits them. -/
theorem cipherLoop_append {cap kn : Nat} {port : List (Item Nat)} :
    ∀ (l : List Nat) (cnt : Nat), (∀ v ∈ l, v < kn) → cnt + l.length ≤ cap →
      cipherLoop cap kn f cnt (l.map .sym ++ port) =
        { cipherLoop cap kn f (cnt + l.length) port with
          out := l.map f ++ (cipherLoop cap kn f (cnt + l.length) port).out }
  | [], _, _, _ => rfl
  | v :: l, cnt, hl, hcap => by
    obtain ⟨hv, hl⟩ := List.forall_mem_cons.1 hl
    have hlen : cnt + (v :: l).length = cnt + 1 + l.length := by rw [List.length_cons]; omega
    rw [hlen] at hcap ⊢
    rw [List.map_cons, List.cons_append, cipherLoop, if_neg (by omega), if_neg (by omega),
      cipherLoop_append l (cnt + 1) hl hcap]
    rfl

/-- The loop stops with the error `e` at the symbol `v` in front of the port, `cnt` symbols being done: the capacity is
tested before the range (41_cipher.md R174). -/
def StopsAt (cap kn cnt v : Nat) (e : Exc) : Prop :=
  (cnt = cap ∧ e = { kind := .bufferOverrun, info := cnt }) ∨
  (cnt ≠ cap ∧ kn ≤ v ∧ e = { kind := .invalidSymbol, info := v })

theorem cipherLoop_of_stopsAt {cap kn cnt v : Nat} {e : Exc} (h : StopsAt cap kn cnt v e) (port : List (Item Nat)) :
    cipherLoop cap kn f cnt (.sym v :: port) =
      { sin := port, out := [], cnt := cnt, pulled := false, stop := some (.raise e) } := by
  rw [cipherLoop]
  rcases h with ⟨hcap, rfl⟩ | ⟨hcap, hkn, rfl⟩
  · rw [if_pos hcap]
  · rw [if_neg hcap, if_pos hkn]

variable {l : List Nat} {rest : List (Item Nat)}

/-- Without a key nothing is read, and the input segment is discarded whole. -/
theorem cipherStream_of_noKey (hk : hasKey = false) (hsin : s.sin = segment l ++ rest) :
    cipherStream hasKey f s =
      .next (raise { kind := .noKey, info := 0 }
        { s with symcnt := 0, sin := rest, sout := s.sout ++ segment [] }) := by
  rw [cipherStream, if_pos hk]
  exact raiseStream_sinSout_next.2 ⟨rest, by simp [hsin], rfl⟩

/-- A segment of symbols in range, no more of them than the capacity admits, is mapped whole. -/
theorem cipherStream_of_all_lt (hk : hasKey = true) (hsin : s.sin = segment l ++ rest)
    (hcap : l.length ≤ s.params.ctCap) (hl : ∀ v ∈ l, v < s.keys.kn) :
    cipherStream hasKey f s =
      .next (done l.length
        { s with symcnt := l.length, sin := rest, sout := s.sout ++ segment (l.map f) }) := by
  have hloop : cipherLoop s.params.ctCap s.keys.kn f 0 s.sin =
      { sin := rest, out := l.map f, cnt := l.length, pulled := true, stop := none } := by
    rw [hsin, segment, List.append_assoc, cipherLoop_append l 0 hl (by omega)]
    simp [cipherLoop]
  simp only [cipherStream, hloop, hk, Bool.true_eq_false, if_false]
  exact endStream_sinSout_next.2 ⟨rest, rfl, by rw [segment, ← List.append_assoc]; rfl⟩

/-- A symbol the loop stops at: what was produced before it stays, and the rest of the input is discarded. -/
theorem cipherStream_of_stopsAt {l1 l2 : List Nat} {v : Nat} {e : Exc} (hk : hasKey = true)
    (hsin : s.sin = segment (l1 ++ v :: l2) ++ rest) (hcap : l1.length ≤ s.params.ctCap)
    (hl : ∀ x ∈ l1, x < s.keys.kn) (hstop : StopsAt s.params.ctCap s.keys.kn l1.length v e) :
    cipherStream hasKey f s =
      .next (raise e
        { s with symcnt := l1.length, sin := rest, sout := s.sout ++ segment (l1.map f) }) := by
  have hport : s.sin = l1.map .sym ++ .sym v :: (segment l2 ++ rest) := by simp [hsin, segment]
  have hloop : cipherLoop s.params.ctCap s.keys.kn f 0 s.sin =
      { sin := segment l2 ++ rest, out := l1.map f, cnt := l1.length, pulled := false, stop := some (.raise e) } := by
    rw [hport, cipherLoop_append l1 0 hl (by omega), Nat.zero_add, cipherLoop_of_stopsAt hstop, List.append_nil]
  simp only [cipherStream, hloop, hk, Bool.true_eq_false, if_false]
  exact raiseStream_sinSout_next.2
    ⟨rest, dropSegment_segment l2 rest, by rw [segment, ← List.append_assoc]⟩

end

end Sys2Proof.Machine
end

section
/-! The obligations of the cipher's arithmetic and of ENC, DECD and ENCS. -/

namespace Sys2Proof.Machine

open Sys2Proof

/-- Settles O14: square and multiply is the power modulo `m` (`modexp_eq`) and stays reduced (`modexp_lt`). -/
theorem modexpIsThePower : Obligations.ModexpIsThePower :=
  fun _ b k _ hm => ⟨rfl, modexp_eq hm b k, modexp_lt hm b k⟩

/-- Settles O15: the loop of `egcd` keeps the greatest common divisor and the congruence of the coefficient
(`egcd_fst`, `egcd_modEq`); the inverse is in range and unique (`modinv_inverse`, `eq_modinv_of_inverse`). -/
theorem egcdAndModinv : Obligations.EgcdAndModinv := by
  refine ⟨fun a m _ => ⟨egcd_fst a m, egcd_modEq a m⟩, fun a m hm h => ?_⟩
  obtain ⟨hpos, hlt, hinv⟩ := modinv_inverse hm h
  exact ⟨hpos, by omega, hinv, fun x _ hx hmul => eq_modinv_of_inverse hm h (by omega) hmul⟩

/-- Settles O16: the outcomes of one symbol by cause, with the public power as the value in range. -/
theorem encIsThePublicPower : Obligations.EncIsThePublicPower :=
  ⟨decodesTo_enc, fun _ _ => oneSymbol_by_cause encrypt_eq_power⟩

/-- Settles O17: the outcomes of one symbol by cause, with the power by `KD` as the value in range. -/
theorem decdIsThePrivatePower : Obligations.DecdIsThePrivatePower :=
  ⟨decodesTo_decd, fun _ _ => oneSymbol_by_cause decryptDirect_eq_pow⟩

/-- Settles O21: ENCS by cause; the symbols done are in range, so the powers pushed are the public ones. -/
theorem encsEncryptsASegment : Obligations.EncsEncryptsASegment := by
  refine ⟨decodesTo_encs, fun s l rest hsin =>
    ⟨fun hk => cipherStream_of_noKey hk hsin, fun hk hcap hl => ?_, fun l1 m l2 hk hsplit hl => ?_⟩⟩
  · rw [← map_encrypt_eq_map_power hl]
    exact cipherStream_of_all_lt hk hsin hcap hl
  · rw [← map_encrypt_eq_map_power hl]
    subst hsplit
    refine ⟨fun hlt hkn => ?_, fun hfull => ?_⟩
    · exact cipherStream_of_stopsAt hk hsin hlt.le hl (.inr ⟨hlt.ne, hkn, rfl⟩)
    · rw [← hfull]
      exact cipherStream_of_stopsAt hk hsin hfull.le hl (.inl ⟨hfull, rfl⟩)

end Sys2Proof.Machine
end

section
/-! The decrypts by the Chinese Remainder Theorem (42_crt.md R192 to R198). The key file's recombination is the rule's
for every key file, so that DECC and DECS need no keypair invariant; the invariant makes it the direct path's value. -/

namespace Sys2Proof.Machine

open Sys2Proof

/-- `modexp` is the power modulo `m` for the modulus 0 too, where nothing is reduced (`modexp_eq` has the others). A key
file of which only `PRVV` is known can hold such a modulus. -/
theorem modexp_eq_pow_mod (b k m : Nat) : modexp b k m = b ^ k % m := by
  rcases Nat.eq_zero_or_pos m with rfl | hm
  · have hpow : modexp b k 0 ≡ 1 % 0 * (b % 0) ^ k [MOD 0] := powLoop_modEq k _ k _ (Nat.le_refl k)
    rw [Nat.modEq_zero_iff.1 hpow, Nat.mod_zero, Nat.mod_zero, Nat.mod_zero, one_mul]
  · exact modexp_eq hm b k

/-- The machine recombines as 42_crt.md R195 writes it: its two exponentiations are the reduced powers. -/
theorem crt_eq_reconstruct (k : KeyFile) : k.crt = k.reconstruct := by
  funext c
  simp only [KeyFile.crt, KeyFile.reconstruct, modexp_eq_pow_mod]
  rfl

theorem execDecs_eq_cipherStream_reconstruct (s : State) :
    exec .decs s = cipherStream s.status.prvv s.keys.reconstruct s :=
  congrArg (cipherStream s.status.prvv · s) (crt_eq_reconstruct s.keys)

section

variable {hasKey : Bool} {f : Nat → Nat} {s : State} {l1 l2 : List Nat} {v : Nat} {rest : List (Item Nat)}

/-- The first symbol out of range, where the capacity would admit one more, ends the stream with InvalidSymbol. -/
theorem cipherStream_of_kn_le (hk : hasKey = true) (hsin : s.sin = segment (l1 ++ v :: l2) ++ rest)
    (hl : ∀ x ∈ l1, x < s.keys.kn) (hcap : l1.length < s.params.ctCap) (hv : s.keys.kn ≤ v) :
    cipherStream hasKey f s =
      .next (raise { kind := .invalidSymbol, info := v }
        { s with symcnt := l1.length, sin := rest, sout := s.sout ++ segment (l1.map f) }) :=
  cipherStream_of_stopsAt hk hsin hcap.le hl (.inr ⟨hcap.ne, hv, rfl⟩)

/-- A symbol beyond the capacity, whatever its value, ends the stream with BufferOverrun. -/
theorem cipherStream_of_length_eq_ctCap (hk : hasKey = true) (hsin : s.sin = segment (l1 ++ v :: l2) ++ rest)
    (hl : ∀ x ∈ l1, x < s.keys.kn) (hcap : l1.length = s.params.ctCap) :
    cipherStream hasKey f s =
      .next (raise { kind := .bufferOverrun, info := s.params.ctCap }
        { s with symcnt := s.params.ctCap, sin := rest, sout := s.sout ++ segment (l1.map f) }) := by
  rw [← hcap]
  exact cipherStream_of_stopsAt hk hsin hcap.le hl (.inl ⟨hcap, rfl⟩)

end

/-- Settles O18: the outcomes of one symbol by cause, with the rule's recombination as the value in range. -/
theorem deccIsTheReconstruction : Obligations.DeccIsTheReconstruction :=
  ⟨decodesTo_decc, fun c s => oneSymbol_by_cause fun _ => congrFun (crt_eq_reconstruct s.keys) c⟩

/-- Settles O19: the rule's recombination is the machine's (`crt_eq_reconstruct`), which stays below the modulus
(`crt_lt_kn`) and agrees with the direct power modulo each of the two primes (`KeyFile.Keypair.crt_eq_decryptDirect`). -/
theorem crtAgreesWithTheDirectPath : Obligations.CrtAgreesWithTheDirectPath := by
  intro k c hpair hc
  have hdirect : k.crt c = k.decryptDirect c := hpair.crt_eq_decryptDirect c
  rw [← crt_eq_reconstruct]
  exact ⟨crt_lt_kn hpair c, hdirect.trans (decryptDirect_eq_pow hc), hdirect⟩

/-- Settles O22: DECS by cause, as the stream of the rule's recombination. -/
theorem decsDecryptsASegment : Obligations.DecsDecryptsASegment := by
  refine ⟨decodesTo_decs, fun s l rest hsin => ?_⟩
  rw [execDecs_eq_cipherStream_reconstruct]
  refine ⟨fun hk => cipherStream_of_noKey hk hsin, fun hk hcap hl => cipherStream_of_all_lt hk hsin hcap hl, ?_⟩
  rintro l1 c l2 hk rfl hl
  exact ⟨cipherStream_of_kn_le hk hsin hl, cipherStream_of_length_eq_ctCap hk hsin hl⟩

end Sys2Proof.Machine
end

section
/-! The search (43_compressor.md R215, R216), said once for the machine's `search` over `WIN` and for the bufferless
`bestFrom`: both scan the candidates from the nearest one back and keep the first of the longest, and differ only in
the cells they compare. -/

namespace Sys2Proof.Machine

open Sys2Proof

/-! ### The length of one candidate's run -/

/-- How far the runs at `i` and at `r` of a sequence of cells agree, from position `j` on, over at most `fuel`
positions. -/
def agreeFrom (f : Nat → Option Nat) (i r : Nat) : Nat → Nat → Nat
  | 0, j => j
  | fuel + 1, j => if f (i + j) = f (r + j) then agreeFrom f i r fuel (j + 1) else j

/-- The length of the candidate `i` for the run at `r`: on how many leading positions, up to the bound `f1`, the two
agree. -/
def runAt (f : Nat → Option Nat) (r f1 i : Nat) : Nat := if f i = f r then agreeFrom f i r (f1 - 1) 1 else 0

theorem runLength_eq_agreeFrom (win : Mem) (i r : Nat) :
    ∀ fuel j : Nat, runLength win i r fuel j = agreeFrom win.read i r fuel j
  | 0, _ => rfl
  | fuel + 1, j => by rw [runLength, agreeFrom, runLength_eq_agreeFrom win i r fuel]

theorem runFrom_eq_agreeFrom (buf : List Nat) (i t : Nat) :
    ∀ fuel j : Nat, runFrom buf i t fuel j = agreeFrom (buf[·]?) i t fuel j
  | 0, _ => rfl
  | fuel + 1, j => by rw [runFrom, agreeFrom, runFrom_eq_agreeFrom buf i t fuel]

theorem le_agreeFrom_iff {f : Nat → Option Nat} {i r z : Nat} :
    ∀ {fuel j : Nat}, j ≤ z →
      (z ≤ agreeFrom f i r fuel j ↔ z ≤ j + fuel ∧ ∀ k, j ≤ k → k < z → f (i + k) = f (r + k))
  | 0, j, hj => ⟨fun h => ⟨h, fun k hk hz => absurd (Nat.lt_of_lt_of_le hz h) (Nat.not_lt.2 hk)⟩, fun h => h.1⟩
  | fuel + 1, j, hj => by
    rw [agreeFrom]
    rcases Nat.eq_or_lt_of_le hj with rfl | hlt
    · refine iff_of_true ?_ ⟨by omega, fun k hk hz => absurd hz (Nat.not_lt.2 hk)⟩
      split
      · exact Nat.le_trans (Nat.le_succ j) ((le_agreeFrom_iff (z := j + 1) (Nat.le_refl _)).2
          ⟨by omega, fun k hk hz => absurd hz (Nat.not_lt.2 hk)⟩)
      · exact Nat.le_refl j
    · split
      · next heq =>
        rw [le_agreeFrom_iff (j := j + 1) hlt]
        refine and_congr (by omega) ⟨fun h k hk hz => ?_, fun h k hk hz => h k (by omega) hz⟩
        rcases Nat.eq_or_lt_of_le hk with rfl | hk
        · exact heq
        · exact h k hk hz
      · next hne => exact iff_of_false (by omega) fun h => hne (h.2 j (Nat.le_refl j) hlt)

/-- The length of a candidate is the greatest number of leading positions, up to the bound, that agree. -/
theorem le_runAt_iff {f : Nat → Option Nat} {r f1 i z : Nat} (hf : 1 ≤ f1) :
    z ≤ runAt f r f1 i ↔ z ≤ f1 ∧ ∀ j, j < z → f (i + j) = f (r + j) := by
  rcases Nat.eq_zero_or_pos z with rfl | hz
  · simp
  · rw [runAt]
    split
    · next heq =>
      rw [le_agreeFrom_iff hz]
      refine and_congr (by omega) ⟨fun h j hj => ?_, fun h k _ hk => h k hk⟩
      rcases Nat.eq_zero_or_pos j with rfl | hj0
      · exact heq
      · exact h j hj0 hj
    · next hne => exact iff_of_false (by omega) fun h => hne (h.2 0 hz)

theorem runAt_le {f : Nat → Option Nat} {r f1 : Nat} (hf : 1 ≤ f1) (i : Nat) : runAt f r f1 i ≤ f1 :=
  ((le_runAt_iff hf).1 (Nat.le_refl _)).1

/-- A candidate's length depends on the cells compared only. -/
theorem runAt_congr {f g : Nat → Option Nat} {d r f1 i : Nat} (hf : 1 ≤ f1)
    (h : ∀ j < f1, f (i + j) = g (d + (i + j)) ∧ f (r + j) = g (d + (r + j))) :
    runAt f r f1 i = runAt g (d + r) f1 (d + i) := by
  refine Nat.le_antisymm ?_ ?_ <;> rw [le_runAt_iff hf]
  · obtain ⟨hle, hagree⟩ := (le_runAt_iff (f := f) (r := r) (i := i) hf).1 (Nat.le_refl _)
    refine ⟨hle, fun j hj => ?_⟩
    obtain ⟨hi, hr⟩ := h j (Nat.lt_of_lt_of_le hj hle)
    rw [Nat.add_assoc, Nat.add_assoc, ← hi, ← hr, hagree j hj]
  · obtain ⟨hle, hagree⟩ := (le_runAt_iff (f := g) (r := d + r) (i := d + i) hf).1 (Nat.le_refl _)
    refine ⟨hle, fun j hj => ?_⟩
    obtain ⟨hi, hr⟩ := h j (Nat.lt_of_lt_of_le hj hle)
    rw [hi, hr, ← Nat.add_assoc, ← Nat.add_assoc, hagree j hj]

/-! ### The scan over the candidates -/

/-- The scan of R215 over the candidates `lo + k - 1` down to `lo`, `a i` being the length of the candidate `i`: a
longer run replaces the best so far. -/
def scan (a : Nat → Nat) (lo : Nat) : Nat → Nat × Nat → Nat × Nat
  | 0, best => best
  | k + 1, best => if best.2 < a (lo + k) then scan a lo k (lo + k, a (lo + k)) else scan a lo k best

theorem searchFrom_eq_scan {win : Mem} {sym r : Nat} (hr : win.read r = some sym) (s f1 : Nat) :
    ∀ (k : Nat) (best : Nat × Nat), searchFrom win sym r s f1 k best = scan (runAt win.read r f1) s k best
  | 0, _ => rfl
  | k + 1, (x, y) => by
    simp only [searchFrom, scan, runAt, hr, runLength_eq_agreeFrom, searchFrom_eq_scan hr s f1 k]
    split
    · rfl
    · rw [if_neg (Nat.not_lt_zero y)]

theorem search_eq_scan {win : Mem} {sym r : Nat} (hr : win.read r = some sym) (s f1 : Nat) :
    search win sym r s f1 = scan (runAt win.read r f1) s (r - s) (0, 1) :=
  searchFrom_eq_scan hr s f1 _ _

theorem bestFrom_eq_scan (buf : List Nat) (t f1 lo : Nat) :
    ∀ (k : Nat) (best : Nat × Nat), bestFrom buf t f1 lo k best = scan (runAt (buf[·]?) t f1) lo k best
  | 0, _ => rfl
  | k + 1, best => by
    rw [bestFrom, scan, runAt, runFrom_eq_agreeFrom, bestFrom_eq_scan buf t f1 lo k,
      bestFrom_eq_scan buf t f1 lo k]
    by_cases h : buf[lo + k]? = buf[t]?
    · simp only [h, true_and, if_true]
    · simp only [h, false_and, if_false, Nat.not_lt_zero]

/-- What the scan keeps of the candidates from `lo` to `hi - 1`: nothing longer than the best so far, which is the
starting pair or the nearest candidate of its length (43_compressor.md R216). -/
structure NearestBest (a : Nat → Nat) (lo hi : Nat) (best : Nat × Nat) : Prop where
  le : ∀ i, lo ≤ i → i < hi → a i ≤ best.2
  found : best = (0, 1) ∨
    2 ≤ best.2 ∧ lo ≤ best.1 ∧ best.1 < hi ∧ a best.1 = best.2 ∧ ∀ i, best.1 < i → i < hi → a i < best.2

theorem scan_nearestBest {a : Nat → Nat} {lo hi : Nat} :
    ∀ {k : Nat} {best : Nat × Nat}, lo + k ≤ hi → 1 ≤ best.2 → NearestBest a (lo + k) hi best →
      NearestBest a lo hi (scan a lo k best)
  | 0, _, _, _, h => h
  | k + 1, best, hk, h1, h => by
    rw [scan]
    split
    · next hlt =>
      refine scan_nearestBest (by omega) (by omega) ⟨fun i hlo hhi => ?_, .inr ⟨by omega, ?_⟩⟩
      · rcases Nat.eq_or_lt_of_le hlo with rfl | hlo
        · exact Nat.le_refl _
        · exact Nat.le_trans (h.le i hlo hhi) hlt.le
      · exact ⟨Nat.le_refl _, by omega, rfl, fun i hi hhi => Nat.lt_of_le_of_lt (h.le i hi hhi) hlt⟩
    · next hle =>
      refine scan_nearestBest (by omega) h1 ⟨fun i hlo hhi => ?_, h.found.imp_right ?_⟩
      · rcases Nat.eq_or_lt_of_le hlo with rfl | hlo
        · exact Nat.not_lt.1 hle
        · exact h.le i hlo hhi
      · rintro ⟨h2, hlo, hrest⟩
        exact ⟨h2, by omega, hrest⟩

/-- The result of a whole search. -/
theorem scan_start_nearestBest (a : Nat → Nat) {lo hi : Nat} (h : lo ≤ hi) :
    NearestBest a lo hi (scan a lo (hi - lo) (0, 1)) :=
  scan_nearestBest (by omega) (Nat.le_refl 1) ⟨fun i hlo hhi => by omega, .inl rfl⟩

theorem NearestBest.one_le {a : Nat → Nat} {lo hi : Nat} {best : Nat × Nat} (h : NearestBest a lo hi best) :
    1 ≤ best.2 := by
  rcases h.found with rfl | ⟨h2, -⟩
  · exact Nat.le_refl 1
  · exact Nat.le_of_succ_le h2

/-- No result exceeds a bound on the candidates' lengths. -/
theorem NearestBest.le_bound {a : Nat → Nat} {lo hi m : Nat} {best : Nat × Nat} (h : NearestBest a lo hi best)
    (hm : 1 ≤ m) (ha : ∀ i, a i ≤ m) : best.2 ≤ m := by
  rcases h.found with rfl | ⟨-, -, -, heq, -⟩
  · exact hm
  · exact heq ▸ ha best.1

/-- Two scans over the same lengths, the second's candidates numbered from `d` on, find the same length, and the same
candidate if any. -/
theorem scan_shift {a b : Nat → Nat} {d lo : Nat} :
    ∀ {k : Nat} {x x' y : Nat}, (∀ i, i < lo + k → a i = b (d + i)) → (2 ≤ y → x' = d + x) → 1 ≤ y →
      (scan a lo k (x, y)).2 = (scan b (d + lo) k (x', y)).2 ∧
        (2 ≤ (scan a lo k (x, y)).2 → (scan b (d + lo) k (x', y)).1 = d + (scan a lo k (x, y)).1)
  | 0, _, _, _, _, hx, _ => ⟨rfl, hx⟩
  | k + 1, x, x', y, hab, hx, hy => by
    have hstep : b (d + lo + k) = a (lo + k) := by rw [Nat.add_assoc, hab _ (by omega)]
    simp only [scan, hstep]
    split
    · next hlt => exact scan_shift (fun i hi => hab i (by omega)) (fun _ => by omega) (by omega)
    · exact scan_shift (fun i hi => hab i (by omega)) hx hy

/-- Settles O26: the search is the scan of the candidates' lengths (`search_eq_scan`), which keeps the nearest of the
longest (`scan_start_nearestBest`); a length is the greatest number of positions that agree (`le_runAt_iff`). -/
theorem searchFindsTheNearestLongestMatch : Obligations.SearchFindsTheNearestLongestMatch := by
  intro win sym r s f1 hr hs hf x y
  have hbest : NearestBest (runAt win.read r f1) s r (search win sym r s f1) := by
    rw [search_eq_scan hr]
    exact scan_start_nearestBest _ hs
  rcases hbest.found with heq | ⟨h2, hlo, hhi, hlen, hnear⟩
  · have hx : x = 0 := congrArg Prod.fst heq
    have hy : y = 1 := congrArg Prod.snd heq
    refine .inl ⟨hy, hx, fun h2 i hlo hhi hi hnext => ?_⟩
    have hagree : ∀ j, j < 2 → win.read (i + j) = win.read (r + j)
      | 0, _ => hi.trans hr.symm
      | 1, _ => hnext
    have hle : 2 ≤ y := ((le_runAt_iff hf).2 ⟨h2, hagree⟩).trans (hbest.le i hlo hhi)
    omega
  · have hlen : runAt win.read r f1 x = y := hlen
    obtain ⟨hle, hagree⟩ := (le_runAt_iff hf).1 (Nat.le_of_eq hlen.symm)
    refine .inr ⟨h2, hle, hlo, hhi, hagree, ?_, fun i z hi hr' hz hz' => ?_⟩
    · by_contra hmore
      push Not at hmore
      have hlonger : y + 1 ≤ runAt win.read r f1 x := (le_runAt_iff hf).2 ⟨by omega, fun j hj => by
        rcases Nat.eq_or_lt_of_le (Nat.le_of_lt_succ hj) with rfl | hj
        · exact hmore.2
        · exact hagree j hj⟩
      omega
    · have hzi : z ≤ runAt win.read r f1 i := (le_runAt_iff hf).2 ⟨hz, hz'⟩
      exact ⟨hzi.trans (hbest.le i hi hr'), fun hxi => hzi.trans_lt (hnear i hxi hr')⟩

end Sys2Proof.Machine
end

section
/-! What the parts of the encoder do to `WIN` and the cursors, whatever the source supplies: the load of symbols
(43_compressor.md R211), the shift (R218), the emission of one token (R217). -/

namespace Sys2Proof.Machine

open Sys2Proof

/-! ### The geometry of a legal configuration (10_state.md R38) -/

/-- What `codec_cfg_ok` says of `N`, `H`, `F`, `MAXMATCH`, `P` and the length field. -/
structure CfgRegs.Geometry (c : CfgRegs) : Prop where
  f_ge : 3 ≤ c.f
  f_lt : c.f < c.n
  h_add : c.h + c.f = c.n
  maxMatch_add : c.maxMatch + 1 = c.f
  p_ge : 1 ≤ c.p
  p_le : c.p + 2 ≤ c.f
  f_le : c.f ≤ 2 ^ c.ej.toNat + 2

theorem CfgRegs.geometry_of_codecOk {c : CfgRegs} {P : Params} (hc : c.codecOk P = true) : c.Geometry := by
  simp only [CfgRegs.codecOk, Bool.and_eq_true, decide_eq_true_eq] at hc
  obtain ⟨⟨⟨⟨⟨⟨-, -⟩, hf⟩, hej⟩, hp⟩, -⟩, -⟩ := hc
  have hn : c.n = 2 ^ c.ei.toNat := rfl
  have hh : c.h = c.n - c.f := rfl
  have hm : c.maxMatch = c.f - 1 := rfl
  constructor <;> omega

/-! ### The load -/

/-- What loading up to `room` symbols does besides consuming input: cells from `bufferend` on are written. -/
structure Encoder.Loads (room : Nat) (e e1 : Encoder) : Prop where
  pk : e1.pk = e.pk
  running : e1.running = e.running
  phase : e1.phase = e.phase
  r : e1.regs.r = e.regs.r
  s : e1.regs.s = e.regs.s
  lower : e.regs.bufferend ≤ e1.regs.bufferend
  upper : e1.regs.bufferend ≤ e.regs.bufferend + room
  written : ∀ i, e.regs.bufferend ≤ i → i < e1.regs.bufferend → (e1.win.read i).isSome = true
  kept : ∀ i, i < e.regs.bufferend ∨ e1.regs.bufferend ≤ i → e1.win.read i = e.win.read i

/-- A pull consumes input and changes nothing else. -/
theorem Encoder.pull_sym_frame {e e1 : Encoder} {v : Nat} (h : e.pull = .sym v e1) :
    ∃ sin taken, e1 = { e with sin := sin, regs := { e.regs with taken := taken } } := by
  simp only [Encoder.pull] at h
  split at h
  · split at h
    · split at h
      · cases h; exact ⟨e.sin, _, rfl⟩
      · cases h
    · cases h
  all_goals
    split at h
    · cases h
    · cases h
    · cases h; exact ⟨_, e.regs.taken, rfl⟩

theorem Encoder.pull_eos_frame {e e1 : Encoder} (h : e.pull = .eos e1) : ∃ sin, e1 = { e with sin := sin } := by
  simp only [Encoder.pull] at h
  split at h
  · split at h
    · split at h <;> cases h
    · cases h; exact ⟨e.sin, rfl⟩
  all_goals
    split at h
    · cases h
    · cases h; exact ⟨_, rfl⟩
    · cases h

variable {P : Params} {c : CfgRegs} {e : Encoder}

theorem Encoder.Loads.of_win_eq {room : Nat} {e1 : Encoder} (hpk : e1.pk = e.pk) (hrun : e1.running = e.running)
    (hp : e1.phase = e.phase) (hr : e1.regs.r = e.regs.r) (hs : e1.regs.s = e.regs.s)
    (hb : e1.regs.bufferend = e.regs.bufferend) (hw : e1.win = e.win) : e.Loads room e1 where
  pk := hpk
  running := hrun
  phase := hp
  r := hr
  s := hs
  lower := hb.ge
  upper := by omega
  written := fun i hlo hhi => by omega
  kept := fun i _ => by rw [hw]

/-- One symbol loaded before the others. -/
theorem Encoder.Loads.cons {room v : Nat} {e1 e2 : Encoder} (hp : e.pull = .sym v e1)
    (h : (e1.load v).Loads room e2) : e.Loads (room + 1) e2 := by
  obtain ⟨sin, taken, rfl⟩ := Encoder.pull_sym_frame hp
  have hlo : e.regs.bufferend + 1 ≤ e2.regs.bufferend := h.lower
  have hhi : e2.regs.bufferend ≤ e.regs.bufferend + 1 + room := h.upper
  have hkept : ∀ i, i < e.regs.bufferend + 1 ∨ e2.regs.bufferend ≤ i →
      e2.win.read i = (e.win.write e.regs.bufferend v).read i := h.kept
  refine ⟨h.pk, h.running, h.phase, h.r, h.s, by omega, by omega, fun i hi hi2 => ?_, fun i hi => ?_⟩
  · rcases Nat.eq_or_lt_of_le hi with rfl | hi
    · rw [hkept _ (.inl (Nat.lt_succ_self _)), Mem.read_write_self]
      rfl
    · exact h.written i hi hi2
  · rw [hkept i (hi.imp_left (by omega)), Mem.read_write_ne _ _ (by omega)]

/-- `fill` loads at most the room it is given, and all of it where it ends without an error and without `EOS`. -/
theorem fill_loads :
    ∀ (room : Nat) (e : Encoder), e.Loads room (fill P c room e).1 ∧
      ((fill P c room e).2 = none → (fill P c room e).1.regs.eos = false →
        (fill P c room e).1.regs.bufferend = e.regs.bufferend + room)
  | 0, e => ⟨.of_win_eq rfl rfl rfl rfl rfl rfl rfl, fun _ _ => rfl⟩
  | room + 1, e => by
    rw [fill]
    split
    · next heos => exact ⟨.of_win_eq rfl rfl rfl rfl rfl rfl rfl, fun _ h => by simp [heos] at h⟩
    · split
      · exact ⟨.of_win_eq rfl rfl rfl rfl rfl rfl rfl, nofun⟩
      · next e1 hp =>
        obtain ⟨sin, rfl⟩ := Encoder.pull_eos_frame hp
        exact ⟨.of_win_eq rfl rfl rfl rfl rfl rfl rfl, fun _ => nofun⟩
      · next v e1 hp =>
        split
        · obtain ⟨sin, taken, rfl⟩ := Encoder.pull_sym_frame hp
          exact ⟨.of_win_eq rfl rfl rfl rfl rfl rfl rfl, nofun⟩
        · obtain ⟨hl, hfull⟩ := fill_loads room (e1.load v)
          refine ⟨hl.cons hp, fun hn heos => (hfull hn heos).trans ?_⟩
          obtain ⟨sin, taken, rfl⟩ := Encoder.pull_sym_frame hp
          exact Nat.add_right_comm e.regs.bufferend 1 room

/-! ### The shift -/

theorem Mem.read_shiftCells_of_lt (n : Nat) :
    ∀ (k i : Nat) (m : Mem) (j : Nat), j < i → (shiftCells n k i m).read j = m.read j
  | 0, _, _, _, _ => rfl
  | k + 1, i, m, j, h => by
    rw [shiftCells]
    split
    · rw [Mem.read_shiftCells_of_lt n k (i + 1) _ j (by omega), Mem.read_write_ne _ _ (by omega)]
    · exact Mem.read_shiftCells_of_lt n k (i + 1) m j (by omega)

/-- A cell the shift copies to reads what stood `n` cells above it: cells are copied in rising order, so no copy reads
a cell already written. -/
theorem Mem.read_shiftCells {n : Nat} (hn : 1 ≤ n) {v : Nat} :
    ∀ (k i : Nat) (m : Mem) (j : Nat), i ≤ j → j < i + k → m.read (j + n) = some v →
      (shiftCells n k i m).read j = some v
  | 0, _, _, _, hlo, hhi, _ => by omega
  | k + 1, i, m, j, hlo, hhi, hv => by
    rw [shiftCells]
    rcases Nat.eq_or_lt_of_le hlo with rfl | hlo
    · rw [hv]
      exact (Mem.read_shiftCells_of_lt n k (i + 1) _ i (Nat.lt_succ_self i)).trans (Mem.read_write_self m i v)
    · split
      · exact Mem.read_shiftCells hn k (i + 1) _ j hlo (by omega) (by rw [Mem.read_write_ne _ _ (by omega), hv])
      · exact Mem.read_shiftCells hn k (i + 1) _ j hlo (by omega) hv

/-! ### The emission -/

/-- The token `Emitting` puts for the symbol at the cursor (43_compressor.md R216, R217). -/
def Encoder.token (c : CfgRegs) (sym : Nat) (e : Encoder) : Instr :=
  if e.regs.y ≤ c.p then .literal sym else .matchTok (e.regs.x % c.n) (e.regs.y - 2)

/-- A token stands for one symbol, or for as many as the search found. -/
theorem Encoder.tokenSpan_token (hp : 1 ≤ c.p) (sym : Nat) :
    tokenSpan (e.token c sym) = if e.regs.y ≤ c.p then 1 else e.regs.y := by
  rw [Encoder.token]
  split
  · rfl
  · exact Nat.sub_add_cancel (by omega)

/-- `Emitting` puts the token whole and moves on by its span. -/
theorem Encoder.emitting_of_put_ok (hp : 1 ≤ c.p) {sym : Nat} {pk : Packer} (hread : e.win.read e.regs.r = some sym)
    (hput : e.pk.putToken P (tokenBits c.widths (e.token c sym)) = .ok pk) :
    e.emitting P c = (e.advance c (tokenSpan (e.token c sym)) pk, none) := by
  rw [Encoder.tokenSpan_token hp]
  by_cases hy : e.regs.y ≤ c.p
  · rw [Encoder.token, if_pos hy] at hput
    have hlit : e.pk.putLiteral P c sym = .ok pk := hput
    simp only [Encoder.emitting, hread, if_pos hy, hlit]
  · rw [Encoder.token, if_neg hy] at hput
    have hmatch : e.pk.putMatch P c (e.regs.x % c.n) e.regs.y = .ok pk := hput
    simp only [Encoder.emitting, hread, if_neg hy, hmatch]

/-- Or it raises, and only `y` may have changed. -/
theorem Encoder.emitting_of_put_error {sym : Nat} {x : Exc} (hread : e.win.read e.regs.r = some sym)
    (hput : e.pk.putToken P (tokenBits c.widths (e.token c sym)) = .error x) :
    ∃ y, e.emitting P c = ({ e with regs := { e.regs with y := y } }, some (.raise x)) := by
  by_cases hy : e.regs.y ≤ c.p
  · rw [Encoder.token, if_pos hy] at hput
    have hlit : e.pk.putLiteral P c sym = .error x := hput
    exact ⟨1, by simp only [Encoder.emitting, hread, if_pos hy, hlit]⟩
  · rw [Encoder.token, if_neg hy] at hput
    have hmatch : e.pk.putMatch P c (e.regs.x % c.n) e.regs.y = .error x := hput
    exact ⟨e.regs.y, by simp only [Encoder.emitting, hread, if_neg hy, hmatch]⟩

end Sys2Proof.Machine
end

section
/-! The invariants of the main loop (43_compressor.md R222), phase by phase. -/

namespace Sys2Proof.Machine

open Sys2Proof

variable {P : Params} {c : CfgRegs} {e : Encoder}

/-- The clauses of `Encoder.LoopInv` that do not speak of the phase: (a), (b), (d) and (e) of the rule. -/
structure Encoder.InWindow (c : CfgRegs) (e : Encoder) : Prop where
  behind : e.regs.r = e.regs.s + c.h
  ahead : e.regs.r ≤ e.regs.bufferend
  within : e.regs.bufferend ≤ 2 * c.n
  full : e.regs.eos = false → e.regs.bufferend = 2 * c.n
  written : ∀ i, e.regs.s ≤ i → i < e.regs.bufferend → (e.win.read i).isSome = true

theorem Encoder.LoopInv.inWindow (h : e.LoopInv c) : e.InWindow c := by
  obtain ⟨hbehind, hahead, hwithin, hfull, hwritten, -⟩ := h
  exact ⟨hbehind, hahead, hwithin, hfull, hwritten⟩

theorem Encoder.LoopInv.matching (h : e.LoopInv c) (hp : e.phase = .matching) :
    e.regs.r < 2 * c.n - c.f ∧ e.regs.r < e.regs.bufferend := by
  obtain ⟨-, -, -, -, -, hphase⟩ := h
  simpa [hp] using hphase

theorem Encoder.LoopInv.emitting (h : e.LoopInv c) (hp : e.phase = .emitting) :
    e.regs.r < 2 * c.n - c.f ∧ e.regs.r < e.regs.bufferend ∧ 1 ≤ e.regs.y ∧ e.regs.y ≤ e.regs.f1 ∧
      e.regs.f1 = min c.maxMatch (e.regs.bufferend - e.regs.r) := by
  obtain ⟨-, -, -, -, -, hphase⟩ := h
  simpa [hp] using hphase

theorem Encoder.LoopInv.shifting (h : e.LoopInv c) (hp : e.phase = .shifting) :
    2 * c.n - c.f ≤ e.regs.r ∧ e.regs.r ≤ 2 * c.n - 2 := by
  obtain ⟨-, -, -, -, -, hphase⟩ := h
  simpa [hp] using hphase

theorem Encoder.LoopInv.drained (h : e.LoopInv c) (hp : e.phase = .drained) :
    e.regs.r = e.regs.bufferend ∧ e.regs.eos = true := by
  obtain ⟨-, -, -, -, -, hphase⟩ := h
  simp only [hp, reduceCtorEq, false_and, false_or, true_and] at hphase
  exact hphase.2

/-- A cell to encode has been written. -/
theorem Encoder.InWindow.read_cursor (h : e.InWindow c) (hr : e.regs.r < e.regs.bufferend) :
    ∃ sym, e.win.read e.regs.r = some sym :=
  Option.isSome_iff_exists.1 (h.written _ (by have := h.behind; omega) hr)

/-- The top of the loop (43_compressor.md R213): work remains, or the input has ended. -/
theorem Encoder.InWindow.resume (h : e.InWindow c) (hr : e.regs.r < 2 * c.n - c.f) : e.resume.LoopInv c := by
  refine ⟨h.behind, h.ahead, h.within, h.full, h.written, ?_⟩
  by_cases hlt : e.regs.r < e.regs.bufferend
  · exact .inl ⟨if_pos hlt, hr, hlt⟩
  · have heos : e.regs.eos = true := by
      by_contra hne
      have := h.full (by simpa using hne)
      omega
    exact .inr (.inr (.inr ⟨if_neg hlt, hr, by have := h.ahead; show e.regs.r = e.regs.bufferend; omega, heos⟩))

theorem Encoder.InWindow.advance (hc : c.Geometry) (h : e.InWindow c) (hr : e.regs.r < 2 * c.n - c.f) {k : Nat}
    (hk : e.regs.r + k ≤ e.regs.bufferend) (hmax : k ≤ c.maxMatch) (pk : Packer) : (e.advance c k pk).LoopInv c := by
  obtain ⟨hf3, hfn, hhf, hmf, -, -, -⟩ := hc
  have hwin : Encoder.InWindow c
      { e with pk := pk, regs := { e.regs with y := k, r := e.regs.r + k, s := e.regs.s + k } } :=
    ⟨show e.regs.r + k = e.regs.s + k + c.h by have := h.behind; omega, hk, h.within, h.full,
      fun i hlo hhi => h.written i (Nat.le_trans (Nat.le_add_right _ _) hlo) hhi⟩
  rw [Encoder.advance]
  split
  · next hshift =>
    exact ⟨hwin.behind, hwin.ahead, hwin.within, hwin.full, hwin.written,
      .inr (.inr (.inl ⟨rfl, hshift, show e.regs.r + k ≤ 2 * c.n - 2 by omega⟩))⟩
  · next hshift => exact hwin.resume (Nat.not_le.1 hshift)

/-- A load that ends well leaves the window full or the input ended. -/
theorem Encoder.InWindow.of_fill {room r s : Nat} {e1 : Encoder} (hfill : fill P c room e = (e1, none))
    (hroom : e.regs.bufferend + room = 2 * c.n) (hbehind : r = s + c.h) (hahead : r ≤ e.regs.bufferend)
    (hwritten : ∀ i, s ≤ i → i < e.regs.bufferend → (e.win.read i).isSome = true) :
    Encoder.InWindow c { e1 with regs := { e1.regs with r := r, s := s } } := by
  obtain ⟨hl, hfull⟩ := fill_loads (P := P) (c := c) room e
  rw [hfill] at hl hfull
  refine ⟨hbehind, hahead.trans hl.lower, hroom ▸ hl.upper, fun heos => hroom ▸ hfull rfl heos, fun i hlo hhi => ?_⟩
  by_cases hi : i < e.regs.bufferend
  · exact hl.kept i (.inl hi) ▸ hwritten i hlo hi
  · exact hl.written i (Nat.not_lt.1 hi) hhi

/-- The encoder `Filling` loads from: blank history, nothing loaded (43_compressor.md R212). -/
def Encoder.blanked (c : CfgRegs) (e : Encoder) : Encoder :=
  { e with win := Mem.blank c.h c.blank, regs := { e.regs with bufferend := c.h, eos := false } }

theorem Encoder.filling_next {e1 : Encoder} (h : e.filling P c = (e1, none)) :
    ∃ e2, fill P c (2 * c.n - c.h) (e.blanked c) = (e2, none) ∧
      e1 = Encoder.resume { e2 with regs := { e2.regs with r := c.h, s := 0 } } := by
  simp only [Encoder.filling] at h
  split at h
  · cases h
  · next e2 hf => cases h; exact ⟨e2, hf, rfl⟩

theorem Encoder.shifting_next {e1 : Encoder} (h : e.shifting P c = (e1, none)) :
    ∃ e2, fill P c (2 * c.n - (e.rebase c).regs.bufferend) (e.rebase c) = (e2, none) ∧ e1 = e2.resume := by
  simp only [Encoder.shifting] at h
  split at h
  · cases h
  · next e2 hf => cases h; exact ⟨e2, hf, rfl⟩

/-- `Filling` establishes the invariants. -/
theorem Encoder.filling_loopInv (hc : c.Geometry) {e1 : Encoder} (h : e.filling P c = (e1, none)) :
    e1.LoopInv c := by
  obtain ⟨-, hf, hh, -, -, -, -⟩ := hc
  obtain ⟨e2, hfill, rfl⟩ := Encoder.filling_next h
  refine (Encoder.InWindow.of_fill hfill ?_ (Nat.zero_add _).symm (Nat.le_refl _) fun i _ hi => ?_).resume ?_
  · show c.h + (2 * c.n - c.h) = 2 * c.n
    omega
  · have hread : (e.blanked c).win.read i = some c.blank := (Mem.read_blank _ _ _).trans (if_pos hi)
    rw [hread]
    rfl
  · show c.h < 2 * c.n - c.f
    omega

/-- The result of a search is bounded (43_compressor.md R214). -/
theorem search_bounds {win : Mem} {sym r s f1 : Nat} (hread : win.read r = some sym) (hs : s ≤ r) (hf : 1 ≤ f1) :
    1 ≤ (search win sym r s f1).2 ∧ (search win sym r s f1).2 ≤ f1 := by
  have hbest := scan_start_nearestBest (runAt win.read r f1) hs
  rw [← search_eq_scan hread] at hbest
  exact ⟨hbest.one_le, hbest.le_bound hf (runAt_le hf)⟩

/-- The encoder after the search of `Matching` for the symbol at the cursor. -/
def Encoder.matched (c : CfgRegs) (sym : Nat) (e : Encoder) : Encoder :=
  let f1 := min c.maxMatch (e.regs.bufferend - e.regs.r)
  let best := search e.win sym e.regs.r e.regs.s f1
  { e with regs := { e.regs with f1 := f1, x := best.1, y := best.2 }, phase := .emitting }

/-- Under the invariants `Matching` finds its cells written (43_compressor.md R224) and goes on. -/
theorem Encoder.LoopInv.matching_eq (h : e.LoopInv c) (hp : e.phase = .matching) :
    ∃ sym, e.win.read e.regs.r = some sym ∧ e.phaseStep P c = (e.matched c sym, none) := by
  obtain ⟨sym, hread⟩ := h.inWindow.read_cursor (h.matching hp).2
  exact ⟨sym, hread, by simp only [Encoder.phaseStep, hp, Encoder.matching, hread, Encoder.matched]⟩

theorem Encoder.LoopInv.matched (hc : c.Geometry) (h : e.LoopInv c) (hp : e.phase = .matching) {sym : Nat}
    (hread : e.win.read e.regs.r = some sym) : (e.matched c sym).LoopInv c := by
  obtain ⟨hr, hb⟩ := h.matching hp
  obtain ⟨hbehind, hahead, hwithin, hfull, hwritten⟩ := h.inWindow
  have hf1 : 1 ≤ min c.maxMatch (e.regs.bufferend - e.regs.r) := by
    have := hc.f_ge
    have := hc.maxMatch_add
    omega
  obtain ⟨hy, hyf⟩ := search_bounds (s := e.regs.s) hread (by omega) hf1
  exact ⟨hbehind, hahead, hwithin, hfull, hwritten, .inr (.inl ⟨rfl, hr, hb, hy, hyf, rfl⟩)⟩

/-- Under the invariants the span of the token at `Emitting` is within the search's bound. -/
theorem Encoder.LoopInv.tokenSpan_le (hc : c.Geometry) (h : e.LoopInv c) (hp : e.phase = .emitting) (sym : Nat) :
    1 ≤ tokenSpan (e.token c sym) ∧ tokenSpan (e.token c sym) ≤ c.maxMatch ∧
      e.regs.r + tokenSpan (e.token c sym) ≤ e.regs.bufferend := by
  obtain ⟨-, hb, hy, hyf, hf1⟩ := h.emitting hp
  have := hc.f_ge
  have := hc.maxMatch_add
  rw [Encoder.tokenSpan_token hc.p_ge]
  split <;> omega

/-- Under the invariants `Emitting` puts its token and goes on with the invariants, or raises. -/
theorem Encoder.LoopInv.emitting_cases (hc : c.Geometry) (h : e.LoopInv c) (hp : e.phase = .emitting) :
    ∃ sym, e.win.read e.regs.r = some sym ∧
      ((∃ pk, e.pk.putToken P (tokenBits c.widths (e.token c sym)) = .ok pk ∧
          e.phaseStep P c = (e.advance c (tokenSpan (e.token c sym)) pk, none) ∧
          (e.advance c (tokenSpan (e.token c sym)) pk).LoopInv c) ∨
        ∃ x y, e.pk.putToken P (tokenBits c.widths (e.token c sym)) = .error x ∧
          e.phaseStep P c = ({ e with regs := { e.regs with y := y } }, some (.raise x))) := by
  obtain ⟨hr, hb, -⟩ := h.emitting hp
  obtain ⟨sym, hread⟩ := h.inWindow.read_cursor hb
  obtain ⟨-, hmax, hend⟩ := h.tokenSpan_le hc hp sym
  have hstep : e.phaseStep P c = e.emitting P c := by simp only [Encoder.phaseStep, hp]
  rw [hstep]
  refine ⟨sym, hread, ?_⟩
  cases hput : e.pk.putToken P (tokenBits c.widths (e.token c sym)) with
  | ok pk =>
    exact .inl ⟨pk, rfl, Encoder.emitting_of_put_ok hc.p_ge hread hput, h.inWindow.advance hc hr hend hmax pk⟩
  | error x =>
    obtain ⟨y, hraise⟩ := Encoder.emitting_of_put_error hread hput
    exact .inr ⟨x, y, rfl, hraise⟩

/-- The shift moves every written cell of the window down by `N` (43_compressor.md R218). -/
theorem Encoder.read_rebase (hc : c.Geometry) {i v : Nat} (hi : i + c.n < e.regs.bufferend)
    (hread : e.win.read (i + c.n) = some v) : (e.rebase c).win.read i = some v :=
  Mem.read_shiftCells (by have := hc.f_lt; omega) _ 0 e.win i (Nat.zero_le i) (by omega) hread

theorem Encoder.LoopInv.shifting_loopInv (hc : c.Geometry) (h : e.LoopInv c) (hp : e.phase = .shifting)
    {e1 : Encoder} (hstep : e.shifting P c = (e1, none)) : e1.LoopInv c := by
  obtain ⟨hlo, hhi⟩ := h.shifting hp
  obtain ⟨hbehind, hahead, hwithin, hfull, hwritten⟩ := h.inWindow
  have hf := hc.f_lt
  have hh := hc.h_add
  obtain ⟨e2, hfill, rfl⟩ := Encoder.shifting_next hstep
  obtain ⟨hl, -⟩ := fill_loads (P := P) (c := c) (2 * c.n - (e.rebase c).regs.bufferend) (e.rebase c)
  rw [hfill] at hl
  have hr : e2.regs.r = e.regs.r - c.n := hl.r
  have hs : e2.regs.s = e.regs.s - c.n := hl.s
  have hb : (e.rebase c).regs.bufferend = e.regs.bufferend - c.n := rfl
  refine (Encoder.InWindow.of_fill (r := e2.regs.r) (s := e2.regs.s) hfill ?_ ?_ ?_ fun i hi hi2 => ?_).resume ?_
  · omega
  · omega
  · omega
  · obtain ⟨v, hv⟩ := Option.isSome_iff_exists.1 (hwritten (i + c.n) (by omega) (by omega))
    rw [Encoder.read_rebase hc (by omega) hv]
    rfl
  · show e2.regs.r < 2 * c.n - c.f
    omega

/-- Every phase that goes on keeps the invariants. -/
theorem Encoder.LoopInv.phaseStep (hc : c.Geometry) (h : e.LoopInv c) {e1 : Encoder}
    (hstep : e.phaseStep P c = (e1, none)) : e1.LoopInv c := by
  cases hp : e.phase with
  | matching =>
    obtain ⟨sym, hread, hnext⟩ := h.matching_eq (P := P) hp
    cases hnext.symm.trans hstep
    exact h.matched hc hp hread
  | emitting =>
    obtain ⟨sym, -, ⟨pk, -, hnext, hinv⟩ | ⟨x, y, -, hraise⟩⟩ := h.emitting_cases (P := P) hc hp
    · cases hnext.symm.trans hstep
      exact hinv
    · cases hraise.symm.trans hstep
  | shifting => exact h.shifting_loopInv hc hp (by simpa only [Encoder.phaseStep, hp] using hstep)
  | drained =>
    rw [Encoder.phaseStep, hp] at hstep
    cases hstep
    exact h
  | filling => exact Encoder.filling_loopInv hc (by simpa only [Encoder.phaseStep, hp] using hstep)
  | idle =>
    rw [Encoder.phaseStep, hp] at hstep
    cases hstep

/-- Settles O27: each phase by its own lemma; a search and an emission find the cell at the cursor written
(`Encoder.InWindow.read_cursor`). -/
theorem encoderKeepsTheLoopInvariant : Obligations.EncoderKeepsTheLoopInvariant := by
  intro P c e hok
  have hc := CfgRegs.geometry_of_codecOk hok
  refine ⟨fun e1 hp hstep => ?_, fun h => ⟨fun e1 => h.phaseStep hc, fun hp => ?_, fun hp f hf => ?_⟩⟩
  · exact Encoder.filling_loopInv hc (by simpa only [Encoder.phaseStep, hp] using hstep)
  · obtain ⟨sym, -, hnext⟩ := h.matching_eq (P := P) hp
    exact ⟨_, hnext⟩
  · obtain ⟨sym, -, ⟨pk, -, hnext, -⟩ | ⟨x, y, -, hraise⟩⟩ := h.emitting_cases (P := P) hc hp
    · rw [hnext] at hf
      cases hf
    · rw [hraise] at hf
      cases hf

end Sys2Proof.Machine
end

section
/-! The packer as a bit sequence (20_memory.md R72, R74; 44_bitpacker.md R240, R244): what it has pushed are the whole
bytes of the bits put, what it holds is the unfinished byte. -/

namespace Sys2Proof.Machine

open Sys2Proof

/-! ### The bytes of a bit sequence -/

/-- The bits of a number built from the top bit down. -/
theorem testBit_foldl_bits (b : Nat → Bool) :
    ∀ (m i : Nat), ((List.range m).foldl (fun v k => 2 * v + (b k).toNat) 0).testBit i =
      (decide (i < m) && b (m - 1 - i))
  | 0, i => by simp
  | m + 1, i => by
    rw [List.range_succ, List.foldl_append, List.foldl_cons, List.foldl_nil, ← Nat.bit_val]
    cases i with
    | zero => simp
    | succ i =>
      rw [Nat.testBit_bit_succ, testBit_foldl_bits b m i]
      simp [Nat.sub_sub, Nat.add_comm]

/-- Bit `i` of byte `j` is bit `8 j + 7 - i` of the sequence, 0 beyond its end. -/
theorem getLsbD_byteAt (bits : List Bool) (j i : Nat) :
    (byteAt bits j).getLsbD i = (decide (i < 8) && bits.getD (8 * j + (7 - i)) false) := by
  rw [byteAt, BitVec.getLsbD_ofNat, testBit_foldl_bits (fun k => bits.getD (8 * j + k) false), ← Bool.and_assoc,
    Bool.and_self]

/-- A byte that lies within a sequence does not change when bits are added. -/
theorem byteAt_append {bits : List Bool} {j : Nat} (h : 8 * j + 8 ≤ bits.length) (more : List Bool) :
    byteAt (bits ++ more) j = byteAt bits j := by
  refine BitVec.eq_of_getLsbD_eq fun i hi => ?_
  rw [getLsbD_byteAt, getLsbD_byteAt, List.getD_append _ _ _ _ (by omega)]

/-- A byte wholly beyond a sequence is 0. -/
theorem byteAt_of_length_le {bits : List Bool} {j : Nat} (h : bits.length ≤ 8 * j) : byteAt bits j = 0 := by
  refine BitVec.eq_of_getLsbD_eq fun i hi => ?_
  rw [getLsbD_byteAt, List.getD_eq_default _ _ (by omega), Bool.and_false]
  exact (BitVec.getLsbD_zero).symm

/-- The whole bytes of a sequence stay when bits are added. -/
theorem map_byteAt_append {bits : List Bool} {m : Nat} (h : 8 * m ≤ bits.length) (more : List Bool) :
    (List.range m).map (byteAt (bits ++ more)) = (List.range m).map (byteAt bits) :=
  List.map_congr_left fun j hj => byteAt_append (by have := List.mem_range.1 hj; omega) more

@[simp] theorem packBits_length (bits : List Bool) : (packBits bits).length = (bits.length + 7) / 8 := by
  rw [packBits, List.length_map, List.length_range]

/-- The bytes of a sequence are its whole bytes, and the unfinished one if there is one. -/
theorem packBits_eq (bits : List Bool) :
    packBits bits = wholeBytes bits ++ if bits.length % 8 = 0 then [] else [byteAt bits (bits.length / 8)] := by
  rw [packBits, wholeBytes]
  split
  · rw [show (bits.length + 7) / 8 = bits.length / 8 by omega, List.append_nil]
  · rw [show (bits.length + 7) / 8 = bits.length / 8 + 1 by omega, List.range_succ, List.map_append]
    rfl

/-! ### The packer -/

/-- The packer that has taken the bits `bits` since it was empty, with `bytes` counted and `bout` pushed before. -/
def Packer.holding (bytes : Nat) (bout : List (Item Byte)) (bits : List Bool) : Packer where
  acc := byteAt bits (bits.length / 8)
  nbits := Fin.ofNat 8 bits.length
  bytecnt := bytes + bits.length / 8
  bout := bout ++ (wholeBytes bits).map .sym

variable {bytes : Nat} {bout : List (Item Byte)}

@[simp] theorem Packer.holding_nbits (bits : List Bool) :
    (Packer.holding bytes bout bits).nbits.val = bits.length % 8 := rfl

/-- An empty packer. -/
theorem Packer.holding_nil :
    Packer.holding bytes bout [] = { acc := 0, nbits := 0, bytecnt := bytes, bout := bout } := by
  simp [Packer.holding, wholeBytes, byteAt_of_length_le]

/-- The accumulator with one bit more (44_bitpacker.md R240). -/
theorem or_shiftLeft_byteAt (bits : List Bool) (b : Bool) :
    byteAt bits (bits.length / 8) ||| (BitVec.ofNat 8 b.toNat <<< (7 - bits.length % 8)) =
      byteAt (bits ++ [b]) (bits.length / 8) := by
  refine BitVec.eq_of_getLsbD_eq fun i hi => ?_
  have hlen : (bits ++ [b]).length = bits.length + 1 := List.length_append
  rw [BitVec.getLsbD_or, BitVec.getLsbD_shiftLeft, BitVec.getLsbD_ofNat, getLsbD_byteAt, getLsbD_byteAt]
  rcases Nat.lt_trichotomy (7 - i) (bits.length % 8) with hlt | heq | hgt
  · rw [List.getD_append _ _ _ _ (by omega)]
    have hpow : 1 < 2 ^ (i - (7 - bits.length % 8)) := Nat.one_lt_two_pow (by omega)
    have hzero : b.toNat.testBit (i - (7 - bits.length % 8)) = false :=
      Nat.testBit_lt_two_pow ((Bool.toNat_le b).trans_lt hpow)
    rw [hzero, Bool.and_false, Bool.and_false, Bool.or_false]
  · have hi0 : i - (7 - bits.length % 8) = 0 := by omega
    have hnot : ¬ i < 7 - bits.length % 8 := by omega
    rw [List.getD_eq_default _ _ (by omega), List.getD_append_right _ _ _ _ (by omega),
      show 8 * (bits.length / 8) + (7 - i) - bits.length = 0 by omega, hi0]
    cases b <;> simp [hi, hnot]
  · have hlow : i < 7 - bits.length % 8 := by omega
    rw [List.getD_eq_default _ _ (by omega), List.getD_eq_default _ _ (by omega)]
    simp [hlow]

theorem Packer.putBit_holding (bits : List Bool) (b : Bool) :
    (Packer.holding bytes bout bits).putBit b = Packer.holding bytes bout (bits ++ [b]) := by
  have hacc := or_shiftLeft_byteAt bits b
  have hlen : (bits ++ [b]).length = bits.length + 1 := List.length_append
  rw [Packer.putBit, Packer.holding_nbits]
  simp only [Packer.holding, hacc, hlen]
  by_cases h7 : bits.length % 8 = 7
  · rw [if_pos h7]
    have hdiv : (bits.length + 1) / 8 = bits.length / 8 + 1 := by omega
    have hwhole : wholeBytes (bits ++ [b]) = wholeBytes bits ++ [byteAt (bits ++ [b]) (bits.length / 8)] := by
      rw [wholeBytes, hlen, hdiv, List.range_succ, List.map_append, map_byteAt_append (by omega), wholeBytes]
      rfl
    have hrest : byteAt (bits ++ [b]) (bits.length / 8 + 1) = 0 := byteAt_of_length_le (by omega)
    have hnone : (0 : Fin 8) = Fin.ofNat 8 (bits.length + 1) :=
      Fin.ext (show 0 = (bits.length + 1) % 8 by omega)
    rw [hdiv, hwhole, hrest, List.map_append, ← List.append_assoc, hnone]
    rfl
  · rw [if_neg h7]
    have hdiv : (bits.length + 1) / 8 = bits.length / 8 := by omega
    have hwhole : wholeBytes (bits ++ [b]) = wholeBytes bits := by
      rw [wholeBytes, hlen, hdiv, map_byteAt_append (by omega), wholeBytes]
    have hmore : Fin.ofNat 8 bits.length + 1 = Fin.ofNat 8 (bits.length + 1) := by
      refine Fin.ext ?_
      rw [Fin.val_add_one_of_lt (by rw [Fin.lt_def]; show bits.length % 8 < 7; omega)]
      show bits.length % 8 + 1 = (bits.length + 1) % 8
      omega
    rw [hdiv, hwhole, hmore]

theorem Packer.putBits_holding (more : List Bool) :
    ∀ bits : List Bool, (Packer.holding bytes bout bits).putBits more = Packer.holding bytes bout (bits ++ more) := by
  induction more with
  | nil => intro bits; rw [List.append_nil]; rfl
  | cons b more ih =>
    intro bits
    show ((Packer.holding bytes bout bits).putBit b).putBits more = _
    rw [Packer.putBit_holding, ih, List.append_assoc]
    rfl

/-- A flush pushes the unfinished byte, its unused bits being 0 (44_bitpacker.md R244). -/
theorem Packer.flush_holding (bits : List Bool) :
    (Packer.holding bytes bout bits).flush =
      { acc := 0, nbits := 0, bytecnt := bytes + (packBits bits).length
        bout := bout ++ (packBits bits).map .sym } := by
  rw [Packer.flush, Packer.holding_nbits, packBits_length, packBits_eq]
  by_cases h0 : bits.length % 8 = 0
  · rw [if_neg (not_not.2 h0), if_pos h0, List.append_nil, show (bits.length + 7) / 8 = bits.length / 8 by omega]
    rfl
  · rw [if_pos h0, if_neg h0, show (bits.length + 7) / 8 = bits.length / 8 + 1 by omega, List.map_append,
      ← List.append_assoc]
    rfl

/-- A token goes into the packer whole, within the capacity, or not at all (44_bitpacker.md R243). -/
theorem Packer.putToken_holding {P : Params} (bits more : List Bool) :
    (Packer.holding 0 bout bits).putToken P more =
      if 8 * P.outCap < (bits ++ more).length then .error { kind := .bufferOverrun, info := bits.length / 8 }
      else .ok (Packer.holding 0 bout (bits ++ more)) := by
  have htotal : 8 * (Packer.holding 0 bout bits).bytecnt + (Packer.holding 0 bout bits).nbits.val + more.length =
      (bits ++ more).length := by
    rw [Packer.holding_nbits, List.length_append]
    show 8 * (0 + bits.length / 8) + bits.length % 8 + more.length = _
    omega
  rw [putToken_eq, htotal, Packer.putBits_holding]
  simp only [Packer.holding, Nat.zero_add, gt_iff_lt]

end Sys2Proof.Machine
end

section
/-! The tokens of the bufferless procedure (43_compressor.md R221): the token at each position, its span, and what a
list of them amounts to. -/

namespace Sys2Proof.Machine

open Sys2Proof

/-- The input symbols with the blank history before them: entry `H + t` is `S[t]` (43_compressor.md R221). -/
def history (c : CfgRegs) (syms : List Nat) : List Nat := List.replicate c.h c.blank ++ syms

@[simp] theorem history_length (c : CfgRegs) (syms : List Nat) : (history c syms).length = c.h + syms.length := by
  simp [history]

theorem history_getElem?_of_lt {c : CfgRegs} {i : Nat} (h : i < c.h) (syms : List Nat) :
    (history c syms)[i]? = some c.blank := by
  rw [history, List.getElem?_append_left (by simpa using h), List.getElem?_replicate_of_lt h]

theorem history_getElem?_of_le {c : CfgRegs} {i : Nat} (h : c.h ≤ i) (syms : List Nat) :
    (history c syms)[i]? = syms[i - c.h]? := by
  rw [history, List.getElem?_append_right (by simpa using h), List.length_replicate]

theorem streamTokens_eq (c : CfgRegs) (syms : List Nat) :
    streamTokens c syms = tokensFrom c (history c syms) syms.length c.h := rfl

/-- The length bound of the search at position `t` (43_compressor.md R214). -/
def boundAt (c : CfgRegs) (buf : List Nat) (t : Nat) : Nat := min c.maxMatch (buf.length - t)

/-- The best match at position `t`. -/
def bestAt (c : CfgRegs) (buf : List Nat) (t : Nat) : Nat × Nat :=
  bestFrom buf t (boundAt c buf t) (t - c.h) c.h (0, 1)

/-- The token at position `t`, for the symbol `v` there. -/
def tokenAt (c : CfgRegs) (buf : List Nat) (t v : Nat) : Instr :=
  if (bestAt c buf t).2 ≤ c.p then .literal v else .matchTok ((bestAt c buf t).1 % c.n) ((bestAt c buf t).2 - 2)

variable {c : CfgRegs} {buf : List Nat} {t v : Nat}

theorem tokenSpan_tokenAt (hp : 1 ≤ c.p) :
    tokenSpan (tokenAt c buf t v) = if (bestAt c buf t).2 ≤ c.p then 1 else (bestAt c buf t).2 := by
  rw [tokenAt]
  split
  · rfl
  · exact Nat.sub_add_cancel (by omega)

theorem tokensFrom_of_length_le (h : buf.length ≤ t) : ∀ fuel : Nat, tokensFrom c buf fuel t = []
  | 0 => rfl
  | fuel + 1 => by rw [tokensFrom, List.getElem?_eq_none h]

theorem tokensFrom_of_getElem? (hp : 1 ≤ c.p) (hv : buf[t]? = some v) (fuel : Nat) :
    tokensFrom c buf (fuel + 1) t =
      tokenAt c buf t v :: tokensFrom c buf fuel (t + tokenSpan (tokenAt c buf t v)) := by
  rw [tokenSpan_tokenAt hp, tokenAt, tokensFrom, hv]
  by_cases hy : (bestAt c buf t).2 ≤ c.p
  · rw [if_pos hy, if_pos hy]
    exact if_pos hy
  · rw [if_neg hy, if_neg hy]
    exact if_neg hy

theorem one_le_boundAt (hc : c.Geometry) (ht : t < buf.length) : 1 ≤ boundAt c buf t := by
  have := hc.f_ge
  have := hc.maxMatch_add
  rw [boundAt]
  omega

theorem bestAt_nearestBest (ht : c.h ≤ t) :
    NearestBest (runAt (buf[·]?) t (boundAt c buf t)) (t - c.h) t (bestAt c buf t) := by
  have hbest := scan_start_nearestBest (runAt (buf[·]?) t (boundAt c buf t)) (Nat.sub_le t c.h)
  rwa [Nat.sub_sub_self ht, ← bestFrom_eq_scan] at hbest

theorem bestAt_le_boundAt (hc : c.Geometry) (hh : c.h ≤ t) (ht : t < buf.length) :
    (bestAt c buf t).2 ≤ boundAt c buf t :=
  have hb := one_le_boundAt hc ht
  (bestAt_nearestBest hh).le_bound hb (runAt_le hb)

/-- A token stands for at least one symbol, and for none beyond the end. -/
theorem tokenSpan_tokenAt_bounds (hc : c.Geometry) (hh : c.h ≤ t) (ht : t < buf.length) :
    1 ≤ tokenSpan (tokenAt c buf t v) ∧ t + tokenSpan (tokenAt c buf t v) ≤ buf.length := by
  have hle := bestAt_le_boundAt hc hh ht
  have hone := (bestAt_nearestBest (c := c) (buf := buf) hh).one_le
  rw [tokenSpan_tokenAt hc.p_ge]
  rw [boundAt] at hle
  split <;> omega

/-! ### Lists of tokens -/

theorem mem_tokensFrom (hc : c.Geometry) {i : Instr} :
    ∀ {fuel t : Nat}, c.h ≤ t → i ∈ tokensFrom c buf fuel t →
      ∃ u v, c.h ≤ u ∧ buf[u]? = some v ∧ i = tokenAt c buf u v
  | 0, _, _, hi => absurd hi List.not_mem_nil
  | fuel + 1, t, ht, hi => by
    cases hv : buf[t]? with
    | none => rw [tokensFrom_of_length_le (List.getElem?_eq_none_iff.1 hv)] at hi; cases hi
    | some v =>
      rw [tokensFrom_of_getElem? hc.p_ge hv] at hi
      rcases List.mem_cons.1 hi with rfl | hi
      · exact ⟨t, v, ht, hv, rfl⟩
      · exact mem_tokensFrom hc (by omega) hi

/-- The tokens from a position stand for all the symbols from there on. -/
theorem sum_tokenSpan_tokensFrom (hc : c.Geometry) :
    ∀ {fuel t : Nat}, c.h ≤ t → t ≤ buf.length → buf.length ≤ t + fuel →
      t + ((tokensFrom c buf fuel t).map tokenSpan).sum = buf.length
  | 0, _, _, ht, hfuel => Nat.le_antisymm ht hfuel
  | fuel + 1, t, hh, ht, hfuel => by
    rcases Nat.eq_or_lt_of_le ht with rfl | hlt
    · rw [tokensFrom_of_length_le (Nat.le_refl _)]
      rfl
    · obtain ⟨h1, hend⟩ := tokenSpan_tokenAt_bounds (v := buf[t]) hc hh hlt
      have ih := sum_tokenSpan_tokensFrom hc (fuel := fuel) (Nat.le_add_right_of_le hh) hend (by omega)
      rw [tokensFrom_of_getElem? hc.p_ge (List.getElem?_eq_getElem hlt), List.map_cons, List.sum_cons, ← Nat.add_assoc]
      exact ih

theorem tokensFrom_eq_map_literal (hp : 1 ≤ c.p) :
    ∀ {fuel t : Nat}, buf.length ≤ t + fuel → (∀ u v, t ≤ u → buf[u]? = some v → tokenAt c buf u v = .literal v) →
      tokensFrom c buf fuel t = (buf.drop t).map .literal
  | 0, t, hfuel, _ => by rw [List.drop_of_length_le (show buf.length ≤ t from hfuel)]; rfl
  | fuel + 1, t, hfuel, hlit => by
    by_cases ht : t < buf.length
    · have hv := List.getElem?_eq_getElem ht
      rw [tokensFrom_of_getElem? hp hv, hlit t _ (Nat.le_refl t) hv, List.drop_eq_getElem_cons ht, List.map_cons]
      exact congrArg _ (tokensFrom_eq_map_literal hp (by simp only [tokenSpan]; omega)
        fun u v hu => hlit u v (by omega))
    · rw [tokensFrom_of_length_le (by omega), List.drop_of_length_le (by omega)]
      rfl

/-- A Match token at a position tells of two agreeing symbols, one after the other, there and at an earlier
position. -/
theorem exists_pair_of_two_le_bestAt (hc : c.Geometry) (hh : c.h ≤ t) (ht : t < buf.length)
    (h2 : 2 ≤ (bestAt c buf t).2) :
    ∃ u < t, t + 1 < buf.length ∧ buf[u]? = buf[t]? ∧ buf[u + 1]? = buf[t + 1]? := by
  have hle := bestAt_le_boundAt hc hh ht
  have hbest := bestAt_nearestBest (c := c) (buf := buf) hh
  rcases hbest.found with h01 | ⟨-, -, hlt, heq, -⟩
  · rw [h01] at h2
    exact absurd h2 (by decide)
  · obtain ⟨-, hagree⟩ := (le_runAt_iff (one_le_boundAt hc ht)).1 (h2.trans_eq heq.symm)
    rw [boundAt] at hle
    exact ⟨_, hlt, by omega, hagree 0 (by decide), hagree 1 (by decide)⟩

/-- Where no symbol is repeated every token is a Literal: blanks before the input can agree with one symbol of it, and
two different entries of the input never agree. -/
theorem tokenAt_history_of_nodup (hc : c.Geometry) {l : List Nat} (hl : l.Nodup) (hh : c.h ≤ t)
    (hv : (history c l)[t]? = some v) : tokenAt c (history c l) t v = .literal v := by
  obtain ⟨ht, -⟩ := List.getElem?_eq_some_iff.1 hv
  refine if_pos (Nat.not_lt.1 fun hlt => ?_)
  have hp := hc.p_ge
  obtain ⟨u, hut, hlen, h0, h1⟩ := exists_pair_of_two_le_bestAt hc hh ht (by omega)
  have hinj : ∀ {a b : Nat}, c.h ≤ a → a < c.h + l.length → c.h ≤ b →
      (history c l)[a]? = (history c l)[b]? → a = b := by
    intro a b ha halen hb hab
    rw [history_getElem?_of_le ha, history_getElem?_of_le hb] at hab
    have hsub : a - c.h = b - c.h := (List.getElem?_inj (by omega) hl).1 hab
    omega
  rw [history_length] at hlen
  by_cases hu : u + 1 < c.h
  · rw [history_getElem?_of_lt (by omega), eq_comm] at h0
    rw [history_getElem?_of_lt hu] at h1
    exact absurd (hinj hh (by omega) (Nat.le_succ_of_le hh) (h0.trans h1)) (by omega)
  · exact absurd (hinj (Nat.not_lt.1 hu) (by omega) (Nat.le_succ_of_le hh) h1) (by omega)

/-! ### The sizes of token lists -/

theorem tokensBits_append (tw : TokenWidths) (ts us : List Instr) :
    tokensBits tw (ts ++ us) = tokensBits tw ts ++ tokensBits tw us := List.flatMap_append

theorem tokensBits_cons (tw : TokenWidths) (i : Instr) (ts : List Instr) :
    tokensBits tw (i :: ts) = tokenBits tw i ++ tokensBits tw ts := List.flatMap_cons

theorem tokenBits_literal (tw : TokenWidths) (v : Nat) : tokenBits tw (.literal v) = literalBits tw.symw v := rfl

theorem tokenBits_matchTok (tw : TokenWidths) (off len2 : Nat) :
    tokenBits tw (.matchTok off len2) = matchBits tw.ei tw.ej off len2 := rfl

/-- A list of Literals and Matches takes `LITBITS` and `MATBITS` bits for each (30_encoding.md R98). -/
theorem tokensBits_length_eq_count (tw : TokenWidths) :
    ∀ ts : List Instr, (∀ i ∈ ts, i.isToken = true) →
      (tokensBits tw ts).length =
        ts.countP (fun i => match i with | .literal _ => true | _ => false) * (1 + tw.symw) +
          ts.countP (fun i => match i with | .matchTok _ _ => true | _ => false) * (1 + tw.ei + tw.ej)
  | [], _ => by simp [tokensBits]
  | i :: ts, h => by
    obtain ⟨hi, hts⟩ := List.forall_mem_cons.1 h
    have ih := tokensBits_length_eq_count tw ts hts
    rw [tokensBits_cons, List.length_append, ih, List.countP_cons, List.countP_cons]
    cases i with
    | literal v =>
      rw [tokenBits_literal, literalBits_length, if_pos rfl, if_neg Bool.false_ne_true]
      ring
    | matchTok off len2 =>
      rw [tokenBits_matchTok, matchBits_length, if_pos rfl, if_neg Bool.false_ne_true]
      ring
    | _ => cases hi

/-- The laws of the token at one position (43_compressor.md R217, 30_encoding.md R94). -/
theorem tokenAt_history_laws (hc : c.Geometry) {l : List Nat} (hh : c.h ≤ t) (hv : (history c l)[t]? = some v) :
    (∃ w ∈ l, tokenAt c (history c l) t v = .literal w) ∨
    ∃ off len2, tokenAt c (history c l) t v = .matchTok off len2 ∧ off < c.n ∧ c.p + 1 ≤ len2 + 2 ∧
      len2 + 2 ≤ c.f - 1 ∧ len2 < 2 ^ c.ej.toNat := by
  obtain ⟨ht, -⟩ := List.getElem?_eq_some_iff.1 hv
  have hle := bestAt_le_boundAt hc hh ht
  rw [boundAt] at hle
  obtain ⟨hf3, hfn, -, hmax, hp, -, hfj⟩ := hc
  rw [tokenAt]
  split
  · rw [history_getElem?_of_le hh] at hv
    exact .inl ⟨v, List.mem_of_getElem? hv, rfl⟩
  · exact .inr ⟨_, _, rfl, Nat.mod_lt _ (by omega), by omega, by omega, by omega⟩

/-- Settles O30: a token is that of some position (`mem_tokensFrom`), the spans add up to the input
(`sum_tokenSpan_tokensFrom`), and no two different entries of an input without repeats agree
(`tokenAt_history_of_nodup`). -/
theorem emittedTokenLaws : Obligations.EmittedTokenLaws := by
  refine ⟨fun P c l hok => ?_, tokensBits_length_eq_count, packBits_length⟩
  have hc := CfgRegs.geometry_of_codecOk hok
  have hlen := history_length c l
  refine ⟨fun i hi => ?_, ?_, fun hnodup => ?_⟩
  · obtain ⟨t, v, ht, hv, rfl⟩ := mem_tokensFrom hc (Nat.le_refl _) hi
    exact tokenAt_history_laws hc ht hv
  · have hsum := sum_tokenSpan_tokensFrom (buf := history c l) hc (Nat.le_refl c.h) (by omega) hlen.le
    refine (congrArg List.sum (List.map_congr_left (g := tokenSpan) fun i _ => by cases i <;> rfl)).trans ?_
    rw [streamTokens_eq]
    omega
  · have hlit := tokensFrom_eq_map_literal (buf := history c l) hc.p_ge hlen.le fun t v ht hv =>
      tokenAt_history_of_nodup hc hnodup ht hv
    rw [streamTokens_eq, hlit, history, List.drop_left' (List.length_replicate ..)]

end Sys2Proof.Machine
end

section
/-! The encoder's source of symbols (43_compressor.md R211, 46_control_pipeline.md R291): what it still offers, and what
a load takes of it. -/

namespace Sys2Proof.Machine

open Sys2Proof

/-- What `SIN` holds behind the symbols that are admitted, `cnt` of them being counted: `EOS`, where nothing stops the
load, or a symbol refused with `stop`, the capacity being tested first. -/
def SinStops (P : Params) (c : CfgRegs) (cnt : Nat) (stop : Option Exc) : List (Item Nat) → Prop
  | [] => False
  | .eos :: _ => stop = none
  | .sym v :: _ =>
    cnt = P.ctCap ∧ stop = some { kind := .bufferOverrun, info := cnt } ∨
    cnt ≠ P.ctCap ∧ c.fitsSymbol v = false ∧ stop = some { kind := .invalidSymbol, info := v }

/-- The source of an encode still holds the symbols `l`, all admitted, and then ends or is refused: PROTECT takes them
from `CTBUF`, where nothing is refused, every other encode from `SIN`. -/
def Encoder.Offers (P : Params) (c : CfgRegs) (stop : Option Exc) (l : List Nat) (e : Encoder) : Prop :=
  (e.running = .protect → stop = none ∧ e.symcnt = e.regs.taken + l.length ∧
    ∀ i < l.length, e.ctbuf.read (e.regs.taken + i) = l[i]?) ∧
  (e.running ≠ .protect → ∃ tail, e.sin = l.map .sym ++ tail ∧ (∀ v ∈ l, c.fitsSymbol v = true) ∧
    e.symcnt + l.length ≤ P.ctCap ∧ SinStops P c (e.symcnt + l.length) stop tail)

variable {P : Params} {c : CfgRegs} {e : Encoder} {stop : Option Exc}

theorem Encoder.pull_ctbuf_sym (h : e.running = .protect) {v : Nat} (ht : e.regs.taken < e.symcnt)
    (hread : e.ctbuf.read e.regs.taken = some v) :
    e.pull = .sym v { e with regs := { e.regs with taken := e.regs.taken + 1 } } := by
  simp only [Encoder.pull, h, if_pos ht, hread]

theorem Encoder.pull_ctbuf_eos (h : e.running = .protect) (ht : e.symcnt ≤ e.regs.taken) : e.pull = .eos e := by
  simp only [Encoder.pull, h, if_neg (Nat.not_lt.2 ht)]

theorem Encoder.pull_sin_sym (h : e.running ≠ .protect) {v : Nat} {rest : List (Item Nat)}
    (hs : e.sin = .sym v :: rest) : e.pull = .sym v { e with sin := rest } := by
  cases hr : e.running <;> simp_all [Encoder.pull]

theorem Encoder.pull_sin_eos (h : e.running ≠ .protect) {rest : List (Item Nat)} (hs : e.sin = .eos :: rest) :
    e.pull = .eos { e with sin := rest } := by
  cases hr : e.running <;> simp_all [Encoder.pull]

theorem Encoder.refuses_of_protect (h : e.running = .protect) (v : Nat) : e.refuses P c v = none := by
  rw [Encoder.refuses, h]

theorem Encoder.refuses_of_ne_protect (h : e.running ≠ .protect) (v : Nat) :
    e.refuses P c v =
      if e.symcnt = P.ctCap then some { kind := .bufferOverrun, info := e.symcnt }
      else if c.fitsSymbol v = false then some { kind := .invalidSymbol, info := v }
      else none := by
  cases hr : e.running <;> simp_all [Encoder.refuses]

/-- A symbol offered is pulled, not refused, and loaded; the others are still offered. -/
theorem Encoder.Offers.pull_cons {v : Nat} {l : List Nat} (h : e.Offers P c stop (v :: l)) :
    ∃ e1, e.pull = .sym v e1 ∧ e1.refuses P c v = none ∧ (e1.load v).Offers P c stop l := by
  by_cases hr : e.running = .protect
  · obtain ⟨hstop, hcnt, hcells⟩ := h.1 hr
    rw [List.length_cons] at hcnt hcells
    have hread : e.ctbuf.read e.regs.taken = some v := hcells 0 (Nat.succ_pos _)
    refine ⟨_, Encoder.pull_ctbuf_sym hr (by omega) hread, Encoder.refuses_of_protect hr v,
      fun _ => ⟨hstop, ?_, fun i hi => ?_⟩, fun hne => absurd hr hne⟩
    · show (if e.running = .protect then e.symcnt else e.symcnt + 1) = e.regs.taken + 1 + l.length
      rw [if_pos hr]
      omega
    · show e.ctbuf.read (e.regs.taken + 1 + i) = l[i]?
      rw [Nat.add_right_comm]
      exact hcells (i + 1) (by omega)
  · obtain ⟨tail, hsin, hfits, hcap, hstops⟩ := h.2 hr
    obtain ⟨hv, hl⟩ := List.forall_mem_cons.1 hfits
    rw [List.length_cons, Nat.add_comm l.length, ← Nat.add_assoc] at hcap hstops
    have hne : e.symcnt ≠ P.ctCap := by omega
    have hadmit : Encoder.refuses P c v { e with sin := l.map .sym ++ tail } = none := by
      rw [Encoder.refuses_of_ne_protect (e := { e with sin := l.map .sym ++ tail }) hr]
      exact (if_neg hne).trans (if_neg (by rw [hv]; decide))
    have hcount : (Encoder.load v { e with sin := l.map .sym ++ tail }).symcnt = e.symcnt + 1 := if_neg hr
    exact ⟨_, Encoder.pull_sin_sym hr hsin, hadmit, fun hp => absurd hp hr,
      fun _ => ⟨tail, rfl, hl, hcount.symm ▸ hcap, hcount.symm ▸ hstops⟩⟩

/-- A source that has nothing left and stops at nothing has come to its end. -/
theorem Encoder.Offers.pull_nil_none (h : e.Offers P c none []) : ∃ e1, e.pull = .eos e1 := by
  by_cases hr : e.running = .protect
  · obtain ⟨-, hcnt, -⟩ := h.1 hr
    exact ⟨e, Encoder.pull_ctbuf_eos hr hcnt.le⟩
  · obtain ⟨tail, hsin, -, -, hstops⟩ := h.2 hr
    match tail with
    | .eos :: rest => exact ⟨_, Encoder.pull_sin_eos hr hsin⟩
    | .sym v :: rest => simp [SinStops] at hstops

/-- One that stops with an error has a symbol that is refused with it. -/
theorem Encoder.Offers.pull_nil_some {x : Exc} (h : e.Offers P c (some x) []) :
    ∃ v e1, e.pull = .sym v e1 ∧ e1.refuses P c v = some x := by
  by_cases hr : e.running = .protect
  · exact absurd (h.1 hr).1 nofun
  · obtain ⟨tail, hsin, -, -, hstops⟩ := h.2 hr
    match tail with
    | .eos :: rest => cases hstops
    | .sym v :: rest =>
      refine ⟨v, _, Encoder.pull_sin_sym hr hsin, ?_⟩
      rw [Encoder.refuses_of_ne_protect (e := { e with sin := rest }) hr]
      rcases hstops with ⟨hcap, hx⟩ | ⟨hcap, hfit, hx⟩
      · exact (if_pos hcap).trans hx.symm
      · exact (if_neg hcap).trans ((if_pos hfit).trans hx.symm)

end Sys2Proof.Machine
end

section
/-! `WIN` as a window on the stream (43_compressor.md R221): after shifts by `d` cells in all, cell `i` holds entry
`d + i` of the blank history followed by the input. -/

namespace Sys2Proof.Machine

open Sys2Proof

/-- The cells below `bufferend` are the entries of `buf` from `d` on, no cell beyond `2N` holds a value, and COMP has
counted the symbols loaded. -/
structure Encoder.Mirrors (c : CfgRegs) (buf : List Nat) (d : Nat) (e : Encoder) : Prop where
  loaded : d + e.regs.bufferend ≤ buf.length
  window : ∀ i < e.regs.bufferend, e.win.read i = buf[d + i]?
  beyond : ∀ i, 2 * c.n ≤ i → e.win.read i = none
  counted : e.running ≠ .protect → e.symcnt + c.h = d + e.regs.bufferend

/-- The rest of `buf` is still to come: the source offers it, or the input has ended. -/
structure Encoder.Tracks (P : Params) (c : CfgRegs) (buf : List Nat) (stop : Option Exc) (d : Nat) (e : Encoder) : Prop
    extends Encoder.Mirrors c buf d e where
  source : e.regs.eos = false → e.Offers P c stop (buf.drop (d + e.regs.bufferend))
  ended : e.regs.eos = true → stop = none ∧ d + e.regs.bufferend = buf.length

variable {P : Params} {c : CfgRegs} {buf : List Nat} {stop : Option Exc} {d : Nat} {e : Encoder}

/-- A symbol pulled and loaded is the next entry of `buf`. -/
theorem Encoder.Mirrors.load (h : e.Mirrors c buf d) {v : Nat} {e1 : Encoder} (hp : e.pull = .sym v e1)
    (hv : buf[d + e.regs.bufferend]? = some v) (hroom : e.regs.bufferend < 2 * c.n) :
    (e1.load v).Mirrors c buf d := by
  obtain ⟨sin, taken, rfl⟩ := Encoder.pull_sym_frame hp
  obtain ⟨hlt, -⟩ := List.getElem?_eq_some_iff.1 hv
  refine ⟨hlt, fun i hi => ?_, fun i hi => ?_, fun hr => ?_⟩
  · show (e.win.write e.regs.bufferend v).read i = buf[d + i]?
    rcases Nat.eq_or_lt_of_le (Nat.le_of_lt_succ hi) with rfl | hi
    · rw [Mem.read_write_self, hv]
    · rw [Mem.read_write_ne _ _ hi.ne, h.window i hi]
  · show (e.win.write e.regs.bufferend v).read i = none
    rw [Mem.read_write_ne _ _ (by omega), h.beyond i hi]
  · have hcount := h.counted hr
    show (if e.running = .protect then e.symcnt else e.symcnt + 1) + c.h = d + (e.regs.bufferend + 1)
    rw [if_neg (show ¬ e.running = .protect from hr)]
    omega

/-- A load either goes on to the end of its room or of the input, or meets a symbol that is refused, all of `buf` being
loaded and less than the room. -/
theorem Encoder.Tracks.fill :
    ∀ {room : Nat} {e : Encoder}, e.Tracks P c buf stop d → e.regs.bufferend + room ≤ 2 * c.n →
      (∃ e1, Machine.fill P c room e = (e1, none) ∧ e1.Tracks P c buf stop d) ∨
      ∃ e1 x, Machine.fill P c room e = (e1, some (.raise x)) ∧ stop = some x ∧ e1.Mirrors c buf d ∧ e1.pk = e.pk ∧
        d + e1.regs.bufferend = buf.length ∧ buf.length < d + e.regs.bufferend + room
  | 0, e, h, _ => .inl ⟨e, rfl, h⟩
  | room + 1, e, h, hroom => by
    cases heos : e.regs.eos with
    | true => exact .inl ⟨e, by rw [Machine.fill, if_pos heos], h⟩
    | false =>
      have hoffers := h.source heos
      rcases Nat.eq_or_lt_of_le h.loaded with hend | hlt
      · rw [List.drop_of_length_le hend.ge] at hoffers
        cases stop with
        | none =>
          obtain ⟨e1, hp⟩ := hoffers.pull_nil_none
          obtain ⟨sin, rfl⟩ := Encoder.pull_eos_frame hp
          refine .inl ⟨_, by rw [Machine.fill, heos, hp]; rfl, ?_⟩
          exact { h with source := nofun, ended := fun _ => ⟨rfl, hend⟩ }
        | some x =>
          obtain ⟨v, e1, hp, hx⟩ := hoffers.pull_nil_some
          have hfill : Machine.fill P c (room + 1) e = (e1, some (.raise x)) := by
            simp only [Machine.fill, heos, hp, hx, Bool.false_eq_true, if_false]
          obtain ⟨sin, taken, rfl⟩ := Encoder.pull_sym_frame hp
          exact .inr ⟨_, x, hfill, rfl, { h.toMirrors with }, rfl, hend, by omega⟩
      · have hv := List.getElem?_eq_getElem hlt
        rw [List.drop_eq_getElem_cons hlt] at hoffers
        obtain ⟨e1, hp, hx, hnext⟩ := hoffers.pull_cons
        have hfill : Machine.fill P c (room + 1) e = Machine.fill P c room (e1.load buf[d + e.regs.bufferend]) := by
          simp only [Machine.fill, heos, hp, hx, Bool.false_eq_true, if_false]
        have hmirrors := h.toMirrors.load hp hv (by omega)
        obtain ⟨sin, taken, rfl⟩ := Encoder.pull_sym_frame hp
        have htracks : Encoder.Tracks P c buf stop d (Encoder.load buf[d + e.regs.bufferend] _) :=
          { hmirrors with source := fun _ => hnext, ended := fun ht => by cases heos.symm.trans ht }
        rw [hfill]
        rcases htracks.fill (room := room) (show e.regs.bufferend + 1 + room ≤ 2 * c.n by omega) with hgood | hbad
        · exact .inl hgood
        · obtain ⟨e2, x, hf, hs, hm, hpk, hall, hlen⟩ := hbad
          exact .inr ⟨e2, x, hf, hs, hm, hpk, hall, by
            have : buf.length < d + (e.regs.bufferend + 1) + room := hlen
            omega⟩

/-- The shift moves the window on by `N` entries. -/
theorem Encoder.Tracks.rebase (hc : c.Geometry) (h : e.Tracks P c buf stop d) (hb : c.n ≤ e.regs.bufferend)
    (hw : e.regs.bufferend ≤ 2 * c.n) : (e.rebase c).Tracks P c buf stop (d + c.n) := by
  have hbe : d + c.n + (e.rebase c).regs.bufferend = d + e.regs.bufferend := by
    show d + c.n + (e.regs.bufferend - c.n) = d + e.regs.bufferend
    omega
  refine ⟨⟨hbe ▸ h.loaded, fun i hi => ?_, fun i hi => ?_, fun hr => hbe ▸ h.counted hr⟩,
    fun heos => hbe ▸ h.source heos, fun heos => hbe ▸ h.ended heos⟩
  · have hi' : i + c.n < e.regs.bufferend := Nat.lt_sub_iff_add_lt.1 hi
    have hread := h.window (i + c.n) hi'
    rw [← Nat.add_assoc, Nat.add_right_comm] at hread
    have hlt : d + c.n + i < buf.length := by have := h.loaded; omega
    rw [List.getElem?_eq_getElem hlt] at hread ⊢
    exact Encoder.read_rebase hc hi' hread
  · exact (Mem.read_shiftCells_of_le c.n _ 0 e.win i (by omega)).trans (h.beyond i hi)

end Sys2Proof.Machine
end

section
/-! The encoder follows the bufferless procedure (43_compressor.md R221): phase by phase, the tokens put are the first
of the tokens planned for the input, until the input ends, a symbol is refused, or a token does not fit. -/

namespace Sys2Proof.Machine

open Sys2Proof

/-! ### The tokens planned -/

/-- Where a symbol is refused after the symbols `syms`, the stream position the cursor has to reach for the load that
meets it (43_compressor.md R212, R218): 0 for the first load, `j * N` for the `j`-th shift. -/
def refusedLoadAt (c : CfgRegs) (syms : List Nat) : Nat := (syms.length - c.f) / c.n * c.n

/-- Of the tokens from stream position `pos` on, those put before the encode stops for want of another symbol: all of
them at the end of the input, those that start before the load that is refused otherwise. -/
def plannedFrom (c : CfgRegs) (syms : List Nat) (stop : Option Exc) (pos : Nat) (ts : List Instr) : List Instr :=
  if stop = none then ts else tokensBefore (refusedLoadAt c syms) pos ts

/-- The tokens of an encode that no token overruns. -/
def planned (c : CfgRegs) (syms : List Nat) (stop : Option Exc) : List Instr :=
  plannedFrom c syms stop 0 (streamTokens c syms)

theorem planned_none (c : CfgRegs) (syms : List Nat) : planned c syms none = streamTokens c syms := rfl

theorem planned_some (c : CfgRegs) (syms : List Nat) (x : Exc) :
    planned c syms (some x) = tokensPutBefore c syms := rfl

variable {P : Params} {c : CfgRegs} {syms : List Nat} {stop : Option Exc} {bout : List (Item Byte)} {e : Encoder}

theorem plannedFrom_cons {pos : Nat} (h : stop ≠ none → pos < refusedLoadAt c syms) (i : Instr) (ts : List Instr) :
    plannedFrom c syms stop pos (i :: ts) = i :: plannedFrom c syms stop (pos + tokenSpan i) ts := by
  rw [plannedFrom, plannedFrom]
  split
  · rfl
  · next hs => rw [tokensBefore, if_pos (h hs)]

theorem plannedFrom_of_le {pos : Nat} (hs : stop ≠ none) (h : refusedLoadAt c syms ≤ pos) (ts : List Instr) :
    plannedFrom c syms stop pos ts = [] := by
  rw [plannedFrom, if_neg hs]
  cases ts with
  | nil => rfl
  | cons i ts => rw [tokensBefore, if_neg (Nat.not_lt.2 h)]

theorem plannedFrom_nil (pos : Nat) : plannedFrom c syms stop pos [] = [] := by
  rw [plannedFrom]
  split <;> rfl

/-- With the window full after shifts by `d`, the load that is refused comes with a later shift than those. -/
theorem add_n_le_refusedLoadAt (hc : c.Geometry) {d : Nat} (hd : c.n ∣ d)
    (h : d + 2 * c.n ≤ (history c syms).length) : d + c.n ≤ refusedLoadAt c syms := by
  have hh := hc.h_add
  have hf := hc.f_lt
  obtain ⟨k, rfl⟩ := hd
  rw [history_length] at h
  rw [← Nat.mul_succ, Nat.mul_comm, refusedLoadAt]
  refine Nat.mul_le_mul_right _ ((Nat.le_div_iff_mul_le (by omega)).2 ?_)
  rw [Nat.mul_comm, Nat.mul_succ]
  omega

/-- With less than a whole window left to load after shifts by `d`, it comes no later than the last of those. -/
theorem refusedLoadAt_le (hc : c.Geometry) {d : Nat} (hd : c.n ∣ d)
    (h : (history c syms).length < d + 2 * c.n) : refusedLoadAt c syms ≤ d := by
  have hh := hc.h_add
  have hf := hc.f_lt
  obtain ⟨k, rfl⟩ := hd
  rw [history_length] at h
  rw [refusedLoadAt, Nat.mul_comm c.n k]
  refine Nat.mul_le_mul_right _ (Nat.lt_succ_iff.1 ((Nat.div_lt_iff_lt_mul (by omega)).2 ?_))
  rw [Nat.succ_mul, Nat.mul_comm k]
  omega

/-! ### The relation -/

/-- After shifts by `d` the encoder has put the tokens `ts`: its window mirrors the stream, its packer holds their bits,
its cursor is where they end, and what it still has to put is what the procedure emits from there. -/
structure Encoder.Follows (P : Params) (c : CfgRegs) (syms : List Nat) (stop : Option Exc) (bout : List (Item Byte))
    (d : Nat) (ts : List Instr) (e : Encoder) : Prop where
  loop : e.LoopInv c
  tracks : e.Tracks P c (history c syms) stop d
  aligned : c.n ∣ d
  pk : e.pk = Packer.holding 0 bout (tokensBits c.widths ts)
  fits : (tokensBits c.widths ts).length ≤ 8 * P.outCap
  position : d + e.regs.r = c.h + (ts.map tokenSpan).sum
  plan : ∃ fuel, (history c syms).length ≤ d + e.regs.r + fuel ∧
    planned c syms stop =
      ts ++ plannedFrom c syms stop (ts.map tokenSpan).sum (tokensFrom c (history c syms) fuel (d + e.regs.r))
  best : e.phase = .emitting → ∀ sym, e.win.read e.regs.r = some sym →
    (e.regs.x, e.regs.y) = search e.win sym e.regs.r e.regs.s e.regs.f1

/-- How an encode ends that has put the tokens `ts`. -/
structure Encoder.EndsWith (c : CfgRegs) (bout : List (Item Byte)) (ts : List Instr) (symcnt : Nat)
    (halt : Option Halt) (r : Encoder × Option Halt) : Prop where
  pk : r.1.pk = Packer.holding 0 bout (tokensBits c.widths ts)
  beyond : ∀ i, 2 * c.n ≤ i → r.1.win.read i = none
  counted : r.1.running ≠ .protect → r.1.symcnt = symcnt
  halt_eq : r.2 = halt

/-- An encode puts all the tokens planned, or stops at the first that does not fit (44_bitpacker.md R243). -/
def EncodeEnds (P : Params) (c : CfgRegs) (syms : List Nat) (stop : Option Exc) (bout : List (Item Byte))
    (r : Encoder × Option Halt) : Prop :=
  (tokensBits c.widths (planned c syms stop)).length ≤ 8 * P.outCap ∧
    Encoder.EndsWith c bout (planned c syms stop) syms.length (stop.map .raise) r ∨
  ∃ ts i later, planned c syms stop = ts ++ i :: later ∧
    (tokensBits c.widths ts).length ≤ 8 * P.outCap ∧
    8 * P.outCap < (tokensBits c.widths ts).length + (tokenBits c.widths i).length ∧
    Encoder.EndsWith c bout ts (loadedAt c syms.length ts)
      (some (.raise { kind := .bufferOverrun, info := (tokensBits c.widths ts).length / 8 })) r

variable {d : Nat} {ts : List Instr}

/-- Where work remains the search's bound is that of the stream: the window's finite size never shortens a match
(43_compressor.md R222). -/
theorem Encoder.Follows.boundAt_eq (hc : c.Geometry) (h : e.Follows P c syms stop bout d ts)
    (hr : e.regs.r < 2 * c.n - c.f) :
    boundAt c (history c syms) (d + e.regs.r) = min c.maxMatch (e.regs.bufferend - e.regs.r) := by
  have hmax := hc.maxMatch_add
  have hloaded := h.tracks.loaded
  rw [boundAt]
  cases heos : e.regs.eos with
  | true => have := (h.tracks.ended heos).2; omega
  | false => have := h.loop.inWindow.full heos; omega

/-- The search over `WIN` finds what the procedure finds in the stream. -/
theorem Encoder.Follows.search_eq (hc : c.Geometry) (h : e.Follows P c syms stop bout d ts)
    (hr : e.regs.r < 2 * c.n - c.f) (hb : e.regs.r < e.regs.bufferend) {sym : Nat}
    (hread : e.win.read e.regs.r = some sym) {x y : Nat}
    (hxy : (x, y) = search e.win sym e.regs.r e.regs.s (min c.maxMatch (e.regs.bufferend - e.regs.r))) :
    (bestAt c (history c syms) (d + e.regs.r)).2 = y ∧
      (2 ≤ y → (bestAt c (history c syms) (d + e.regs.r)).1 = d + x) := by
  have hbound := h.boundAt_eq hc hr
  have hbehind := h.loop.inWindow.behind
  have hf1 : 1 ≤ min c.maxMatch (e.regs.bufferend - e.regs.r) := by
    have := hc.f_ge
    have := hc.maxMatch_add
    omega
  have hend : e.regs.r + min c.maxMatch (e.regs.bufferend - e.regs.r) ≤ e.regs.bufferend := by omega
  generalize min c.maxMatch (e.regs.bufferend - e.regs.r) = f1 at *
  have hruns : ∀ i, i < e.regs.s + (e.regs.r - e.regs.s) →
      runAt e.win.read e.regs.r f1 i = runAt ((history c syms)[·]?) (d + e.regs.r) f1 (d + i) := fun i hi =>
    runAt_congr hf1 fun j hj => ⟨h.tracks.window _ (by omega), h.tracks.window _ (by omega)⟩
  have hbest : bestAt c (history c syms) (d + e.regs.r) =
      scan (runAt ((history c syms)[·]?) (d + e.regs.r) f1) (d + e.regs.s) (e.regs.r - e.regs.s) (0, 1) := by
    rw [bestAt, hbound, bestFrom_eq_scan, show d + e.regs.r - c.h = d + e.regs.s by omega,
      show e.regs.r - e.regs.s = c.h by omega]
  obtain ⟨hlen, hstart⟩ := scan_shift (x := 0) (x' := 0) hruns (fun h2 => absurd h2 (by decide)) (Nat.le_refl 1)
  rw [← search_eq_scan hread, ← hxy, ← hbest] at hlen hstart
  exact ⟨hlen.symm, hstart⟩

/-- The token at `Emitting` is the procedure's token at the cursor's stream position; the offset is the same modulo `N`
because the shifts are by multiples of `N`. -/
theorem Encoder.Follows.token_eq (hc : c.Geometry) (h : e.Follows P c syms stop bout d ts) (hp : e.phase = .emitting)
    {sym : Nat} (hread : e.win.read e.regs.r = some sym) :
    (history c syms)[d + e.regs.r]? = some sym ∧
      e.token c sym = tokenAt c (history c syms) (d + e.regs.r) sym := by
  obtain ⟨hr, hb, -, -, hf1⟩ := h.loop.emitting hp
  have hxy := h.best hp sym hread
  rw [hf1] at hxy
  obtain ⟨hy, hx⟩ := h.search_eq hc hr hb hread hxy
  refine ⟨h.tracks.window _ hb ▸ hread, ?_⟩
  rw [Encoder.token, tokenAt, hy]
  split
  · rfl
  · have hp1 := hc.p_ge
    obtain ⟨k, hk⟩ := h.aligned
    rw [hx (by omega), hk, Nat.mul_add_mod]

/-- Where a symbol will be refused the window is full, so that the load that meets it is still to come. -/
theorem Encoder.Follows.lt_refusedLoadAt (hc : c.Geometry) (h : e.Follows P c syms stop bout d ts)
    (hr : e.regs.r < 2 * c.n - c.f) (hs : stop ≠ none) : (ts.map tokenSpan).sum < refusedLoadAt c syms := by
  have heos : e.regs.eos = false := by
    by_contra hne
    exact hs (h.tracks.ended (by simpa using hne)).1
  have hfull := h.loop.inWindow.full heos
  have hloaded := h.tracks.loaded
  have hload := add_n_le_refusedLoadAt (syms := syms) hc h.aligned (by omega)
  have hpos := h.position
  have hh := hc.h_add
  omega

/-- The number of symbols loaded, while work remains (`loadedAt`). -/
theorem Encoder.Follows.loadedAt_eq (hc : c.Geometry) (h : e.Follows P c syms stop bout d ts)
    (hr : e.regs.r < 2 * c.n - c.f) : loadedAt c syms.length ts + c.h = d + e.regs.bufferend := by
  have hh := hc.h_add
  have hpos := h.position
  have hbehind := h.loop.inWindow.behind
  have hwithin := h.loop.inWindow.within
  have hloaded := h.tracks.loaded
  rw [history_length] at hloaded
  have hshifts : (ts.map tokenSpan).sum / c.n * c.n = d := by
    obtain ⟨k, hk⟩ := h.aligned
    have hlo : c.n * k ≤ (ts.map tokenSpan).sum := by omega
    have hhi : (ts.map tokenSpan).sum < c.n * (k + 1) := by rw [Nat.mul_succ]; omega
    rw [Nat.div_eq_of_lt_le (Nat.mul_comm c.n k ▸ hlo) (Nat.mul_comm c.n (k + 1) ▸ hhi), hk, Nat.mul_comm]
  rw [loadedAt, hshifts]
  cases heos : e.regs.eos with
  | true => have := (h.tracks.ended heos).2; rw [history_length] at this; omega
  | false => have := h.loop.inWindow.full heos; omega

/-- At `Emitting` the token at hand is the next of those planned. -/
theorem Encoder.Follows.plan_emitting (hc : c.Geometry) (h : e.Follows P c syms stop bout d ts)
    (hp : e.phase = .emitting) {sym : Nat} (hread : e.win.read e.regs.r = some sym) :
    ∃ fuel, (history c syms).length ≤ d + (e.regs.r + tokenSpan (e.token c sym)) + fuel ∧
      planned c syms stop =
        (ts ++ [e.token c sym]) ++ plannedFrom c syms stop ((ts ++ [e.token c sym]).map tokenSpan).sum
          (tokensFrom c (history c syms) fuel (d + (e.regs.r + tokenSpan (e.token c sym)))) := by
  obtain ⟨hr, hb, -⟩ := h.loop.emitting hp
  obtain ⟨hone, -⟩ := h.loop.tokenSpan_le hc hp sym
  obtain ⟨hsym, htok⟩ := h.token_eq hc hp hread
  have hloaded := h.tracks.loaded
  obtain ⟨fuel, hfuel, hplan⟩ := h.plan
  obtain ⟨fuel, rfl⟩ : ∃ m, fuel = m + 1 := ⟨fuel - 1, by omega⟩
  refine ⟨fuel, by omega, ?_⟩
  rw [hplan, tokensFrom_of_getElem? hc.p_ge hsym, ← htok, plannedFrom_cons (h.lt_refusedLoadAt hc hr),
    List.append_assoc, List.map_append, List.sum_append, ← Nat.add_assoc]
  simp

/-! ### The phases -/

theorem Encoder.Follows.matching (hc : c.Geometry) (h : e.Follows P c syms stop bout d ts) (hp : e.phase = .matching) :
    ∃ e1, e.phaseStep P c = (e1, none) ∧ e1.Follows P c syms stop bout d ts ∧ e1.phase = .emitting := by
  obtain ⟨sym, hread, hstep⟩ := h.loop.matching_eq (P := P) hp
  refine ⟨_, hstep, ?_, rfl⟩
  refine { h with loop := h.loop.matched hc hp hread, tracks := { h.tracks with }, best := fun _ v hv => ?_ }
  cases hread.symm.trans hv
  rfl

theorem Encoder.resume_phase (e : Encoder) : e.resume.phase = .matching ∨ e.resume.phase = .drained := by
  simp only [Encoder.resume]
  split
  · exact .inl rfl
  · exact .inr rfl

theorem Encoder.resume_phase_ne_filling (e : Encoder) : e.resume.phase ≠ .filling := by
  rcases e.resume_phase with h | h <;> rw [h] <;> nofun

theorem Encoder.resume_phase_ne_emitting (e : Encoder) : e.resume.phase ≠ .emitting := by
  rcases e.resume_phase with h | h <;> rw [h] <;> nofun

theorem Encoder.advance_eq (y : Nat) (pk : Packer) :
    ∃ p, p ≠ .emitting ∧ e.advance c y pk =
      { e with pk := pk, regs := { e.regs with y := y, r := e.regs.r + y, s := e.regs.s + y }, phase := p } := by
  rw [Encoder.advance]
  split
  · exact ⟨.shifting, nofun, rfl⟩
  · exact ⟨_, Encoder.resume_phase_ne_emitting _, rfl⟩

/-- The cursors and the packer move on by one token. -/
theorem Encoder.Follows.advance (hc : c.Geometry) (h : e.Follows P c syms stop bout d ts) (hp : e.phase = .emitting)
    {sym : Nat} (hread : e.win.read e.regs.r = some sym)
    (hfits : (tokensBits c.widths (ts ++ [e.token c sym])).length ≤ 8 * P.outCap) {pk : Packer}
    (hpk : pk = Packer.holding 0 bout (tokensBits c.widths (ts ++ [e.token c sym])))
    (hloop : (e.advance c (tokenSpan (e.token c sym)) pk).LoopInv c) :
    (e.advance c (tokenSpan (e.token c sym)) pk).Follows P c syms stop bout d (ts ++ [e.token c sym]) := by
  obtain ⟨p, hne, heq⟩ := Encoder.advance_eq (e := e) (c := c) (tokenSpan (e.token c sym)) pk
  have hplan := h.plan_emitting hc hp hread
  have hpos := h.position
  have hsum : ((ts ++ [e.token c sym]).map tokenSpan).sum = (ts.map tokenSpan).sum + tokenSpan (e.token c sym) := by
    simp
  rw [heq] at hloop ⊢
  refine ⟨hloop, { h.tracks with }, h.aligned, hpk, hfits, ?_, hplan, fun hemit => absurd hemit hne⟩
  show d + (e.regs.r + tokenSpan (e.token c sym)) = _
  omega

/-- `Emitting` puts the next token planned, or stops at it because it does not fit. -/
theorem Encoder.Follows.emitting (hc : c.Geometry) (h : e.Follows P c syms stop bout d ts) (hp : e.phase = .emitting) :
    (∃ e1 i, e.phaseStep P c = (e1, none) ∧ e1.Follows P c syms stop bout d (ts ++ [i]) ∧ 1 ≤ tokenSpan i) ∨
    ∃ e1 x, e.phaseStep P c = (e1, some x) ∧ EncodeEnds P c syms stop bout (e1, some x) := by
  have hr := (h.loop.emitting hp).1
  obtain ⟨sym, hread, hstep⟩ := h.loop.emitting_cases (P := P) hc hp
  have hone := (h.loop.tokenSpan_le hc hp sym).1
  have hbits : tokensBits c.widths (ts ++ [e.token c sym]) =
      tokensBits c.widths ts ++ tokenBits c.widths (e.token c sym) := by
    rw [tokensBits_append, tokensBits_cons]
    exact congrArg _ (List.append_nil _)
  rw [h.pk, Packer.putToken_holding, ← hbits] at hstep
  by_cases hover : 8 * P.outCap < (tokensBits c.widths (ts ++ [e.token c sym])).length
  · rw [if_pos hover] at hstep
    obtain ⟨pk, hput, -⟩ | ⟨x, y, hput, hstep⟩ := hstep
    · cases hput
    · cases hput
      obtain ⟨fuel, -, hplan⟩ := h.plan_emitting hc hp hread
      rw [List.append_assoc] at hplan
      rw [hbits, List.length_append] at hover
      refine .inr ⟨_, _, hstep, .inr ⟨ts, _, _, hplan, h.fits, hover, rfl, h.tracks.beyond, fun hrun => ?_, rfl⟩⟩
      have hcount := h.tracks.counted hrun
      have hload := h.loadedAt_eq hc hr
      show e.symcnt = _
      omega
  · rw [if_neg hover] at hstep
    obtain ⟨pk, hput, hstep, hloop⟩ | ⟨x, y, hput, -⟩ := hstep
    · exact .inl ⟨_, _, hstep, h.advance hc hp hread (Nat.not_lt.1 hover) (Except.ok.inj hput).symm hloop, hone⟩
    · cases hput

/-- An encode refused a symbol ends with the tokens that start before the load that met it. -/
theorem encodeEnds_of_refused {x : Exc} {e1 : Encoder} (hplan : planned c syms (some x) = ts)
    (hpk : e1.pk = Packer.holding 0 bout (tokensBits c.widths ts))
    (hfits : (tokensBits c.widths ts).length ≤ 8 * P.outCap) (hm : e1.Mirrors c (history c syms) d)
    (hall : d + e1.regs.bufferend = (history c syms).length) :
    EncodeEnds P c syms (some x) bout (e1, some (.raise x)) := by
  subst hplan
  refine .inl ⟨hfits, hpk, hm.beyond, fun hrun => ?_, rfl⟩
  have hcount := hm.counted hrun
  rw [history_length] at hall
  show e1.symcnt = syms.length
  omega

theorem Encoder.Follows.shifting (hc : c.Geometry) (h : e.Follows P c syms stop bout d ts) (hp : e.phase = .shifting) :
    (∃ e1 : Encoder, e.phaseStep P c = (e1.resume, none) ∧ e1.resume.Follows P c syms stop bout (d + c.n) ts) ∨
    ∃ e1 x, e.phaseStep P c = (e1, some x) ∧ EncodeEnds P c syms stop bout (e1, some x) := by
  obtain ⟨hlo, hhi⟩ := h.loop.shifting hp
  have hwin := h.loop.inWindow
  have hahead := hwin.ahead
  have hwithin := hwin.within
  have hf := hc.f_lt
  have hh := hc.h_add
  have hpos := h.position
  have hstep : e.phaseStep P c = e.shifting P c := by rw [Encoder.phaseStep, hp]
  have htracks := h.tracks.rebase hc (by omega) hwithin
  have hbuf : (e.rebase c).regs.bufferend = e.regs.bufferend - c.n := rfl
  have hroom : (e.rebase c).regs.bufferend + (2 * c.n - (e.rebase c).regs.bufferend) ≤ 2 * c.n := by omega
  rcases htracks.fill hroom with ⟨e1, hfill, ht⟩ | ⟨e1, x, hfill, rfl, hm, hpk, hall, hlen⟩
  · have hshift : e.shifting P c = (e1.resume, none) := by simp only [Encoder.shifting, hfill]
    have hl := (fill_loads (P := P) (c := c) (2 * c.n - (e.rebase c).regs.bufferend) (e.rebase c)).1
    rw [hfill] at hl
    have hr1 : d + c.n + e1.regs.r = d + e.regs.r := by
      rw [hl.r]
      show d + c.n + (e.regs.r - c.n) = d + e.regs.r
      omega
    have hplan := h.plan
    rw [← hr1] at hpos hplan
    exact .inl ⟨e1, hstep.trans hshift, h.loop.shifting_loopInv hc hp hshift, { ht with },
      Nat.dvd_add h.aligned (Nat.dvd_refl _), hl.pk.trans h.pk, h.fits, hpos, hplan,
      fun hemit => absurd hemit e1.resume_phase_ne_emitting⟩
  · have hshift : e.shifting P c = (e1, some (.raise x)) := by simp only [Encoder.shifting, hfill]
    obtain ⟨fuel, -, hplan⟩ := h.plan
    have hload : refusedLoadAt c syms ≤ d + c.n :=
      refusedLoadAt_le hc (Nat.dvd_add h.aligned (Nat.dvd_refl _)) (by omega)
    rw [plannedFrom_of_le (stop := some x) nofun (by omega), List.append_nil] at hplan
    exact .inr ⟨e1, _, hstep.trans hshift, encodeEnds_of_refused hplan (hpk.trans h.pk) h.fits hm hall⟩

/-- At `Drained` the input has ended and all of it is encoded. -/
theorem Encoder.Follows.drained (h : e.Follows P c syms stop bout d ts) (hp : e.phase = .drained) :
    EncodeEnds P c syms stop bout (e, none) := by
  obtain ⟨hr, heos⟩ := h.loop.drained hp
  obtain ⟨rfl, hall⟩ := h.tracks.ended heos
  obtain ⟨fuel, -, hplan⟩ := h.plan
  rw [tokensFrom_of_length_le (by omega), plannedFrom_nil, List.append_nil] at hplan
  subst hplan
  refine .inl ⟨h.fits, h.pk, h.tracks.beyond, fun hrun => ?_, rfl⟩
  have hcount := h.tracks.counted hrun
  rw [history_length] at hall
  show e.symcnt = syms.length
  omega

/-! ### The run of the phases -/

/-- A bound on the phases still to run with `m` symbols to encode: a search, an emission and a shift for each
(46_control_pipeline.md R302). -/
def phasesLeft (m : Nat) : Phase → Nat
  | .idle | .drained => 0
  | .matching => 3 * m
  | .emitting => 3 * m - 1
  | .shifting | .filling => 3 * m + 1

theorem phasesLeft_le (m : Nat) (p : Phase) : phasesLeft m p ≤ 3 * m + 1 := by
  cases p <;> simp only [phasesLeft] <;> omega

/-- The phases of the main loop (46_control_pipeline.md R300). -/
theorem Encoder.LoopInv.phase_mem (h : e.LoopInv c) :
    e.phase = .matching ∨ e.phase = .emitting ∨ e.phase = .shifting ∨ e.phase = .drained := by
  obtain ⟨-, -, -, -, -, ⟨hp, -⟩ | ⟨hp, -⟩ | ⟨hp, -⟩ | ⟨hp, -⟩⟩ := h <;> simp [hp]

/-- While a symbol loaded is still to be encoded the tokens put do not stand for the whole input. -/
theorem Encoder.Follows.sum_tokenSpan_lt (h : e.Follows P c syms stop bout d ts) (hb : e.regs.r < e.regs.bufferend) :
    (ts.map tokenSpan).sum < syms.length := by
  have hpos := h.position
  have hloaded := h.tracks.loaded
  rw [history_length] at hloaded
  omega

theorem Encoder.Follows.phasesLeft_pos (h : e.Follows P c syms stop bout d ts) (hp : e.phase ≠ .drained) :
    0 < phasesLeft (syms.length - (ts.map tokenSpan).sum) e.phase := by
  rcases h.loop.phase_mem with hphase | hphase | hphase | hphase
  · have hlt := h.sum_tokenSpan_lt (h.loop.matching hphase).2
    simp only [hphase, phasesLeft]
    omega
  · have hlt := h.sum_tokenSpan_lt (h.loop.emitting hphase).2.1
    simp only [hphase, phasesLeft]
    omega
  · simp only [hphase, phasesLeft]
    omega
  · exact absurd hphase hp

/-- Every phase goes on with fewer left to run, or ends the encode. -/
theorem Encoder.Follows.phaseStep (hc : c.Geometry) (h : e.Follows P c syms stop bout d ts) (hp : e.phase ≠ .drained) :
    (∃ e1 d1 ts1, e.phaseStep P c = (e1, none) ∧ e1.Follows P c syms stop bout d1 ts1 ∧
      phasesLeft (syms.length - (ts1.map tokenSpan).sum) e1.phase <
        phasesLeft (syms.length - (ts.map tokenSpan).sum) e.phase) ∨
    ∃ e1 x, e.phaseStep P c = (e1, some x) ∧ EncodeEnds P c syms stop bout (e1, some x) := by
  rcases h.loop.phase_mem with hphase | hphase | hphase | hphase
  · have hlt := h.sum_tokenSpan_lt (h.loop.matching hphase).2
    obtain ⟨e1, hstep, hnext, hphase1⟩ := h.matching hc hphase
    refine .inl ⟨e1, d, ts, hstep, hnext, ?_⟩
    simp only [hphase, hphase1, phasesLeft]
    omega
  · have hlt := h.sum_tokenSpan_lt (h.loop.emitting hphase).2.1
    refine (h.emitting hc hphase).imp_left ?_
    rintro ⟨e1, i, hstep, hnext, hone⟩
    have hsum : ((ts ++ [i]).map tokenSpan).sum = (ts.map tokenSpan).sum + tokenSpan i := by simp
    refine ⟨e1, d, ts ++ [i], hstep, hnext, Nat.lt_of_le_of_lt (phasesLeft_le _ _) ?_⟩
    simp only [hphase, phasesLeft, hsum]
    omega
  · refine (h.shifting hc hphase).imp_left ?_
    rintro ⟨e1, hstep, hnext⟩
    refine ⟨e1.resume, d + c.n, ts, hstep, hnext, ?_⟩
    rcases e1.resume_phase with hphase1 | hphase1 <;> simp only [hphase, hphase1, phasesLeft] <;> omega
  · exact absurd hphase hp

theorem Encoder.Follows.drive (hc : c.Geometry) :
    ∀ {fuel : Nat} {e : Encoder} {d : Nat} {ts : List Instr}, e.Follows P c syms stop bout d ts →
      phasesLeft (syms.length - (ts.map tokenSpan).sum) e.phase ≤ fuel →
      EncodeEnds P c syms stop bout (e.drive P c fuel)
  | 0, e, d, ts, h, hfuel => by
    have hp : e.phase = .drained := by
      by_contra hp
      exact absurd (h.phasesLeft_pos hp) (Nat.not_lt.2 hfuel)
    exact h.drained hp
  | fuel + 1, e, d, ts, h, hfuel => by
    by_cases hp : e.phase = .drained
    · rw [Encoder.drive, if_pos hp]
      exact h.drained hp
    · rcases h.phaseStep hc hp with ⟨e1, d1, ts1, hstep, hnext, hless⟩ | ⟨e1, x, hstep, hends⟩
      · simp only [Encoder.drive, if_neg hp, hstep]
        exact hnext.drive hc (by omega)
      · simp only [Encoder.drive, if_neg hp, hstep]
        exact hends

/-- An encode about to start: an empty packer, no symbol counted, the input offered. -/
structure Encoder.Starts (P : Params) (c : CfgRegs) (syms : List Nat) (stop : Option Exc) (bout : List (Item Byte))
    (e : Encoder) : Prop where
  phase : e.phase = .filling
  pk : e.pk = Packer.holding 0 bout []
  counted : e.running ≠ .protect → e.symcnt = 0
  source : e.Offers P c stop syms

/-- The blank history mirrors the stream before its first symbol (43_compressor.md R212). -/
theorem Encoder.Starts.blanked (hc : c.Geometry) (h : e.Starts P c syms stop bout) :
    (e.blanked c).Tracks P c (history c syms) stop 0 := by
  have hh := hc.h_add
  refine ⟨⟨?_, fun i hi => ?_, fun i hi => ?_, fun hrun => ?_⟩, fun _ => ?_, nofun⟩
  · show 0 + c.h ≤ _
    rw [history_length]
    omega
  · rw [Nat.zero_add, history_getElem?_of_lt hi]
    exact (Mem.read_blank _ _ _).trans (if_pos hi)
  · exact (Mem.read_blank _ _ _).trans (if_neg (by omega))
  · show e.symcnt + c.h = 0 + c.h
    rw [h.counted hrun]
  · have hdrop : (history c syms).drop (0 + (e.blanked c).regs.bufferend) = syms := by
      rw [Nat.zero_add, history]
      exact List.drop_left' (List.length_replicate ..)
    rw [hdrop]
    exact h.source

theorem Encoder.Starts.filling (hc : c.Geometry) (h : e.Starts P c syms stop bout) :
    (∃ e1, e.phaseStep P c = (e1, none) ∧ e1.Follows P c syms stop bout 0 []) ∨
    ∃ e1 x, e.phaseStep P c = (e1, some x) ∧ EncodeEnds P c syms stop bout (e1, some x) := by
  have hh := hc.h_add
  have hstep : e.phaseStep P c = e.filling P c := by rw [Encoder.phaseStep, h.phase]
  have hroom : (e.blanked c).regs.bufferend + (2 * c.n - c.h) = 2 * c.n := by
    show c.h + (2 * c.n - c.h) = 2 * c.n
    omega
  rcases (h.blanked hc).fill hroom.le with ⟨e1, hfill, ht⟩ | ⟨e1, x, hfill, rfl, hm, hpk, hall, hlen⟩
  · have hfilling : e.filling P c =
        (Encoder.resume { e1 with regs := { e1.regs with r := c.h, s := 0 } }, none) := by
      simp only [Encoder.blanked] at hfill
      simp only [Encoder.filling, hfill]
    have hl := (fill_loads (P := P) (c := c) (2 * c.n - c.h) (e.blanked c)).1
    rw [hfill] at hl
    refine .inl ⟨_, hstep.trans hfilling, Encoder.filling_loopInv hc hfilling, { ht with }, Nat.dvd_zero _,
      hl.pk.trans h.pk, Nat.zero_le _, Nat.zero_add _, ⟨syms.length, ?_, ?_⟩,
      fun hemit => absurd hemit (Encoder.resume_phase_ne_emitting _)⟩
    · show _ ≤ 0 + c.h + syms.length
      rw [history_length]
      omega
    · show planned c syms stop = [] ++ plannedFrom c syms stop 0 (tokensFrom c (history c syms) syms.length (0 + c.h))
      rw [Nat.zero_add]
      rfl
  · have hfilling : e.filling P c = (e1, some (.raise x)) := by
      simp only [Encoder.blanked] at hfill
      simp only [Encoder.filling, hfill]
    have hplan : planned c syms (some x) = [] :=
      plannedFrom_of_le (stop := some x) nofun (refusedLoadAt_le hc (Nat.dvd_zero _) (by omega)) _
    exact .inr ⟨e1, _, hstep.trans hfilling,
      encodeEnds_of_refused hplan (hpk.trans h.pk) (Nat.zero_le _) hm hall⟩

/-- The whole encode of an input within `CT_CAP`. -/
theorem Encoder.Starts.drive (hc : c.Geometry) (h : e.Starts P c syms stop bout) (hcap : syms.length ≤ P.ctCap) :
    EncodeEnds P c syms stop bout (e.drive P c (encodePhases P)) := by
  have hp : e.phase ≠ .drained := by rw [h.phase]; nofun
  rw [encodePhases]
  rcases h.filling hc with ⟨e1, hstep, hnext⟩ | ⟨e1, x, hstep, hends⟩
  · simp only [Encoder.drive, if_neg hp, hstep]
    exact hnext.drive hc (fuel := 3 * P.ctCap + 1) (Nat.le_trans (phasesLeft_le (syms.length - 0) _) (by omega))
  · simp only [Encoder.drive, if_neg hp, hstep]
    exact hends

/-! ### Which end it is -/

/-- A list that fits does not go on from one that fits by a token that does not. -/
theorem not_fits_of_overrun {tw : TokenWidths} {cap : Nat} {us z : List Instr} {i : Instr}
    (hi : cap < (tokensBits tw ts).length + (tokenBits tw i).length) (h : us = ts ++ i :: z) :
    ¬ (tokensBits tw us).length ≤ cap := by
  rw [h, tokensBits_append, tokensBits_cons, List.length_append, List.length_append]
  omega

/-- Where all the tokens planned fit, the encode puts them all. -/
theorem EncodeEnds.of_fits {r : Encoder × Option Halt} (h : EncodeEnds P c syms stop bout r)
    (hfits : (tokensBits c.widths (planned c syms stop)).length ≤ 8 * P.outCap) :
    Encoder.EndsWith c bout (planned c syms stop) syms.length (stop.map .raise) r := by
  rcases h with ⟨-, hends⟩ | ⟨us, j, later, hplan, -, hover, -⟩
  · exact hends
  · exact absurd hfits (not_fits_of_overrun hover hplan)

/-- The first token that does not fit is the only one of which that can be said. -/
theorem overrun_unique {tw : TokenWidths} {cap : Nat} {us later later' : List Instr} {i j : Instr}
    (heq : ts ++ i :: later = us ++ j :: later') (hts : (tokensBits tw ts).length ≤ cap)
    (hi : cap < (tokensBits tw ts).length + (tokenBits tw i).length) (hus : (tokensBits tw us).length ≤ cap)
    (hj : cap < (tokensBits tw us).length + (tokenBits tw j).length) : ts = us := by
  rcases List.append_eq_append_iff.1 heq with ⟨z, hz, hrest⟩ | ⟨z, hz, hrest⟩
  · cases z with
    | nil => rw [hz, List.append_nil]
    | cons k z => cases hrest; exact absurd hus (not_fits_of_overrun hi hz)
  · cases z with
    | nil => rw [hz, List.append_nil]
    | cons k z => cases hrest; exact absurd hts (not_fits_of_overrun hj hz)

/-- Where a token does not fit, the encode stops at it. -/
theorem EncodeEnds.of_overrun {r : Encoder × Option Halt} (h : EncodeEnds P c syms stop bout r) {i : Instr}
    {later : List Instr} (hplan : planned c syms stop = ts ++ i :: later)
    (hfits : (tokensBits c.widths ts).length ≤ 8 * P.outCap)
    (hover : 8 * P.outCap < (tokensBits c.widths ts).length + (tokenBits c.widths i).length) :
    Encoder.EndsWith c bout ts (loadedAt c syms.length ts)
      (some (.raise { kind := .bufferOverrun, info := (tokensBits c.widths ts).length / 8 })) r := by
  rcases h with ⟨hall, -⟩ | ⟨us, j, later', hplan', hfits', hover', hends⟩
  · exact absurd hall (not_fits_of_overrun hover hplan)
  · cases overrun_unique (hplan.symm.trans hplan') hfits hover hfits' hover'
    exact hends

end Sys2Proof.Machine
end

section
/-! What an encode leaves of its `SIN` segment (43_compressor.md R210, 20_memory.md R67). -/

namespace Sys2Proof.Machine

open Sys2Proof

/-- The end of the encode will leave `rest` on `SIN`: the segment's `EOS` has been pulled, or it is still to be
discarded; PROTECT's second phase comes after the `EOS`. -/
structure Encoder.Leaves (w : Running) (rest : List (Item Nat)) (e : Encoder) : Prop where
  running : e.running = w
  left : (if decide (w = .protect) || e.regs.eos then some e.sin else dropSegment e.sin) = some rest

variable {P : Params} {c : CfgRegs} {w : Running} {rest : List (Item Nat)} {e : Encoder}

/-- A symbol pulled from the segment belongs to what is discarded. -/
theorem Encoder.Leaves.pull_sym (h : e.Leaves w rest) (heos : e.regs.eos = false) {v : Nat} {e1 : Encoder}
    (hp : e.pull = .sym v e1) : e1.Leaves w rest ∧ e1.regs.eos = false := by
  obtain ⟨hrun, hleft⟩ := h
  by_cases hw : w = .protect
  · rw [Encoder.pull, hrun, hw] at hp
    simp only at hp
    split at hp
    · split at hp
      · cases hp; exact ⟨⟨hw.symm, hleft⟩, heos⟩
      · cases hp
    · cases hp
  · simp only [hw, heos, decide_false, Bool.or_self, Bool.false_eq_true, if_false] at hleft
    match hs : e.sin with
    | [] => rw [hs] at hleft; cases hleft
    | .eos :: port => rw [Encoder.pull_sin_eos (hrun ▸ hw) hs] at hp; cases hp
    | .sym u :: port =>
      rw [Encoder.pull_sin_sym (hrun ▸ hw) hs] at hp
      cases hp
      rw [hs] at hleft
      refine ⟨⟨hrun, ?_⟩, heos⟩
      simp only [hw, heos, decide_false, Bool.or_self, Bool.false_eq_true, if_false]
      exact hleft

/-- Behind the `EOS` pulled stands what is left. -/
theorem Encoder.Leaves.pull_eos (h : e.Leaves w rest) (heos : e.regs.eos = false) {e1 : Encoder}
    (hp : e.pull = .eos e1) : Encoder.Leaves w rest { e1 with regs := { e1.regs with eos := true } } := by
  obtain ⟨hrun, hleft⟩ := h
  by_cases hw : w = .protect
  · rw [Encoder.pull, hrun, hw] at hp
    simp only at hp
    split at hp
    · split at hp <;> cases hp
    · cases hp
      exact ⟨hrun, by simpa [hw] using hleft⟩
  · simp only [hw, heos, decide_false, Bool.or_self, Bool.false_eq_true, if_false] at hleft
    match hs : e.sin with
    | [] => rw [hs] at hleft; cases hleft
    | .eos :: port =>
      rw [Encoder.pull_sin_eos (hrun ▸ hw) hs] at hp
      cases hp
      rw [hs] at hleft
      exact ⟨hrun, by simpa [dropSegment] using hleft⟩
    | .sym u :: port => rw [Encoder.pull_sin_sym (hrun ▸ hw) hs] at hp; cases hp

theorem Encoder.Leaves.fill :
    ∀ (room : Nat) {e : Encoder}, e.Leaves w rest → (fill P c room e).1.Leaves w rest
  | 0, _, h => h
  | room + 1, e, h => by
    rw [Machine.fill]
    cases heos : e.regs.eos with
    | true => exact h
    | false =>
      rw [if_neg Bool.false_ne_true]
      split
      · exact h
      · next hp => exact h.pull_eos heos hp
      · next hp =>
        obtain ⟨h1, -⟩ := h.pull_sym heos hp
        split
        · exact h1
        · exact Encoder.Leaves.fill room { h1 with }

/-- `Filling` starts before any `EOS` has been pulled. -/
theorem Encoder.Leaves.filling (h : e.Leaves w rest) (heos : e.regs.eos = false) :
    (e.filling P c).1.Leaves w rest ∧ ((e.filling P c).2 = none → (e.filling P c).1.phase ≠ .filling) := by
  have hblank : (e.blanked c).Leaves w rest := ⟨h.running, by have hleft := h.left; rw [heos] at hleft; exact hleft⟩
  have hfill := hblank.fill (P := P) (c := c) (2 * c.n - c.h)
  simp only [Encoder.filling]
  simp only [Encoder.blanked] at hfill
  split
  · next hf => rw [hf] at hfill; exact ⟨hfill, nofun⟩
  · next hf =>
    rw [hf] at hfill
    exact ⟨{ hfill with }, fun _ => Encoder.resume_phase_ne_filling _⟩

theorem Encoder.Leaves.advance (h : e.Leaves w rest) (y : Nat) (pk : Packer) :
    (e.advance c y pk).Leaves w rest ∧ (e.advance c y pk).phase ≠ .filling := by
  rw [Encoder.advance]
  split
  · exact ⟨{ h with }, nofun⟩
  · exact ⟨{ h with }, Encoder.resume_phase_ne_filling _⟩

/-- Past `Filling` every phase keeps what will be left. -/
theorem Encoder.Leaves.phaseStep (h : e.Leaves w rest) (hp : e.phase ≠ .filling) :
    (e.phaseStep P c).1.Leaves w rest ∧ (e.phaseStep P c).1.phase ≠ .filling := by
  rw [Encoder.phaseStep]
  split
  · exact absurd ‹_› hp
  · rw [Encoder.matching]
    split
    · exact ⟨h, hp⟩
    · exact ⟨{ h with }, nofun⟩
  · rw [Encoder.emitting]
    split
    · exact ⟨h, hp⟩
    · split <;> split
      · exact ⟨{ h with }, hp⟩
      · exact h.advance _ _
      · exact ⟨h, hp⟩
      · exact h.advance _ _
  · have hrebase : (e.rebase c).Leaves w rest := { h with }
    have hfill := hrebase.fill (P := P) (c := c) (2 * c.n - (e.rebase c).regs.bufferend)
    have hphase := (fill_loads (P := P) (c := c) (2 * c.n - (e.rebase c).regs.bufferend) (e.rebase c)).1.phase
    simp only [Encoder.shifting]
    split
    · next hf => rw [hf] at hfill hphase; exact ⟨hfill, fun hfilling => hp (hphase.symm.trans hfilling)⟩
    · next hf => rw [hf] at hfill; exact ⟨{ hfill with }, Encoder.resume_phase_ne_filling _⟩
  · exact ⟨h, hp⟩
  · exact ⟨h, hp⟩

/-- However the encode ends, it keeps what will be left. -/
theorem Encoder.Leaves.drive (h : e.Leaves w rest) (heos : e.regs.eos = false) (hp : e.phase = .filling) :
    ∀ fuel, (e.drive P c fuel).1.Leaves w rest
  | 0 => h
  | fuel + 1 => by
    obtain ⟨hleaves, hnext⟩ := h.filling (P := P) (c := c) heos
    have hstep : e.phaseStep P c = e.filling P c := by rw [Encoder.phaseStep, hp]
    rw [Encoder.drive, if_neg (by rw [hp]; nofun), hstep]
    split
    · next hf => rw [hf] at hleaves; exact hleaves
    · next e1 hf =>
      rw [hf] at hleaves hnext
      exact (Encoder.drive_preserves (K := fun e => e.Leaves w rest ∧ e.phase ≠ .filling)
        (fun e hk => hk.1.phaseStep hk.2) fuel e1 ⟨hleaves, hnext rfl⟩).1

end Sys2Proof.Machine
end

section
/-! COMP: what the command answers, by the way its encode ends (43_compressor.md R210, R211; 44_bitpacker.md R243). -/

namespace Sys2Proof.Machine

open Sys2Proof

/-- The encoder COMP starts with (43_compressor.md R210). -/
def State.compEncoder (s : State) : Encoder := (startEncode .comp { s with symcnt := 0 }).encoder

variable {s : State} {stop : Option Exc} {syms : List Nat} {rest : List (Item Nat)}

/-! ### The end of an encode, by what its phases leave -/

/-- An encode that has put the tokens `ts` and all its input: the unfinished byte is flushed. -/
theorem endEncode_of_endsWith_none {c : CfgRegs} {bout : List (Item Byte)} {ts : List Instr} {n : Nat}
    {r : Encoder × Option Halt} (hends : Encoder.EndsWith c bout ts n none r)
    (hleaves : r.1.Leaves s.running rest) :
    endEncode (s.withEncoder r.1) r.2 =
      .next (done r.1.symcnt
        { s with
          sin := rest, bout := bout ++ segment (packBits (tokensBits c.widths ts)), symcnt := r.1.symcnt
          bytecnt := (packBits (tokensBits c.widths ts)).length, acc := 0, nbits := 0
          enc := r.1.regs, win := r.1.win }) := by
  have hflush : r.1.pk.flush = _ := hends.pk ▸ Packer.flush_holding (tokensBits c.widths ts)
  rw [hends.halt_eq]
  refine endStream_sinBout_next.2 ⟨rest, hleaves.left, ?_⟩
  have hpacker : (s.withEncoder r.1).packer.flush = _ := hflush
  rw [hpacker, State.withEncoder, segment, ← List.append_assoc]
  simp only [Nat.zero_add]
  rfl

/-- An encode that raises when it has put the tokens `ts`: the unfinished byte is lost (60_exceptions.md R333). -/
theorem endEncode_of_endsWith_raise {c : CfgRegs} {bout : List (Item Byte)} {ts : List Instr} {n : Nat} {x : Exc}
    {r : Encoder × Option Halt} (hends : Encoder.EndsWith c bout ts n (some (.raise x)) r)
    (hleaves : r.1.Leaves s.running rest) :
    endEncode (s.withEncoder r.1) r.2 =
      .next (raise x
        { s with
          sin := rest, bout := bout ++ segment (wholeBytes (tokensBits c.widths ts)), symcnt := r.1.symcnt
          bytecnt := (tokensBits c.widths ts).length / 8, acc := 0, nbits := 0
          enc := r.1.regs, win := r.1.win }) := by
  rw [hends.halt_eq]
  refine raiseStream_sinBout_next.2 ⟨rest, hleaves.left, ?_⟩
  rw [State.withEncoder, hends.pk, segment, ← List.append_assoc]
  simp only [Packer.holding, Nat.zero_add]
  rfl

/-! ### COMP -/

/-- On a segment whose symbols `syms` are admitted, and then refused with `stop` or ended, the encode starts as the
bufferless procedure does. -/
theorem State.compEncoder_starts {tail : List (Item Nat)} (hsin : s.sin = syms.map .sym ++ tail)
    (hsyms : ∀ v ∈ syms, v < 2 ^ s.cfg.symw.toNat) (hcap : syms.length ≤ s.params.ctCap)
    (htail : SinStops s.params s.cfg syms.length stop tail) :
    s.compEncoder.Starts s.params s.cfg syms stop s.bout where
  phase := rfl
  pk := Packer.holding_nil.symm
  counted := fun _ => rfl
  source := by
    refine ⟨nofun, fun _ => ⟨tail, hsin, fun v hv => decide_eq_true (hsyms v hv), ?_, ?_⟩⟩
    · exact (Nat.zero_add syms.length).symm ▸ hcap
    · exact (Nat.zero_add syms.length).symm ▸ htail

/-- The run of COMP's phases. -/
def State.compRun (s : State) : Encoder × Option Halt :=
  s.compEncoder.drive s.params s.cfg (encodePhases s.params)

theorem State.compRun_leaves (hrest : dropSegment s.sin = some rest) : s.compRun.1.Leaves .comp rest :=
  Encoder.Leaves.drive (e := s.compEncoder) ⟨rfl, hrest⟩ rfl rfl _

/-- Outside a session and under a legal configuration COMP is its encode. -/
theorem exec_comp_eq (hopen : s.status.pkopen = false) (hok : s.cfg.codecOk s.params = true) :
    exec .comp s =
      endEncode ((startEncode .comp { s with symcnt := 0 }).withEncoder s.compRun.1) s.compRun.2 := by
  show execComp s = _
  rw [execComp, if_neg (by rw [hopen]; exact Bool.false_ne_true), if_neg (by rw [hok]; exact Bool.noConfusion)]
  rfl

/-- COMP whose encode puts the tokens `ts` and all its input. -/
theorem exec_comp_of_endsWith_none {ts : List Instr} {n : Nat} (hopen : s.status.pkopen = false)
    (hok : s.cfg.codecOk s.params = true) (hrest : dropSegment s.sin = some rest)
    (hends : Encoder.EndsWith s.cfg s.bout ts n none s.compRun) :
    ∃ (enc : EncRegs) (win : Mem), (∀ i, 2 * s.cfg.n ≤ i → win.read i = none) ∧
      exec .comp s =
        .next (done n
          { s with
            sin := rest, bout := s.bout ++ segment (packBits (tokensBits s.cfg.widths ts)), symcnt := n
            bytecnt := (packBits (tokensBits s.cfg.widths ts)).length, acc := 0, nbits := 0, enc := enc
            win := win }) := by
  have hleaves := State.compRun_leaves hrest
  have hcount : s.compRun.1.symcnt = n := hends.counted (by rw [hleaves.running]; nofun)
  refine ⟨s.compRun.1.regs, s.compRun.1.win, hends.beyond, ?_⟩
  rw [exec_comp_eq hopen hok, endEncode_of_endsWith_none hends hleaves, hcount]
  rfl

/-- COMP whose encode raises when it has put the tokens `ts`. -/
theorem exec_comp_of_endsWith_raise {ts : List Instr} {n : Nat} {x : Exc} (hopen : s.status.pkopen = false)
    (hok : s.cfg.codecOk s.params = true) (hrest : dropSegment s.sin = some rest)
    (hends : Encoder.EndsWith s.cfg s.bout ts n (some (.raise x)) s.compRun) :
    ∃ (enc : EncRegs) (win : Mem),
      exec .comp s =
        .next (raise x
          { s with
            sin := rest, bout := s.bout ++ segment (wholeBytes (tokensBits s.cfg.widths ts)), symcnt := n
            bytecnt := (tokensBits s.cfg.widths ts).length / 8, acc := 0, nbits := 0, enc := enc, win := win }) := by
  have hleaves := State.compRun_leaves hrest
  have hcount : s.compRun.1.symcnt = n := hends.counted (by rw [hleaves.running]; nofun)
  refine ⟨s.compRun.1.regs, s.compRun.1.win, ?_⟩
  rw [exec_comp_eq hopen hok, endEncode_of_endsWith_raise hends hleaves, hcount]
  rfl

/-- The encode of a complete segment, all of it admitted. -/
theorem State.compRun_ends_of_admitted (hok : s.cfg.codecOk s.params = true) (hsin : s.sin = segment syms ++ rest)
    (hsyms : ∀ v ∈ syms, v < 2 ^ s.cfg.symw.toNat) (hcap : syms.length ≤ s.params.ctCap) :
    EncodeEnds s.params s.cfg syms none s.bout s.compRun :=
  (State.compEncoder_starts (tail := .eos :: rest) (by rw [hsin, segment, List.append_assoc]; rfl) hsyms hcap
    rfl).drive (CfgRegs.geometry_of_codecOk hok) hcap

/-- The error a symbol `v` is refused with after `cnt` symbols (43_compressor.md R211). -/
def refusal (P : Params) (cnt v : Nat) : Exc :=
  if cnt = P.ctCap then { kind := .bufferOverrun, info := P.ctCap } else { kind := .invalidSymbol, info := v }

/-- The encode of a segment with a symbol that is refused. -/
theorem State.compRun_ends_of_refused {v : Nat} {later : List Nat} (hok : s.cfg.codecOk s.params = true)
    (hsin : s.sin = segment (syms ++ v :: later) ++ rest) (hsyms : ∀ v ∈ syms, v < 2 ^ s.cfg.symw.toNat)
    (hcap : syms.length ≤ s.params.ctCap) (hv : syms.length < s.params.ctCap → 2 ^ s.cfg.symw.toNat ≤ v) :
    EncodeEnds s.params s.cfg syms (some (refusal s.params syms.length v)) s.bout s.compRun := by
  have hport : s.sin = syms.map .sym ++ .sym v :: (segment later ++ rest) := by simp [hsin, segment]
  have hstops : SinStops s.params s.cfg syms.length (some (refusal s.params syms.length v))
      (.sym v :: (segment later ++ rest)) := by
    rcases Nat.eq_or_lt_of_le hcap with hfull | hlt
    · exact .inl ⟨hfull, by rw [refusal, if_pos hfull, hfull]⟩
    · exact .inr ⟨hlt.ne, decide_eq_false (Nat.not_lt.2 (hv hlt)), by rw [refusal, if_neg hlt.ne]⟩
  exact (State.compEncoder_starts hport hsyms hcap hstops).drive (CfgRegs.geometry_of_codecOk hok) hcap

/-- Settles O28: the encode follows the bufferless procedure (`Encoder.Starts.drive`), which puts all the tokens where
they fit. -/
theorem compEmitsTheStreamTokens : Obligations.CompEmitsTheStreamTokens := by
  refine ⟨decodesTo_comp, fun s l rest hsin hopen hok hcap hsyms hfits => ?_⟩
  have hends := (State.compRun_ends_of_admitted hok hsin hsyms hcap).of_fits (by rwa [planned_none])
  rw [planned_none] at hends
  exact exec_comp_of_endsWith_none hopen hok (hsin ▸ dropSegment_segment l rest) hends

/-- Settles O29: of the two ways an encode can end (`EncodeEnds`) the sizes of the tokens say which it is; a symbol
refused stops the tokens planned at the load that meets it. -/
theorem compRaises : Obligations.CompRaises := by
  refine fun s => ⟨fun hopen => if_pos hopen, fun l rest hsin hopen => ?_⟩
  have hrest : dropSegment s.sin = some rest := hsin ▸ dropSegment_segment l rest
  refine ⟨fun hbad => ?_, fun l1 v l2 hok hl hsyms hcap hv hfits => ?_,
    fun l1 ts i later hok hsyms hcap hplan hfits hover => ?_⟩
  · show execComp s = _
    rw [execComp, if_neg (by rw [hopen]; exact Bool.false_ne_true), if_pos hbad]
    exact raiseStream_sinBout_next.2 ⟨rest, hrest, rfl⟩
  · have hends := (State.compRun_ends_of_refused hok (hl ▸ hsin) hsyms hcap hv).of_fits (by rwa [planned_some])
    rw [planned_some] at hends
    exact exec_comp_of_endsWith_raise hopen hok hrest hends
  · rcases hplan with ⟨hl, hplan⟩ | ⟨⟨v, l2, hl, hv⟩, hplan⟩
    · rw [← planned_none] at hplan
      have hends := (State.compRun_ends_of_admitted hok (hl ▸ hsin) hsyms hcap).of_overrun hplan.symm hfits hover
      exact exec_comp_of_endsWith_raise hopen hok hrest hends
    · rw [← planned_some] at hplan
      have hends := (State.compRun_ends_of_refused hok (hl ▸ hsin) hsyms hcap hv).of_overrun hplan.symm hfits hover
      exact exec_comp_of_endsWith_raise hopen hok hrest hends

end Sys2Proof.Machine
end

section
/-! A packer session (44_bitpacker.md R245 to R248). A packer whose unused bits are 0 holds the bits `heldBits` says, so
the facts about a packer as a bit sequence (`Packer.holding`) are facts about every session. -/

namespace Sys2Proof.Machine

open Sys2Proof

/-! ### The bits an accumulator holds -/

theorem fieldBits_getElem? (v : Nat) : ∀ {w k : Nat}, k < w → (fieldBits v w)[k]? = some (v.testBit (w - 1 - k))
  | w + 1, 0, _ => rfl
  | w + 1, k + 1, h => by
    rw [fieldBits, List.getElem?_cons_succ, fieldBits_getElem? v (by omega)]
    congr 2
    omega

@[simp] theorem heldBits_length (acc : Byte) (nbits : Fin 8) : (heldBits acc nbits).length = nbits.val := by
  rw [heldBits, byteBits, List.length_take, fieldBits_length]
  omega

/-- Bit `7 - k` of the accumulator is the `k`-th of the bits held. -/
theorem heldBits_getD (acc : Byte) (nbits : Fin 8) {i : Nat} (hi : i < 8) :
    (heldBits acc nbits).getD (7 - i) false = (decide (7 - i < nbits.val) && acc.getLsbD i) := by
  rw [List.getD_eq_getElem?_getD, heldBits, List.getElem?_take, byteBits,
    fieldBits_getElem? _ (show 7 - i < 8 by omega), show 8 - 1 - (7 - i) = i by omega]
  by_cases h : 7 - i < nbits.val
  · simp [h, BitVec.testBit_toNat]
  · simp [h]

variable {s : State} {p : Packer}

/-- A packer whose unused bits are 0 is the one that holds the top `NBITS` of its accumulator (10_state.md R50). -/
theorem Packer.LowZero.eq_holding (h : p.LowZero) :
    p = Packer.holding p.bytecnt p.bout (heldBits p.acc p.nbits) := by
  have hlt : p.nbits.val < 8 := p.nbits.isLt
  have hdiv : p.nbits.val / 8 = 0 := Nat.div_eq_of_lt hlt
  have hacc : byteAt (heldBits p.acc p.nbits) 0 = p.acc := by
    refine BitVec.eq_of_getLsbD_eq fun i hi => ?_
    rw [getLsbD_byteAt, Nat.mul_zero, Nat.zero_add, heldBits_getD _ _ hi]
    by_cases hheld : 7 - i < p.nbits.val
    · simp [hheld, hi]
    · have hzero : (p.acc.toNat % 2 ^ (8 - p.nbits.val)).testBit i = false := by
        rw [(h : _ % 2 ^ _ = 0), Nat.zero_testBit]
      rw [Nat.testBit_mod_two_pow, decide_eq_true (show i < 8 - p.nbits.val by omega), Bool.true_and] at hzero
      rw [decide_eq_false hheld, Bool.false_and, Bool.and_false]
      exact hzero.symm
  simp [Packer.holding, wholeBytes, hdiv, hacc]

/-! ### The packer of a session -/

@[simp] theorem sessionPacker_acc (s : State) : s.sessionPacker.acc = s.acc := by
  rw [State.sessionPacker]; split <;> rfl

@[simp] theorem sessionPacker_nbits (s : State) : s.sessionPacker.nbits = s.nbits := by
  rw [State.sessionPacker]; split <;> rfl

@[simp] theorem sessionPacker_bout (s : State) : s.sessionPacker.bout = s.bout := by
  rw [State.sessionPacker]; split <;> rfl

theorem sessionPacker_eq_holding (h : s.acc.toNat % 2 ^ (8 - s.nbits.val) = 0) :
    s.sessionPacker = Packer.holding s.sessionBytes s.bout (heldBits s.acc s.nbits) := by
  have hlow : s.sessionPacker.LowZero := by rwa [Packer.LowZero, sessionPacker_acc, sessionPacker_nbits]
  simpa using hlow.eq_holding

/-! ### PUTL and PUTM -/

/-- What remains of PUTL and PUTM when the operands are admitted: the token's bits, whole or not at all (44_bitpacker.md
R243). -/
def putOutcome (s : State) (bits : List Bool) : Outcome := endPut s (s.sessionPacker.putToken s.params bits)

theorem putOutcome_of_overrun {bits : List Bool}
    (hover : 8 * s.params.outCap < 8 * s.sessionBytes + s.nbits.val + bits.length) :
    putOutcome s bits =
      .next (raise { kind := .bufferOverrun, info := s.sessionBytes } { s with bytecnt := s.sessionBytes }) := by
  rw [putOutcome, putToken_eq, sessionPacker_bytecnt, sessionPacker_nbits, if_pos hover, endPut, sessionPacker_bytecnt]

theorem putOutcome_of_fits {bits : List Bool}
    (hfits : 8 * s.sessionBytes + s.nbits.val + bits.length ≤ 8 * s.params.outCap) :
    putOutcome s bits =
      .next (done 0 { s.withPacker (s.sessionPacker.putBits bits) with status := s.status.setOpen true }) := by
  rw [putOutcome, putToken_eq, sessionPacker_bytecnt, sessionPacker_nbits, if_neg (Nat.not_lt.2 hfits), endPut]

/-- The packer's new state in the words of the statements: whole bytes on `BOUT`, the rest in `ACC`. -/
theorem withPacker_putBits_eq_afterBits (h : s.acc.toNat % 2 ^ (8 - s.nbits.val) = 0) (bits : List Bool) :
    s.withPacker (s.sessionPacker.putBits bits) = s.afterBits bits := by
  rw [sessionPacker_eq_holding h, Packer.putBits_holding]
  rfl

theorem exec_putl_of_badConfig (hbad : s.cfg.codecOk s.params = false) (sym : Nat) :
    exec (.putl sym) s = .next (raise { kind := .badConfig, info := 0 } s) := if_pos hbad

theorem exec_putl_of_not_fits {sym : Nat} (hok : s.cfg.codecOk s.params = true) (hsym : 2 ^ s.cfg.symw.toNat ≤ sym) :
    exec (.putl sym) s = .next (raise { kind := .invalidSymbol, info := sym } s) :=
  (if_neg (by simp [hok])).trans (if_pos (decide_eq_false (Nat.not_lt.2 hsym)))

theorem exec_putl_of_admitted {sym : Nat} (hok : s.cfg.codecOk s.params = true) (hsym : sym < 2 ^ s.cfg.symw.toNat) :
    exec (.putl sym) s = putOutcome s (literalBits s.cfg.symw.toNat sym) :=
  (if_neg (by simp [hok])).trans (if_neg (by simp [CfgRegs.fitsSymbol, hsym]))

theorem exec_putm_of_badConfig (hbad : s.cfg.codecOk s.params = false) (off len : Nat) :
    exec (.putm off len) s = .next (raise { kind := .badConfig, info := 0 } s) := if_pos hbad

theorem exec_putm_of_bad_offset {off : Nat} (hok : s.cfg.codecOk s.params = true) (hoff : 2 ^ s.cfg.ei.toNat ≤ off)
    (len : Nat) : exec (.putm off len) s = .next (raise { kind := .illegalCommand, info := 3 } s) :=
  (if_neg (by simp [hok])).trans (if_pos hoff)

theorem exec_putm_of_bad_length {off len : Nat} (hok : s.cfg.codecOk s.params = true)
    (hoff : off < 2 ^ s.cfg.ei.toNat) (hlen : len < s.cfg.p + 1 ∨ s.cfg.f - 1 < len) :
    exec (.putm off len) s = .next (raise { kind := .illegalCommand, info := 4 } s) :=
  (if_neg (by simp [hok])).trans ((if_neg (Nat.not_le.2 hoff)).trans (if_pos hlen))

theorem exec_putm_of_admitted {off len : Nat} (hok : s.cfg.codecOk s.params = true) (hoff : off < 2 ^ s.cfg.ei.toNat)
    (hmin : s.cfg.p + 1 ≤ len) (hmax : len ≤ s.cfg.f - 1) :
    exec (.putm off len) s = putOutcome s (matchBits s.cfg.ei.toNat s.cfg.ej.toNat off (len - 2)) :=
  (if_neg (by simp [hok])).trans ((if_neg (Nat.not_le.2 hoff)).trans (if_neg (by omega)))

/-! ### FLUSH -/

theorem exec_flush_eq (s : State) :
    exec .flush s =
      .next (done s.sessionPacker.flush.bytecnt
        { s.withPacker { s.sessionPacker.flush with bout := s.sessionPacker.flush.bout ++ [.eos] } with
          status := s.status.setOpen false }) := rfl

/-- A flush pushes the accumulator where it holds bits (44_bitpacker.md R244). -/
theorem Packer.flush_eq (p : Packer) :
    p.flush =
      { acc := 0, nbits := 0, bytecnt := p.bytecnt + if p.nbits = 0 then 0 else 1
        bout := p.bout ++ if p.nbits = 0 then [] else [.sym p.acc] } := by
  have hzero : p.nbits.val = 0 ↔ p.nbits = 0 := Fin.val_eq_zero_iff
  rw [Packer.flush]
  by_cases h : p.nbits = 0
  · rw [if_neg (not_not.2 (hzero.2 h)), if_pos h, if_pos h, List.append_nil]
    rfl
  · rw [if_pos (mt hzero.1 h), if_neg h, if_neg h]

end Sys2Proof.Machine
end

section
/-! The obligations of PUTL, PUTM and FLUSH. -/

namespace Sys2Proof.Machine

open Sys2Proof

/-- Settles O23: with the operand admitted, the Literal's bits go to a packer that holds what `ACC` holds
(`withPacker_putBits_eq_afterBits`), or exceed the capacity. -/
theorem putlPutsALiteral : Obligations.PutlPutsALiteral := by
  refine ⟨decodesTo_putl, fun sym s hacc =>
    ⟨fun hbad => exec_putl_of_badConfig hbad sym, exec_putl_of_not_fits, fun hok hsym => ?_⟩⟩
  have hexec := exec_putl_of_admitted hok hsym
  refine ⟨fun hover => hexec.trans (putOutcome_of_overrun ?_), fun hfits => hexec.trans ?_⟩
  · rwa [literalBits_length]
  · rw [putOutcome_of_fits (by rwa [literalBits_length]), withPacker_putBits_eq_afterBits hacc]
    rfl

/-- Settles O24: as for PUTL, with the Match's bits. -/
theorem putmPutsAMatch : Obligations.PutmPutsAMatch := by
  refine ⟨decodesTo_putm, fun off len s hacc =>
    ⟨fun hbad => exec_putm_of_badConfig hbad off len, fun hok =>
      ⟨fun hoff => exec_putm_of_bad_offset hok hoff len, exec_putm_of_bad_length hok, fun hoff hmin hmax => ?_⟩⟩⟩
  have hexec := exec_putm_of_admitted hok hoff hmin hmax
  refine ⟨fun hover => hexec.trans (putOutcome_of_overrun ?_), fun hfits => hexec.trans ?_⟩
  · rwa [matchBits_length]
  · rw [putOutcome_of_fits (by rwa [matchBits_length]), withPacker_putBits_eq_afterBits hacc]
    rfl

/-- Settles O25: the flush of the session's packer (`Packer.flush_eq`), with `EOS` pushed after it. -/
theorem flushClosesTheSession : Obligations.FlushClosesTheSession := by
  refine ⟨decodesTo_flush, fun s => ?_⟩
  rw [exec_flush_eq, Packer.flush_eq, sessionPacker_bytecnt, sessionPacker_nbits, sessionPacker_bout, sessionPacker_acc]
  rfl

end Sys2Proof.Machine
end

section
/-! The session that puts COMP's tokens by hand (44_bitpacker.md R250). -/

namespace Sys2Proof.Machine

open Sys2Proof

/-- A token PUTL or PUTM takes under a configuration (44_bitpacker.md R245, R246). -/
def CfgRegs.Admits (c : CfgRegs) : Instr → Prop
  | .literal v => v < 2 ^ c.symw.toNat
  | .matchTok off len2 => off < c.n ∧ c.p + 1 ≤ len2 + 2 ∧ len2 + 2 ≤ c.f - 1
  | _ => False

/-- The tokens COMP emits for symbols of `SYMW` bits are among those PUTL and PUTM take. -/
theorem CfgRegs.admits_of_mem_streamTokens {P : Params} {c : CfgRegs} {l : List Nat} (hok : c.codecOk P = true)
    (hsyms : ∀ v ∈ l, v < 2 ^ c.symw.toNat) {i : Instr} (hi : i ∈ streamTokens c l) : c.Admits i := by
  obtain ⟨hlaws, -, -⟩ := emittedTokenLaws.1 P c l hok
  obtain ⟨v, hv, rfl⟩ | ⟨off, len2, rfl, hoff, hmin, hmax, -⟩ := hlaws i hi
  · exact hsyms v hv
  · exact ⟨hoff, hmin, hmax⟩

variable {s : State} {bout : List (Item Byte)} {bits : List Bool}

theorem execAll_cons_of_next {i : Instr} {is : List Instr} {t : State} (h : exec i s = .next t) :
    execAll (i :: is) s = execAll is t := by
  rw [execAll, h]

/-- An admitted token put by hand. -/
theorem exec_tokenCommand {i : Instr} (hok : s.cfg.codecOk s.params = true) (hi : s.cfg.Admits i) :
    exec (tokenCommand i) s = putOutcome s (tokenBits s.cfg.widths i) := by
  cases i with
  | literal v => exact exec_putl_of_admitted hok hi
  | matchTok off len2 =>
    obtain ⟨hoff, hmin, hmax⟩ := hi
    exact exec_putm_of_admitted hok hoff hmin hmax
  | _ => exact hi.elim

/-- FLUSH of a session that has put `bits`. -/
theorem exec_flush_of_holding (hpk : s.sessionPacker = Packer.holding 0 bout bits) :
    exec .flush s =
      .next (done (packBits bits).length
        { s with
          acc := 0, nbits := 0, bytecnt := (packBits bits).length, bout := bout ++ segment (packBits bits)
          status := s.status.setOpen false }) := by
  rw [exec_flush_eq, hpk, Packer.flush_holding, segment, ← List.append_assoc]
  simp only [Nat.zero_add]
  rfl

/-- The state after a token's bits in a session that has put `bits`. -/
def State.putting (s : State) (bout : List (Item Byte)) (bits : List Bool) : State :=
  done 0 { s.withPacker (Packer.holding 0 bout bits) with status := s.status.setOpen true }

@[simp] theorem putting_res (s : State) (bout : List (Item Byte)) (bits : List Bool) :
    (s.putting bout bits).res = s.res ++ [{ code := 0, value := 0 }] := rfl

@[simp] theorem putting_cfg (s : State) (bout : List (Item Byte)) (bits : List Bool) :
    (s.putting bout bits).cfg = s.cfg := rfl

/-- The packer of the session goes on from there. -/
@[simp] theorem putting_sessionPacker (s : State) (bout : List (Item Byte)) (bits : List Bool) :
    (s.putting bout bits).sessionPacker = Packer.holding 0 bout bits := rfl

theorem putOutcome_of_holding {more : List Bool} (hpk : s.sessionPacker = Packer.holding 0 bout bits)
    (hfits : (bits ++ more).length ≤ 8 * s.params.outCap) :
    putOutcome s more = .next (s.putting bout (bits ++ more)) := by
  rw [putOutcome, hpk, Packer.putToken_holding, if_neg (Nat.not_lt.2 hfits)]
  rfl

/-- A session that has put `bits` and goes on with the tokens `ts` and FLUSH: one record `(0, 0)` for each token, and
the bytes of all the bits. -/
theorem execAll_session (ts : List Instr) (hok : s.cfg.codecOk s.params = true) (hts : ∀ i ∈ ts, s.cfg.Admits i)
    (hpk : s.sessionPacker = Packer.holding 0 bout bits)
    (hfits : (bits ++ tokensBits s.cfg.widths ts).length ≤ 8 * s.params.outCap) :
    ∃ t, execAll (ts.map tokenCommand ++ [.flush]) s = .next t ∧
      t.res = s.res ++ List.replicate ts.length { code := 0, value := 0 } ++
        [{ code := 0, value := (packBits (bits ++ tokensBits s.cfg.widths ts)).length }] ∧
      t.bytecnt = (packBits (bits ++ tokensBits s.cfg.widths ts)).length ∧
      t.bout = bout ++ segment (packBits (bits ++ tokensBits s.cfg.widths ts)) := by
  induction ts generalizing s bits with
  | nil =>
    have hbits : bits ++ tokensBits s.cfg.widths [] = bits := List.append_nil bits
    rw [hbits]
    exact ⟨_, execAll_cons_of_next (exec_flush_of_holding hpk), by simp, rfl, rfl⟩
  | cons i ts ih =>
    obtain ⟨hi, hts⟩ := List.forall_mem_cons.1 hts
    rw [tokensBits_cons, ← List.append_assoc] at hfits ⊢
    have hput := putOutcome_of_holding hpk (more := tokenBits s.cfg.widths i)
      (by rw [List.length_append] at hfits; omega)
    obtain ⟨t, hrun, hres, hbytes, hbout⟩ :=
      ih (s := s.putting bout (bits ++ tokenBits s.cfg.widths i)) hok hts (putting_sessionPacker ..) hfits
    refine ⟨t, (execAll_cons_of_next ((exec_tokenCommand hok hi).trans hput)).trans hrun, ?_, hbytes, hbout⟩
    rw [hres, putting_res, putting_cfg, List.length_cons, List.replicate_succ]
    simp only [List.append_assoc, List.cons_append, List.nil_append]

/-- Settles O36: the tokens COMP emits are admitted one by one, the session's bits are the tokens' bits
(`execAll_session`), and COMP packs the same bits (`compEmitsTheStreamTokens`). -/
theorem sessionEqualsComp : Obligations.SessionEqualsComp := by
  intro s l rest hsin hopen hacc hnbits hok hcap hsyms hfits
  have hempty : s.sessionPacker = Packer.holding 0 s.bout [] := by
    rw [Packer.holding_nil, State.sessionPacker, if_pos hopen, State.packer, hacc, hnbits]
  have hadmits : ∀ i ∈ streamTokens s.cfg l, s.cfg.Admits i := fun _ => CfgRegs.admits_of_mem_streamTokens hok hsyms
  obtain ⟨t, hrun, hres, hbytes, hbout⟩ := execAll_session (streamTokens s.cfg l) hok hadmits hempty hfits
  obtain ⟨enc, win, -, hcomp⟩ := compEmitsTheStreamTokens.2 s l rest hsin hopen hok hcap hsyms hfits
  exact ⟨t, _, hrun, hres, hcomp, hbout, hbytes, hbout⟩

end Sys2Proof.Machine
end

section
/-! The unpacker as a bit sequence (45_decoder.md R261): each of its reads takes from the bits still to be read what the
format of 30_encoding.md R90 to R95 takes from the front of a bit sequence, and pulls no element beyond the segment's
bytes but the `EOS` it ends at. -/

namespace Sys2Proof.Machine

open Sys2Proof

/-- The bits still to be read: those left in `IBUF`, then those of the rest of the segment. -/
def Unpacker.bits (u : Unpacker) : List Bool :=
  fieldBits u.ibuf.toNat u.ibits.val ++ (segmentBytes u.bin).flatMap byteBits

theorem pendingBits_eq (s : State) : s.pendingBits = s.decoder.unp.bits := rfl

/-! ### The bytes of a segment -/

@[simp] theorem segmentBytes_segment (bytes : List Byte) (rest : List (Item Byte)) :
    segmentBytes (segment bytes ++ rest) = bytes := by
  induction bytes with
  | nil => rfl
  | cons b bytes ih => exact congrArg (b :: ·) ih

/-- What is left of a port when some bytes of its segment, and nothing else, have been pulled. -/
def Passes (port left : List (Item Byte)) : Prop := ∃ k ≤ (segmentBytes port).length, left = port.drop k

theorem Passes.refl (port : List (Item Byte)) : Passes port port := ⟨0, Nat.zero_le _, rfl⟩

theorem Passes.cons {port left : List (Item Byte)} (h : Passes port left) (b : Byte) :
    Passes (.sym b :: port) left := by
  obtain ⟨k, hk, rfl⟩ := h
  exact ⟨k + 1, Nat.succ_le_succ hk, rfl⟩

theorem Passes.cases {port left : List (Item Byte)} (h : Passes port left) :
    left = port ∨ ∃ b tail, port = .sym b :: tail ∧ Passes tail left := by
  obtain ⟨k, hk, rfl⟩ := h
  match port, k with
  | _, 0 => exact .inl rfl
  | .sym b :: tail, k + 1 => exact .inr ⟨b, tail, rfl, k, Nat.le_of_succ_le_succ hk, rfl⟩

theorem Passes.trans : ∀ {p q r : List (Item Byte)}, Passes p q → Passes q r → Passes p r
  | p, q, r, hpq, hqr => by
    rcases hpq.cases with rfl | ⟨b, tail, rfl, htail⟩
    · exact hqr
    · exact (htail.trans hqr).cons b

/-- The end of the segment stays where it is. -/
theorem Passes.dropSegment_eq : ∀ {p q : List (Item Byte)}, Passes p q → dropSegment q = dropSegment p
  | p, q, h => by
    rcases h.cases with rfl | ⟨b, tail, rfl, htail⟩
    · rfl
    · exact htail.dropSegment_eq

/-! ### The reads -/

/-- A read answers as the parse of the bits still to be read does: the value, with the bits after it still to be read;
or, where the bits do not suffice, the end of the segment, its `EOS` pulled. -/
def Got.Parses {α : Type} (u : Unpacker) : Option (α × List Bool) → Got α → Prop
  | some (a, rest), g => ∃ v, g = .ok a v ∧ v.bits = rest ∧ Passes u.bin v.bin
  | none, g => ∀ port, dropSegment u.bin = some port → ∃ v, g = .ended v ∧ v.bin = port

/-- A read that begins where another has ended. -/
theorem Got.Parses.after {α : Type} {u v : Unpacker} {o : Option (α × List Bool)} {g : Got α}
    (hp : Passes u.bin v.bin) (h : g.Parses v o) : g.Parses u o := by
  match o with
  | some (a, rest) =>
    obtain ⟨w, hg, hbits, hw⟩ := h
    exact ⟨w, hg, hbits, hp.trans hw⟩
  | none => exact fun port hport => h port (hp.dropSegment_eq.trans hport)

/-- The two ways a read ends. -/
theorem Got.Parses.cases {α : Type} {u : Unpacker} {o : Option (α × List Bool)} {g : Got α} (h : g.Parses u o) :
    (∃ a v, o = some (a, v.bits) ∧ g = .ok a v ∧ Passes u.bin v.bin) ∨
    (o = none ∧ ∀ port, dropSegment u.bin = some port → ∃ v, g = .ended v ∧ v.bin = port) := by
  match o with
  | some (a, _) =>
    obtain ⟨v, hg, rfl, hpass⟩ := h
    exact .inl ⟨a, v, rfl, hg, hpass⟩
  | none => exact .inr ⟨rfl, h⟩

/-- One bit (45_decoder.md R261). -/
theorem getBit_of_bits_cons {u : Unpacker} {b : Bool} {bs : List Bool} (h : u.bits = b :: bs) :
    ∃ v, u.getBit = .ok b v ∧ v.bits = bs ∧ Passes u.bin v.bin := by
  obtain ⟨ibuf, ibits, bin⟩ := u
  by_cases h0 : ibits.val = 0
  · rw [Unpacker.getBit, if_pos h0]
    match bin with
    | [] => simp [Unpacker.bits, h0, segmentBytes, fieldBits] at h
    | .eos :: _ => simp [Unpacker.bits, h0, segmentBytes, fieldBits] at h
    | .sym a :: rest =>
      have hbits : byteBits a ++ (segmentBytes rest).flatMap byteBits = b :: bs := by
        simpa [Unpacker.bits, h0, segmentBytes, fieldBits] using h
      obtain ⟨hb, hbs⟩ := List.cons.inj hbits
      exact ⟨{ ibuf := a, ibits := 7, bin := rest }, by rw [← hb], hbs, (Passes.refl rest).cons a⟩
  · rw [Unpacker.getBit, if_neg h0]
    have hpred : (ibits - 1).val = ibits.val - 1 := Fin.val_sub_one_of_ne_zero (mt Fin.val_eq_zero_iff.2 h0)
    have hsucc : ibits.val = (ibits - 1).val + 1 := by omega
    rw [Unpacker.bits] at h
    simp only [hsucc, fieldBits] at h
    obtain ⟨hb, hbs⟩ := List.cons.inj h
    exact ⟨{ ibuf := ibuf, ibits := ibits - 1, bin := bin }, by rw [← hb, hpred], hbs, Passes.refl bin⟩

theorem getBit_of_bits_nil {u : Unpacker} {port : List (Item Byte)} (h : u.bits = [])
    (hport : dropSegment u.bin = some port) : ∃ v, u.getBit = .ended v ∧ v.bin = port := by
  obtain ⟨hheld, hmore⟩ := List.append_eq_nil_iff.1 h
  have h0 : u.ibits.val = 0 := by simpa using congrArg List.length hheld
  rw [Unpacker.getBit, if_pos h0]
  match hbin : u.bin with
  | [] => rw [hbin] at hport; cases hport
  | .eos :: rest => rw [hbin] at hport; cases hport; exact ⟨_, rfl, rfl⟩
  | .sym a :: rest => rw [hbin] at hmore; cases hmore

/-- A field (30_encoding.md R95). -/
theorem getBits_parses : ∀ (w v : Nat) (u : Unpacker), (u.getBits w v).Parses u (readField w v u.bits)
  | 0, v, u => ⟨u, rfl, rfl, Passes.refl u.bin⟩
  | w + 1, v, u => by
    cases hbits : u.bits with
    | nil =>
      intro port hport
      obtain ⟨u1, hbit, hbin⟩ := getBit_of_bits_nil hbits hport
      exact ⟨u1, by rw [Unpacker.getBits, hbit], hbin⟩
    | cons b bs =>
      obtain ⟨u1, hbit, rfl, hpass⟩ := getBit_of_bits_cons hbits
      rw [Unpacker.getBits, hbit]
      exact (getBits_parses w (2 * v + b.toNat) u1).after hpass

/-- A token (45_decoder.md R263, R264, R266): what the segment's bits decode to. -/
theorem getToken_parses (tw : TokenWidths) (u : Unpacker) :
    (u.getToken tw).Parses u (decodeToken tw u.bits).toOption := by
  cases hbits : u.bits with
  | nil =>
    intro port hport
    obtain ⟨u1, hbit, hbin⟩ := getBit_of_bits_nil hbits hport
    exact ⟨u1, by rw [Unpacker.getToken, hbit], hbin⟩
  | cons b bs =>
    obtain ⟨u1, hbit, rfl, hpass⟩ := getBit_of_bits_cons hbits
    refine Got.Parses.after hpass ?_
    rw [Unpacker.getToken, hbit]
    cases b with
    | true =>
      rw [decodeToken]
      rcases (getBits_parses tw.symw 0 u1).cases with ⟨sym, u2, hread, hgot, hpass⟩ | ⟨hread, hend⟩ <;> rw [hread]
      · exact ⟨u2, by simp only [hgot], rfl, hpass⟩
      · intro port hport
        obtain ⟨u2, hgot, hbin⟩ := hend port hport
        exact ⟨u2, by simp only [hgot], hbin⟩
    | false =>
      rw [decodeToken]
      rcases (getBits_parses tw.ei 0 u1).cases with ⟨off, u2, hread, hgot, hpass⟩ | ⟨hread, hend⟩ <;> rw [hread]
      · refine Got.Parses.after hpass ?_
        simp only [hgot]
        rcases (getBits_parses tw.ej 0 u2).cases with ⟨len2, u3, hread, hgot, hpass⟩ | ⟨hread, hend⟩ <;> rw [hread]
        · exact ⟨u3, by simp only [hgot], rfl, hpass⟩
        · intro port hport
          obtain ⟨u3, hgot, hbin⟩ := hend port hport
          exact ⟨u3, by simp only [hgot], hbin⟩
      · intro port hport
        obtain ⟨u2, hgot, hbin⟩ := hend port hport
        exact ⟨u2, by simp only [hgot], hbin⟩

theorem getToken_of_decodeToken_ok {tw : TokenWidths} {u : Unpacker} {i : Instr} {rest : List Bool}
    (h : decodeToken tw u.bits = .ok (i, rest)) :
    ∃ v, u.getToken tw = .ok i v ∧ v.bits = rest ∧ Passes u.bin v.bin := by
  have hparse := getToken_parses tw u
  rwa [h] at hparse

theorem getToken_of_decodeToken_error {tw : TokenWidths} {u : Unpacker} {e : DecodeError} {port : List (Item Byte)}
    (h : decodeToken tw u.bits = .error e) (hport : dropSegment u.bin = some port) :
    ∃ v, u.getToken tw = .ended v ∧ v.bin = port := by
  have hparse := getToken_parses tw u
  rw [h] at hparse
  exact hparse port hport

end Sys2Proof.Machine
end

section
/-! The obligation of the step that reads a token and of the step that runs it. -/

namespace Sys2Proof.Machine

open Sys2Proof

/-- The step of a decode under way, in the phases that read a token and run it (46_control_pipeline.md R300). -/
theorem step_of_decoding {s : State} (hreset : s.resetLine = false) (hphase : s.phase ≠ .idle)
    (hrun : s.running = .decomp ∨ s.running = .recover) : step s = decodeStep s := by
  have hstep : step s = phaseStep s := by
    rw [step, nextStep, if_neg (by rw [hreset]; exact Bool.false_ne_true), if_neg hphase]
  rw [hstep, phaseStep]
  rcases hrun with hrun | hrun <;> rw [hrun]

theorem step_of_emitting {s : State} {i : Instr} (hreset : s.resetLine = false) (hphase : s.phase = .emitting)
    (hrun : s.running = .decomp ∨ s.running = .recover) (htok : s.tok = some i) (hi : i.isToken = true) :
    step s = exec i s := by
  rw [step_of_decoding hreset (by rw [hphase]; exact nofun) hrun, decodeStep, hphase]
  simp only [runToken, htok, hi, if_true]

/-- Settles O49: the unpacker reads the token the bits decode to (`getToken_parses`), and the state it is held in is
`Emitting`. -/
theorem stepRunsTheToken : Obligations.StepRunsTheToken := by
  refine ⟨fun s i bits hreset hphase hrun hdecode => ?_, fun s i => step_of_emitting⟩
  obtain ⟨u, hgot, hbits, k, hk, hbin⟩ := getToken_of_decodeToken_ok (u := s.decoder.unp) hdecode
  have hi := getToken_isToken hgot
  have hread : step s = .next (s.withDecoder { s.decoder with unp := u, tok := some i, phase := .emitting }) := by
    rw [step_of_decoding hreset (by rw [hphase]; exact nofun) hrun, decodeStep, hphase]
    simp only [fetchToken, Decoder.matching, hgot]
  have hheld : s.withDecoder { s.decoder with unp := u, tok := some i, phase := .emitting } =
      { s with ibuf := u.ibuf, ibits := u.ibits, bin := s.bin.drop k, tok := some i, phase := .emitting } := by
    rw [State.withDecoder, hbin]
    rfl
  refine ⟨hi, u.ibuf, u.ibits, k, hk, ?_, hread.trans (congrArg _ hheld), step_of_emitting hreset rfl hrun rfl hi⟩
  rw [← hheld, pendingBits_eq]
  exact hbits

end Sys2Proof.Machine
end

section
/-! The symbols the decoder puts out one after the other (45_decoder.md R265): what a run of them leaves in the
counters, on the output and in `DWIN`. -/

namespace Sys2Proof.Machine

open Sys2Proof

/-- `out(c)` for each symbol of a list in turn (45_decoder.md R265). -/
def Decoder.outs (n : Nat) (syms : List Nat) (d : Decoder) : Decoder := syms.foldl (fun e v => e.out n v) d

variable {n : Nat} {d : Decoder}

@[simp] theorem outs_nil (n : Nat) (d : Decoder) : d.outs n [] = d := rfl

theorem outs_cons (n v : Nat) (syms : List Nat) (d : Decoder) : d.outs n (v :: syms) = (d.out n v).outs n syms := rfl

theorem outs_append (n : Nat) (syms more : List Nat) (d : Decoder) :
    d.outs n (syms ++ more) = (d.outs n syms).outs n more := List.foldl_append

theorem outs_concat (n v : Nat) (syms : List Nat) (d : Decoder) :
    d.outs n (syms ++ [v]) = (d.outs n syms).out n v := outs_append n syms [v] d

/-- What every single output keeps, a run of them keeps. -/
theorem outs_preserves {α : Type} {f : Decoder → α} (hf : ∀ v d, f (d.out n v) = f d) (syms : List Nat) :
    ∀ d : Decoder, f (d.outs n syms) = f d := by
  induction syms with
  | nil => exact fun _ => rfl
  | cons v syms ih => exact fun d => (ih (d.out n v)).trans (hf v d)

@[simp] theorem outs_count (n : Nat) (syms : List Nat) (d : Decoder) : (d.outs n syms).count = d.count :=
  outs_preserves (out_count n) syms d

@[simp] theorem outs_running (n : Nat) (syms : List Nat) (d : Decoder) : (d.outs n syms).running = d.running :=
  outs_preserves (out_running n) syms d

@[simp] theorem outs_unp (n : Nat) (syms : List Nat) (d : Decoder) : (d.outs n syms).unp = d.unp :=
  outs_preserves (out_unp n) syms d

@[simp] theorem outs_tok (n : Nat) (syms : List Nat) (d : Decoder) : (d.outs n syms).tok = d.tok :=
  outs_preserves (out_tok n) syms d

@[simp] theorem outs_symcnt (n : Nat) (syms : List Nat) (d : Decoder) :
    (d.outs n syms).symcnt = d.symcnt + syms.length := by
  induction syms generalizing d with
  | nil => rfl
  | cons v syms ih => rw [outs_cons, ih, out_symcnt, List.length_cons]; omega

/-- The cursor wraps at `N` (45_decoder.md R265). -/
theorem outs_dr (hdr : d.dr < n) (syms : List Nat) : (d.outs n syms).dr = (d.dr + syms.length) % n := by
  induction syms using List.reverseRecOn with
  | nil => exact (Nat.mod_eq_of_lt hdr).symm
  | append_singleton syms v ih =>
    rw [outs_concat, List.length_append, List.length_singleton, ← Nat.add_assoc, ← Nat.mod_add_mod, ← ih]
    rfl

/-! ### The output -/

/-- One symbol's way out: `SOUT`, or `CTBUF[SYMCNT]` in RECOVER. -/
theorem out_sout (n v : Nat) (d : Decoder) :
    (d.out n v).sout = if d.running = .recover then d.sout else d.sout ++ [.sym v] := by
  simp only [Decoder.out, Decoder.emit]
  split
  · next h => rw [if_pos h]
  all_goals next h => rw [if_neg (by rw [h]; exact nofun)]

theorem out_ctbuf (n v : Nat) (d : Decoder) :
    (d.out n v).ctbuf = if d.running = .recover then d.ctbuf.write d.symcnt v else d.ctbuf := by
  simp only [Decoder.out, Decoder.emit]
  split
  · next h => rw [if_pos h]
  all_goals next h => rw [if_neg (by rw [h]; exact nofun)]

theorem outs_sout (n : Nat) (syms : List Nat) (d : Decoder) :
    (d.outs n syms).sout = if d.running = .recover then d.sout else d.sout ++ syms.map .sym := by
  induction syms using List.reverseRecOn with
  | nil => rw [outs_nil, List.map_nil, List.append_nil, ite_self]
  | append_singleton syms v ih =>
    rw [outs_concat, out_sout, outs_running, ih]
    split
    · rfl
    · rw [List.map_append, List.append_assoc]
      rfl

theorem outs_ctbuf_of_ne_recover (h : d.running ≠ .recover) (syms : List Nat) :
    (d.outs n syms).ctbuf = d.ctbuf := by
  induction syms using List.reverseRecOn with
  | nil => rfl
  | append_singleton syms v ih => rw [outs_concat, out_ctbuf, outs_running, if_neg h, ih]

/-- RECOVER stores the symbols in the cells of `CTBUF` from the count on. -/
theorem read_outs_ctbuf (h : d.running = .recover) (syms : List Nat) (j : Nat) :
    (d.outs n syms).ctbuf.read j =
      if d.symcnt ≤ j ∧ j < d.symcnt + syms.length then syms[j - d.symcnt]? else d.ctbuf.read j := by
  induction syms using List.reverseRecOn with
  | nil => rw [if_neg (by rw [List.length_nil]; omega), outs_nil]
  | append_singleton syms v ih =>
    rw [outs_concat, out_ctbuf, outs_running, if_pos h, Mem.read_write, outs_symcnt, ih, List.length_append,
      List.length_singleton]
    rcases Nat.lt_trichotomy j (d.symcnt + syms.length) with hlt | rfl | hgt
    · rw [if_neg (by omega)]
      by_cases hj : d.symcnt ≤ j
      · rw [if_pos ⟨hj, hlt⟩, if_pos (by omega), List.getElem?_append_left (by omega)]
      · rw [if_neg (by omega), if_neg (by omega)]
    · rw [if_pos rfl, if_pos (by omega), Nat.add_sub_cancel_left, List.getElem?_concat_length]
    · rw [if_neg (by omega), if_neg (by omega), if_neg (by omega)]

/-! ### The window -/

/-- A cell the cursor has not passed reads as before. -/
theorem read_outs_of_not_passed (hdr : d.dr < n) {cell : Nat} {syms : List Nat}
    (h : ∀ j < syms.length, (d.dr + j) % n ≠ cell) : (d.outs n syms).dwin.read cell = d.dwin.read cell := by
  induction syms using List.reverseRecOn with
  | nil => rfl
  | append_singleton syms v ih =>
    rw [List.length_append, List.length_singleton] at h
    rw [outs_concat, out_dwin, outs_dr hdr, Mem.read_write_ne _ _ (h syms.length (Nat.lt_succ_self _)).symm]
    exact ih fun j hj => h j (Nat.lt_succ_of_lt hj)

/-- A cell the cursor has passed holds the last symbol written there. -/
theorem read_outs_of_last (hdr : d.dr < n) {cell j : Nat} {syms : List Nat} (hj : j < syms.length)
    (hcell : (d.dr + j) % n = cell) (hlast : ∀ i, j < i → i < syms.length → (d.dr + i) % n ≠ cell) :
    (d.outs n syms).dwin.read cell = syms[j]? := by
  induction syms using List.reverseRecOn with
  | nil => exact absurd hj (Nat.not_lt_zero j)
  | append_singleton syms v ih =>
    rw [List.length_append, List.length_singleton] at hj hlast
    rw [outs_concat, out_dwin, outs_dr hdr]
    rcases Nat.eq_or_lt_of_le (Nat.le_of_lt_succ hj) with rfl | hj
    · rw [hcell, Mem.read_write_self, List.getElem?_concat_length]
    · rw [Mem.read_write_ne _ _ (hlast syms.length hj (Nat.lt_succ_self _)).symm, List.getElem?_append_left hj]
      exact ih hj fun i hji hi => hlast i hji (Nat.lt_succ_of_lt hi)

end Sys2Proof.Machine
end

section
/-! The copy of a Match (45_decoder.md R266 to R269) and the obligations of the two tokens. -/

namespace Sys2Proof.Machine

open Sys2Proof

variable {n off : Nat} {d : Decoder}

theorem copy_of_full {todo k : Nat} (h : d.symcnt = d.count) : Decoder.copy n off todo k d = (d, none) := by
  cases todo with
  | zero => rfl
  | succ todo => rw [Decoder.copy, if_pos h]

theorem copy_of_read {todo k v : Nat} (h : d.symcnt ≠ d.count) (hv : d.dwin.read ((off + k) % n) = some v) :
    Decoder.copy n off (todo + 1) k d = Decoder.copy n off todo (k + 1) (d.out n v) := by
  rw [Decoder.copy, if_neg h, hv]

theorem copy_of_unwritten {todo k : Nat} (h : d.symcnt ≠ d.count) (hv : d.dwin.read ((off + k) % n) = none) :
    Decoder.copy n off (todo + 1) k d = (d, some .dwinUnwritten) := by
  rw [Decoder.copy, if_neg h, hv]

/-- The copy puts out the symbols of a list, as many as it has to, if each is what its cell holds after those before it;
it is in the middle of them here. -/
theorem copy_eq_outs {len : Nat} {syms : List Nat} (hle : d.symcnt ≤ d.count)
    (hlen : syms.length = min len (d.count - d.symcnt))
    (hread : ∀ k < syms.length, (d.outs n (syms.take k)).dwin.read ((off + k) % n) = syms[k]?) :
    ∀ {todo k : Nat}, k ≤ syms.length → k + todo = len →
      Decoder.copy n off todo k (d.outs n (syms.take k)) = (d.outs n syms, none)
  | 0, k, hk, htodo => by
    rw [List.take_of_length_le (by omega)]
    rfl
  | todo + 1, k, hk, htodo => by
    have hcnt : (d.outs n (syms.take k)).symcnt = d.symcnt + k := by
      rw [outs_symcnt, List.length_take, Nat.min_eq_left hk]
    rcases Nat.eq_or_lt_of_le hk with rfl | hlt
    · rw [List.take_length]
      by_cases hfull : d.symcnt + syms.length = d.count
      · exact copy_of_full (by rw [outs_symcnt, outs_count, hfull])
      · exact absurd hlen (by omega)
    · have hv := (hread k hlt).trans (List.getElem?_eq_getElem hlt)
      rw [copy_of_read (by rw [hcnt, outs_count]; omega) hv, ← outs_concat, List.take_concat_get' syms k hlt]
      exact copy_eq_outs hle hlen hread hlt (by omega)

/-- The copy stops at a cell without a value, if not before (45_decoder.md R268). -/
theorem copy_faults (hdr : d.dr < n) {k : Nat} (hmissing : d.symcnt + k < d.count)
    (hnone : d.dwin.read ((off + k) % n) = none) (hclear : ∀ j < k, (d.dr + j) % n ≠ (off + k) % n) :
    ∀ {todo : Nat} {syms : List Nat}, syms.length ≤ k → k < syms.length + todo →
      (Decoder.copy n off todo syms.length (d.outs n syms)).2 = some .dwinUnwritten
  | 0, syms, hle, hlt => absurd hle (by omega)
  | todo + 1, syms, hle, hlt => by
    have hmore : (d.outs n syms).symcnt ≠ (d.outs n syms).count := by rw [outs_symcnt, outs_count]; omega
    cases hread : (d.outs n syms).dwin.read ((off + syms.length) % n) with
    | none => rw [copy_of_unwritten hmore hread]
    | some v =>
      have hne : syms.length ≠ k := by
        rintro rfl
        rw [read_outs_of_not_passed hdr hclear, hnone] at hread
        cases hread
      have hlen : (syms ++ [v]).length = syms.length + 1 := List.length_append
      have ih := copy_faults hdr hmissing hnone hclear (todo := todo) (syms := syms ++ [v]) (by omega) (by omega)
      rwa [hlen, outs_concat, ← copy_of_read hmore hread] at ih

/-! ### The two tokens as instructions -/

variable {s : State}

/-- The state after a token that has put out the symbols `syms` (log 8 for the phase). -/
theorem withDecoder_outs_resume (s : State) (n : Nat) (syms : List Nat) :
    s.withDecoder (s.decoder.outs n syms).resume =
      { s with
        dwin := (s.decoder.outs n syms).dwin, ctbuf := (s.decoder.outs n syms).ctbuf
        sout := (s.decoder.outs n syms).sout, dr := (s.decoder.outs n syms).dr
        symcnt := s.symcnt + syms.length
        phase := if s.symcnt + syms.length < s.count then .matching else .drained } := by
  simp only [State.withDecoder, Decoder.resume, outs_symcnt, outs_count, outs_unp, outs_tok]
  rfl

theorem exec_literal_eq (sym : Nat) (s : State) :
    exec (.literal sym) s = .next (s.withDecoder (s.decoder.outs s.cfg.n [sym]).resume) := rfl

theorem exec_matchTok_of_copy {len2 : Nat} {e : Decoder}
    (h : Decoder.copy s.cfg.n off (len2 + 2) 0 s.decoder = (e, none)) :
    exec (.matchTok off len2) s = .next (s.withDecoder e.resume) := by
  show execMatchTok off len2 s = _
  rw [execMatchTok, Decoder.matchTok, h]

theorem exec_matchTok_of_fault {len2 : Nat} {f : Fault}
    (h : (Decoder.copy s.cfg.n off (len2 + 2) 0 s.decoder).2 = some f) : exec (.matchTok off len2) s = .fault f := by
  show execMatchTok off len2 s = _
  rcases hcopy : Decoder.copy s.cfg.n off (len2 + 2) 0 s.decoder with ⟨e, r⟩
  rw [hcopy] at h
  obtain rfl : r = some f := h
  rw [execMatchTok, Decoder.matchTok, hcopy]

/-- What a token's symbols leave on the output, in the words of the statements: all on `SOUT`, or all in the cells of
`CTBUF` from the count on. -/
theorem outs_output (s : State) (n : Nat) (syms : List Nat) :
    if s.running = .recover then
      (s.decoder.outs n syms).sout = s.sout ∧
        (∀ k < syms.length, (s.decoder.outs n syms).ctbuf.read (s.symcnt + k) = syms[k]?) ∧
        ∀ j, j < s.symcnt ∨ s.symcnt + syms.length ≤ j →
          (s.decoder.outs n syms).ctbuf.read j = s.ctbuf.read j
    else (s.decoder.outs n syms).sout = s.sout ++ syms.map .sym ∧ (s.decoder.outs n syms).ctbuf = s.ctbuf := by
  split
  · next hr =>
    have hread := read_outs_ctbuf (n := n) (d := s.decoder) hr syms
    refine ⟨(outs_sout ..).trans (if_pos hr), fun k hk => ?_, fun j hj => ?_⟩
    · rw [hread, if_pos ⟨Nat.le_add_right .., Nat.add_lt_add_left hk _⟩]
      exact congrArg (syms[·]?) (Nat.add_sub_cancel_left ..)
    · rw [hread, if_neg (by rintro ⟨hle, hlt⟩; exact hj.elim (Nat.not_lt.2 hle) (Nat.not_le.2 hlt))]
      rfl
  · next hr => exact ⟨(outs_sout ..).trans (if_neg hr), outs_ctbuf_of_ne_recover hr syms⟩

/-- Settles O31: a Literal is one output (`outs_output`), written at the cursor. -/
theorem literalIsWrittenAtTheCursor : Obligations.LiteralIsWrittenAtTheCursor := by
  intro sym s
  have hdwin : (s.decoder.outs s.cfg.n [sym]).dwin = s.dwin.write s.dr sym := rfl
  have hout := outs_output s s.cfg.n [sym]
  refine ⟨_, _, _, hdwin ▸ Mem.read_write_self .., fun j hj => hdwin ▸ Mem.read_write_ne _ _ hj, ?_,
    (exec_literal_eq sym s).trans (congrArg _ (withDecoder_outs_resume s s.cfg.n [sym]))⟩
  split <;> rename_i hr
  · rw [if_pos hr] at hout
    obtain ⟨hsout, hstored, hkept⟩ := hout
    exact ⟨hsout, hstored 0 Nat.one_pos, fun j hj => hkept j (Nat.lt_or_gt_of_ne hj)⟩
  · rwa [if_neg hr] at hout

/-- Settles O32: the copy is a run of outputs (`copy_eq_outs`), of which each cell holds the last written there
(`read_outs_of_last`) or what it held before (`read_outs_of_not_passed`); it cannot pass a cell without a value
(`copy_faults`). -/
theorem matchCopiesOneSymbolAtATime : Obligations.MatchCopiesOneSymbolAtATime := by
  intro off len2 s hdr hcnt n m copied
  have hdr : s.decoder.dr < n := hdr
  refine ⟨fun syms hlen hcopied => ?_, fun k hk hclear hnone => ?_⟩
  · have hread : ∀ k < syms.length,
        (s.decoder.outs n (syms.take k)).dwin.read ((off + k) % n) = syms[k]? := by
      intro k hk
      have htake : (syms.take k).length = k := by rw [List.length_take]; omega
      rcases hcopied k (hlen ▸ hk) with ⟨j, hjk, hcell, hlast, heq⟩ | ⟨hclear, heq⟩
      · rw [read_outs_of_last hdr (htake.symm ▸ hjk) hcell fun i hji hi => hlast i hji (htake ▸ hi), heq,
          List.getElem?_take_of_lt hjk]
      · rw [read_outs_of_not_passed hdr fun j hj => hclear j (htake ▸ hj), ← heq]
        rfl
    have hcopy := copy_eq_outs hcnt hlen hread (Nat.zero_le _) (Nat.zero_add (len2 + 2))
    have hexec := (exec_matchTok_of_copy hcopy).trans (congrArg _ (withDecoder_outs_resume s n syms))
    have hdr' := outs_dr hdr syms
    have hout := outs_output s n syms
    rw [hlen] at hexec hdr' hout
    rw [hdr'] at hexec
    exact ⟨_, _, _, fun k hk hlast => read_outs_of_last hdr (hlen ▸ hk) rfl fun i hki hi => hlast i hki (hlen ▸ hi),
      fun j hj => read_outs_of_not_passed hdr fun k hk => hj k (hlen ▸ hk), hout, hexec⟩
  · have hmin : k < len2 + 2 ∧ k < s.count - s.symcnt := lt_min_iff.1 hk
    obtain ⟨hlen, hmissing⟩ := hmin
    exact exec_matchTok_of_fault
      (copy_faults hdr (d := s.decoder) (Nat.add_lt_of_lt_sub' hmissing) hnone hclear (syms := []) (Nat.zero_le k)
        (hlen.trans_eq (Nat.zero_add _).symm))

end Sys2Proof.Machine
end

section
/-! `DWIN` as a window on the symbols (45_decoder.md R263, R268): with the blank history and the symbols produced so far
in one list `buf`, cell `j` of `DWIN` is `cellOf` that list, and the tokens put out the symbols `expandInto` adds to it.
-/

namespace Sys2Proof.Machine

open Sys2Proof

variable {n off : Nat} {buf syms : List Nat}

/-! ### The entry a cell holds -/

/-- Of two entries among the last `n` only one has a given index modulo `n`. -/
theorem eq_of_mod_eq_of_window {a b len : Nat} (h : a % n = b % n) (ha : a < len) (hb : b < len) (han : len ≤ a + n)
    (hbn : len ≤ b + n) : a = b := by
  have hab : a - b = 0 := by
    rw [← Nat.mod_eq_of_lt (show a - b < n by omega)]
    exact Nat.sub_mod_eq_zero_of_mod_eq h
  have hba : b - a = 0 := by
    rw [← Nat.mod_eq_of_lt (show b - a < n by omega)]
    exact Nat.sub_mod_eq_zero_of_mod_eq h.symm
  omega

/-- What a cell holds: the entry with its index modulo `n` among the last `n` (45_decoder.md R268). -/
theorem cellOf_eq_some_iff {cell v : Nat} :
    cellOf n buf cell = some v ↔ ∃ j, buf[j]? = some v ∧ j % n = cell ∧ buf.length ≤ j + n := by
  rw [cellOf, Option.bind_eq_some_iff]
  constructor
  · rintro ⟨d, hfind, hv⟩
    have hd := List.mem_range.1 (List.mem_of_find?_eq_some hfind)
    have hmod := List.find?_some (p := fun d => decide ((buf.length - 1 - d) % n = cell)) hfind
    exact ⟨_, hv, of_decide_eq_true hmod, by omega⟩
  · rintro ⟨j, hv, hcell, hwin⟩
    obtain ⟨hj, -⟩ := List.getElem?_eq_some_iff.1 hv
    have hback : buf.length - 1 - (buf.length - 1 - j) = j := by omega
    have hsome : ((List.range (min n buf.length)).find? fun d => (buf.length - 1 - d) % n = cell).isSome :=
      List.find?_isSome.2 ⟨buf.length - 1 - j, List.mem_range.2 (by omega), decide_eq_true (by rw [hback, hcell])⟩
    obtain ⟨d, hfind⟩ := Option.isSome_iff_exists.1 hsome
    have hd := List.mem_range.1 (List.mem_of_find?_eq_some hfind)
    have hmod := List.find?_some (p := fun d => decide ((buf.length - 1 - d) % n = cell)) hfind
    have heq := eq_of_mod_eq_of_window ((of_decide_eq_true hmod).trans hcell.symm) (by omega) hj (by omega) hwin
    exact ⟨d, hfind, heq ▸ hv⟩

/-- The next symbol goes to the cell of the cursor. -/
theorem cellOf_concat (hn : 0 < n) (buf : List Nat) (v cell : Nat) :
    cellOf n (buf ++ [v]) cell = if cell = buf.length % n then some v else cellOf n buf cell := by
  have hlen : (buf ++ [v]).length = buf.length + 1 := List.length_append
  ext w
  rw [cellOf_eq_some_iff, hlen]
  split
  · next hcell =>
    constructor
    · rintro ⟨j, hw, hj, hwin⟩
      obtain ⟨hlt, -⟩ := List.getElem?_eq_some_iff.1 hw
      obtain rfl := eq_of_mod_eq_of_window (hj.trans hcell) (hlt.trans_eq hlen) (Nat.lt_succ_self _) hwin (by omega)
      rwa [List.getElem?_concat_length] at hw
    · rintro ⟨⟩
      exact ⟨buf.length, List.getElem?_concat_length, hcell.symm, by omega⟩
  · next hcell =>
    rw [cellOf_eq_some_iff]
    constructor
    · rintro ⟨j, hw, hj, hwin⟩
      obtain ⟨hlt, -⟩ := List.getElem?_eq_some_iff.1 hw
      have hne : j ≠ buf.length := by rintro rfl; exact hcell hj.symm
      rw [List.getElem?_append_left (by omega)] at hw
      exact ⟨j, hw, hj, by omega⟩
    · rintro ⟨j, hw, hj, hwin⟩
      obtain ⟨hlt, -⟩ := List.getElem?_eq_some_iff.1 hw
      have hne : buf.length ≠ j + n := by
        intro heq
        rw [heq, Nat.add_mod_right, hj] at hcell
        exact hcell rfl
      exact ⟨j, (List.getElem?_append_left hlt).trans hw, hj, by omega⟩

/-- No cell beyond the window holds a value. -/
theorem cellOf_of_le (hn : 0 < n) {cell : Nat} (h : n ≤ cell) : cellOf n buf cell = none :=
  Option.eq_none_iff_forall_ne_some.2 fun v hv => by
    obtain ⟨j, -, rfl, -⟩ := cellOf_eq_some_iff.1 hv
    exact absurd (Nat.mod_lt j hn) (Nat.not_lt.2 h)

/-! ### The window and the cursor -/

/-- The decoder's window and cursor, the blank history and the symbols produced being `buf`. -/
structure Decoder.Mirrors (n : Nat) (buf : List Nat) (d : Decoder) : Prop where
  cursor : d.dr = buf.length % n
  cells : ∀ cell, d.dwin.read cell = cellOf n buf cell

variable {d : Decoder}

theorem Decoder.Mirrors.out (hn : 0 < n) (h : d.Mirrors n buf) (v : Nat) : (d.out n v).Mirrors n (buf ++ [v]) := by
  refine ⟨?_, fun cell => ?_⟩
  · show (d.dr + 1) % n = _
    rw [h.cursor, Nat.mod_add_mod, List.length_append, List.length_singleton]
  · rw [out_dwin, Mem.read_write, cellOf_concat hn, h.cursor, h.cells]

theorem Decoder.Mirrors.outs (hn : 0 < n) (h : d.Mirrors n buf) (syms : List Nat) :
    (d.outs n syms).Mirrors n (buf ++ syms) := by
  induction syms using List.reverseRecOn with
  | nil => rwa [outs_nil, List.append_nil]
  | append_singleton syms v ih =>
    rw [outs_concat, ← List.append_assoc]
    exact ih.out hn v

/-- The blank fill (45_decoder.md R262). -/
theorem Decoder.mirrors_blank {c : CfgRegs} (hc : c.Geometry) (hdr : d.dr = c.h)
    (hdwin : d.dwin = Mem.blank c.h c.blank) : d.Mirrors c.n (List.replicate c.h c.blank) := by
  have hh := hc.h_add
  have hf := hc.f_ge
  refine ⟨?_, fun cell => ?_⟩
  · rw [hdr, List.length_replicate, Nat.mod_eq_of_lt (by omega)]
  · ext w
    rw [hdwin, Mem.read_blank, cellOf_eq_some_iff, List.length_replicate]
    constructor
    · intro hw
      split at hw
      · next hlt =>
        cases hw
        exact ⟨cell, List.getElem?_replicate_of_lt hlt, Nat.mod_eq_of_lt (by omega), by omega⟩
      · cases hw
    · rintro ⟨j, hw, rfl, -⟩
      obtain ⟨hj, hw⟩ := List.getElem?_eq_some_iff.1 hw
      rw [List.length_replicate] at hj
      rw [Nat.mod_eq_of_lt (by omega), if_pos hj, ← hw, List.getElem_replicate]

/-! ### What tokens add to the symbols -/

theorem copyInto_extends :
    ∀ {todo k : Nat} {buf buf1 : List Nat}, copyInto n off todo k buf = some buf1 →
      ∃ l, buf1 = buf ++ l ∧ l.length = todo
  | 0, _, buf, _, h => ⟨[], by cases h; exact (List.append_nil buf).symm, rfl⟩
  | todo + 1, k, buf, buf1, h => by
    rw [copyInto] at h
    split at h
    · cases h
    · next v _ =>
      obtain ⟨l, rfl, rfl⟩ := copyInto_extends h
      exact ⟨v :: l, List.append_assoc .., rfl⟩

/-- The tokens of a list one by one. -/
theorem expandInto_cons (n : Nat) (i : Instr) (ts : List Instr) (buf : List Nat) :
    expandInto n (i :: ts) buf = (expandInto n [i] buf).bind (expandInto n ts) := by
  cases i with
  | matchTok off len2 =>
    simp only [expandInto]
    cases copyInto n off (len2 + 2) 0 buf <;> rfl
  | _ => rfl

/-- A token puts out a symbol at least. -/
theorem expandInto_singleton_extends {i : Instr} {buf1 : List Nat} (h : expandInto n [i] buf = some buf1) :
    ∃ l, buf1 = buf ++ l ∧ 1 ≤ l.length := by
  cases i with
  | literal v => cases h; exact ⟨[v], rfl, Nat.le_refl 1⟩
  | matchTok off len2 =>
    simp only [expandInto] at h
    split at h
    · cases h
    · next hcopy =>
      cases h
      obtain ⟨l, rfl, hlen⟩ := copyInto_extends hcopy
      exact ⟨l, rfl, by omega⟩
  | _ => cases h

theorem expandInto_extends :
    ∀ {ts : List Instr} {buf buf1 : List Nat}, expandInto n ts buf = some buf1 → ∃ l, buf1 = buf ++ l
  | [], buf, _, h => ⟨[], by cases h; exact (List.append_nil buf).symm⟩
  | i :: ts, buf, buf1, h => by
    rw [expandInto_cons, Option.bind_eq_some_iff] at h
    obtain ⟨buf2, hi, hts⟩ := h
    obtain ⟨l, rfl, -⟩ := expandInto_singleton_extends hi
    obtain ⟨l1, rfl⟩ := expandInto_extends hts
    exact ⟨l ++ l1, List.append_assoc ..⟩

/-- The first token's symbols, and the rest. -/
theorem expandInto_cons_eq_some {i : Instr} {ts : List Instr} (h : expandInto n (i :: ts) buf = some (buf ++ syms)) :
    ∃ l l1, syms = l ++ l1 ∧ 1 ≤ l.length ∧ expandInto n [i] buf = some (buf ++ l) ∧
      expandInto n ts (buf ++ l) = some (buf ++ l ++ l1) := by
  rw [expandInto_cons, Option.bind_eq_some_iff] at h
  obtain ⟨buf2, hi, hts⟩ := h
  obtain ⟨l, rfl, hlen⟩ := expandInto_singleton_extends hi
  obtain ⟨l1, heq⟩ := expandInto_extends hts
  rw [List.append_assoc] at heq
  exact ⟨l, l1, List.append_cancel_left heq, hlen, hi, by rwa [List.append_assoc, ← heq]⟩

theorem expandTokens_eq_some_iff {c : CfgRegs} {ts : List Instr} :
    expandTokens c ts = some syms ↔
      expandInto c.n ts (List.replicate c.h c.blank) = some (List.replicate c.h c.blank ++ syms) := by
  have hdrop : ∀ l : List Nat, (List.replicate c.h c.blank ++ l).drop c.h = l := fun l =>
    List.drop_left' (List.length_replicate ..)
  rw [expandTokens, Option.map_eq_some_iff]
  constructor
  · rintro ⟨buf, hbuf, rfl⟩
    obtain ⟨l, rfl⟩ := expandInto_extends hbuf
    rw [hbuf, hdrop]
  · exact fun h => ⟨_, h, hdrop syms⟩

/-! ### The tokens executed -/

/-- The copy of a Match puts out the symbols the Match stands for, cut at the count (45_decoder.md R269). -/
theorem Decoder.Mirrors.copy (hn : 0 < n) :
    ∀ {todo k : Nat} {buf l : List Nat} {d : Decoder}, d.Mirrors n buf → d.symcnt ≤ d.count →
      copyInto n off todo k buf = some (buf ++ l) →
      Decoder.copy n off todo k d = (d.outs n (l.take (d.count - d.symcnt)), none)
  | 0, k, buf, l, d, _, _, h => by
    obtain rfl : l = [] := List.self_eq_append_right.1 (Option.some.inj h)
    rw [List.take_nil]
    rfl
  | todo + 1, k, buf, l, d, hm, hle, h => by
    rw [copyInto] at h
    cases hcell : cellOf n buf ((off + k) % n) with
    | none => rw [hcell] at h; cases h
    | some v =>
      rw [hcell] at h
      obtain ⟨l1, heq, -⟩ := copyInto_extends h
      rw [List.append_assoc] at heq
      obtain rfl : l = v :: l1 := List.append_cancel_left heq
      rcases Nat.eq_or_lt_of_le hle with hfull | hlt
      · rw [copy_of_full hfull, hfull, Nat.sub_self, List.take_zero, outs_nil]
      · have hmissing : d.count - d.symcnt = (d.out n v).count - (d.out n v).symcnt + 1 := by
          rw [out_count, out_symcnt]; omega
        rw [copy_of_read hlt.ne ((hm.cells _).trans hcell), hmissing, List.take_succ_cons, outs_cons]
        exact (hm.out hn v).copy hn (by rw [out_count, out_symcnt]; omega) (by rwa [List.append_assoc])

/-- The decoder between two tokens, after it has put out `syms`, its unpacker being `u` and the last token `tok`
(46_control_pipeline.md R300). -/
def Decoder.after (n : Nat) (syms : List Nat) (u : Unpacker) (tok : Option Instr) (d : Decoder) : Decoder :=
  Decoder.resume { d.outs n syms with unp := u, tok := tok }

variable {u : Unpacker} {tok : Option Instr}

theorem after_phase (n : Nat) (syms : List Nat) (u : Unpacker) (tok : Option Instr) (d : Decoder) :
    (d.after n syms u tok).phase = if d.symcnt + syms.length < d.count then .matching else .drained := by
  show (if (d.outs n syms).symcnt < (d.outs n syms).count then _ else _) = _
  rw [outs_symcnt, outs_count]

theorem after_symcnt (n : Nat) (syms : List Nat) (u : Unpacker) (tok : Option Instr) (d : Decoder) :
    (d.after n syms u tok).symcnt = d.symcnt + syms.length := outs_symcnt n syms d

theorem after_count (n : Nat) (syms : List Nat) (u : Unpacker) (tok : Option Instr) (d : Decoder) :
    (d.after n syms u tok).count = d.count := outs_count n syms d

theorem Decoder.Mirrors.after (hn : 0 < n) (h : d.Mirrors n buf) : (d.after n syms u tok).Mirrors n (buf ++ syms) :=
  ⟨(h.outs hn syms).cursor, (h.outs hn syms).cells⟩

/-- The output does not depend on what waits in front of the decoder. -/
theorem out_held (v : Nat) (ph : Phase) :
    Decoder.out n v { d with unp := u, tok := tok, phase := ph } =
      { d.out n v with unp := u, tok := tok, phase := ph } := by
  obtain ⟨_, _, _, _, _, _, running, _, _, _⟩ := d
  cases running <;> rfl

theorem outs_held (syms : List Nat) (ph : Phase) :
    Decoder.outs n syms { d with unp := u, tok := tok, phase := ph } =
      { d.outs n syms with unp := u, tok := tok, phase := ph } := by
  induction syms using List.reverseRecOn with
  | nil => rfl
  | append_singleton syms v ih => rw [outs_concat, ih, out_held, outs_concat]

theorem after_after (syms more : List Nat) (u v : Unpacker) (tok tok1 : Option Instr) (d : Decoder) :
    (d.after n syms u tok).after n more v tok1 = d.after n (syms ++ more) v tok1 := by
  have hheld : (d.after n syms u tok).outs n more =
      { d.outs n (syms ++ more) with unp := u, tok := tok, phase := (d.after n syms u tok).phase } :=
    (outs_held (d := d.outs n syms) more _).trans (by rw [outs_append]; rfl)
  have hresumed := congrArg (fun e : Decoder => Decoder.resume { e with unp := v, tok := tok1 }) hheld
  exact hresumed

/-- Executing the token held puts out the symbols it stands for, cut at the count. -/
theorem Decoder.Mirrors.token (hn : 0 < n) (h : d.Mirrors n buf) (hmissing : d.symcnt < d.count) {i : Instr}
    (hi : expandInto n [i] buf = some (buf ++ syms)) :
    Decoder.token n i { d with unp := u, tok := some i, phase := .emitting } =
      (d.after n (syms.take (d.count - d.symcnt)) u (some i), none) := by
  cases i with
  | literal v =>
    obtain rfl : [v] = syms := List.append_cancel_left (Option.some.inj hi)
    rw [List.take_of_length_le (by rw [List.length_singleton]; omega)]
    show (Decoder.resume (Decoder.outs n [v] _), none) = _
    rw [outs_held]
    rfl
  | matchTok off len2 =>
    have hcopy : copyInto n off (len2 + 2) 0 buf = some (buf ++ syms) := by
      simp only [expandInto] at hi
      split at hi
      · cases hi
      · next hcopy => rwa [← hi]
    have hheld : Decoder.Mirrors n buf { d with unp := u, tok := some (.matchTok off len2), phase := .emitting } :=
      ⟨h.cursor, h.cells⟩
    rw [Decoder.token, Decoder.matchTok, hheld.copy hn hmissing.le hcopy, outs_held]
    rfl
  | _ => cases hi

end Sys2Proof.Machine
end

section
/-! The phases of a decode (46_control_pipeline.md R300) on a segment that begins with the bits of tokens: they put out
the symbols the tokens stand for, until the count is reached or the bits end inside a token (45_decoder.md R261, R263,
R269). -/

namespace Sys2Proof.Machine

open Sys2Proof

variable {c : CfgRegs} {d : Decoder} {buf syms : List Nat} {extra : List Bool}

/-! ### One phase after the other -/

theorem Decoder.drive_of_drained (h : d.phase = .drained) (fuel : Nat) : d.drive c fuel = (d, none) := by
  cases fuel with
  | zero => rfl
  | succ fuel => rw [Decoder.drive, if_pos h]

theorem Decoder.drive_succ {e : Decoder} (h : d.phase ≠ .drained) (hstep : d.phaseStep c = (e, none)) (fuel : Nat) :
    d.drive c (fuel + 1) = e.drive c fuel := by
  rw [Decoder.drive, if_neg h, hstep]

theorem Decoder.drive_of_halt {e : Decoder} {x : Halt} (h : d.phase ≠ .drained) (hstep : d.phaseStep c = (e, some x))
    (fuel : Nat) : d.drive c (fuel + 1) = (e, some x) := by
  rw [Decoder.drive, if_neg h, hstep]

/-- Reading a token and executing it are two phases. -/
theorem Decoder.drive_token (hn : 0 < c.n) (h : d.Mirrors c.n buf) (hphase : d.phase = .matching)
    (hmissing : d.symcnt < d.count) {i : Instr} {rest : List Bool}
    (hdecode : decodeToken c.widths d.unp.bits = .ok (i, rest)) (hi : expandInto c.n [i] buf = some (buf ++ syms)) :
    ∃ u, u.bits = rest ∧ Passes d.unp.bin u.bin ∧ ∀ fuel,
      d.drive c (fuel + 2) = (d.after c.n (syms.take (d.count - d.symcnt)) u (some i)).drive c fuel := by
  obtain ⟨u, hgot, hrest, hpass⟩ := getToken_of_decodeToken_ok hdecode
  refine ⟨u, hrest, hpass, fun fuel => ?_⟩
  have hread : d.phaseStep c = ({ d with unp := u, tok := some i, phase := .emitting }, none) := by
    simp only [Decoder.phaseStep, hphase, Decoder.matching, hgot]
  rw [Decoder.drive_succ (by rw [hphase]; exact nofun) hread]
  have hexec : Decoder.phaseStep c { d with unp := u, tok := some i, phase := .emitting } =
      (d.after c.n (syms.take (d.count - d.symcnt)) u (some i), none) := h.token hn hmissing hi
  exact Decoder.drive_succ (by exact nofun) hexec fuel

/-- The bits end inside a token: MalformedBitstream with the number of symbols produced (45_decoder.md R261). -/
theorem Decoder.drive_malformed (hphase : d.phase = .matching) {e : DecodeError} {port : List (Item Byte)}
    (hdecode : decodeToken c.widths d.unp.bits = .error e) (hport : dropSegment d.unp.bin = some port) :
    ∃ u, u.bin = port ∧ ∀ fuel,
      d.drive c (fuel + 1) =
        ({ d with unp := u }, some (.raise { kind := .malformedBitstream, info := d.symcnt })) := by
  obtain ⟨u, hgot, hbin⟩ := getToken_of_decodeToken_error hdecode hport
  refine ⟨u, hbin, fun fuel => Decoder.drive_of_halt (by rw [hphase]; exact nofun) ?_ fuel⟩
  simp only [Decoder.phaseStep, hphase, Decoder.matching, hgot]

/-! ### The tokens of a list -/

/-- Tokens that can stand in a stream under the widths of a configuration. -/
def CfgRegs.Encodes (c : CfgRegs) (kw : Nat) (ts : List Instr) : Prop :=
  ∀ i ∈ ts, i.isToken = true ∧ i.wellFormed kw c.widths = true

/-- A decode between two tokens stands at the phase its counters say (46_control_pipeline.md R300). -/
def Decoder.AtToken (d : Decoder) : Prop := d.resume = d

theorem Decoder.AtToken.phase_eq (h : d.AtToken) : d.phase = if d.symcnt < d.count then .matching else .drained :=
  (congrArg Decoder.phase h).symm

theorem atToken_resume (d : Decoder) : d.resume.AtToken := rfl

theorem Decoder.AtToken.after_nil (h : d.AtToken) (n : Nat) : d.after n [] d.unp d.tok = d := h

/-- A decode that stands before the bits of a token list comes, within two phases for each symbol, behind the symbols
the list stands for, cut at the count; with the count not reached it stands before the bits after the list. -/
theorem Decoder.drive_tokens (hn : 0 < c.n) {kw : Nat} :
    ∀ {ts : List Instr} {buf syms : List Nat} {d : Decoder}, c.Encodes kw ts → d.Mirrors c.n buf → d.AtToken →
      d.unp.bits = tokensBits c.widths ts ++ extra → expandInto c.n ts buf = some (buf ++ syms) →
      ∃ u tok k, Passes d.unp.bin u.bin ∧ (syms.length < d.count - d.symcnt → u.bits = extra) ∧
        k ≤ 2 * min syms.length (d.count - d.symcnt) ∧
        ∀ fuel, d.drive c (fuel + k) = (d.after c.n (syms.take (d.count - d.symcnt)) u tok).drive c fuel
  | [], buf, syms, d, _, _, hat, hbits, hexp => by
    obtain rfl : syms = [] := List.self_eq_append_right.1 (Option.some.inj hexp)
    refine ⟨d.unp, d.tok, 0, Passes.refl _, fun _ => hbits, Nat.zero_le _, fun fuel => ?_⟩
    rw [List.take_nil, hat.after_nil, Nat.add_zero]
  | i :: ts, buf, syms, d, hts, hm, hat, hbits, hexp => by
    by_cases hmissing : d.symcnt < d.count
    · obtain ⟨⟨hi, hwf⟩, hts⟩ := List.forall_mem_cons.1 hts
      obtain ⟨l, l1, rfl, hl, hexpi, hexpts⟩ := expandInto_cons_eq_some hexp
      rw [tokensBits_cons, List.append_assoc] at hbits
      have hdecode := (tokenRoundTrip.1 kw c.widths i (tokensBits c.widths ts ++ extra) hi hwf).2
      rw [← hbits] at hdecode
      obtain ⟨u, hrest, hpass, hrun⟩ :=
        Decoder.drive_token hn hm (hat.phase_eq.trans (if_pos hmissing)) hmissing hdecode hexpi
      rw [List.length_append]
      by_cases hfull : d.count - d.symcnt ≤ l.length
      · refine ⟨u, some i, 2, hpass, fun hlt => by omega, by omega, fun fuel => ?_⟩
        rw [List.take_append_of_le_length hfull]
        exact hrun fuel
      · rw [List.take_of_length_le (Nat.le_of_not_le hfull)] at hrun
        obtain ⟨u1, tok, k, hpass1, hbits1, hk, hrun1⟩ :=
          Decoder.drive_tokens hn hts (hm.after hn (u := u) (tok := some i)) (atToken_resume _) hrest hexpts
        rw [after_count, after_symcnt] at hbits1 hk hrun1
        have hcut : (l ++ l1).take (d.count - d.symcnt) = l ++ l1.take (d.count - (d.symcnt + l.length)) := by
          rw [List.take_append, List.take_of_length_le (Nat.le_of_not_le hfull), Nat.sub_sub]
        refine ⟨u1, tok, k + 2, hpass.trans hpass1, fun hlt => hbits1 (by omega), by omega, fun fuel => ?_⟩
        rw [hcut, ← after_after, ← hrun1 fuel]
        exact hrun (fuel + k)
    · have hzero : d.count - d.symcnt = 0 := Nat.sub_eq_zero_of_le (Nat.not_lt.1 hmissing)
      refine ⟨d.unp, d.tok, 0, Passes.refl _, fun hlt => by omega, Nat.zero_le _, fun fuel => ?_⟩
      rw [hzero, List.take_zero, hat.after_nil, Nat.add_zero]

/-! ### A decode from its start -/

/-- A decode about to fill its window whose segment begins with the bits of tokens that stand for `syms` from a blank
window (45_decoder.md R260, R262). -/
structure Decoder.Begins (c : CfgRegs) (ts : List Instr) (extra : List Bool) (syms : List Nat) (d : Decoder) :
    Prop where
  phase : d.phase = .filling
  symcnt : d.symcnt = 0
  bits : (segmentBytes d.unp.bin).flatMap byteBits = tokensBits c.widths ts ++ extra
  expands : expandTokens c ts = some syms

variable {ts : List Instr} {kw : Nat}

theorem Decoder.Begins.drive_tokens (hc : c.Geometry) (hts : c.Encodes kw ts) (h : d.Begins c ts extra syms) :
    ∃ u tok k, Passes d.unp.bin u.bin ∧ (syms.length < d.count → u.bits = extra) ∧ k ≤ 2 * min syms.length d.count ∧
      ∀ fuel, d.drive c (fuel + k + 1) = ((d.filling c).after c.n (syms.take d.count) u tok).drive c fuel := by
  have hn : 0 < c.n := Nat.zero_lt_of_lt hc.f_lt
  have hm : (d.filling c).Mirrors c.n (List.replicate c.h c.blank) := Decoder.mirrors_blank hc rfl rfl
  obtain ⟨u, tok, k, hpass, hbits, hk, hrun⟩ :=
    Decoder.drive_tokens hn hts hm (atToken_resume _) h.bits (expandTokens_eq_some_iff.1 h.expands)
  have hmissing : (d.filling c).count - (d.filling c).symcnt = d.count :=
    (congrArg (d.count - ·) h.symcnt).trans (Nat.sub_zero _)
  rw [hmissing] at hbits hk hrun
  refine ⟨u, tok, k, hpass, hbits, hk, fun fuel => ?_⟩
  have hfill : d.phaseStep c = (d.filling c, none) := by simp only [Decoder.phaseStep, h.phase]
  rw [Decoder.drive_succ (by rw [h.phase]; exact nofun) hfill]
  exact hrun fuel

/-- The count is reached: the decode is `Drained`, and no element after the segment's bytes has been pulled. -/
theorem Decoder.Begins.drive_complete (hc : c.Geometry) (hts : c.Encodes kw ts) (h : d.Begins c ts extra syms)
    (hcount : d.count ≤ syms.length) :
    ∃ u tok, Passes d.unp.bin u.bin ∧
      d.drive c (2 * d.count + 1) = ((d.filling c).after c.n (syms.take d.count) u tok, none) := by
  obtain ⟨u, tok, k, hpass, -, hk, hrun⟩ := h.drive_tokens hc hts
  refine ⟨u, tok, hpass, ?_⟩
  have hfuel : 2 * d.count + 1 = (2 * d.count - k) + k + 1 := by omega
  rw [hfuel, hrun]
  refine Decoder.drive_of_drained ((after_phase ..).trans (if_neg ?_)) _
  show ¬ d.symcnt + _ < d.count
  rw [List.length_take, Nat.min_eq_left hcount]
  omega

/-- The segment ends inside a token before the count is reached: all the symbols of the tokens before it have been put
out, and the `EOS` has been pulled. -/
theorem Decoder.Begins.drive_malformed (hc : c.Geometry) (hts : c.Encodes kw ts) (h : d.Begins c ts extra syms)
    (hcount : syms.length < d.count) {e : DecodeError} (hextra : decodeToken c.widths extra = .error e)
    {port : List (Item Byte)} (hport : dropSegment d.unp.bin = some port) :
    ∃ u tok, u.bin = port ∧
      d.drive c (2 * d.count + 1) =
        ((d.filling c).after c.n syms u tok,
          some (.raise { kind := .malformedBitstream, info := syms.length })) := by
  obtain ⟨u, tok, k, hpass, hbits, hk, hrun⟩ := h.drive_tokens hc hts
  rw [List.take_of_length_le hcount.le] at hrun
  have hcnt : ((d.filling c).after c.n syms u tok).symcnt = syms.length :=
    (after_symcnt ..).trans ((congrArg (· + syms.length) h.symcnt).trans (Nat.zero_add _))
  have hphase : ((d.filling c).after c.n syms u tok).phase = .matching :=
    (after_phase ..).trans (if_pos (((after_symcnt ..).symm.trans hcnt).trans_lt hcount))
  obtain ⟨v, hbin, hhalt⟩ := Decoder.drive_malformed hphase
    (show decodeToken c.widths u.bits = _ from (hbits hcount).symm ▸ hextra) (hpass.dropSegment_eq.trans hport)
  refine ⟨v, tok, hbin, ?_⟩
  have hfuel : 2 * d.count + 1 = (2 * d.count - k - 1) + 1 + k + 1 := by omega
  rw [hfuel, hrun, hhalt, hcnt.symm]
  rfl

end Sys2Proof.Machine
end

section
/-! The obligations of DECOMP alone (45_decoder.md R260 to R270; 60_exceptions.md R333). -/

namespace Sys2Proof.Machine

open Sys2Proof

variable {s : State} {count : Nat} {bytes : List Byte} {rest : List (Item Byte)} {ts : List Instr}
  {extra : List Bool} {syms : List Nat}

/-- The decoder a decode starts with (45_decoder.md R260, 46_control_pipeline.md R294). -/
def State.decodeStart (s : State) (which : Running) (count : Nat) : Decoder := (startDecode which count s).decoder

theorem State.decodeStart_begins (which : Running) (count : Nat) (hbin : s.bin = segment bytes ++ rest)
    (hbits : bytes.flatMap byteBits = tokensBits s.cfg.widths ts ++ extra) (hexp : expandTokens s.cfg ts = some syms) :
    (s.decodeStart which count).Begins s.cfg ts extra syms where
  phase := rfl
  symcnt := rfl
  bits := by
    show (segmentBytes s.bin).flatMap byteBits = _
    rw [hbin, segmentBytes_segment, hbits]
  expands := hexp

/-- Under a legal configuration and within the capacity DECOMP is its decode. -/
theorem exec_decomp_eq (hok : s.cfg.codecOk s.params = true) (hcap : count ≤ s.params.ctCap) {e : Decoder}
    {x : Option Halt} (hrun : (s.decodeStart .decomp count).drive s.cfg (2 * count + 1) = (e, x)) :
    exec (.decomp count) s = endDecode ((startDecode .decomp count s).withDecoder e) x := by
  show execDecomp count s = _
  rw [execDecomp, if_neg (by rw [hok]; exact Bool.noConfusion), if_neg (Nat.not_lt.2 hcap)]
  exact congrArg (fun r : Decoder × Option Halt => endDecode ((startDecode .decomp count s).withDecoder r.1) r.2) hrun

/-- The decoder of DECOMP when it has put out `syms`, its unpacker being `u` and the last token `tok`. -/
def State.decompAfter (s : State) (count : Nat) (syms : List Nat) (u : Unpacker) (tok : Option Instr) : Decoder :=
  ((s.decodeStart .decomp count).filling s.cfg).after s.cfg.n syms u tok

/-- The symbols stand on `SOUT`, and besides the counter, the phase and the port only the decoder's own registers and
window differ. -/
theorem withDecoder_decompAfter (s : State) (count : Nat) (syms : List Nat) (u : Unpacker) (tok : Option Instr) :
    (startDecode .decomp count s).withDecoder (s.decompAfter count syms u tok) =
      { s with
        bin := u.bin, sout := s.sout ++ syms.map .sym, symcnt := syms.length, count := count
        ibuf := u.ibuf, ibits := u.ibits, tok := tok, dwin := (s.decompAfter count syms u tok).dwin
        dr := (s.decompAfter count syms u tok).dr, phase := (s.decompAfter count syms u tok).phase
        running := .decomp } := by
  have hsymcnt : (s.decompAfter count syms u tok).symcnt = syms.length := (after_symcnt ..).trans (Nat.zero_add _)
  have hsout : (s.decompAfter count syms u tok).sout = s.sout ++ syms.map .sym := outs_sout ..
  have hctbuf : (s.decompAfter count syms u tok).ctbuf = s.ctbuf :=
    outs_ctbuf_of_ne_recover (d := (s.decodeStart .decomp count).filling s.cfg) (by exact nofun) syms
  rw [State.withDecoder, hsymcnt, hsout, hctbuf]
  rfl

/-- No cell of `DWIN` beyond the window holds a value (45_decoder.md R262; log 6). -/
theorem read_decompAfter_of_le (hc : s.cfg.Geometry) (syms : List Nat) (u : Unpacker) (tok : Option Instr) {i : Nat}
    (hi : s.cfg.n ≤ i) : (s.decompAfter count syms u tok).dwin.read i = none := by
  have hn : 0 < s.cfg.n := Nat.zero_lt_of_lt hc.f_lt
  have hm : ((s.decodeStart .decomp count).filling s.cfg).Mirrors s.cfg.n (List.replicate s.cfg.h s.cfg.blank) :=
    Decoder.mirrors_blank hc rfl rfl
  exact ((hm.after hn).cells i).trans (cellOf_of_le hn hi)

/-- A segment that decodes to at least `count` symbols. -/
theorem exec_decomp_of_complete (hbin : s.bin = segment bytes ++ rest) (hok : s.cfg.codecOk s.params = true)
    (hcap : count ≤ s.params.ctCap) {kw : Nat} (hts : s.cfg.Encodes kw ts)
    (hbits : bytes.flatMap byteBits = tokensBits s.cfg.widths ts ++ extra) (hexp : expandTokens s.cfg ts = some syms)
    (hcount : count ≤ syms.length) :
    ∃ (ibuf : Byte) (ibits : Fin 9) (tok : Option Instr) (dwin : Mem) (dr : Nat),
      (∀ i, s.cfg.n ≤ i → dwin.read i = none) ∧
      exec (.decomp count) s =
        .next (done count
          { s with
            bin := rest, sout := s.sout ++ segment (syms.take count), symcnt := count, count := count
            ibuf := ibuf, ibits := ibits, tok := tok, dwin := dwin, dr := dr }) := by
  have hc := CfgRegs.geometry_of_codecOk hok
  obtain ⟨u, tok, hpass, hrun⟩ :=
    (State.decodeStart_begins .decomp count hbin hbits hexp).drive_complete hc hts hcount
  have hlen : (syms.take count).length = count := by rw [List.length_take, Nat.min_eq_left hcount]
  have hdrop : dropSegment u.bin = some rest :=
    hpass.dropSegment_eq.trans ((congrArg dropSegment hbin).trans (dropSegment_segment bytes rest))
  have hstate := withDecoder_decompAfter s count (syms.take count) u tok
  rw [hlen] at hstate
  refine ⟨u.ibuf, u.ibits, tok, (s.decompAfter count (syms.take count) u tok).dwin,
    (s.decompAfter count (syms.take count) u tok).dr, fun i => read_decompAfter_of_le hc _ u tok, ?_⟩
  refine (exec_decomp_eq hok hcap hrun).trans ?_
  refine (congrArg (endDecode · none) hstate).trans (endStream_binSout_next.2 ⟨rest, hdrop, ?_⟩)
  rw [segment, ← List.append_assoc]
  rfl

/-- A segment that ends inside a token before `count` symbols. -/
theorem exec_decomp_of_malformed (hbin : s.bin = segment bytes ++ rest) (hok : s.cfg.codecOk s.params = true)
    (hcap : count ≤ s.params.ctCap) {kw : Nat} (hts : s.cfg.Encodes kw ts)
    (hbits : bytes.flatMap byteBits = tokensBits s.cfg.widths ts ++ extra) {e : DecodeError}
    (hextra : decodeToken s.cfg.widths extra = .error e) (hexp : expandTokens s.cfg ts = some syms)
    (hcount : syms.length < count) :
    ∃ (ibuf : Byte) (ibits : Fin 9) (tok : Option Instr) (dwin : Mem) (dr : Nat),
      exec (.decomp count) s =
        .next (raise { kind := .malformedBitstream, info := syms.length }
          { s with
            bin := rest, sout := s.sout ++ segment syms, symcnt := syms.length, count := count
            ibuf := ibuf, ibits := ibits, tok := tok, dwin := dwin, dr := dr }) := by
  have hport : dropSegment s.bin = some rest := hbin ▸ dropSegment_segment bytes rest
  obtain ⟨u, tok, hu, hrun⟩ := (State.decodeStart_begins .decomp count hbin hbits hexp).drive_malformed
    (CfgRegs.geometry_of_codecOk hok) hts hcount hextra hport
  refine ⟨u.ibuf, u.ibits, tok, (s.decompAfter count syms u tok).dwin, (s.decompAfter count syms u tok).dr, ?_⟩
  refine (exec_decomp_eq hok hcap hrun).trans ?_
  refine (congrArg (endDecode · _) (withDecoder_decompAfter s count syms u tok)).trans
    (raiseStream_binSout_next.2 ⟨rest, congrArg some hu, ?_⟩)
  rw [segment, ← List.append_assoc]
  rfl

/-- Settles O33: the decode follows the tokens' expansion (`Decoder.drive_tokens`) until the count is reached. -/
theorem decompExpandsTokens : Obligations.DecompExpandsTokens :=
  ⟨decodesTo_decomp, fun _ _ _ _ _ _ _ hbin hok hcap hts hbits hexp hcount =>
    exec_decomp_of_complete hbin hok hcap hts hbits hexp hcount⟩

/-- Settles O34: the two errors before the decode by their tests, and the malformed segment by the same run of the
tokens as in O33, which here ends at bits that are no token. -/
theorem decompRaises : Obligations.DecompRaises := by
  intro s count bytes rest hbin
  have hrest : dropSegment s.bin = some rest := hbin ▸ dropSegment_segment bytes rest
  refine ⟨fun hbad => ?_, fun hok hcap => ?_, fun ts extra syms hok hcap hts hbits hextra hexp hcount =>
    exec_decomp_of_malformed hbin hok hcap hts hbits hextra hexp hcount⟩
  · show execDecomp count s = _
    rw [execDecomp, if_pos hbad]
    exact raiseStream_binSout_next.2 ⟨rest, hrest, rfl⟩
  · show execDecomp count s = _
    rw [execDecomp, if_neg (by rw [hok]; exact Bool.noConfusion), if_pos hcap]
    exact raiseStream_binSout_next.2 ⟨rest, hrest, rfl⟩

end Sys2Proof.Machine
end

section
/-! DECOMP inverts COMP (45_decoder.md R273): the tokens of the bufferless procedure (43_compressor.md R221) stand for
the symbols they were made of, and the bytes COMP pushes begin with the tokens' bits. -/

namespace Sys2Proof.Machine

open Sys2Proof

/-! ### The bits of packed bytes -/

/-- The bits of byte `j` of a bit sequence (20_memory.md R72). -/
theorem byteBits_byteAt (bits : List Bool) (j : Nat) :
    byteBits (byteAt bits j) = (List.range 8).map (fun k => bits.getD (8 * j + k) false) := by
  have hlen : (byteBits (byteAt bits j)).length = 8 := fieldBits_length _ 8
  refine List.ext_getElem? fun k => ?_
  by_cases hk : k < 8
  · rw [byteBits, fieldBits_getElem? _ hk, BitVec.testBit_toNat, getLsbD_byteAt, List.getElem?_map,
      List.getElem?_range hk, decide_eq_true (show 8 - 1 - k < 8 by omega), Bool.true_and,
      show 7 - (8 - 1 - k) = k by omega]
    rfl
  · rw [List.getElem?_eq_none (by omega), List.getElem?_eq_none (by simpa using hk)]

/-- The bits of the first `m` bytes of a bit sequence. -/
theorem flatMap_byteBits_map_byteAt (bits : List Bool) (m : Nat) :
    ((List.range m).map (byteAt bits)).flatMap byteBits = (List.range (8 * m)).map (fun k => bits.getD k false) := by
  induction m with
  | zero => rfl
  | succ m ih =>
    rw [List.range_succ, List.map_append, List.flatMap_append, ih, List.map_singleton, List.flatMap_singleton,
      byteBits_byteAt, Nat.mul_succ, List.range_add, List.map_append, List.map_map]
    rfl

/-- A packed bit sequence is read back with its padding (30_encoding.md R96). -/
theorem flatMap_byteBits_packBits (bits : List Bool) : ∃ pad, (packBits bits).flatMap byteBits = bits ++ pad := by
  have hbits : (List.range bits.length).map (fun k => bits.getD k false) = bits :=
    List.ext_getElem (by simp) fun k _ hk => by simp [hk]
  obtain ⟨r, hr⟩ := Nat.exists_eq_add_of_le (show bits.length ≤ 8 * ((bits.length + 7) / 8) by omega)
  have hall := flatMap_byteBits_map_byteAt bits ((bits.length + 7) / 8)
  rw [hr, List.range_add, List.map_append, hbits] at hall
  exact ⟨_, hall⟩

/-! ### The symbols of the emitted tokens -/

variable {c : CfgRegs} {buf : List Nat} {t : Nat}

/-- The copy of a run that agrees with an earlier one, no more than `n` before it, gives the run (45_decoder.md R267):
a symbol copied may be one the copy has put out itself. -/
theorem copyInto_of_agree {n x : Nat} (hx : x < t) (hxn : t ≤ x + n) :
    ∀ {todo k : Nat}, t + k + todo ≤ buf.length → (∀ j, k ≤ j → j < k + todo → buf[x + j]? = buf[t + j]?) →
      copyInto n (x % n) todo k (buf.take (t + k)) = some (buf.take (t + k + todo))
  | 0, _, _, _ => rfl
  | todo + 1, k, hlen, hagree => by
    have hlt : t + k < buf.length := by omega
    have hcell : cellOf n (buf.take (t + k)) ((x % n + k) % n) = some buf[t + k] := by
      refine cellOf_eq_some_iff.2 ⟨x + k, ?_, (Nat.mod_add_mod x n k).symm, ?_⟩
      · rw [List.getElem?_take_of_lt (by omega), hagree k (Nat.le_refl k) (by omega), List.getElem?_eq_getElem hlt]
      · rw [List.length_take]
        omega
    rw [copyInto, hcell]
    have ih := copyInto_of_agree hx hxn (todo := todo) (k := k + 1) (by omega)
      fun j hj hlt => hagree j (by omega) (by omega)
    rw [← Nat.add_assoc, ← List.take_concat_get' buf (t + k) hlt] at ih
    rw [show t + k + (todo + 1) = t + k + 1 + todo by omega]
    exact ih

/-- The token at a position stands for the symbols from there on, as many as it spans. -/
theorem expandInto_tokenAt (hc : c.Geometry) (hh : c.h ≤ t) (ht : t < buf.length) :
    expandInto c.n [tokenAt c buf t buf[t]] (buf.take t) =
      some (buf.take (t + tokenSpan (tokenAt c buf t buf[t]))) := by
  have hp := hc.p_ge
  have hle := bestAt_le_boundAt hc hh ht
  have hbest := bestAt_nearestBest (c := c) (buf := buf) hh
  rw [tokenAt]
  split
  · show some (buf.take t ++ [buf[t]]) = some (buf.take (t + 1))
    rw [List.take_concat_get' buf t ht]
  · next hlong =>
    rcases hbest.found with h01 | ⟨h2, hlo, hlt, heq, -⟩
    · rw [h01] at hlong
      omega
    · obtain ⟨-, hagree⟩ := (le_runAt_iff (one_le_boundAt hc ht)).1 heq.ge
      have hspan : (bestAt c buf t).2 - 2 + 2 = (bestAt c buf t).2 := Nat.sub_add_cancel h2
      have hh' := hc.h_add
      rw [boundAt] at hle
      have hcopy := copyInto_of_agree (n := c.n) (todo := (bestAt c buf t).2) (k := 0) hlt (by omega) (by omega)
        fun j _ hj => hagree j (by omega)
      simp only [expandInto, tokenSpan, hspan]
      rw [Nat.add_zero] at hcopy
      rw [hcopy]

/-- The tokens from a position stand for all the symbols from there on. -/
theorem expandInto_tokensFrom (hc : c.Geometry) :
    ∀ {fuel t : Nat}, c.h ≤ t → t ≤ buf.length → buf.length ≤ t + fuel →
      expandInto c.n (tokensFrom c buf fuel t) (buf.take t) = some buf
  | 0, t, _, _, hfuel => by rw [List.take_of_length_le (show buf.length ≤ t from hfuel)]; rfl
  | fuel + 1, t, hh, ht, hfuel => by
    rcases Nat.eq_or_lt_of_le ht with rfl | hlt
    · rw [tokensFrom_of_length_le (Nat.le_refl _), List.take_length]
      rfl
    · obtain ⟨h1, hend⟩ := tokenSpan_tokenAt_bounds (v := buf[t]) hc hh hlt
      rw [tokensFrom_of_getElem? hc.p_ge (List.getElem?_eq_getElem hlt), expandInto_cons, expandInto_tokenAt hc hh hlt]
      exact expandInto_tokensFrom hc (Nat.le_add_right_of_le hh) hend (by omega)

/-- The bufferless decoder inverts the bufferless encoder (45_decoder.md R273). -/
theorem expandTokens_streamTokens (hc : c.Geometry) (l : List Nat) : expandTokens c (streamTokens c l) = some l := by
  have hlen := history_length c l
  have hstart : (history c l).take c.h = List.replicate c.h c.blank := List.take_left' (List.length_replicate ..)
  have hexp := expandInto_tokensFrom (buf := history c l) hc (Nat.le_refl c.h) (by omega) hlen.le
  rw [hstart] at hexp
  exact expandTokens_eq_some_iff.2 hexp

/-- The tokens emitted fit the fields of the stream (30_encoding.md R92, R93). -/
theorem encodes_streamTokens {P : Params} {l : List Nat} (hok : c.codecOk P = true)
    (hl : ∀ v ∈ l, v < 2 ^ c.symw.toNat) (kw : Nat) : c.Encodes kw (streamTokens c l) := by
  intro i hi
  obtain ⟨v, hv, rfl⟩ | ⟨off, len2, rfl, hoff, -, -, hlen⟩ := (emittedTokenLaws.1 P c l hok).1 i hi
  · exact ⟨rfl, decide_eq_true (hl v hv)⟩
  · exact ⟨rfl, Bool.and_eq_true_iff.2 ⟨decide_eq_true hoff, decide_eq_true hlen⟩⟩

/-- The decoder does not look at `P` and the registers of key generation. -/
theorem expandTokens_congr {c1 c2 : CfgRegs} (hei : c1.ei = c2.ei) (hf : c1.f = c2.f) (hblank : c1.blank = c2.blank)
    (ts : List Instr) : expandTokens c1 ts = expandTokens c2 ts := by
  have hn : c1.n = c2.n := by rw [CfgRegs.n, CfgRegs.n, hei]
  have hh : c1.h = c2.h := by rw [CfgRegs.h, CfgRegs.h, hn, hf]
  rw [expandTokens, expandTokens, hn, hh, hblank]

/-- Settles O35: COMP pushes the packed bits of the stream's tokens (`compEmitsTheStreamTokens`), which stand for the
symbols (`expandTokens_streamTokens`), so DECOMP puts those out (`exec_decomp_of_complete`). -/
theorem decompInvertsComp : Obligations.DecompInvertsComp := by
  intro s l rest hsin hopen hok hcap hsyms hfits
  obtain ⟨enc, win, -, hcomp⟩ := compEmitsTheStreamTokens.2 s l rest hsin hopen hok hcap hsyms hfits
  refine ⟨_, streamBytes s.cfg l, hcomp, rfl, rfl, ?_⟩
  intro u rest2 hok2 hei hej hf hsymw hblank hbin hcap2
  have hwidths : u.cfg.widths = s.cfg.widths := by rw [CfgRegs.widths, CfgRegs.widths, hei, hej, hsymw]
  obtain ⟨pad, hbits⟩ := flatMap_byteBits_packBits (tokensBits s.cfg.widths (streamTokens s.cfg l))
  have hts : u.cfg.Encodes u.params.kw (streamTokens s.cfg l) := by
    rw [CfgRegs.Encodes, hwidths]
    exact encodes_streamTokens hok hsyms _
  have hexp : expandTokens u.cfg (streamTokens s.cfg l) = some l :=
    (expandTokens_congr hei hf hblank _).trans (expandTokens_streamTokens (CfgRegs.geometry_of_codecOk hok) l)
  obtain ⟨ibuf, ibits, tok, dwin, dr, -, hdecomp⟩ :=
    exec_decomp_of_complete (extra := pad) hbin hok2 hcap2 hts (by rw [hwidths]; exact hbits) hexp (Nat.le_refl _)
  rw [List.take_length] at hdecomp
  exact ⟨_, hdecomp, rfl, rfl, rfl, rfl⟩

end Sys2Proof.Machine
end

section
/-! What the last action of a command writes (46_control_pipeline.md R280, 60_exceptions.md R330), the system commands
(R282 to R286), and the command words a step takes (R280, R281). -/

namespace Sys2Proof.Machine

open Sys2Proof Sys2Proof.Laws

/-! ### Completion -/

/-- A code's sticky bit is the one bit of its number (10_state.md R41). -/
theorem getLsbD_errBit (code : Byte) {k : Nat} (hk : k < 8) : (errBit code).getLsbD k = decide (code.toNat = k) := by
  rw [errBit, BitVec.getLsbD_shiftLeft, BitVec.getLsbD_one, decide_eq_true hk, Bool.true_and]
  rcases Nat.lt_trichotomy code.toNat k with hlt | heq | hgt
  · simp [hlt.ne, Nat.sub_ne_zero_of_lt hlt]
  · simp [heq]
  · simp [hgt, hgt.ne']

theorem getLsbD_record_errs (code : Byte) (t : Status) {k : Nat} (hk : k < 8) :
    (t.record code).errs.getLsbD k = (t.errs.getLsbD k || decide (code ≠ 0 ∧ code.toNat = k)) := by
  by_cases hcode : code = 0
  · rw [hcode, record_zero_errs]
    simp
  · rw [record_errs_of_ne_zero hcode, BitVec.getLsbD_or, getLsbD_errBit code hk, Bool.decide_and, decide_eq_true hcode,
      Bool.true_and]

/-- Settles O3: the sticky bits by `getLsbD_record_errs`, all else by the definitions. -/
theorem completionAndRaise : Obligations.CompletionAndRaise :=
  ⟨fun code _ s => ⟨rfl, rfl, fun _ hk => getLsbD_record_errs code s.status hk, rfl, rfl, rfl, rfl, rfl⟩,
    fun _ _ => rfl, fun _ _ => rfl, rfl⟩

/-! ### NOP, RESET, CLRERR -/

/-- Settles O5: NOP is `done 0`. -/
theorem nopCompletes : Obligations.NopCompletes := ⟨decodesTo_nop, fun _ => rfl⟩

/-- Settles O6: the state RESET completes from is the reset state of the engine's parameters with the ports kept
(`resetEngine`), of which nothing but what `State.visible` leaves out is the model's choice. -/
theorem resetCommandRestoresResetState : Obligations.ResetCommandRestoresResetState :=
  ⟨decodesTo_reset, fun s => ⟨done 0 (resetEngine s), rfl, rfl⟩⟩

/-- Settles O7: CLRERR is `done 0` from the state with the mask cleared. -/
theorem clrerrClearsTheStickyMask : Obligations.ClrerrClearsTheStickyMask := ⟨decodesTo_clrerr, fun _ => rfl⟩

/-! ### WRCFG -/

section

variable {idx val : Nat} {s : State}

theorem cfgIndex_iff : cfgIndex idx = true ↔ 16 ≤ idx ∧ idx ≤ 24 := by
  simp [cfgIndex]

theorem tooWide_iff : tooWide idx val = true ↔ idx ∈ [16, 17, 20] ∧ 256 ≤ val := by
  simp [tooWide, or_assoc]

theorem exec_wrcfg_of_not_cfgIndex (h : ¬ (16 ≤ idx ∧ idx ≤ 24)) :
    exec (.wrcfg idx val) s = .next (raise { kind := .illegalCommand, info := 5 } s) :=
  if_pos (by rwa [← Bool.not_eq_true, cfgIndex_iff])

theorem exec_wrcfg_of_cfgIndex (h : 16 ≤ idx ∧ idx ≤ 24) :
    exec (.wrcfg idx val) s =
      if tooWide idx val = true then .next (raise { kind := .illegalCommand, info := 6 } s)
      else .next (done val { s with cfg := s.cfg.write idx val }) :=
  if_neg (by rw [cfgIndex_iff.2 h]; exact Bool.noConfusion)

/-- An 8-bit register holds a value below 256 whole. -/
theorem toNat_ofNat_eight (h : val < 256) : (BitVec.ofNat 8 val).toNat = val := by
  rw [BitVec.toNat_ofNat, Nat.mod_eq_of_lt h]

/-- The register written reads the value. -/
theorem readReg_write_self (h : 16 ≤ idx ∧ idx ≤ 24) (hval : idx ∈ [16, 17, 20] → val < 256) :
    ({ s with cfg := s.cfg.write idx val } : State).readReg idx = some val := by
  have hwidth : idx ∈ [16, 17, 20] ∨ idx ∈ [18, 19, 21, 22, 23, 24] := by
    simp only [List.mem_cons, List.not_mem_nil, or_false]
    omega
  rcases hwidth with hbyte | hwide
  · have hwhole := congrArg some (toNat_ofNat_eight (hval hbyte))
    simp only [List.mem_cons, List.not_mem_nil, or_false] at hbyte
    rcases hbyte with rfl | rfl | rfl <;> exact hwhole
  · simp only [List.mem_cons, List.not_mem_nil, or_false] at hwide
    rcases hwide with rfl | rfl | rfl | rfl | rfl | rfl <;> rfl

/-- Every other register reads as before. -/
theorem readReg_write_ne (s : State) (val : Nat) {j : Nat} (h : j ≠ idx) :
    ({ s with cfg := s.cfg.write idx val } : State).readReg j = s.readReg j := by
  simp only [CfgRegs.write]
  split
  case h_10 => rfl
  all_goals
    simp only [State.readReg]
    split <;> trivial

end

/-- Settles O8: the two tests in their order, then the write of one register (`readReg_write_self`,
`readReg_write_ne`). -/
theorem wrcfgWritesOneConfigurationRegister : Obligations.WrcfgWritesOneConfigurationRegister := by
  refine ⟨decodesTo_wrcfg, fun idx val s => ⟨fun hidx => ?_, fun hwide => ?_, fun ⟨hidx, hval⟩ => ?_⟩⟩
  · exact exec_wrcfg_of_not_cfgIndex (by omega)
  · have hidx : 16 ≤ idx ∧ idx ≤ 24 := by
      have hmem := hwide.1
      simp only [List.mem_cons, List.not_mem_nil, or_false] at hmem
      omega
    rw [exec_wrcfg_of_cfgIndex hidx, if_pos (tooWide_iff.2 hwide)]
  · have hfit : ¬ tooWide idx val = true := fun hwide =>
      absurd (hval (tooWide_iff.1 hwide).1) (Nat.not_lt.2 (tooWide_iff.1 hwide).2)
    exact ⟨s.cfg.write idx val, by rw [exec_wrcfg_of_cfgIndex hidx, if_neg hfit], readReg_write_self hidx hval,
      fun j hj => readReg_write_ne s val hj⟩

/-! ### RDREG -/

theorem exec_rdreg_of_some {idx v : Nat} {s : State} (h : s.readReg idx = some v) :
    exec (.rdreg idx) s =
      .next { s with resv := v, res := s.res ++ [{ code := 0, value := v }], phase := .idle, running := .nothing } := by
  show execRdreg idx s = _
  rw [execRdreg, h]
  rfl

theorem exec_rdreg_of_none {idx : Nat} {s : State} (h : s.readReg idx = none) :
    exec (.rdreg idx) s = .next (raise { kind := .illegalCommand, info := 5 } s) := by
  show execRdreg idx s = _
  rw [execRdreg, h]

/-- The reserved indices of the register space (10_state.md R20, 30_encoding.md R113). -/
theorem readReg_eq_none (s : State) {idx : Nat}
    (h : idx ∉ [0, 1, 2, 3, 4, 5, 6, 7, 8, 9, 16, 17, 18, 19, 20, 21, 22, 23, 24, 32, 33, 34]) :
    s.readReg idx = none := by
  simp only [State.readReg]
  split
  case h_23 => rfl
  all_goals exact absurd (by decide) h

/-- `STATUS` reads whole where the register is wide enough for its 24 bits (10_state.md R41). -/
theorem toWord_of_le {kw : Nat} (h : 24 ≤ kw) (t : Status) : t.toWord kw = t.toBits.toNat := by
  have hlt : t.toBits.toNat < 2 ^ 24 := by
    refine Nat.lt_pow_two_of_testBit _ fun i hi => ?_
    rw [BitVec.testBit_toNat, Status.toBits]
    simp only [BitVec.getLsbD_append]
    repeat rw [if_neg (by omega)]
    exact BitVec.getLsbD_zero
  exact Nat.mod_eq_of_lt (hlt.trans_le (Nat.pow_le_pow_right (by decide) h))


/-- Settles O9: a defined index reads its register (`exec_rdreg_of_some`), any other is refused. -/
theorem rdregReadsEveryDefinedIndex : Obligations.RdregReadsEveryDefinedIndex := by
  refine ⟨decodesTo_rdreg, fun s => ⟨?_, ?_, fun idx h => exec_rdreg_of_none (readReg_eq_none s h)⟩⟩
  · simp only [List.forall_mem_cons]
    refine ⟨?_, ?_, ?_, ?_, ?_, ?_, ?_, ?_, ?_, ?_, ?_, ?_, ?_, ?_, ?_, ?_, ?_, ?_, ?_, ?_, ?_, List.forall_mem_nil _⟩
    all_goals exact exec_rdreg_of_some rfl
  · exact ⟨_, fun hkw => toWord_of_le hkw s.status, exec_rdreg_of_some rfl⟩

/-! ### Command words -/

/-- The twenty opcodes of 30_encoding.md R111. -/
def definedOpcodes : List Nat :=
  [0x00, 0x01, 0x02, 0x03, 0x04, 0x10, 0x11, 0x12, 0x20, 0x21, 0x22, 0x23, 0x24, 0x30, 0x31, 0x32, 0x33, 0x34, 0x40,
    0x41]

/-- A word decodes when its opcode is defined, and is rejected by its opcode's name otherwise. -/
theorem decodeCommand_cases (kw : Nat) (w : CmdWord) :
    ((CmdWord.opcode kw w).toNat ∈ definedOpcodes ∧ ∃ i, decodeCommand kw w = .ok i) ∨
    ((CmdWord.opcode kw w).toNat ∉ definedOpcodes ∧
      decodeCommand kw w = .error (.reservedOpcode (CmdWord.opcode kw w))) := by
  simp only [decodeCommand]
  split
  case h_21 => exact .inr ⟨by simp_all [definedOpcodes], rfl⟩
  all_goals next hop => exact .inl ⟨by rw [hop]; decide, _, rfl⟩

/-- An idle engine takes the first word on `CMD` (46_control_pipeline.md R280). -/
theorem step_of_command {s : State} (hreset : s.resetLine = false) (hphase : s.phase = .idle) {w : CmdWord}
    {rest : List CmdWord} (hcmd : s.cmd = w :: rest) : step s = runWord w { s with cmd := rest } := by
  rw [step, nextStep, if_neg (by rw [hreset]; exact Bool.false_ne_true), if_pos hphase, commandStep, hcmd]

/-- Settles O45: a word bears its opcode (`EncodedForm.opcode_make`), which `decodeCommand` looks up. -/
theorem reservedOpcodesAreIllegal : Obligations.ReservedOpcodesAreIllegal := by
  intro kw a b c ha hb hc
  have hop : ∀ op : Byte, CmdWord.opcode kw (.make kw op a b c) = op := fun op =>
    (EncodedForm.opcode_make kw op ha hb hc).1
  refine ⟨fun op hdef => ?_, fun op hres => ?_⟩
  · rcases decodeCommand_cases kw (.make kw op a b c) with ⟨-, hdecode⟩ | ⟨hundef, -⟩
    · exact hdecode
    · rw [hop] at hundef
      exact absurd hdef hundef
  · have hundef : op.toNat ∉ definedOpcodes := by
      simp only [definedOpcodes, List.mem_cons, List.not_mem_nil, or_false]
      omega
    have hdecode : decodeCommand kw (.make kw op a b c) = .error (.reservedOpcode op) := by
      rcases decodeCommand_cases kw (.make kw op a b c) with ⟨hdef, -⟩ | ⟨-, herror⟩
      · exact absurd (hop op ▸ hdef) hundef
      · rwa [hop] at herror
    refine ⟨hdecode, fun s rest hkw hreset hphase hcmd => ?_⟩
    subst hkw
    rw [step_of_command hreset hphase hcmd, runWord]
    simp only [hdecode]

/-- Settles O47: by `step_of_command`; with no word the engine waits. -/
theorem stepRunsTheCommand : Obligations.StepRunsTheCommand := by
  refine fun s hreset hphase => ⟨fun w rest i hcmd hdecode => ?_, fun hcmd => ?_⟩
  · rw [step_of_command hreset hphase hcmd, runWord]
    simp only [hdecode]
  · rw [step, nextStep, if_neg (by rw [hreset]; exact Bool.false_ne_true), if_pos hphase, commandStep, hcmd]

end Sys2Proof.Machine
end

section
/-! What no phase of the encoder touches: `CTBUF`, and in PROTECT's second phase the count of the symbols in it
(46_control_pipeline.md R291). -/

namespace Sys2Proof.Machine

open Sys2Proof

/-- The source of an encode: the command it belongs to, `CTBUF`, and the count PROTECT's first phase has left. -/
structure Encoder.SameSource (e e1 : Encoder) : Prop where
  running : e1.running = e.running
  ctbuf : e1.ctbuf = e.ctbuf
  symcnt : e.running = .protect → e1.symcnt = e.symcnt

variable {P : Params} {c : CfgRegs} {e : Encoder}

theorem Encoder.SameSource.refl (e : Encoder) : e.SameSource e := ⟨rfl, rfl, fun _ => rfl⟩

theorem Encoder.SameSource.trans {e1 e2 : Encoder} (h : e.SameSource e1) (h1 : e1.SameSource e2) : e.SameSource e2 :=
  ⟨h1.running.trans h.running, h1.ctbuf.trans h.ctbuf,
    fun hr => (h1.symcnt (h.running.trans hr)).trans (h.symcnt hr)⟩

theorem Encoder.sameSource_load {v : Nat} {e1 : Encoder} (hp : e.pull = .sym v e1) : e.SameSource (e1.load v) := by
  obtain ⟨sin, taken, rfl⟩ := Encoder.pull_sym_frame hp
  exact ⟨rfl, rfl, fun hr => if_pos hr⟩

theorem fill_sameSource : ∀ (room : Nat) (e : Encoder), e.SameSource (fill P c room e).1
  | 0, e => .refl e
  | room + 1, e => by
    rw [fill]
    split
    · exact .refl e
    · split
      · exact .refl e
      · next hp =>
        obtain ⟨sin, rfl⟩ := Encoder.pull_eos_frame hp
        exact ⟨rfl, rfl, fun _ => rfl⟩
      · next hp =>
        split
        · obtain ⟨sin, taken, rfl⟩ := Encoder.pull_sym_frame hp
          exact ⟨rfl, rfl, fun _ => rfl⟩
        · exact (Encoder.sameSource_load hp).trans (fill_sameSource room _)

theorem Encoder.sameSource_advance (y : Nat) (pk : Packer) : e.SameSource (e.advance c y pk) := by
  obtain ⟨p, -, heq⟩ := Encoder.advance_eq (e := e) (c := c) y pk
  rw [heq]
  exact ⟨rfl, rfl, fun _ => rfl⟩

/-- Every phase keeps the source (46_control_pipeline.md R300). -/
theorem Encoder.sameSource_phaseStep (e : Encoder) : e.SameSource (e.phaseStep P c).1 := by
  rw [Encoder.phaseStep]
  split
  · have hfill := fill_sameSource (P := P) (c := c) (2 * c.n - c.h) (e.blanked c)
    simp only [Encoder.blanked] at hfill
    simp only [Encoder.filling]
    split <;> rename_i hf <;> rw [hf] at hfill <;> exact ⟨hfill.running, hfill.ctbuf, hfill.symcnt⟩
  · rw [Encoder.matching]
    split
    · exact .refl e
    · exact ⟨rfl, rfl, fun _ => rfl⟩
  · rw [Encoder.emitting]
    split
    · exact .refl e
    · split <;> split
      · exact ⟨rfl, rfl, fun _ => rfl⟩
      · exact Encoder.sameSource_advance _ _
      · exact .refl e
      · exact Encoder.sameSource_advance _ _
  · have hfill := fill_sameSource (P := P) (c := c) (2 * c.n - (e.rebase c).regs.bufferend) (e.rebase c)
    simp only [Encoder.shifting]
    split <;> rename_i hf <;> rw [hf] at hfill <;> exact ⟨hfill.running, hfill.ctbuf, hfill.symcnt⟩
  · exact .refl e
  · exact .refl e

theorem Encoder.sameSource_drive (fuel : Nat) (e : Encoder) : e.SameSource (e.drive P c fuel).1 :=
  Encoder.drive_preserves (K := e.SameSource) (fun e1 h => h.trans e1.sameSource_phaseStep) fuel e (.refl e)

end Sys2Proof.Machine
end

section
/-! PROTECT (46_control_pipeline.md R291): the first phase stores the powers in `CTBUF`, the second is the encode of
what it has stored. -/

namespace Sys2Proof.Machine

open Sys2Proof

/-! ### The first phase -/

/-- The cells from `i` on, written with the values of a list. -/
def Mem.store : Nat → List Nat → Mem → Mem
  | _, [], m => m
  | i, v :: vs, m => Mem.store (i + 1) vs (m.write i v)

theorem Mem.read_store : ∀ (i : Nat) (vs : List Nat) (m : Mem) (k : Nat),
    (Mem.store i vs m).read k = if i ≤ k ∧ k < i + vs.length then vs[k - i]? else m.read k
  | i, [], m, k => by rw [Mem.store, if_neg (by rw [List.length_nil]; omega)]
  | i, v :: vs, m, k => by
    rw [Mem.store, Mem.read_store, Mem.read_write, List.length_cons]
    rcases Nat.lt_trichotomy k i with hlt | rfl | hgt
    · rw [if_neg (by omega), if_neg (by omega), if_neg (by omega)]
    · rw [if_neg (by omega), if_pos rfl, if_pos (by omega), Nat.sub_self]
      rfl
    · have hsub : k - i = k - (i + 1) + 1 := by omega
      rw [if_neg hgt.ne', hsub, List.getElem?_cons_succ]
      exact if_congr (by omega) rfl rfl

/-- A memory filled from its first cell on reads as the list does. -/
theorem Mem.read_store_nil (vs : List Nat) (k : Nat) : (Mem.store 0 vs []).read k = vs[k]? := by
  rw [Mem.read_store, Mem.read_nil, Nat.zero_add, Nat.sub_zero]
  split
  · rfl
  · exact (List.getElem?_eq_none (by omega)).symm

/-- A symbol PROTECT's first phase admits: it is below the modulus and its power fits a Literal. -/
def State.Protectable (s : State) (m : Nat) : Prop := m < s.keys.kn ∧ s.keys.power m < 2 ^ s.cfg.symw.toNat

variable {s : State} {l : List Nat} {rest port : List (Item Nat)}

/-- The first phase passes over symbols it admits and stores their powers. -/
theorem protectLoop_append :
    ∀ (l : List Nat) (cnt : Nat) (m : Mem), (∀ x ∈ l, s.Protectable x) → cnt + l.length ≤ s.params.ctCap →
      protectLoop s.params s.cfg s.keys cnt m (l.map .sym ++ port) =
        protectLoop s.params s.cfg s.keys (cnt + l.length) (Mem.store cnt (l.map s.keys.power) m) port
  | [], _, _, _, _ => rfl
  | x :: l, cnt, m, hl, hcap => by
    obtain ⟨⟨hx, hfit⟩, hl⟩ := List.forall_mem_cons.1 hl
    have hlen : cnt + (x :: l).length = cnt + 1 + l.length := by rw [List.length_cons]; omega
    have hfits : ¬ s.cfg.fitsSymbol (s.keys.power x) = false := by
      rw [CfgRegs.fitsSymbol, decide_eq_true hfit]
      exact Bool.noConfusion
    rw [hlen] at hcap ⊢
    rw [List.map_cons, List.cons_append, protectLoop, if_neg (by omega), if_neg (Nat.not_le.2 hx),
      encrypt_eq_power hx, if_neg hfits, protectLoop_append l (cnt + 1) _ hl hcap]
    rfl

/-- The error PROTECT's first phase refuses the symbol `m` with after `cnt` symbols: capacity, range, width. -/
def State.protectRefusal (s : State) (cnt m : Nat) : Exc :=
  if cnt = s.params.ctCap then { kind := .bufferOverrun, info := s.params.ctCap }
  else if s.keys.kn ≤ m then { kind := .invalidSymbol, info := m }
  else { kind := .invalidSymbol, info := s.keys.power m }

theorem protectLoop_of_refused {cnt m : Nat} {mem : Mem} (hcap : cnt ≤ s.params.ctCap)
    (h : cnt < s.params.ctCap → s.keys.kn ≤ m ∨ 2 ^ s.cfg.symw.toNat ≤ s.keys.power m) :
    protectLoop s.params s.cfg s.keys cnt mem (.sym m :: port) =
      { sin := port, ctbuf := mem, cnt := cnt, stop := some (.raise (s.protectRefusal cnt m)) } := by
  rw [protectLoop, State.protectRefusal]
  split
  · next hfull => rw [hfull]
  · next hne =>
    split
    · rfl
    · next hkn =>
      have hwide := (h (Nat.lt_of_le_of_ne hcap hne)).resolve_left hkn
      rw [encrypt_eq_power (Nat.not_le.1 hkn)]
      exact if_pos (decide_eq_false (Nat.not_lt.2 hwide))

/-- The state between PROTECT's phases: the powers in `CTBUF`, their number in `SYMCNT`, the segment consumed. -/
def State.encrypted (s : State) (powers : List Nat) (rest : List (Item Nat)) : State :=
  { s with sin := rest, ctbuf := Mem.store 0 powers [], symcnt := powers.length }

/-- With a legal configuration, a public key and no session open, PROTECT is decided by its first phase. -/
theorem exec_protect_of_all (hsin : s.sin = segment l ++ rest) (hopen : s.status.pkopen = false)
    (hok : s.cfg.codecOk s.params = true) (hpub : s.status.pubv = true) (hcap : l.length ≤ s.params.ctCap)
    (hl : ∀ x ∈ l, s.Protectable x) :
    exec .protect s = runEncode (startEncode .protect (s.encrypted (l.map s.keys.power) rest)) := by
  have hloop : protectLoop s.params s.cfg s.keys 0 [] s.sin =
      { sin := rest, ctbuf := Mem.store 0 (l.map s.keys.power) [], cnt := l.length, stop := none } := by
    rw [hsin, segment, List.append_assoc, protectLoop_append l 0 [] hl (by omega), Nat.zero_add]
    rfl
  show execProtect s = _
  simp only [execProtect, hopen, hok, hpub, hloop, Bool.false_eq_true, Bool.true_eq_false, if_false,
    State.encrypted, List.length_map]

/-- A symbol that is refused ends PROTECT in its first phase: nothing is pushed but `EOS`. -/
theorem exec_protect_of_refused {l1 l2 : List Nat} {m : Nat} (hsin : s.sin = segment (l1 ++ m :: l2) ++ rest)
    (hopen : s.status.pkopen = false) (hok : s.cfg.codecOk s.params = true) (hpub : s.status.pubv = true)
    (hcap : l1.length ≤ s.params.ctCap) (hl : ∀ x ∈ l1, s.Protectable x)
    (hm : l1.length < s.params.ctCap → s.keys.kn ≤ m ∨ 2 ^ s.cfg.symw.toNat ≤ s.keys.power m) :
    exec .protect s =
      .next (raise (s.protectRefusal l1.length m)
        { s with
          symcnt := l1.length, ctbuf := Mem.store 0 (l1.map s.keys.power) [], sin := rest
          bout := s.bout ++ segment [], acc := 0, nbits := 0 }) := by
  have hport : s.sin = l1.map .sym ++ .sym m :: (segment l2 ++ rest) := by simp [hsin, segment]
  have hloop : protectLoop s.params s.cfg s.keys 0 [] s.sin =
      { sin := segment l2 ++ rest, ctbuf := Mem.store 0 (l1.map s.keys.power) [], cnt := l1.length
        stop := some (.raise (s.protectRefusal l1.length m)) } := by
    rw [hport, protectLoop_append l1 0 [] hl (by omega), Nat.zero_add, protectLoop_of_refused hcap hm]
  show execProtect s = _
  simp only [execProtect, hopen, hok, hpub, hloop, Bool.false_eq_true, Bool.true_eq_false, if_false]
  exact raiseStream_sinBout_next.2 ⟨rest, dropSegment_segment l2 rest, rfl⟩

/-! ### The second phase -/

variable {powers : List Nat}

/-- The run of the phases of PROTECT's encode. -/
def State.protectRun (s : State) (powers : List Nat) (rest : List (Item Nat)) : Encoder × Option Halt :=
  (startEncode .protect (s.encrypted powers rest)).encoder.drive s.params s.cfg (encodePhases s.params)

/-- The encode takes from `CTBUF` what the first phase has stored there. -/
theorem State.protectRun_ends (hok : s.cfg.codecOk s.params = true) (hcap : powers.length ≤ s.params.ctCap)
    (rest : List (Item Nat)) : EncodeEnds s.params s.cfg powers none s.bout (s.protectRun powers rest) := by
  refine Encoder.Starts.drive (CfgRegs.geometry_of_codecOk hok) ⟨rfl, Packer.holding_nil.symm, fun h => absurd rfl h,
    fun _ => ⟨rfl, (Nat.zero_add powers.length).symm, fun i _ => ?_⟩, fun h => absurd rfl h⟩ hcap
  show (Mem.store 0 powers []).read (0 + i) = _
  rw [Mem.read_store_nil, Nat.zero_add]

theorem State.protectRun_leaves (s : State) (powers : List Nat) (rest : List (Item Nat)) :
    (s.protectRun powers rest).1.Leaves .protect rest :=
  Encoder.Leaves.drive (e := (startEncode .protect (s.encrypted powers rest)).encoder) ⟨rfl, rfl⟩ rfl rfl _

theorem State.protectRun_symcnt (s : State) (powers : List Nat) (rest : List (Item Nat)) :
    (s.protectRun powers rest).1.symcnt = powers.length :=
  (Encoder.sameSource_drive (P := s.params) (c := s.cfg) (encodePhases s.params)
    (startEncode .protect (s.encrypted powers rest)).encoder).symcnt rfl

/-- The encode that puts the tokens `ts` and all the powers. -/
theorem runEncode_protect_of_endsWith_none {ts : List Instr} {n : Nat}
    (hends : Encoder.EndsWith s.cfg s.bout ts n none (s.protectRun powers rest)) :
    ∃ (enc : EncRegs) (win : Mem), (∀ i, 2 * s.cfg.n ≤ i → win.read i = none) ∧
      runEncode (startEncode .protect (s.encrypted powers rest)) =
        .next (done powers.length
          { s with
            sin := rest, ctbuf := Mem.store 0 powers []
            bout := s.bout ++ segment (packBits (tokensBits s.cfg.widths ts)), symcnt := powers.length
            bytecnt := (packBits (tokensBits s.cfg.widths ts)).length, acc := 0, nbits := 0, enc := enc
            win := win }) := by
  have hend := endEncode_of_endsWith_none (s := startEncode .protect (s.encrypted powers rest)) hends
    (s.protectRun_leaves powers rest)
  rw [s.protectRun_symcnt powers rest] at hend
  exact ⟨_, _, hends.beyond, hend⟩

/-- The encode that raises when it has put the tokens `ts`. -/
theorem runEncode_protect_of_endsWith_raise {ts : List Instr} {n : Nat} {x : Exc}
    (hends : Encoder.EndsWith s.cfg s.bout ts n (some (.raise x)) (s.protectRun powers rest)) :
    ∃ (enc : EncRegs) (win : Mem),
      runEncode (startEncode .protect (s.encrypted powers rest)) =
        .next (raise x
          { s with
            sin := rest, bout := s.bout ++ segment (wholeBytes (tokensBits s.cfg.widths ts))
            symcnt := powers.length, ctbuf := Mem.store 0 powers []
            bytecnt := (tokensBits s.cfg.widths ts).length / 8, acc := 0, nbits := 0, enc := enc, win := win }) := by
  have hend := endEncode_of_endsWith_raise (s := startEncode .protect (s.encrypted powers rest)) hends
    (s.protectRun_leaves powers rest)
  rw [s.protectRun_symcnt powers rest] at hend
  exact ⟨_, _, hend⟩

/-! ### The obligations of PROTECT -/

/-- Settles O37: the first phase stores the powers (`exec_protect_of_all`), and the encode of the second follows the
bufferless procedure on them (`State.protectRun_ends`), which puts all the tokens where they fit. -/
theorem protectCompressesTheCiphertext : Obligations.ProtectCompressesTheCiphertext := by
  refine ⟨decodesTo_protect, fun s l rest hsin hopen hok hpub hcap hl hfits => ?_⟩
  have hends := (State.protectRun_ends (powers := l.map s.keys.power) hok (by rwa [List.length_map]) rest).of_fits
    (by rwa [planned_none])
  obtain ⟨enc, win, hbeyond, hrun⟩ := runEncode_protect_of_endsWith_none hends
  rw [List.length_map] at hrun
  exact ⟨enc, win, _, hbeyond, Mem.read_store_nil _, (exec_protect_of_all hsin hopen hok hpub hcap hl).trans hrun⟩

/-- Settles O39: the errors before the phases by their tests, those of the first phase by `exec_protect_of_refused`, and
in the second the sizes of the tokens say that the encode stops at the one that does not fit. -/
theorem protectRaises : Obligations.ProtectRaises := by
  refine fun s => ⟨fun hopen => if_pos hopen, fun l rest hsin hopen => ?_⟩
  have hrest : dropSegment s.sin = some rest := hsin ▸ dropSegment_segment l rest
  refine ⟨fun hbad => ?_, fun hok hkey => ?_, fun l1 m l2 hok hpub hsplit hcap hl hm => ?_,
    fun ts i later hok hpub hcap hl hplan hfits hover => ?_⟩
  · show execProtect s = _
    rw [execProtect, if_neg (by rw [hopen]; exact Bool.false_ne_true), if_pos hbad]
    exact raiseStream_sinBout_next.2 ⟨rest, hrest, rfl⟩
  · show execProtect s = _
    rw [execProtect, if_neg (by rw [hopen]; exact Bool.false_ne_true), if_neg (by rw [hok]; exact Bool.noConfusion),
      if_pos hkey]
    exact raiseStream_sinBout_next.2 ⟨rest, hrest, rfl⟩
  · subst hsplit
    exact ⟨_, Mem.read_store_nil _, exec_protect_of_refused hsin hopen hok hpub hcap hl hm⟩
  · have hends := (State.protectRun_ends (powers := l.map s.keys.power) hok (by rwa [List.length_map]) rest).of_overrun
      ((planned_none ..).trans hplan.symm) hfits hover
    obtain ⟨enc, win, hrun⟩ := runEncode_protect_of_endsWith_raise hends
    rw [List.length_map] at hrun
    exact ⟨enc, win, _, Mem.read_store_nil _, (exec_protect_of_all hsin hopen hok hpub hcap hl).trans hrun⟩

end Sys2Proof.Machine
end

section
/-! RECOVER (46_control_pipeline.md R294): the first phase is DECOMP's decode with `CTBUF` in the place of `SOUT`, the
second decrypts what it has stored. -/

namespace Sys2Proof.Machine

open Sys2Proof

/-! ### The second phase -/

section

variable {k : KeyFile} {m : Mem} {s : State} {l : List Nat} {rest : List (Item Byte)}

/-- The second phase passes over stored values in range and decrypts them. -/
theorem recoverLoop_append {todo : Nat} :
    ∀ (l : List Nat) (i : Nat), (∀ j < l.length, m.read (i + j) = l[j]?) → (∀ c ∈ l, c < k.kn) →
      recoverLoop k m (l.length + todo) i =
        { recoverLoop k m todo (i + l.length) with
          out := l.map k.crt ++ (recoverLoop k m todo (i + l.length)).out }
  | [], i, _, _ => by rw [List.length_nil, Nat.zero_add]; rfl
  | c :: l, i, hread, hl => by
    obtain ⟨hc, hl⟩ := List.forall_mem_cons.1 hl
    rw [List.length_cons] at hread ⊢
    have hfirst : m.read i = some c := hread 0 (Nat.succ_pos _)
    have hnext : ∀ j < l.length, m.read (i + 1 + j) = l[j]? := fun j hj => by
      rw [Nat.add_right_comm]
      exact hread (j + 1) (Nat.succ_lt_succ hj)
    have hlen : i + (l.length + 1) = i + 1 + l.length := by omega
    rw [Nat.add_right_comm, recoverLoop, hfirst, hlen]
    simp only [if_neg (Nat.not_le.2 hc), recoverLoop_append l (i + 1) hnext hl]
    rfl

/-- All the values stored are in range: they are decrypted, and RECOVER completes with the count. -/
theorem endRecover_of_all_lt (hstored : ∀ i, s.ctbuf.read i = l[i]?) (hcount : s.count = l.length)
    (hl : ∀ c ∈ l, c < s.keys.kn) (hrest : dropSegment s.bin = some rest) :
    endRecover s =
      .next (done s.count
        { s with bin := rest, sout := s.sout ++ segment (l.map s.keys.reconstruct), symcnt := l.length }) := by
  have hloop : recoverLoop s.keys s.ctbuf s.count 0 =
      { out := l.map s.keys.reconstruct, cnt := l.length, stop := none } := by
    have happend := recoverLoop_append (todo := 0) l 0 (fun j _ => by rw [Nat.zero_add, hstored]) hl
    rw [hcount, ← Nat.add_zero l.length, happend, ← crt_eq_reconstruct]
    simp [recoverLoop]
  simp only [endRecover, hloop]
  exact endStream_binSout_next.2 ⟨rest, hrest, by rw [segment, ← List.append_assoc]; rfl⟩

/-- The first value out of range stops it after the symbols before. -/
theorem endRecover_of_kn_le {l1 l2 : List Nat} {c : Nat} (hstored : ∀ i, s.ctbuf.read i = (l1 ++ c :: l2)[i]?)
    (hcount : s.count = (l1 ++ c :: l2).length) (hl : ∀ x ∈ l1, x < s.keys.kn) (hc : s.keys.kn ≤ c)
    (hrest : dropSegment s.bin = some rest) :
    endRecover s =
      .next (raise { kind := .invalidSymbol, info := c }
        { s with bin := rest, sout := s.sout ++ segment (l1.map s.keys.reconstruct), symcnt := l1.length }) := by
  have hloop : recoverLoop s.keys s.ctbuf s.count 0 =
      { out := l1.map s.keys.reconstruct, cnt := l1.length
        stop := some (.raise { kind := .invalidSymbol, info := c }) } := by
    have hread : s.ctbuf.read l1.length = some c := by
      rw [hstored, List.getElem?_append_right (Nat.le_refl _), Nat.sub_self]
      rfl
    have happend := recoverLoop_append (k := s.keys) (m := s.ctbuf) (todo := l2.length + 1) l1 0
      (fun j hj => by rw [Nat.zero_add, hstored, List.getElem?_append_left hj]) hl
    rw [hcount, List.length_append, List.length_cons, happend, ← crt_eq_reconstruct, Nat.zero_add, recoverLoop, hread]
    simp [hc]
  simp only [endRecover, hloop]
  exact raiseStream_binSout_next.2 ⟨rest, hrest, by rw [segment, ← List.append_assoc]⟩

end

/-! ### The first phase -/

variable {s : State} {count : Nat} {bytes : List Byte} {rest : List (Item Byte)} {ts : List Instr}
  {extra : List Bool} {syms : List Nat}

/-- Under a legal configuration, with a decryption key and within the capacity RECOVER is its decode. -/
theorem exec_recover_eq (hok : s.cfg.codecOk s.params = true) (hprv : s.status.prvv = true)
    (hcap : count ≤ s.params.ctCap) {e : Decoder} {x : Option Halt}
    (hrun : (s.decodeStart .recover count).drive s.cfg (2 * count + 1) = (e, x)) :
    exec (.recover count) s = endDecode ((startDecode .recover count s).withDecoder e) x := by
  show execRecover count s = _
  rw [execRecover, if_neg (by rw [hok]; exact Bool.noConfusion), if_neg (by rw [hprv]; exact Bool.noConfusion),
    if_neg (Nat.not_lt.2 hcap)]
  exact congrArg (fun r : Decoder × Option Halt => endDecode ((startDecode .recover count s).withDecoder r.1) r.2) hrun

/-- The decoder of RECOVER when it has put out `syms`, its unpacker being `u` and the last token `tok`. -/
def State.recoverAfter (s : State) (count : Nat) (syms : List Nat) (u : Unpacker) (tok : Option Instr) : Decoder :=
  ((s.decodeStart .recover count).filling s.cfg).after s.cfg.n syms u tok

/-- Besides the counter, the phase and the port only `CTBUF` and the decoder's own registers and window differ. -/
theorem withDecoder_recoverAfter (s : State) (count : Nat) (syms : List Nat) (u : Unpacker) (tok : Option Instr) :
    (startDecode .recover count s).withDecoder (s.recoverAfter count syms u tok) =
      { s with
        bin := u.bin, symcnt := syms.length, count := count, ibuf := u.ibuf, ibits := u.ibits, tok := tok
        dwin := (s.recoverAfter count syms u tok).dwin, ctbuf := (s.recoverAfter count syms u tok).ctbuf
        dr := (s.recoverAfter count syms u tok).dr, phase := (s.recoverAfter count syms u tok).phase
        running := .recover } := by
  have hsymcnt : (s.recoverAfter count syms u tok).symcnt = syms.length := (after_symcnt ..).trans (Nat.zero_add _)
  have hsout : (s.recoverAfter count syms u tok).sout = s.sout := outs_sout ..
  rw [State.withDecoder, hsymcnt, hsout]
  rfl

/-- `CTBUF` holds the symbols and nothing else. -/
theorem read_recoverAfter_ctbuf (s : State) (count : Nat) (syms : List Nat) (u : Unpacker) (tok : Option Instr)
    (i : Nat) : (s.recoverAfter count syms u tok).ctbuf.read i = syms[i]? := by
  refine (read_outs_ctbuf (d := (s.decodeStart .recover count).filling s.cfg) rfl syms i).trans ?_
  show (if 0 ≤ i ∧ i < 0 + syms.length then syms[i - 0]? else Mem.read [] i) = _
  rw [Nat.zero_add, Nat.sub_zero, Mem.read_nil]
  split
  · rfl
  · exact (List.getElem?_eq_none (by omega)).symm

/-- No cell of `DWIN` beyond the window holds a value (45_decoder.md R262; log 6). -/
theorem read_recoverAfter_of_le (hc : s.cfg.Geometry) (syms : List Nat) (u : Unpacker) (tok : Option Instr) {i : Nat}
    (hi : s.cfg.n ≤ i) : (s.recoverAfter count syms u tok).dwin.read i = none := by
  have hn : 0 < s.cfg.n := Nat.zero_lt_of_lt hc.f_lt
  have hm : ((s.decodeStart .recover count).filling s.cfg).Mirrors s.cfg.n (List.replicate s.cfg.h s.cfg.blank) :=
    Decoder.mirrors_blank hc rfl rfl
  exact ((hm.after hn).cells i).trans (cellOf_of_le hn hi)

/-- A segment that decodes to at least `count` symbols: the second phase finds the first `count` of them in `CTBUF`. -/
theorem exec_recover_of_decoded (hbin : s.bin = segment bytes ++ rest) (hok : s.cfg.codecOk s.params = true)
    (hprv : s.status.prvv = true) (hcap : count ≤ s.params.ctCap) {kw : Nat} (hts : s.cfg.Encodes kw ts)
    (hbits : bytes.flatMap byteBits = tokensBits s.cfg.widths ts ++ extra) (hexp : expandTokens s.cfg ts = some syms)
    (hcount : count ≤ syms.length) :
    ∃ u tok, dropSegment u.bin = some rest ∧
      exec (.recover count) s =
        endRecover ((startDecode .recover count s).withDecoder (s.recoverAfter count (syms.take count) u tok)) := by
  obtain ⟨u, tok, hpass, hrun⟩ := (State.decodeStart_begins .recover count hbin hbits hexp).drive_complete
    (CfgRegs.geometry_of_codecOk hok) hts hcount
  have hdrop : dropSegment u.bin = some rest :=
    hpass.dropSegment_eq.trans ((congrArg dropSegment hbin).trans (dropSegment_segment bytes rest))
  exact ⟨u, tok, hdrop, exec_recover_eq hok hprv hcap hrun⟩

/-! ### The whole command -/

/-- A segment whose symbols are all below the modulus. -/
theorem exec_recover_of_complete (hbin : s.bin = segment bytes ++ rest) (hok : s.cfg.codecOk s.params = true)
    (hprv : s.status.prvv = true) (hcap : count ≤ s.params.ctCap) {kw : Nat} (hts : s.cfg.Encodes kw ts)
    (hbits : bytes.flatMap byteBits = tokensBits s.cfg.widths ts ++ extra) (hexp : expandTokens s.cfg ts = some syms)
    (hcount : count ≤ syms.length) (hsyms : ∀ c ∈ syms.take count, c < s.keys.kn) :
    ∃ (ibuf : Byte) (ibits : Fin 9) (tok : Option Instr) (dwin ctbuf : Mem) (dr : Nat),
      (∀ i, s.cfg.n ≤ i → dwin.read i = none) ∧ (∀ i, ctbuf.read i = (syms.take count)[i]?) ∧
      exec (.recover count) s =
        .next (done count
          { s with
            bin := rest, sout := s.sout ++ segment ((syms.take count).map s.keys.reconstruct), symcnt := count
            count := count, ibuf := ibuf, ibits := ibits, tok := tok, dwin := dwin, ctbuf := ctbuf, dr := dr }) := by
  obtain ⟨u, tok, hrest, hexec⟩ := exec_recover_of_decoded hbin hok hprv hcap hts hbits hexp hcount
  have hlen : (syms.take count).length = count := by rw [List.length_take, Nat.min_eq_left hcount]
  have hstored := read_recoverAfter_ctbuf s count (syms.take count) u tok
  have hend := endRecover_of_all_lt
    (s := (startDecode .recover count s).withDecoder (s.recoverAfter count (syms.take count) u tok)) hstored hlen.symm
    hsyms hrest
  rw [← hexec, withDecoder_recoverAfter, hlen] at hend
  exact ⟨_, _, _, _, _, _, fun i => read_recoverAfter_of_le (CfgRegs.geometry_of_codecOk hok) _ u tok, hstored, hend⟩

/-- Settles O40: by `exec_recover_of_complete`. -/
theorem recoverDecryptsTheTokens : Obligations.RecoverDecryptsTheTokens :=
  ⟨decodesTo_recover, fun _ _ _ _ _ _ _ hbin hok hprv hcap hts hbits hexp hcount hsyms =>
    exec_recover_of_complete hbin hok hprv hcap hts hbits hexp hcount hsyms⟩

/-- A segment that ends inside a token before `count` symbols: nothing has been pushed. -/
theorem exec_recover_of_malformed (hbin : s.bin = segment bytes ++ rest) (hok : s.cfg.codecOk s.params = true)
    (hprv : s.status.prvv = true) (hcap : count ≤ s.params.ctCap) {kw : Nat} (hts : s.cfg.Encodes kw ts)
    (hbits : bytes.flatMap byteBits = tokensBits s.cfg.widths ts ++ extra) {e : DecodeError}
    (hextra : decodeToken s.cfg.widths extra = .error e) (hexp : expandTokens s.cfg ts = some syms)
    (hcount : syms.length < count) :
    ∃ (ibuf : Byte) (ibits : Fin 9) (tok : Option Instr) (dwin ctbuf : Mem) (dr : Nat),
      exec (.recover count) s =
        .next (raise { kind := .malformedBitstream, info := syms.length }
          { s with
            bin := rest, sout := s.sout ++ segment [], symcnt := syms.length, count := count
            ibuf := ibuf, ibits := ibits, tok := tok, dwin := dwin, ctbuf := ctbuf, dr := dr }) := by
  have hport : dropSegment s.bin = some rest := hbin ▸ dropSegment_segment bytes rest
  obtain ⟨u, tok, hu, hrun⟩ := (State.decodeStart_begins .recover count hbin hbits hexp).drive_malformed
    (CfgRegs.geometry_of_codecOk hok) hts hcount hextra hport
  refine ⟨u.ibuf, u.ibits, tok, (s.recoverAfter count syms u tok).dwin, (s.recoverAfter count syms u tok).ctbuf,
    (s.recoverAfter count syms u tok).dr, (exec_recover_eq hok hprv hcap hrun).trans ?_⟩
  exact (congrArg (endDecode · _) (withDecoder_recoverAfter s count syms u tok)).trans
    (raiseStream_binSout_next.2 ⟨rest, congrArg some hu, rfl⟩)

/-- Settles O42: the three errors before the decode by their tests in order, the malformed segment by the decode, and a
value out of range by the second phase (`endRecover_of_kn_le`). -/
theorem recoverRaises : Obligations.RecoverRaises := by
  intro s count bytes rest hbin
  have hrest : dropSegment s.bin = some rest := hbin ▸ dropSegment_segment bytes rest
  refine ⟨fun hbad => ?_, fun hok hkey => ?_, fun hok hprv hcap => ?_, fun ts extra syms hok hprv hcap hts hbits hexp =>
    ⟨fun hextra hcount => exec_recover_of_malformed hbin hok hprv hcap hts hbits hextra hexp hcount,
      fun l1 c l2 hcount hsplit hl hc => ?_⟩⟩
  · show execRecover count s = _
    rw [execRecover, if_pos hbad]
    exact raiseStream_binSout_next.2 ⟨rest, hrest, rfl⟩
  · show execRecover count s = _
    rw [execRecover, if_neg (by rw [hok]; exact Bool.noConfusion), if_pos hkey]
    exact raiseStream_binSout_next.2 ⟨rest, hrest, rfl⟩
  · show execRecover count s = _
    rw [execRecover, if_neg (by rw [hok]; exact Bool.noConfusion), if_neg (by rw [hprv]; exact Bool.noConfusion),
      if_pos hcap]
    exact raiseStream_binSout_next.2 ⟨rest, hrest, rfl⟩
  · obtain ⟨u, tok, hdrop, hexec⟩ := exec_recover_of_decoded hbin hok hprv hcap hts hbits hexp hcount
    have hlen : (syms.take count).length = count := by rw [List.length_take, Nat.min_eq_left hcount]
    have hstored := read_recoverAfter_ctbuf s count (syms.take count) u tok
    rw [hsplit] at hlen hstored hexec
    have hend := endRecover_of_kn_le
      (s := (startDecode .recover count s).withDecoder (s.recoverAfter count (l1 ++ c :: l2) u tok)) hstored hlen.symm
      hl hc hdrop
    rw [← hexec, withDecoder_recoverAfter] at hend
    exact ⟨_, _, _, _, _, _, hend⟩

end Sys2Proof.Machine
end

section
/-! The pipelines against their parts (46_control_pipeline.md R297): PROTECT is ENCS, then COMP; RECOVER, and DECOMP
then DECS, give back what PROTECT has taken. -/

namespace Sys2Proof.Machine

open Sys2Proof

theorem KeyFile.power_lt_kn {k : KeyFile} {m : Nat} (hm : m < k.kn) : k.power m < k.kn :=
  Nat.mod_lt _ (Nat.zero_lt_of_lt hm)

/-- The recombination undoes the power (41_cipher.md R145, 42_crt.md R197). -/
theorem KeyFile.Keypair.reconstruct_power {k : KeyFile} (h : k.Keypair) {m : Nat} (hm : m < k.kn) :
    k.reconstruct (k.power m) = m := by
  rw [← crt_eq_reconstruct, h.crt_eq_decryptDirect, ← encrypt_eq_power hm, h.decryptDirect_encrypt hm]

theorem KeyFile.Keypair.map_reconstruct_map_power {k : KeyFile} (h : k.Keypair) {l : List Nat}
    (hl : ∀ m ∈ l, m < k.kn) : (l.map k.power).map k.reconstruct = l := by
  rw [List.map_map]
  exact (List.map_congr_left fun m hm => h.reconstruct_power (hl m hm)).trans (List.map_id' l)

section

variable {s : State} {l : List Nat}

theorem power_lt_kn_of_mem_map (hl : ∀ m ∈ l, m < s.keys.kn) : ∀ c ∈ l.map s.keys.power, c < s.keys.kn :=
  List.forall_mem_map.2 fun m hm => KeyFile.power_lt_kn (hl m hm)

/-- With a symbol width that holds the modulus the first phase of PROTECT admits every symbol in range. -/
theorem protectable_of_kn_le (hkn : s.keys.kn ≤ 2 ^ s.cfg.symw.toNat) (hl : ∀ m ∈ l, m < s.keys.kn) :
    ∀ m ∈ l, s.Protectable m :=
  fun m hm => ⟨hl m hm, (KeyFile.power_lt_kn (hl m hm)).trans_le hkn⟩

end

/-- Settles O38: ENCS puts out the powers, and COMP on them the bytes of the same tokens as PROTECT. -/
theorem protectIsEncsThenComp : Obligations.ProtectIsEncsThenComp := by
  intro s l rest rest2 hsin hopen hok hpub _ hkn hcap hl hfits
  have hpowers : ∀ c ∈ l.map s.keys.power, c < 2 ^ s.cfg.symw.toNat :=
    fun c hc => (power_lt_kn_of_mem_map hl c hc).trans_le hkn
  obtain ⟨_, _, _, -, -, hprotect⟩ := protectCompressesTheCiphertext.2 s l rest hsin hopen hok hpub hcap
    (protectable_of_kn_le hkn hl) hfits
  have hencs := (encsEncryptsASegment.2 s l rest hsin).2.1 hpub hcap hl
  obtain ⟨_, _, -, hcomp⟩ := compEmitsTheStreamTokens.2
    { done l.length { s with symcnt := l.length, sin := rest, sout := s.sout ++ segment (l.map s.keys.power) } with
      sin := segment (l.map s.keys.power) ++ rest2 }
    (l.map s.keys.power) rest2 rfl hopen hok (by rwa [List.length_map]) hpowers hfits
  exact ⟨_, _, _, l.map s.keys.power, hprotect, rfl, hencs, rfl, rfl, hcomp, rfl, rfl⟩

section

variable {u : State} {l : List Nat} {rest : List (Item Byte)}

/-- DECOMP of the bytes of a list that fits the symbol width pushes the list; the key and its flag stay. -/
theorem exec_decomp_streamBytes (hbin : u.bin = segment (streamBytes u.cfg l) ++ rest)
    (hok : u.cfg.codecOk u.params = true) (hcap : l.length ≤ u.params.ctCap) (hl : ∀ v ∈ l, v < 2 ^ u.cfg.symw.toNat) :
    ∃ v, exec (.decomp l.length) u = .next v ∧ v.params = u.params ∧ v.keys = u.keys ∧
      v.status.prvv = u.status.prvv ∧ v.sout = u.sout ++ segment l := by
  obtain ⟨pad, hbits⟩ := flatMap_byteBits_packBits (tokensBits u.cfg.widths (streamTokens u.cfg l))
  obtain ⟨_, _, _, _, _, -, hdecomp⟩ := exec_decomp_of_complete hbin hok hcap (encodes_streamTokens hok hl u.params.kw)
    hbits (expandTokens_streamTokens (CfgRegs.geometry_of_codecOk hok) l) (Nat.le_refl _)
  rw [List.take_length] at hdecomp
  exact ⟨_, hdecomp, rfl, rfl, rfl, rfl⟩

/-- RECOVER of the bytes of such a list of values in range pushes their recombinations. -/
theorem exec_recover_streamBytes (hbin : u.bin = segment (streamBytes u.cfg l) ++ rest)
    (hok : u.cfg.codecOk u.params = true) (hprv : u.status.prvv = true) (hcap : l.length ≤ u.params.ctCap)
    (hl : ∀ v ∈ l, v < 2 ^ u.cfg.symw.toNat) (hkn : ∀ c ∈ l, c < u.keys.kn) :
    ∃ v, exec (.recover l.length) u = .next v ∧ v.status.lasterr = 0 ∧
      v.sout = u.sout ++ segment (l.map u.keys.reconstruct) := by
  obtain ⟨pad, hbits⟩ := flatMap_byteBits_packBits (tokensBits u.cfg.widths (streamTokens u.cfg l))
  obtain ⟨_, _, _, _, _, _, -, -, hrecover⟩ := exec_recover_of_complete hbin hok hprv hcap
    (encodes_streamTokens hok hl u.params.kw) hbits (expandTokens_streamTokens (CfgRegs.geometry_of_codecOk hok) l)
    (Nat.le_refl _) (by rwa [List.take_length])
  rw [List.take_length] at hrecover
  exact ⟨_, hrecover, rfl, rfl⟩

end

/-- Settles O41: PROTECT pushes the bytes of the powers, which RECOVER, and DECOMP then DECS, recombine; with a key pair
that gives the symbols (`KeyFile.Keypair.reconstruct_power`). -/
theorem recoverInvertsProtect : Obligations.RecoverInvertsProtect := by
  intro s l rest hsin hopen hok hpub hkey hkn hcap hl hfits
  obtain ⟨_, _, _, -, -, hprotect⟩ := protectCompressesTheCiphertext.2 s l rest hsin hopen hok hpub hcap
    (protectable_of_kn_le hkn hl) hfits
  refine ⟨_, streamBytes s.cfg (l.map s.keys.power), hprotect, rfl, rfl, ?_⟩
  intro u rest2 rest3 hparams hcfg hkeys hprv hbin
  have hlen : (l.map u.keys.power).length = l.length := List.length_map _
  rw [← hkeys] at hkey hkn hl hbin
  rw [← hcfg] at hok hkn hbin
  rw [← hparams] at hok hcap
  rw [← hlen] at hcap ⊢
  have hrange : ∀ c ∈ l.map u.keys.power, c < u.keys.kn := power_lt_kn_of_mem_map hl
  have hwidth : ∀ c ∈ l.map u.keys.power, c < 2 ^ u.cfg.symw.toNat := fun c hc => (hrange c hc).trans_le hkn
  have hback := hkey.map_reconstruct_map_power hl
  constructor
  · obtain ⟨v, hrun, herr, hsout⟩ := exec_recover_streamBytes hbin hok hprv hcap hwidth hrange
    exact ⟨v, hrun, herr, hback ▸ hsout⟩
  · obtain ⟨v1, hrun, hp1, hk1, hprv1, hsout⟩ := exec_decomp_streamBytes hbin hok hcap hwidth
    have hdecs := (decsDecryptsASegment.2 { v1 with sin := segment (l.map u.keys.power) ++ rest3 } _ rest3 rfl).2.1
      (hprv1.trans hprv) (hp1 ▸ hcap) (hk1 ▸ hrange)
    refine ⟨v1, _, l.map u.keys.power, hrun, hsout, hdecs, rfl, ?_⟩
    show v1.sout ++ segment ((l.map u.keys.power).map v1.keys.reconstruct) = _
    rw [hk1, hback]

end Sys2Proof.Machine
end

section
/-! Runs of the machine that end as a command's big step ends (46_control_pipeline.md R300). -/

namespace Sys2Proof.Machine

open Sys2Proof

/-- Some number of machine steps from `s` ends with `o`. -/
def Ends (s : State) (o : Outcome) : Prop := ∃ k, Host.Core.run Sys2Proof.core k s = o

variable {s t : State} {o : Outcome}

theorem run_succ_of_next (h : step s = .next t) (k : Nat) :
    Host.Core.run Sys2Proof.core (k + 1) s = Host.Core.run Sys2Proof.core k t := by
  have hcore : Sys2Proof.core.step s = .next t := h
  simp only [Host.Core.run, hcore]

theorem run_one (s : State) : Host.Core.run Sys2Proof.core 1 s = step s := by
  have hcore : Sys2Proof.core.step s = step s := rfl
  simp only [Host.Core.run, hcore]
  cases step s <;> rfl

theorem Ends.of_step (h : step s = o) : Ends s o := ⟨1, (run_one s).trans h⟩

theorem Ends.of_next (h : step s = .next t) : Ends t o → Ends s o
  | ⟨k, hk⟩ => ⟨k + 1, (run_succ_of_next h k).trans hk⟩

end Sys2Proof.Machine
end

section
/-! The phases of a decode, whatever the segment holds: each but the last brings it forward (46_control_pipeline.md
R300, R302), so that its machine steps end as DECOMP and RECOVER end. -/

namespace Sys2Proof.Machine

open Sys2Proof

variable {c : CfgRegs} {n off : Nat} {d e : Decoder}

/-! ### A token puts out a symbol -/

/-- A copy that meets no unwritten cell puts out symbols, at least one while symbols are missing. -/
theorem copy_eq_outs_of_none :
    ∀ {todo k : Nat} {d e : Decoder}, Decoder.copy n off todo k d = (e, none) →
      ∃ syms, e = d.outs n syms ∧ (todo ≠ 0 → d.symcnt ≠ d.count → syms ≠ [])
  | 0, _, d, e, h => by
    cases h
    exact ⟨[], rfl, fun h0 => absurd rfl h0⟩
  | todo + 1, k, d, e, h => by
    by_cases hfull : d.symcnt = d.count
    · rw [copy_of_full hfull] at h
      cases h
      exact ⟨[], rfl, fun _ hmissing => absurd hfull hmissing⟩
    · cases hread : d.dwin.read ((off + k) % n) with
      | none => rw [copy_of_unwritten hfull hread] at h; cases h
      | some v =>
        rw [copy_of_read hfull hread] at h
        obtain ⟨syms, rfl, -⟩ := copy_eq_outs_of_none h
        exact ⟨v :: syms, rfl, fun _ _ => List.cons_ne_nil v syms⟩

/-- A token that is executed while symbols are missing puts out one at least (45_decoder.md R264, R266). -/
theorem token_eq_outs_resume {i : Instr} (h : Decoder.token n i d = (e, none)) (hmissing : d.symcnt ≠ d.count) :
    ∃ syms, syms ≠ [] ∧ e = (d.outs n syms).resume := by
  cases i with
  | literal sym =>
    cases h
    exact ⟨[sym], List.cons_ne_nil sym [], rfl⟩
  | matchTok off len2 =>
    cases hcopy : Decoder.copy n off (len2 + 2) 0 d with
    | mk d1 stop =>
      cases stop with
      | none =>
        obtain ⟨syms, rfl, hne⟩ := copy_eq_outs_of_none hcopy
        simp only [Decoder.token, Decoder.matchTok, hcopy] at h
        cases h
        exact ⟨syms, hne (Nat.succ_ne_zero _) hmissing, rfl⟩
      | some f =>
        simp only [Decoder.token, Decoder.matchTok, hcopy] at h
        cases h
  | _ => cases h

/-! ### A decode under way -/

/-- A decode of `which` for `n` symbols between two of its phases. -/
structure Decoder.Underway (which : Running) (n : Nat) (d : Decoder) : Prop where
  inv : d.Inv n (fun _ => True)
  running : d.running = which
  phase : d.phase ≠ .idle ∧ d.phase ≠ .shifting

variable {which : Running}

theorem Decoder.resume_phase (d : Decoder) : d.resume.phase = .matching ∨ d.resume.phase = .drained := by
  simp only [Decoder.resume]
  split
  · exact .inl rfl
  · exact .inr rfl

theorem Decoder.resume_phase_admitted (d : Decoder) : d.resume.phase ≠ .idle ∧ d.resume.phase ≠ .shifting := by
  rcases d.resume_phase with h | h <;> rw [h] <;> exact ⟨nofun, nofun⟩

/-- No work is left only at `Drained`. -/
theorem Decoder.Underway.work_pos (h : d.Underway which n) (hp : d.phase ≠ .drained) : 0 < d.work := by
  obtain ⟨hidle, hshift⟩ := h.phase
  have hcount := h.inv.count
  have hdue := h.inv.due
  rw [Decoder.work]
  cases hph : d.phase with
  | filling => exact Nat.succ_pos _
  | matching => have := hdue (.inl hph); simp only; omega
  | emitting => have := hdue (.inr hph); simp only; omega
  | drained => exact absurd hph hp
  | shifting => exact absurd hph hshift
  | idle => exact absurd hph hidle

/-- A phase that goes on leaves less work. -/
theorem Decoder.Underway.phaseStep (h : d.Underway which n) (hp : d.phase ≠ .drained)
    (hstep : d.phaseStep c = (e, none)) : e.Underway which n ∧ e.work < d.work := by
  obtain ⟨hinv, -⟩ := h.inv.phaseStep (c := c) ⟨trivial, fun _ _ => trivial, fun _ _ => trivial⟩
  rw [hstep] at hinv
  have hdue := h.inv.due
  have hcount := h.inv.count
  rcases Decoder.phaseStep_next hstep with ⟨hph, rfl⟩ | ⟨hph, i, u, -, rfl⟩ | ⟨hph, i, -, htok⟩ | ⟨hph, -⟩
  · refine ⟨⟨hinv, h.running, Decoder.resume_phase_admitted _⟩, ?_⟩
    rw [Decoder.filling, Decoder.work_resume]
    simp only [Decoder.work, hph]
    omega
  · have hlt := hdue (.inl hph)
    refine ⟨⟨hinv, h.running, nofun, nofun⟩, ?_⟩
    simp only [Decoder.work, hph]
    omega
  · have hlt := hdue (.inr hph)
    obtain ⟨syms, hne, rfl⟩ := token_eq_outs_resume htok (by omega)
    have hpos := List.length_pos_iff.2 hne
    refine ⟨⟨hinv, (outs_running ..).trans h.running, Decoder.resume_phase_admitted _⟩, ?_⟩
    rw [Decoder.work_resume, outs_count, outs_symcnt]
    simp only [Decoder.work, hph]
    omega
  · exact absurd hph hp

/-! ### The machine's steps -/

/-- What a phase of a decode makes of the state. -/
def State.afterDecode (s : State) : Decoder × Option Halt → Outcome
  | (d, none) => .next (s.withDecoder d)
  | (d, some h) => endDecode (s.withDecoder d) (some h)

variable {s : State}

/-- A token held is executed as an instruction, which is what the decoder's own phase does. -/
theorem runToken_eq (s : State) : runToken s = s.afterDecode (s.decoder.emitting s.cfg) := by
  have htok : s.decoder.tok = s.tok := rfl
  rw [runToken, Decoder.emitting, htok]
  cases s.tok with
  | none => rfl
  | some i =>
    cases i with
    | matchTok off len2 =>
      show execMatchTok off len2 s = _
      simp only [execMatchTok, Decoder.token]
      cases s.decoder.matchTok s.cfg.n off len2 with
      | mk d stop => cases stop <;> rfl
    | _ => rfl

theorem decodeStep_eq (hp : s.phase ≠ .drained) : decodeStep s = s.afterDecode (s.decoder.phaseStep s.cfg) := by
  have hphase : s.decoder.phase = s.phase := rfl
  rw [decodeStep, Decoder.phaseStep, hphase]
  cases hph : s.phase with
  | filling => rfl
  | matching =>
    show fetchToken s = _
    rw [fetchToken]
    cases s.decoder.matching s.cfg with
    | mk d stop => cases stop <;> rfl
  | emitting => exact runToken_eq s
  | drained => exact absurd hph hp
  | shifting => rfl
  | idle => rfl

/-- At `Drained` the next step ends the decode, and more phases change nothing. -/
theorem ends_of_decoded (hreset : s.resetLine = false) (hrun : s.running = .decomp ∨ s.running = .recover)
    (hp : s.phase = .drained) (fuel : Nat) :
    Ends s (endDecode (s.withDecoder (s.decoder.drive s.cfg fuel).1) (s.decoder.drive s.cfg fuel).2) := by
  rw [Decoder.drive_of_drained hp, withDecoder_self]
  refine .of_step ((step_of_decoding hreset (by rw [hp]; exact nofun) hrun).trans ?_)
  rw [decodeStep, hp]

/-- From a decode under way the machine comes to the end of the phases run one after the other. -/
theorem ends_of_decoding (hwhich : which = .decomp ∨ which = .recover) :
    ∀ {fuel : Nat} {s : State}, s.resetLine = false → s.decoder.Underway which s.count → s.decoder.work ≤ fuel →
      Ends s (endDecode (s.withDecoder (s.decoder.drive s.cfg fuel).1) (s.decoder.drive s.cfg fuel).2) := by
  intro fuel
  induction fuel with
  | zero =>
    intro s hreset h hfuel
    have hp : s.phase = .drained := by
      by_contra hp
      exact absurd (h.work_pos hp) (Nat.not_lt.2 hfuel)
    exact ends_of_decoded hreset ((show s.running = which from h.running) ▸ hwhich) hp 0
  | succ fuel ih =>
    intro s hreset h hfuel
    have hrunning : s.running = which := h.running
    by_cases hp : s.phase = .drained
    · exact ends_of_decoded hreset (hrunning ▸ hwhich) hp (fuel + 1)
    · have hstep := step_of_decoding hreset h.phase.1 (hrunning ▸ hwhich)
      rw [decodeStep_eq hp] at hstep
      cases hphase : s.decoder.phaseStep s.cfg with
      | mk e stop =>
        rw [hphase] at hstep
        cases stop with
        | some x =>
          rw [Decoder.drive_of_halt hp hphase]
          exact .of_step hstep
        | none =>
          obtain ⟨hnext, hless⟩ := h.phaseStep hp hphase
          have he : (s.withDecoder e).decoder = e := by
            rw [withDecoder_decoder, ← hnext.inv.count, hrunning, ← hnext.running]
          have hgo := ih (s := s.withDecoder e) hreset (by rwa [he]) (by rw [he]; omega)
          rw [he] at hgo
          rw [Decoder.drive_succ hp hphase]
          exact .of_next hstep hgo

/-- From `Filling` on DECOMP and RECOVER end as their decode. -/
theorem ends_runDecode (hrun : which = .decomp ∨ which = .recover) (hreset : s.resetLine = false) (n : Nat) :
    Ends (startDecode which n s) (runDecode (startDecode which n s)) :=
  ends_of_decoding hrun hreset
    ⟨{ count := rfl, symcnt := Nat.zero_le n, dwin := fun _ _ _ => trivial, sout := fun _ _ => trivial,
       ctbuf := fun _ _ _ => trivial, due := nofun, tok := nofun }, rfl, nofun, nofun⟩
    (Nat.le_refl _)

end Sys2Proof.Machine
end

section
/-! The phases of an encode, whatever the segment holds: each but the last brings it forward (46_control_pipeline.md
R300, R302), so that its machine steps end as COMP and PROTECT's second phase end. -/

namespace Sys2Proof.Machine

open Sys2Proof

variable {P : Params} {c : CfgRegs} {e e1 : Encoder}

/-! ### The phases run one after the other -/

theorem Encoder.drive_of_drained (h : e.phase = .drained) (fuel : Nat) : e.drive P c fuel = (e, none) := by
  cases fuel with
  | zero => rfl
  | succ fuel => rw [Encoder.drive, if_pos h]

theorem Encoder.drive_succ (h : e.phase ≠ .drained) (hstep : e.phaseStep P c = (e1, none)) (fuel : Nat) :
    e.drive P c (fuel + 1) = e1.drive P c fuel := by
  rw [Encoder.drive, if_neg h, hstep]

theorem Encoder.drive_of_halt {x : Halt} (h : e.phase ≠ .drained) (hstep : e.phaseStep P c = (e1, some x))
    (fuel : Nat) : e.drive P c (fuel + 1) = (e1, some x) := by
  rw [Encoder.drive, if_neg h, hstep]

/-! ### The symbols still to be encoded -/

/-- A bound on the symbols still to be loaded: those left in `CTBUF`, or those `CT_CAP` still admits. -/
def Encoder.unread (P : Params) (e : Encoder) : Nat :=
  if e.running = .protect then e.symcnt - e.regs.taken else P.ctCap - e.symcnt

/-- A symbol loaded is one less to load. -/
theorem Encoder.unread_load (hcap : e.symcnt ≤ P.ctCap) {v : Nat} (hp : e.pull = .sym v e1)
    (hx : e1.refuses P c v = none) : (e1.load v).unread P + 1 = e.unread P := by
  by_cases hrun : e.running = .protect
  · simp only [Encoder.pull, hrun] at hp
    split at hp
    · next hlt =>
      split at hp <;> cases hp
      simp only [Encoder.unread, Encoder.load, hrun, if_true]
      omega
    · cases hp
  · obtain ⟨sin, taken, rfl⟩ := Encoder.pull_sym_frame hp
    have hne : e.symcnt ≠ P.ctCap := Encoder.symcnt_ne_of_not_refused hx hrun
    simp only [Encoder.unread, Encoder.load, if_neg hrun]
    omega

/-- What `fill` loads it takes from the symbols to be loaded. -/
theorem fill_unread :
    ∀ (room : Nat) {e e1 : Encoder}, e.Inv P (fun _ => True) → fill P c room e = (e1, none) →
      e1.unread P + e1.regs.bufferend = e.unread P + e.regs.bufferend
  | 0, _, _, _, h => by cases h; rfl
  | room + 1, e, e1, hinv, h => by
    rw [fill] at h
    split at h
    · cases h; rfl
    · split at h
      · cases h
      · next hp =>
        obtain ⟨sin, rfl⟩ := Encoder.pull_eos_frame hp
        cases h
        rfl
      · next v e2 hp =>
        split at h
        · cases h
        · next hx =>
          have hload := Encoder.unread_load hinv.symcnt hp hx
          have ih := fill_unread room ((hinv.pull_sym hp).2.load trivial hx) h
          obtain ⟨sin, taken, rfl⟩ := Encoder.pull_sym_frame hp
          have hbuf : (Encoder.load v { e with sin := sin, regs := { e.regs with taken := taken } }).regs.bufferend =
            e.regs.bufferend + 1 := rfl
          omega

/-- The symbols still to be encoded: those to be loaded, and those of the window from the cursor on. -/
def Encoder.toEncode (P : Params) (e : Encoder) : Nat :=
  e.unread P + if e.phase = .filling then 0 else e.regs.bufferend - e.regs.r

theorem Encoder.toEncode_of_ne_filling (h : e.phase ≠ .filling) :
    e.toEncode P = e.unread P + (e.regs.bufferend - e.regs.r) := by
  rw [Encoder.toEncode, if_neg h]

/-- How many phases an encode can still take (46_control_pipeline.md R302). -/
def Encoder.work (P : Params) (e : Encoder) : Nat := phasesLeft (e.toEncode P) e.phase

/-! ### An encode under way -/

/-- An encode between two of its phases. -/
structure Encoder.Underway (P : Params) (c : CfgRegs) (e : Encoder) : Prop where
  inv : e.Inv P (fun _ => True)
  loop : e.phase ≠ .filling → e.LoopInv c

theorem Encoder.LoopInv.phase_ne_filling (h : e.LoopInv c) : e.phase ≠ .filling := by
  rcases h.phase_mem with hp | hp | hp | hp <;> rw [hp] <;> nofun

theorem Encoder.Underway.phase_ne_idle (h : e.Underway P c) : e.phase ≠ .idle := fun hp => by
  rcases (h.loop (by rw [hp]; nofun)).phase_mem with h1 | h1 | h1 | h1 <;> rw [hp] at h1 <;> cases h1

/-- No work is left only at `Drained`. -/
theorem Encoder.Underway.work_pos (h : e.Underway P c) (hp : e.phase ≠ .drained) : 0 < e.work P := by
  rw [Encoder.work]
  cases hph : e.phase with
  | idle => exact absurd hph h.phase_ne_idle
  | filling => exact Nat.succ_pos _
  | matching =>
    have hlt := ((h.loop (by rw [hph]; nofun)).matching hph).2
    rw [Encoder.toEncode_of_ne_filling (by rw [hph]; nofun), phasesLeft]
    omega
  | emitting =>
    have hlt := ((h.loop (by rw [hph]; nofun)).emitting hph).2.1
    rw [Encoder.toEncode_of_ne_filling (by rw [hph]; nofun), phasesLeft]
    omega
  | shifting => exact Nat.succ_pos _
  | drained => exact absurd hph hp

/-- The main loop is taken up again with no more to encode than a load started with. -/
theorem Encoder.work_resume_lt {m : Nat} (h : e.unread P + (e.regs.bufferend - e.regs.r) ≤ m) :
    e.resume.work P < 3 * m + 1 := by
  have heq : e.resume.toEncode P = e.unread P + (e.regs.bufferend - e.regs.r) :=
    Encoder.toEncode_of_ne_filling e.resume_phase_ne_filling
  rw [Encoder.work, heq]
  rcases e.resume_phase with hp | hp <;> rw [hp, phasesLeft] <;> omega

theorem Encoder.filling_work_lt (hinv : e.Inv P (fun _ => True)) (hp : e.phase = .filling)
    (hstep : e.filling P c = (e1, none)) : e1.work P < e.work P := by
  obtain ⟨e2, hfill, rfl⟩ := Encoder.filling_next hstep
  have hblank : (e.blanked c).Inv P (fun _ => True) := { hinv with win := fun _ _ _ => trivial }
  have hunread := fill_unread _ hblank hfill
  obtain ⟨hload, -⟩ := fill_loads (P := P) (c := c) (2 * c.n - c.h) (e.blanked c)
  rw [hfill] at hload
  have hlower : c.h ≤ e2.regs.bufferend := hload.lower
  have hstart : e.work P = 3 * e.unread P + 1 := by
    rw [Encoder.work, Encoder.toEncode, hp, if_pos rfl, Nat.add_zero, phasesLeft]
  rw [hstart]
  refine Encoder.work_resume_lt ?_
  show e2.unread P + (e2.regs.bufferend - c.h) ≤ e.unread P
  have hb : (e.blanked c).unread P + (e.blanked c).regs.bufferend = e.unread P + c.h := rfl
  omega

theorem Encoder.LoopInv.matching_work_lt (h : e.LoopInv c) (hp : e.phase = .matching)
    (hstep : e.phaseStep P c = (e1, none)) : e1.work P < e.work P := by
  obtain ⟨sym, -, hnext⟩ := h.matching_eq (P := P) hp
  cases hnext.symm.trans hstep
  have hlt := (h.matching hp).2
  have hphase : (e.matched c sym).phase = .emitting := rfl
  have heq : (e.matched c sym).toEncode P = e.toEncode P := by
    rw [Encoder.toEncode_of_ne_filling h.phase_ne_filling]
    rfl
  rw [Encoder.work, Encoder.work, heq, hphase, hp, phasesLeft, phasesLeft,
    Encoder.toEncode_of_ne_filling h.phase_ne_filling]
  omega

theorem Encoder.LoopInv.emitting_work_lt (hc : c.Geometry) (h : e.LoopInv c) (hp : e.phase = .emitting)
    (hstep : e.phaseStep P c = (e1, none)) : e1.work P < e.work P := by
  obtain ⟨sym, -, ⟨pk, -, hnext, hinv⟩ | ⟨x, y, -, hraise⟩⟩ := h.emitting_cases (P := P) hc hp
  · cases hnext.symm.trans hstep
    obtain ⟨hone, -, hend⟩ := h.tokenSpan_le hc hp sym
    obtain ⟨p, -, heq⟩ := Encoder.advance_eq (e := e) (c := c) (tokenSpan (e.token c sym)) pk
    have hless : (e.advance c (tokenSpan (e.token c sym)) pk).toEncode P + 1 ≤ e.toEncode P := by
      rw [Encoder.toEncode_of_ne_filling hinv.phase_ne_filling, Encoder.toEncode_of_ne_filling h.phase_ne_filling, heq]
      show e.unread P + (e.regs.bufferend - (e.regs.r + tokenSpan (e.token c sym))) + 1 ≤ _
      omega
    have hle := phasesLeft_le ((e.advance c (tokenSpan (e.token c sym)) pk).toEncode P)
      (e.advance c (tokenSpan (e.token c sym)) pk).phase
    rw [Encoder.work, Encoder.work, hp, phasesLeft]
    omega
  · cases hraise.symm.trans hstep

theorem Encoder.LoopInv.shifting_work_lt (hc : c.Geometry) (hinv : e.Inv P (fun _ => True)) (h : e.LoopInv c)
    (hp : e.phase = .shifting) (hstep : e.shifting P c = (e1, none)) : e1.work P < e.work P := by
  obtain ⟨hlo, -⟩ := h.shifting hp
  have hahead := h.inWindow.ahead
  have hf := hc.f_lt
  obtain ⟨e2, hfill, rfl⟩ := Encoder.shifting_next hstep
  have hrebased : (e.rebase c).Inv P (fun _ => True) := { hinv with win := fun _ _ _ => trivial }
  have hunread := fill_unread _ hrebased hfill
  obtain ⟨hload, -⟩ := fill_loads (P := P) (c := c) (2 * c.n - (e.rebase c).regs.bufferend) (e.rebase c)
  rw [hfill] at hload
  have hr : e2.regs.r = e.regs.r - c.n := hload.r
  have hlower : e.regs.bufferend - c.n ≤ e2.regs.bufferend := hload.lower
  have hb : (e.rebase c).unread P + (e.rebase c).regs.bufferend = e.unread P + (e.regs.bufferend - c.n) := rfl
  have hstart : e.work P = 3 * (e.unread P + (e.regs.bufferend - e.regs.r)) + 1 := by
    rw [Encoder.work, Encoder.toEncode_of_ne_filling h.phase_ne_filling, hp, phasesLeft]
  rw [hstart]
  exact Encoder.work_resume_lt (by omega)

/-- A phase that goes on leaves less work. -/
theorem Encoder.Underway.phaseStep (hc : c.Geometry) (h : e.Underway P c) (hp : e.phase ≠ .drained)
    (hstep : e.phaseStep P c = (e1, none)) : e1.Underway P c ∧ e1.work P < e.work P := by
  obtain ⟨hinv, -⟩ := h.inv.phaseStep (c := c) ⟨trivial, fun _ _ => trivial, fun _ _ => trivial⟩
  rw [hstep] at hinv
  by_cases hfilling : e.phase = .filling
  · have hfill : e.filling P c = (e1, none) := by rwa [Encoder.phaseStep, hfilling] at hstep
    exact ⟨⟨hinv, fun _ => Encoder.filling_loopInv hc hfill⟩, Encoder.filling_work_lt h.inv hfilling hfill⟩
  · have hloop := h.loop hfilling
    refine ⟨⟨hinv, fun _ => hloop.phaseStep hc hstep⟩, ?_⟩
    rcases hloop.phase_mem with hph | hph | hph | hph
    · exact hloop.matching_work_lt hph hstep
    · exact hloop.emitting_work_lt hc hph hstep
    · exact hloop.shifting_work_lt hc h.inv hph (by rwa [Encoder.phaseStep, hph] at hstep)
    · exact absurd hph hp

/-! ### The machine's steps -/

variable {s : State}

/-- The step of an encode under way (46_control_pipeline.md R300). -/
theorem step_of_encoding (hreset : s.resetLine = false) (hphase : s.phase ≠ .idle)
    (hrun : s.running = .comp ∨ s.running = .protect) : step s = encodeStep s := by
  have hstep : step s = phaseStep s := by
    rw [step, nextStep, if_neg (by rw [hreset]; exact Bool.false_ne_true), if_neg hphase]
  rw [hstep, phaseStep]
  rcases hrun with hrun | hrun <;> rw [hrun]

/-- At `Drained` the next step ends the encode, and more phases change nothing. -/
theorem ends_of_encoded (hreset : s.resetLine = false) (hrun : s.running = .comp ∨ s.running = .protect)
    (hp : s.phase = .drained) (fuel : Nat) :
    Ends s (endEncode (s.withEncoder (s.encoder.drive s.params s.cfg fuel).1)
      (s.encoder.drive s.params s.cfg fuel).2) := by
  rw [Encoder.drive_of_drained hp, withEncoder_self]
  refine .of_step ((step_of_encoding hreset (by rw [hp]; exact nofun) hrun).trans ?_)
  rw [encodeStep, if_pos hp]

/-- From an encode under way the machine comes to the end of the phases run one after the other. -/
theorem ends_of_encoding :
    ∀ {fuel : Nat} {s : State}, s.cfg.Geometry → s.resetLine = false → s.running = .comp ∨ s.running = .protect →
      s.encoder.Underway s.params s.cfg → s.encoder.work s.params ≤ fuel →
      Ends s (endEncode (s.withEncoder (s.encoder.drive s.params s.cfg fuel).1)
        (s.encoder.drive s.params s.cfg fuel).2) := by
  intro fuel
  induction fuel with
  | zero =>
    intro s hc hreset hrun h hfuel
    have hp : s.phase = .drained := by
      by_contra hp
      exact absurd (h.work_pos hp) (Nat.not_lt.2 hfuel)
    exact ends_of_encoded hreset hrun hp 0
  | succ fuel ih =>
    intro s hc hreset hrun h hfuel
    by_cases hp : s.phase = .drained
    · exact ends_of_encoded hreset hrun hp (fuel + 1)
    · have hstep := step_of_encoding hreset h.phase_ne_idle hrun
      rw [encodeStep, if_neg hp] at hstep
      cases hphase : s.encoder.phaseStep s.params s.cfg with
      | mk e stop =>
        rw [hphase] at hstep
        cases stop with
        | some x =>
          rw [Encoder.drive_of_halt hp hphase]
          exact .of_step hstep
        | none =>
          obtain ⟨hnext, hless⟩ := h.phaseStep hc hp hphase
          have hsource := s.encoder.sameSource_phaseStep (P := s.params) (c := s.cfg)
          rw [hphase] at hsource
          have he : (s.withEncoder e).encoder = e := by
            rw [withEncoder_encoder, show s.running = e.running from hsource.running.symm,
              show s.ctbuf = e.ctbuf from hsource.ctbuf.symm]
          have hgo := ih (s := s.withEncoder e) hc hreset hrun (by rw [he]; exact hnext)
            (by rw [he]; exact Nat.le_of_lt_succ (Nat.lt_of_lt_of_le hless hfuel))
          rw [he] at hgo
          rw [Encoder.drive_succ hp hphase]
          exact .of_next hstep hgo

/-- An encode about to start has at most `CT_CAP` symbols before it. -/
theorem startEncode_toEncode_le {which : Running} (hcap : s.symcnt ≤ s.params.ctCap) :
    (startEncode which s).encoder.toEncode s.params ≤ s.params.ctCap := by
  rw [Encoder.toEncode, if_pos (show (startEncode which s).encoder.phase = .filling from rfl), Encoder.unread]
  split
  · exact hcap
  · exact Nat.sub_le _ _

/-- From `Filling` on COMP and PROTECT's second phase end as their encode. -/
theorem ends_runEncode {which : Running} (hwhich : which = .comp ∨ which = .protect) (hc : s.cfg.Geometry)
    (hreset : s.resetLine = false) (hcap : s.symcnt ≤ s.params.ctCap) :
    Ends (startEncode which s) (runEncode (startEncode which s)) := by
  have hleft := startEncode_toEncode_le (which := which) hcap
  refine ends_of_encoding hc hreset hwhich
    ⟨⟨Nat.zero_le _, hcap, fun _ _ _ => trivial, fun _ _ => trivial, fun _ _ _ => trivial⟩, fun hp => absurd rfl hp⟩
    ((phasesLeft_le _ _).trans ?_)
  exact Nat.le_succ_of_le (Nat.succ_le_succ (Nat.mul_le_mul_left 3 hleft))

/-! ### The obligation -/

/-- Settles O55: a decode and an encode under way are brought forward by each of their phases (`ends_of_decoding`,
`ends_of_encoding`), within the phases the big steps allow themselves. -/
theorem phasesRefineTheCommands : Obligations.PhasesRefineTheCommands := by
  refine ⟨fun s n hreset hok hcap => ⟨?_, fun hprv => ?_⟩, fun s hreset hok hopen =>
    ⟨?_, fun l rest hsin hpub hcap hl => ⟨Mem.store 0 (l.map s.keys.power) [], Mem.read_store_nil _, ?_⟩⟩⟩
  · have hexec : exec (.decomp n) s = runDecode (startDecode .decomp n s) := exec_decomp_eq hok hcap rfl
    rw [hexec]
    exact ends_runDecode (.inl rfl) hreset n
  · have hexec : exec (.recover n) s = runDecode (startDecode .recover n s) := exec_recover_eq hok hprv hcap rfl
    rw [hexec]
    exact ends_runDecode (.inr rfl) hreset n
  · have hexec : exec .comp s = runEncode (startEncode .comp { s with symcnt := 0 }) := exec_comp_eq hopen hok
    rw [hexec]
    exact ends_runEncode (.inl rfl) (CfgRegs.geometry_of_codecOk hok) hreset (Nat.zero_le _)
  · have hlen : (l.map s.keys.power).length = l.length := List.length_map _
    rw [exec_protect_of_all hsin hopen hok hpub hcap hl, ← hlen]
    exact ends_runEncode (s := s.encrypted (l.map s.keys.power) rest) (.inr rfl)
      (CfgRegs.geometry_of_codecOk hok) hreset (hlen.trans_le hcap)

end Sys2Proof.Machine
end

section
/-! What the commands of 60_exceptions.md R332's list answer: an error raised with the effects the rule admits, or a
success. -/

namespace Sys2Proof.Machine

open Sys2Proof

variable {s t : State}

theorem execWrcfg_next {idx val : Nat} (h : execWrcfg idx val s = .next t) :
    (∃ x, t = raise x s) ∨ ∃ cfg, t = done val { s with cfg := cfg } := by
  simp only [execWrcfg] at h
  split at h
  · cases h; exact .inl ⟨_, rfl⟩
  · split at h
    · cases h; exact .inl ⟨_, rfl⟩
    · cases h; exact .inr ⟨_, rfl⟩

theorem execKeypub_next {n e : Nat} (h : execKeypub n e s = .next t) :
    (∃ x, t = raise x s) ∨
      t = done n { s with keys := publicKey n e, status := s.status.setKeyValid true false } := by
  simp only [execKeypub] at h
  split at h <;> cases h
  · exact .inl ⟨_, rfl⟩
  · exact .inr rfl

/-- A KEYSET that is refused has changed nothing. -/
theorem execKeyset_raised_or_committed {p q e : Nat} (h : execKeyset p q e s = .next t) :
    (∃ x, t = raise x s) ∨ t = done (p * q) (commit p q e s) := by
  simp only [execKeyset] at h
  split at h
  · cases h; exact .inl ⟨_, rfl⟩
  · split at h <;> cases h
    · exact .inl ⟨_, rfl⟩
    · exact .inr rfl

/-- A KEYGEN that fails has taken its draws from the front of `RNG` and spent its budget, nothing else. -/
theorem execKeygen_raised_or_committed {e : Nat} (h : execKeygen e s = .next t) :
    (∃ x n budget, t = raise x { s with rng := s.rng.drop n, budget := budget }) ∨
      ∃ p q rng budget, t = done (p * q) (commit p q e { s with rng := rng, budget := budget }) := by
  simp only [execKeygen] at h
  split at h
  · cases h; exact .inl ⟨_, 0, s.budget, rfl⟩
  · split at h
    · cases h; exact .inr ⟨_, _, _, _, rfl⟩
    · next hspent =>
      obtain ⟨taken, hrng, -⟩ := attempts_spent hspent
      cases h
      exact .inl ⟨_, taken.length, 0, by rw [hrng, List.drop_left]⟩
    · cases h

theorem oneSymbol_raised_or_done {hasKey : Bool} {f : Nat → Nat} {v : Nat} (h : oneSymbol hasKey f v s = .next t) :
    (∃ x, t = raise x s) ∨ t = done (f v) s := by
  rcases oneSymbol_next h with ⟨-, ht⟩ | ⟨-, -, ht⟩ | ⟨-, -, ht⟩
  · exact .inl ⟨_, ht⟩
  · exact .inl ⟨_, ht⟩
  · exact .inr ht

/-- The state PUTL and PUTM raise an error from: `BYTECNT` has started again when a token does not fit (log 23). -/
def State.refusingPut (s : State) (x : Exc) : State :=
  if x.kind = .bufferOverrun then { s with bytecnt := s.sessionBytes } else s

/-- What PUTL and PUTM answer: an error, or a session open with the packer's new state. -/
def PutAnswers (s t : State) : Prop :=
  (∃ x, t = raise x (s.refusingPut x)) ∨
    ∃ p, t = done 0 { s.withPacker p with status := s.status.setOpen true }

theorem putAnswers_raise {x : Exc} (hx : x.kind ≠ .bufferOverrun) : PutAnswers s (raise x s) :=
  .inl ⟨x, by rw [State.refusingPut, if_neg hx]⟩

theorem putAnswers_of_putOutcome {bits : List Bool} (h : putOutcome s bits = .next t) : PutAnswers s t := by
  rw [putOutcome, putToken_eq] at h
  rcases endPut_next h with ⟨x, hx, rfl⟩ | ⟨p, -, rfl⟩
  · split at hx
    · cases hx; exact .inl ⟨_, rfl⟩
    · cases hx
  · exact .inr ⟨p, rfl⟩

theorem execPutl_next {sym : Nat} (h : execPutl sym s = .next t) : PutAnswers s t := by
  simp only [execPutl] at h
  split at h
  · cases h; exact putAnswers_raise nofun
  · split at h
    · cases h; exact putAnswers_raise nofun
    · exact putAnswers_of_putOutcome h

theorem execPutm_next {off len : Nat} (h : execPutm off len s = .next t) : PutAnswers s t := by
  simp only [execPutm] at h
  split at h
  · cases h; exact putAnswers_raise nofun
  · split at h
    · cases h; exact putAnswers_raise nofun
    · split at h
      · cases h; exact putAnswers_raise nofun
      · exact putAnswers_of_putOutcome h

/-- The code of the record a command has pushed (30_encoding.md R112). -/
theorem code_eq_of_pushed {l : List ResultRecord} {code : Byte} {v : Nat} {r : ResultRecord}
    (h : l ++ [{ code := code, value := v }] = l ++ [r]) : r.code = code := by
  cases List.append_cancel_left h
  rfl

/-- Settles O51: each command of the list raises an error from the state the rule admits, or pushes a record of code 0
(`code_eq_of_pushed`); NOP, RESET, CLRERR and FLUSH only do the latter. -/
theorem failedCommandsChangeNothing : Obligations.FailedCommandsChangeNothing := by
  intro i s t r h hres hcode
  have not_success {v : Nat} {u : State} (ht : t = pushResult 0 v u) (hu : u.res = s.res) : False := by
    rw [ht, pushResult_res, hu] at hres
    exact hcode (code_eq_of_pushed hres)
  cases i with
  | putl sym => exact (execPutl_next h).resolve_right fun ⟨_, ht⟩ => not_success ht rfl
  | putm off len => exact (execPutm_next h).resolve_right fun ⟨_, ht⟩ => not_success ht rfl
  | wrcfg idx val => exact (execWrcfg_next h).resolve_right fun ⟨_, ht⟩ => not_success ht rfl
  | rdreg idx =>
    have hraise := (execRdreg_next h).resolve_right fun ⟨_, _, ht⟩ => not_success ht rfl
    exact ⟨_, hraise⟩
  | keypub n e => exact (execKeypub_next h).resolve_right fun ht => not_success ht rfl
  | keyset p q e => exact (execKeyset_raised_or_committed h).resolve_right fun ht => not_success ht rfl
  | enc m => exact (oneSymbol_raised_or_done h).resolve_right fun ht => not_success ht rfl
  | decd c => exact (oneSymbol_raised_or_done h).resolve_right fun ht => not_success ht rfl
  | decc c => exact (oneSymbol_raised_or_done h).resolve_right fun ht => not_success ht rfl
  | keygen e =>
    obtain ⟨x, n, budget, rfl⟩ :=
      (execKeygen_raised_or_committed h).resolve_right fun ⟨_, _, _, _, ht⟩ => not_success ht rfl
    exact ⟨x, n, rfl⟩
  | nop => cases h; exact not_success rfl rfl
  | reset => cases h; exact not_success rfl rfl
  | clrerr => cases h; exact not_success rfl rfl
  | flush => cases h; exact not_success rfl rfl
  | encs | decs | comp | decomp | protect | recover | literal | matchTok => trivial

/-- Settles O48: a step with reset asked for is `resetStep`, whose reset state differs from the statement's only in
what `State.visible` leaves out. -/
theorem resetLineRestoresResetState : Obligations.ResetLineRestoresResetState := by
  intro s hreset
  have hstep : step s = resetStep s := if_pos hreset
  exact ⟨resetEngine { s with resetLine := false }, hstep, rfl⟩

end Sys2Proof.Machine
end

section
/-! What a decode leaves alone: a token takes no input (45_decoder.md R263 to R269), and only RECOVER's decode writes
`CTBUF` (46_control_pipeline.md R294). -/

namespace Sys2Proof.Machine

open Sys2Proof

variable {n : Nat} {c : CfgRegs} {d e : Decoder}

/-- A copy puts out symbols, whether or not it ends at an unwritten cell. -/
theorem copy_fst_eq_outs {off : Nat} :
    ∀ (todo k : Nat) (d : Decoder), ∃ syms, (Decoder.copy n off todo k d).1 = d.outs n syms
  | 0, _, _ => ⟨[], rfl⟩
  | todo + 1, k, d => by
    by_cases hfull : d.symcnt = d.count
    · exact ⟨[], by rw [copy_of_full hfull]; rfl⟩
    · cases hread : d.dwin.read ((off + k) % n) with
      | none => exact ⟨[], by rw [copy_of_unwritten hfull hread]; rfl⟩
      | some v =>
        obtain ⟨syms, hsyms⟩ := copy_fst_eq_outs todo (k + 1) (d.out n v)
        exact ⟨v :: syms, by rw [copy_of_read hfull hread, hsyms]; rfl⟩

/-- What a decode of DECOMP never writes: the command it belongs to, and `CTBUF`. -/
structure Decoder.SameBuffer (d e : Decoder) : Prop where
  running : e.running = d.running
  ctbuf : d.running ≠ .recover → e.ctbuf = d.ctbuf

theorem Decoder.SameBuffer.refl (d : Decoder) : d.SameBuffer d := ⟨rfl, fun _ => rfl⟩

theorem Decoder.SameBuffer.trans {f : Decoder} (h : d.SameBuffer e) (h1 : e.SameBuffer f) : d.SameBuffer f :=
  ⟨h1.running.trans h.running, fun hr => (h1.ctbuf (h.running.trans_ne hr)).trans (h.ctbuf hr)⟩

theorem Decoder.sameBuffer_outs (syms : List Nat) : d.SameBuffer (d.outs n syms) :=
  ⟨outs_running .., fun hr => outs_ctbuf_of_ne_recover hr syms⟩

theorem Decoder.sameBuffer_token (i : Instr) : d.SameBuffer (Decoder.token n i d).1 := by
  cases i with
  | literal sym =>
    have h := Decoder.sameBuffer_outs (n := n) (d := d) [sym]
    exact ⟨h.running, h.ctbuf⟩
  | matchTok off len2 =>
    obtain ⟨syms, hsyms⟩ := copy_fst_eq_outs (n := n) (off := off) (len2 + 2) 0 d
    have h := Decoder.sameBuffer_outs (n := n) (d := d) syms
    rw [← hsyms] at h
    rw [Decoder.token, Decoder.matchTok]
    rcases hcopy : Decoder.copy n off (len2 + 2) 0 d with ⟨e, f⟩
    rw [hcopy] at h
    cases f
    · exact ⟨h.running, h.ctbuf⟩
    · exact h
  | _ => exact .refl d

/-- Every phase keeps them (46_control_pipeline.md R300). -/
theorem Decoder.sameBuffer_phaseStep (d : Decoder) : d.SameBuffer (d.phaseStep c).1 := by
  rw [Decoder.phaseStep]
  split
  · exact ⟨rfl, fun _ => rfl⟩
  · rw [Decoder.matching]
    split
    · exact ⟨rfl, fun _ => rfl⟩
    · exact ⟨rfl, fun _ => rfl⟩
    · exact .refl d
  · rw [Decoder.emitting]
    split
    · exact Decoder.sameBuffer_token _
    · exact .refl d
  · exact .refl d
  · exact .refl d
  · exact .refl d

theorem Decoder.sameBuffer_drive (fuel : Nat) (d : Decoder) : d.SameBuffer (d.drive c fuel).1 :=
  Decoder.drive_preserves (P := d.SameBuffer) (fun e h => h.trans e.sameBuffer_phaseStep) fuel d (.refl d)

/-- A token is a run of outputs, which takes no bit from the unpacker. -/
theorem exec_token_next {i : Instr} {s t : State} (hi : i.isToken = true) (h : exec i s = .next t) :
    ∃ d, d.unp = s.decoder.unp ∧ t = s.withDecoder d := by
  cases i with
  | literal sym => cases h; exact ⟨(s.decoder.outs s.cfg.n [sym]).resume, outs_unp .., rfl⟩
  | matchTok off len2 =>
    rcases hcopy : Decoder.copy s.cfg.n off (len2 + 2) 0 s.decoder with ⟨e, f⟩
    cases f with
    | none =>
      obtain ⟨syms, rfl, -⟩ := copy_eq_outs_of_none hcopy
      rw [exec_matchTok_of_copy hcopy] at h
      cases h
      exact ⟨(s.decoder.outs s.cfg.n syms).resume, outs_unp .., rfl⟩
    | some f => rw [exec_matchTok_of_fault (by rw [hcopy])] at h; cases h
  | _ => cases hi

end Sys2Proof.Machine
end

section
/-! What each command writes (60_exceptions.md R331; the "written by" columns of 10_state.md R21, R40, R41): the state a
command answers is the state it found with the registers it owns replaced, and ended. -/

namespace Sys2Proof.Machine

open Sys2Proof

/-- `t` is `u` but for what the end of a command writes (46_control_pipeline.md R280): the result, `Idle`, and of
`STATUS` the fields `LASTERR` and `ERRS`. -/
def EndsAs (u t : State) : Prop :=
  ∃ (resv : Nat) (res : List ResultRecord) (lasterr : Byte) (errs : BitVec 8),
    t = { u with
      resv := resv, res := res, phase := .idle, running := .nothing
      status := { u.status with lasterr := lasterr, errs := errs } }

theorem endsAs_pushResult (code : Byte) (v : Nat) (u : State) : EndsAs u (pushResult code v u) := ⟨_, _, _, _, rfl⟩

theorem endsAs_complete (code : Byte) (v : Nat) (u : State) : EndsAs u (complete code v u) := ⟨_, _, _, _, rfl⟩

theorem endsAs_done (v : Nat) (u : State) : EndsAs u (done v u) := endsAs_complete 0 v u

theorem endsAs_raise (x : Exc) (u : State) : EndsAs u (raise x u) := endsAs_complete x.kind.code x.info u

variable {s t : State}

/-! ### Commands that write registers -/

theorem endsAs_oneSymbol {hasKey : Bool} {f : Nat → Nat} {v : Nat} (h : oneSymbol hasKey f v s = .next t) :
    EndsAs s t := by
  rcases oneSymbol_raised_or_done h with ⟨x, rfl⟩ | rfl
  · exact endsAs_raise x s
  · exact endsAs_done _ s

theorem endsAs_rdreg {idx : Nat} (h : execRdreg idx s = .next t) : EndsAs s t := by
  rcases execRdreg_next h with rfl | ⟨v, -, rfl⟩
  · exact endsAs_raise _ s
  · exact endsAs_pushResult 0 v s

theorem endsAs_wrcfg {idx val : Nat} (h : execWrcfg idx val s = .next t) : ∃ cfg, EndsAs { s with cfg := cfg } t := by
  rcases execWrcfg_next h with ⟨x, rfl⟩ | ⟨cfg, rfl⟩
  · exact ⟨s.cfg, endsAs_raise x s⟩
  · exact ⟨cfg, endsAs_done val _⟩

/-- The state with a key and its valid flags replaced. -/
def State.withKey (s : State) (k : KeyFile) (pub prv : Bool) : State :=
  { s with keys := k, status := s.status.setKeyValid pub prv }

theorem endsAs_keypub {n e : Nat} (h : execKeypub n e s = .next t) : ∃ k pub prv, EndsAs (s.withKey k pub prv) t := by
  rcases execKeypub_next h with ⟨x, rfl⟩ | rfl
  · exact ⟨s.keys, s.status.pubv, s.status.prvv, endsAs_raise x s⟩
  · exact ⟨_, _, _, endsAs_done n _⟩

theorem endsAs_keyset {p q e : Nat} (h : execKeyset p q e s = .next t) :
    ∃ k pub prv kout, EndsAs { s.withKey k pub prv with kout := kout } t := by
  rcases execKeyset_raised_or_committed h with ⟨x, rfl⟩ | rfl
  · exact ⟨s.keys, s.status.pubv, s.status.prvv, s.kout, endsAs_raise x s⟩
  · exact ⟨derive p q e, true, true, _, endsAs_done _ (commit p q e s)⟩

theorem endsAs_keygen {e : Nat} (h : execKeygen e s = .next t) :
    ∃ k pub prv kout rng budget,
      EndsAs { s.withKey k pub prv with kout := kout, rng := rng, budget := budget } t := by
  rcases execKeygen_raised_or_committed h with ⟨x, n, budget, rfl⟩ | ⟨p, q, rng, budget, rfl⟩
  · exact ⟨s.keys, s.status.pubv, s.status.prvv, s.kout, _, _, endsAs_raise x _⟩
  · exact ⟨derive p q e, true, true, _, _, _, endsAs_done _ (commit p q e { s with rng := rng, budget := budget })⟩

/-- The state with the packer and `PKOPEN` replaced. -/
def State.withSession (s : State) (p : Packer) (o : Bool) : State :=
  { s.withPacker p with status := s.status.setOpen o }

theorem PutAnswers.endsAs (h : PutAnswers s t) : ∃ p o, EndsAs (s.withSession p o) t := by
  rcases h with ⟨x, rfl⟩ | ⟨p, rfl⟩
  · refine ⟨{ s.packer with bytecnt := (s.refusingPut x).bytecnt }, s.status.pkopen, ?_⟩
    rw [State.refusingPut]
    split
    · exact endsAs_raise x _
    · exact endsAs_raise x s
  · exact ⟨p, true, endsAs_done 0 _⟩

/-! ### Stream commands -/

theorem endsAs_endStream_sinSout {pulled : Bool} {code : Byte} {v : Nat} {u : State}
    (h : endStream .sinSout pulled code v u = .next t) : ∃ sin sout, EndsAs { u with sin := sin, sout := sout } t := by
  obtain ⟨rest, -, rfl⟩ := endStream_sinSout_next.1 h
  exact ⟨rest, _, endsAs_complete code v _⟩

theorem endsAs_cipherStream {hasKey : Bool} {f : Nat → Nat} (h : cipherStream hasKey f s = .next t) :
    ∃ sin sout symcnt, EndsAs { s with sin := sin, sout := sout, symcnt := symcnt } t := by
  simp only [cipherStream] at h
  split at h
  · obtain ⟨sin, sout, ht⟩ := endsAs_endStream_sinSout h
    exact ⟨sin, sout, _, ht⟩
  · split at h
    · obtain ⟨sin, sout, ht⟩ := endsAs_endStream_sinSout h
      exact ⟨sin, sout, _, ht⟩
    · obtain ⟨sin, sout, ht⟩ := endsAs_endStream_sinSout h
      exact ⟨sin, sout, _, ht⟩
    · cases h

/-- An error of COMP or PROTECT closes the segments and empties the packer. -/
theorem endsAs_raiseStream_sinBout {pulled : Bool} {x : Exc} {u : State}
    (h : raiseStream .sinBout pulled x u = .next t) : ∃ e, EndsAs (u.withEncoder e) t := by
  obtain ⟨rest, -, rfl⟩ := raiseStream_sinBout_next.1 h
  exact ⟨{ u.encoder with
    sin := rest, pk := { u.packer with bout := u.bout ++ [.eos], acc := 0, nbits := 0 } }, endsAs_raise x _⟩

theorem endsAs_endEncode {u : State} {x : Option Halt} (h : endEncode u x = .next t) :
    ∃ e, EndsAs (u.withEncoder e) t := by
  obtain ⟨rest, -, ⟨-, rfl⟩ | ⟨e, -, rfl⟩⟩ := endEncode_next h
  · exact ⟨{ u.encoder with
      sin := rest, pk := { u.packer.flush with bout := u.packer.flush.bout ++ [.eos] } }, endsAs_done _ _⟩
  · exact ⟨{ u.encoder with
      sin := rest, pk := { u.packer with bout := u.bout ++ [.eos], acc := 0, nbits := 0 } }, endsAs_raise e _⟩

/-- An encode writes only what the encoder works on. -/
theorem endsAs_runEncode {u : State} (h : runEncode u = .next t) : ∃ e, EndsAs (u.withEncoder e) t := by
  obtain ⟨e, ht⟩ := endsAs_endEncode h
  exact ⟨e, ht⟩

theorem endsAs_comp (h : execComp s = .next t) : ∃ e, EndsAs (s.withEncoder e) t := by
  simp only [execComp] at h
  split at h
  · cases h; exact ⟨s.encoder, endsAs_raise _ s⟩
  · split at h
    · exact endsAs_raiseStream_sinBout h
    · obtain ⟨e, ht⟩ := endsAs_runEncode h
      exact ⟨e, ht⟩

theorem endsAs_protect (h : execProtect s = .next t) :
    ∃ ctbuf e, EndsAs ({ s with ctbuf := ctbuf }.withEncoder e) t := by
  simp only [execProtect] at h
  split at h
  · cases h; exact ⟨s.ctbuf, s.encoder, endsAs_raise _ s⟩
  · split at h
    · exact ⟨s.ctbuf, endsAs_raiseStream_sinBout h⟩
    · split at h
      · obtain ⟨e, ht⟩ := endsAs_raiseStream_sinBout h
        exact ⟨s.ctbuf, e, ht⟩
      · split at h
        · obtain ⟨e, ht⟩ := endsAs_runEncode h
          exact ⟨_, e, ht⟩
        · obtain ⟨e, ht⟩ := endsAs_raiseStream_sinBout h
          exact ⟨_, e, ht⟩
        · cases h

theorem endsAs_raiseStream_binSout {pulled : Bool} {x : Exc} {u : State}
    (h : raiseStream .binSout pulled x u = .next t) : ∃ d, d.ctbuf = u.ctbuf ∧ EndsAs (u.withDecoder d) t := by
  obtain ⟨rest, -, rfl⟩ := raiseStream_binSout_next.1 h
  exact ⟨{ u.decoder with unp := { u.decoder.unp with bin := rest }, sout := u.sout ++ [.eos] }, rfl,
    endsAs_raise x _⟩

theorem endsAs_endRecover {u : State} (h : endRecover u = .next t) : ∃ d, EndsAs (u.withDecoder d) t := by
  obtain ⟨rest, -, ⟨-, rfl⟩ | ⟨x, -, rfl⟩⟩ := endRecover_next h
  · exact ⟨{ u.decoder with unp := { u.decoder.unp with bin := rest }, sout := _, symcnt := _ }, endsAs_done _ _⟩
  · exact ⟨{ u.decoder with unp := { u.decoder.unp with bin := rest }, sout := _, symcnt := _ }, endsAs_raise _ _⟩

theorem endsAs_endDecode {u : State} {x : Option Halt} (h : endDecode u x = .next t) :
    ∃ d, (u.running ≠ .recover → d.ctbuf = u.ctbuf) ∧ EndsAs (u.withDecoder d) t := by
  rcases endDecode_next h with ⟨-, hrecover, hend⟩ | ⟨-, -, rest, -, rfl⟩ | ⟨e, -, rfl⟩
  · obtain ⟨d, hd⟩ := endsAs_endRecover hend
    exact ⟨d, fun hr => absurd hrecover hr, hd⟩
  · exact ⟨{ u.decoder with unp := { u.decoder.unp with bin := rest }, sout := u.sout ++ [.eos] }, fun _ => rfl,
      endsAs_done _ _⟩
  · exact ⟨{ u.decoder with sout := u.sout ++ [.eos] }, fun _ => rfl, endsAs_raise e _⟩

/-- A decode writes only what the decoder works on, and `CTBUF` only in RECOVER. -/
theorem endsAs_runDecode {u : State} (h : runDecode u = .next t) :
    ∃ d, (u.running ≠ .recover → d.ctbuf = u.ctbuf) ∧ EndsAs (u.withDecoder d) t := by
  have hsame := Decoder.sameBuffer_drive (c := u.cfg) (2 * u.count + 1) u.decoder
  obtain ⟨d, hd, ht⟩ := endsAs_endDecode h
  exact ⟨d, fun hr => (hd hr).trans (hsame.ctbuf hr), ht⟩

theorem endsAs_decomp {n : Nat} (h : execDecomp n s = .next t) :
    ∃ count d, d.ctbuf = s.ctbuf ∧ EndsAs ({ s with count := count }.withDecoder d) t := by
  simp only [execDecomp] at h
  split at h
  · exact ⟨s.count, endsAs_raiseStream_binSout h⟩
  · split at h
    · obtain ⟨d, hd, ht⟩ := endsAs_raiseStream_binSout h
      exact ⟨s.count, d, hd, ht⟩
    · obtain ⟨d, hd, ht⟩ := endsAs_runDecode h
      exact ⟨n, d, hd nofun, ht⟩

theorem endsAs_recover {n : Nat} (h : execRecover n s = .next t) :
    ∃ count d, EndsAs ({ s with count := count }.withDecoder d) t := by
  simp only [execRecover] at h
  split at h
  · obtain ⟨d, -, ht⟩ := endsAs_raiseStream_binSout h
    exact ⟨s.count, d, ht⟩
  · split at h
    · obtain ⟨d, -, ht⟩ := endsAs_raiseStream_binSout h
      exact ⟨s.count, d, ht⟩
    · split at h
      · obtain ⟨d, -, ht⟩ := endsAs_raiseStream_binSout h
        exact ⟨s.count, d, ht⟩
      · obtain ⟨d, -, ht⟩ := endsAs_runDecode h
        exact ⟨n, d, ht⟩

/-! ### The obligation -/

/-- Settles O52: the state an instruction answers is the one it found with what it owns replaced (`EndsAs`,
`exec_token_next`), so that every other field is the same by the laws of the updates. -/
theorem onlyTheOwnersWrite : Obligations.OnlyTheOwnersWrite := by
  intro i s t h
  cases i with
  | nop => cases h; simp
  | reset => cases h; simp
  | clrerr => cases h; simp [Status.clearErrs]
  | flush => cases h; simp [Status.setOpen]
  | rdreg idx =>
    obtain ⟨_, _, _, _, rfl⟩ := endsAs_rdreg h
    simp
  | enc m =>
    obtain ⟨_, _, _, _, rfl⟩ := endsAs_oneSymbol h
    simp
  | decd c =>
    obtain ⟨_, _, _, _, rfl⟩ := endsAs_oneSymbol h
    simp
  | decc c =>
    obtain ⟨_, _, _, _, rfl⟩ := endsAs_oneSymbol h
    simp
  | wrcfg idx val =>
    obtain ⟨cfg, _, _, _, _, rfl⟩ := endsAs_wrcfg h
    simp
  | keypub n e =>
    obtain ⟨k, pub, prv, _, _, _, _, rfl⟩ := endsAs_keypub h
    simp [State.withKey, Status.setKeyValid]
  | keyset p q e =>
    obtain ⟨k, pub, prv, kout, _, _, _, _, rfl⟩ := endsAs_keyset h
    simp [State.withKey, Status.setKeyValid]
  | keygen e =>
    obtain ⟨k, pub, prv, kout, rng, budget, _, _, _, _, rfl⟩ := endsAs_keygen h
    simp [State.withKey, Status.setKeyValid]
  | putl sym =>
    obtain ⟨p, o, _, _, _, _, rfl⟩ := (execPutl_next h).endsAs
    simp [State.withSession, Status.setOpen]
  | putm off len =>
    obtain ⟨p, o, _, _, _, _, rfl⟩ := (execPutm_next h).endsAs
    simp [State.withSession, Status.setOpen]
  | encs =>
    obtain ⟨sin, sout, symcnt, _, _, _, _, rfl⟩ := endsAs_cipherStream h
    simp
  | decs =>
    obtain ⟨sin, sout, symcnt, _, _, _, _, rfl⟩ := endsAs_cipherStream h
    simp
  | comp =>
    obtain ⟨e, _, _, _, _, rfl⟩ := endsAs_comp h
    simp
  | protect =>
    obtain ⟨ctbuf, e, _, _, _, _, rfl⟩ := endsAs_protect h
    simp
  | decomp n =>
    obtain ⟨count, d, hctbuf, _, _, _, _, rfl⟩ := endsAs_decomp h
    simp [hctbuf]
  | recover n =>
    obtain ⟨count, d, _, _, _, _, rfl⟩ := endsAs_recover h
    simp
  | literal sym =>
    obtain ⟨d, hunp, rfl⟩ := exec_token_next rfl h
    simp [hunp, State.decoder]
  | matchTok off len2 =>
    obtain ⟨d, hunp, rfl⟩ := exec_token_next rfl h
    simp [hunp, State.decoder]

end Sys2Proof.Machine
end

section
/-! The reset configuration under the two predicates (10_state.md R38, R55), and the places of the fields of `STATUS`
(R41). -/

namespace Sys2Proof.Machine

open Sys2Proof

/-! ### The configuration predicates -/

theorem codecOk_iff {c : CfgRegs} {P : Params} :
    c.codecOk P = true ↔
      (1 ≤ c.ei.toNat ∧ c.ei.toNat ≤ P.eimax) ∧ (1 ≤ c.ej.toNat ∧ c.ej.toNat ≤ P.eimax) ∧
      (3 ≤ c.f ∧ c.f ≤ 2 ^ c.ei.toNat - 1) ∧ c.f ≤ 2 ^ c.ej.toNat + 2 ∧
      (1 ≤ c.p ∧ c.p ≤ c.f - 2) ∧ (1 ≤ c.symw.toNat ∧ c.symw.toNat ≤ P.kw) ∧ c.blank < 2 ^ c.symw.toNat := by
  simp only [CfgRegs.codecOk, Bool.and_eq_true, decide_eq_true_eq, and_assoc]

theorem keygenOk_iff {c : CfgRegs} {P : Params} :
    c.keygenOk P = true ↔ 3 ≤ c.pmin ∧ c.pmin ≤ c.pmax ∧ c.pmax ≤ 2 ^ (P.kw / 2) - 1 := by
  simp only [CfgRegs.keygenOk, Bool.and_eq_true, decide_eq_true_eq, and_assoc]

/-- Settles O2: each predicate is a conjunction of decided bounds. -/
theorem configurationPredicates : Obligations.ConfigurationPredicates := fun _ _ => ⟨codecOk_iff, keygenOk_iff⟩

/-! ### Reset -/

/-- The reset width of a Literal's symbol is `KW`, or the widest the register holds (log 19). -/
theorem atReset_symw (P : Params) : (CfgRegs.atReset P).symw.toNat = min P.kw 255 := by
  rw [CfgRegs.atReset, BitVec.toNat_ofNat]
  exact Nat.mod_eq_of_lt (by omega)

theorem codecOk_atReset {P : Params} (hP : P.Legal) : (CfgRegs.atReset P).codecOk P = true := by
  obtain ⟨-, hkw, heimax, -⟩ := hP
  have hwide : 2 ^ 8 ≤ 2 ^ (CfgRegs.atReset P).symw.toNat :=
    Nat.pow_le_pow_right (by decide) (by rw [atReset_symw]; omega)
  refine codecOk_iff.2 ⟨⟨(by decide : 1 ≤ 6), heimax⟩, ⟨(by decide : 1 ≤ 5), Nat.le_of_succ_le heimax⟩,
    (by decide : 3 ≤ 33 ∧ 33 ≤ 2 ^ 6 - 1), (by decide : 33 ≤ 2 ^ 5 + 2), (by decide : 1 ≤ 1 ∧ 1 ≤ 33 - 2), ?_,
    Nat.lt_of_lt_of_le (by decide : 32 < 2 ^ 8) hwide⟩
  rw [atReset_symw]
  omega

theorem keygenOk_atReset {P : Params} (hP : P.Legal) : (CfgRegs.atReset P).keygenOk P = true := by
  have hwide : 2 ^ 4 ≤ 2 ^ (P.kw / 2) := Nat.pow_le_pow_right (by decide) (by have := hP.2.1; omega)
  exact keygenOk_iff.2 ⟨Nat.le_refl 3, Nat.le_sub_one_of_lt (Nat.lt_of_lt_of_le (by decide : 3 < 2 ^ 4) hwide), Nat.le_refl _⟩

/-- Settles O1: the named values stand in `State.resetWith`; the two predicates hold of the reset configuration
(`codecOk_atReset`, `keygenOk_atReset`). -/
theorem resetStateHoldsTheStatedValues : Obligations.ResetStateHoldsTheStatedValues := by
  refine ⟨rfl, fun P hP => ?_⟩
  have hsymw : P.kw ≤ 255 → (CfgRegs.atReset P).symw.toNat = P.kw := fun h => by
    rw [atReset_symw, Nat.min_eq_left h]
  have hbits : Status.toBits ⟨0, false, false, false, 0⟩ = 0 := by decide
  have hword : (State.resetWith P).status.toWord P.kw = 0 := by rw [State.resetWith, Status.toWord, hbits]; exact Nat.zero_mod _
  exact ⟨rfl, rfl, rfl, rfl, rfl, rfl, rfl, hsymw, rfl, rfl, rfl, rfl, rfl, hword, rfl, rfl, rfl, rfl, rfl,
    codecOk_atReset hP, keygenOk_atReset hP⟩

/-! ### The word of `STATUS` -/

/-- What each bit of the word shows. -/
theorem getLsbD_toBits (t : Status) (i : Nat) :
    t.toBits.getLsbD i =
      if i < 8 then t.lasterr.getLsbD i
      else if i = 8 then t.pubv else if i = 9 then t.prvv else if i = 10 then t.pkopen
      else if 16 ≤ i then t.errs.getLsbD (i - 16) else false := by
  simp only [Status.toBits, BitVec.getLsbD_append, BitVec.getLsbD_ofBool]
  grind

/-- Settles O4: each clause is the reading of `getLsbD_toBits` at its bits. -/
theorem statusWordLayout : Obligations.StatusWordLayout := by
  refine ⟨fun t => ⟨?_, ?_, ?_, ?_, ?_, fun i hi => ?_⟩, fun s => ⟨_, exec_rdreg_of_some rfl, fun hkw => toWord_of_le hkw s.status⟩⟩
  · refine BitVec.eq_of_getLsbD_eq fun i hi => ?_
    rw [BitVec.getLsbD_extractLsb', decide_eq_true hi, Bool.true_and, Nat.zero_add, getLsbD_toBits, if_pos hi]
  · exact getLsbD_toBits t 8
  · exact getLsbD_toBits t 9
  · exact getLsbD_toBits t 10
  · refine BitVec.eq_of_getLsbD_eq fun i hi => ?_
    rw [BitVec.getLsbD_extractLsb', decide_eq_true hi, Bool.true_and, getLsbD_toBits, if_neg (by omega),
      if_neg (by omega), if_neg (by omega), if_neg (by omega), if_pos (by omega), Nat.add_sub_cancel_left]
  · rw [getLsbD_toBits, if_neg (by omega), if_neg (by omega), if_neg (by omega), if_neg (by omega)]
    split
    · exact BitVec.getLsbD_of_ge _ _ (by omega)
    · rfl

end Sys2Proof.Machine
end

section
/-! A state with the memories and the dead hidden registers of another (10_state.md R46, R51, R52): what the host sees of
it is the same, and so is what it sees of the outcome of a command that reads none of them. -/

namespace Sys2Proof.Machine

open Sys2Proof

/-- `s` with the memories and the registers that are dead between commands as they stand in `h`. -/
def State.withHidden (s h : State) : State :=
  { s with
    win := h.win, dwin := h.dwin, ctbuf := h.ctbuf, ibuf := h.ibuf, ibits := h.ibits, enc := h.enc, dr := h.dr
    count := h.count, tok := h.tok, budget := h.budget }

/-- The host sees the same of two outcomes. -/
def SameVisible (o o' : Outcome) : Prop := outcomeMap State.visible o = outcomeMap State.visible o'

variable {s h : State}

/-- Two states that look the same differ in nothing else. -/
theorem eq_withHidden_of_visible_eq {u : State} (hv : s.visible = u.visible) : u = s.withHidden u :=
  (congrArg (State.withHidden · u) hv).symm

@[simp] theorem withHidden_params : (s.withHidden h).params = s.params := rfl
@[simp] theorem withHidden_keys : (s.withHidden h).keys = s.keys := rfl
@[simp] theorem withHidden_cfg : (s.withHidden h).cfg = s.cfg := rfl
@[simp] theorem withHidden_sin : (s.withHidden h).sin = s.sin := rfl
@[simp] theorem withHidden_sout : (s.withHidden h).sout = s.sout := rfl
@[simp] theorem withHidden_bin : (s.withHidden h).bin = s.bin := rfl
@[simp] theorem withHidden_rng : (s.withHidden h).rng = s.rng := rfl
@[simp] theorem withHidden_ctbuf : (s.withHidden h).ctbuf = h.ctbuf := rfl
@[simp] theorem withHidden_count : (s.withHidden h).count = h.count := rfl
@[simp] theorem withHidden_readReg (idx : Nat) : (s.withHidden h).readReg idx = s.readReg idx := rfl

/-- A test of what the host sees decides both alike. -/
theorem SameVisible.ite {c : Prop} [Decidable c] {o1 o2 u1 u2 : Outcome} (ht : c → SameVisible o1 u1)
    (hf : ¬ c → SameVisible o2 u2) : SameVisible (if c then o1 else o2) (if c then u1 else u2) := by
  by_cases hc : c
  · rw [if_pos hc, if_pos hc]
    exact ht hc
  · rw [if_neg hc, if_neg hc]
    exact hf hc

/-! ### How a command ends -/

theorem endStream_withHidden (ports : StreamPorts) (pulled : Bool) (code : Byte) (v : Nat) (s h : State) :
    SameVisible (endStream ports pulled code v (s.withHidden h)) (endStream ports pulled code v s) := by
  cases ports <;> simp only [endStream, withHidden_sin, withHidden_bin] <;> split <;> rfl

theorem raiseStream_withHidden (ports : StreamPorts) (pulled : Bool) (e : Exc) (s h : State) :
    SameVisible (raiseStream ports pulled e (s.withHidden h)) (raiseStream ports pulled e s) := by
  cases ports
  · exact endStream_withHidden .sinSout pulled e.kind.code e.info s h
  · exact endStream_withHidden .sinBout pulled e.kind.code e.info (clearPacker s) h
  · exact endStream_withHidden .binSout pulled e.kind.code e.info s h

/-! ### Commands without phases -/

theorem execWrcfg_withHidden (idx val : Nat) (s h : State) :
    SameVisible (execWrcfg idx val (s.withHidden h)) (execWrcfg idx val s) :=
  .ite (fun _ => rfl) fun _ => .ite (fun _ => rfl) fun _ => rfl

theorem execRdreg_withHidden (idx : Nat) (s h : State) :
    SameVisible (execRdreg idx (s.withHidden h)) (execRdreg idx s) := by
  simp only [execRdreg, withHidden_readReg]
  cases s.readReg idx <;> rfl

theorem execKeygen_withHidden (e : Nat) (s h : State) :
    SameVisible (execKeygen e (s.withHidden h)) (execKeygen e s) := by
  refine .ite (fun _ => rfl) fun _ => ?_
  simp only [withHidden_cfg, withHidden_rng]
  cases attempts s.cfg e s.cfg.retry s.rng <;> rfl

theorem execKeyset_withHidden (p q e : Nat) (s h : State) :
    SameVisible (execKeyset p q e (s.withHidden h)) (execKeyset p q e s) := by
  refine .ite (fun _ => rfl) fun _ => ?_
  simp only [withHidden_cfg]
  cases refusedBy s.cfg p q e <;> rfl

theorem execKeypub_withHidden (n e : Nat) (s h : State) :
    SameVisible (execKeypub n e (s.withHidden h)) (execKeypub n e s) :=
  .ite (fun _ => rfl) fun _ => rfl

theorem oneSymbol_withHidden (hasKey : Bool) (f : Nat → Nat) (v : Nat) (s h : State) :
    SameVisible (oneSymbol hasKey f v (s.withHidden h)) (oneSymbol hasKey f v s) :=
  .ite (fun _ => rfl) fun _ => .ite (fun _ => rfl) fun _ => rfl

theorem endPut_withHidden (x : Except Exc Packer) (s h : State) :
    SameVisible (endPut (s.withHidden h) x) (endPut s x) := by
  cases x <;> rfl

theorem execPutl_withHidden (sym : Nat) (s h : State) :
    SameVisible (execPutl sym (s.withHidden h)) (execPutl sym s) :=
  .ite (fun _ => rfl) fun _ => .ite (fun _ => rfl) fun _ => endPut_withHidden _ s h

theorem execPutm_withHidden (off len : Nat) (s h : State) :
    SameVisible (execPutm off len (s.withHidden h)) (execPutm off len s) :=
  .ite (fun _ => rfl) fun _ => .ite (fun _ => rfl) fun _ => .ite (fun _ => rfl) fun _ => endPut_withHidden _ s h

theorem cipherStream_withHidden (hasKey : Bool) (f : Nat → Nat) (s h : State) :
    SameVisible (cipherStream hasKey f (s.withHidden h)) (cipherStream hasKey f s) := by
  refine .ite (fun _ => raiseStream_withHidden _ _ _ { s with symcnt := 0 } h) fun _ => ?_
  simp only [withHidden_keys, withHidden_params, withHidden_sin, withHidden_sout]
  obtain ⟨sin, out, cnt, pulled, stop⟩ := cipherLoop s.params.ctCap s.keys.kn f 0 s.sin
  have hend := fun code v =>
    endStream_withHidden .sinSout pulled code v { s with sin := sin, sout := s.sout ++ out.map .sym, symcnt := cnt } h
  rcases stop with _ | e | _
  · exact hend 0 cnt
  · exact hend e.kind.code e.info
  · rfl

end Sys2Proof.Machine
end

section
/-! The encode of COMP and of PROTECT's second phase starts from a fresh window (43_compressor.md R212): the way it ends
is settled by its input (`EncodeEnds`), whatever the memories and the search variables held. -/

namespace Sys2Proof.Machine

open Sys2Proof

variable {s h : State} {l : List Nat} {rest : List (Item Nat)}

/-- A list is admitted as a whole, within a capacity, or has a first element that is not. -/
theorem all_admitted_or_first_refused (ok : Nat → Prop) :
    ∀ (l : List Nat) (cap : Nat), ((∀ x ∈ l, ok x) ∧ l.length ≤ cap) ∨
      ∃ l1 v l2, l = l1 ++ v :: l2 ∧ (∀ x ∈ l1, ok x) ∧ l1.length ≤ cap ∧ (l1.length < cap → ¬ ok v)
  | [], cap => .inl ⟨nofun, Nat.zero_le cap⟩
  | x :: l, 0 => .inr ⟨[], x, l, rfl, nofun, Nat.le_refl 0, nofun⟩
  | x :: l, cap + 1 => by
    by_cases hx : ok x
    · rcases all_admitted_or_first_refused ok l cap with ⟨hl, hcap⟩ | ⟨l1, v, l2, rfl, hl1, hcap, hv⟩
      · exact .inl ⟨List.forall_mem_cons.2 ⟨hx, hl⟩, Nat.succ_le_succ hcap⟩
      · exact .inr ⟨x :: l1, v, l2, rfl, List.forall_mem_cons.2 ⟨hx, hl1⟩, Nat.succ_le_succ hcap,
          fun hlt => hv (Nat.lt_of_succ_lt_succ hlt)⟩
    · exact .inr ⟨[], x, l, rfl, nofun, Nat.zero_le _, fun _ => hx⟩

/-- Two encodes of one input end alike: all tokens put, or the same error after the same tokens. -/
theorem EncodeEnds.alike {P : Params} {c : CfgRegs} {syms : List Nat} {stop : Option Exc} {bout : List (Item Byte)}
    {r r' : Encoder × Option Halt} (hr : EncodeEnds P c syms stop bout r) (hr' : EncodeEnds P c syms stop bout r') :
    ∃ ts n, (Encoder.EndsWith c bout ts n none r ∧ Encoder.EndsWith c bout ts n none r') ∨
      ∃ x, Encoder.EndsWith c bout ts n (some (.raise x)) r ∧ Encoder.EndsWith c bout ts n (some (.raise x)) r' := by
  rcases hr with ⟨hfits, hends⟩ | ⟨ts, i, later, hplan, hfits, hover, hends⟩
  · have hends' := hr'.of_fits hfits
    cases stop with
    | none => exact ⟨_, _, .inl ⟨hends, hends'⟩⟩
    | some x => exact ⟨_, _, .inr ⟨x, hends, hends'⟩⟩
  · exact ⟨_, _, .inr ⟨_, hends, hr'.of_overrun hplan hfits hover⟩⟩

/-- COMP's encode of a complete segment ends as the segment says, from any memories. -/
theorem compRun_withHidden_ends (hok : s.cfg.codecOk s.params = true) (hsin : s.sin = segment l ++ rest) :
    ∃ syms stop, ∀ h : State, EncodeEnds s.params s.cfg syms stop s.bout (s.withHidden h).compRun := by
  rcases all_admitted_or_first_refused (· < 2 ^ s.cfg.symw.toNat) l s.params.ctCap with
    ⟨hl, hcap⟩ | ⟨l1, v, l2, rfl, hl1, hcap, hv⟩
  · exact ⟨l, none, fun h => State.compRun_ends_of_admitted (s := s.withHidden h) hok hsin hl hcap⟩
  · exact ⟨l1, some (refusal s.params l1.length v), fun h =>
      State.compRun_ends_of_refused (s := s.withHidden h) hok hsin hl1 hcap fun hlt => Nat.le_of_not_lt (hv hlt)⟩

theorem execComp_withHidden (s h : State) : SameVisible (execComp (s.withHidden h)) (execComp s) := by
  by_cases hopen : s.status.pkopen = true
  · exact .ite (fun _ => rfl) fun hclosed => absurd hopen hclosed
  by_cases hbad : s.cfg.codecOk s.params = false
  · exact .ite (fun _ => rfl) fun _ => .ite (fun _ => raiseStream_withHidden _ _ _ s h) fun hok => absurd hbad hok
  have hclosed := Bool.eq_false_of_not_eq_true hopen
  have hok := Bool.eq_true_of_not_eq_false hbad
  cases hrest : dropSegment s.sin with
  | none =>
    have hsin := dropSegment_eq_none.1 hrest
    rw [execComp_of_noEos hsin hclosed, execComp_of_noEos (s := s.withHidden h) hsin hclosed]
    rfl
  | some rest =>
    obtain ⟨l, hsin⟩ := dropSegment_eq_some.1 hrest
    obtain ⟨syms, stop, hends⟩ := compRun_withHidden_ends hok hsin
    show SameVisible (exec .comp (s.withHidden h)) (exec .comp s)
    obtain ⟨ts, n, ⟨hrun, hrun'⟩ | ⟨x, hrun, hrun'⟩⟩ := (hends s).alike (hends h)
    · obtain ⟨enc, win, -, ht⟩ := exec_comp_of_endsWith_none hclosed hok hrest hrun
      obtain ⟨enc', win', -, ht'⟩ := exec_comp_of_endsWith_none (s := s.withHidden h) hclosed hok hrest hrun'
      rw [ht, ht']
      rfl
    · obtain ⟨enc, win, ht⟩ := exec_comp_of_endsWith_raise hclosed hok hrest hrun
      obtain ⟨enc', win', ht'⟩ := exec_comp_of_endsWith_raise (s := s.withHidden h) hclosed hok hrest hrun'
      rw [ht, ht']
      rfl

/-- PROTECT's second phase, from the powers its first phase has stored. -/
theorem runEncode_encrypted_withHidden (hok : s.cfg.codecOk s.params = true) {powers : List Nat}
    (hcap : powers.length ≤ s.params.ctCap) :
    SameVisible (runEncode (startEncode .protect ((s.withHidden h).encrypted powers rest)))
      (runEncode (startEncode .protect (s.encrypted powers rest))) := by
  have hends := State.protectRun_ends hok hcap rest
  have hends' := State.protectRun_ends (s := s.withHidden h) hok hcap rest
  obtain ⟨ts, n, ⟨hrun, hrun'⟩ | ⟨x, hrun, hrun'⟩⟩ := hends.alike hends'
  · obtain ⟨enc, win, -, ht⟩ := runEncode_protect_of_endsWith_none hrun
    obtain ⟨enc', win', -, ht'⟩ := runEncode_protect_of_endsWith_none (s := s.withHidden h) hrun'
    rw [ht, ht']
    rfl
  · obtain ⟨enc, win, ht⟩ := runEncode_protect_of_endsWith_raise hrun
    obtain ⟨enc', win', ht'⟩ := runEncode_protect_of_endsWith_raise (s := s.withHidden h) hrun'
    rw [ht, ht']
    rfl

theorem execProtect_withHidden (s h : State) : SameVisible (execProtect (s.withHidden h)) (execProtect s) := by
  by_cases hopen : s.status.pkopen = true
  · exact .ite (fun _ => rfl) fun hclosed => absurd hopen hclosed
  have hclosed := Bool.eq_false_of_not_eq_true hopen
  by_cases hbad : s.cfg.codecOk s.params = false
  · exact .ite (fun _ => rfl) fun _ => .ite (fun _ => raiseStream_withHidden _ _ _ s h) fun hok => absurd hbad hok
  have hok := Bool.eq_true_of_not_eq_false hbad
  by_cases hkey : s.status.pubv = false
  · exact .ite (fun _ => rfl) fun _ => .ite (fun _ => raiseStream_withHidden _ _ _ s h) fun _ =>
      .ite (fun _ => raiseStream_withHidden _ _ _ { s with symcnt := 0 } h) fun hpub => absurd hkey hpub
  have hpub := Bool.eq_true_of_not_eq_false hkey
  cases hrest : dropSegment s.sin with
  | none =>
    have hsin := dropSegment_eq_none.1 hrest
    rw [execProtect_of_noEos hsin hclosed, execProtect_of_noEos (s := s.withHidden h) hsin hclosed]
    rfl
  | some rest =>
    obtain ⟨l, hsin⟩ := dropSegment_eq_some.1 hrest
    show SameVisible (exec .protect (s.withHidden h)) (exec .protect s)
    rcases all_admitted_or_first_refused s.Protectable l s.params.ctCap with
      ⟨hl, hcap⟩ | ⟨l1, m, l2, rfl, hl1, hcap, hm⟩
    · rw [exec_protect_of_all hsin hclosed hok hpub hcap hl,
        exec_protect_of_all (s := s.withHidden h) hsin hclosed hok hpub hcap hl]
      exact runEncode_encrypted_withHidden hok (by rwa [List.length_map])
    · have hrefused : l1.length < s.params.ctCap → s.keys.kn ≤ m ∨ 2 ^ s.cfg.symw.toNat ≤ s.keys.power m := by
        rw [State.Protectable] at hm
        omega
      rw [exec_protect_of_refused hsin hclosed hok hpub hcap hl1 hrefused,
        exec_protect_of_refused (s := s.withHidden h) hsin hclosed hok hpub hcap hl1 hrefused]
      rfl

end Sys2Proof.Machine
end
section
/-! A decode depends on nothing it has not put there itself (10_state.md R46, R51): two decoders that differ only in what
a phase writes before it reads it, or never reads, go through the same phases. -/

namespace Sys2Proof.Machine

open Sys2Proof

/-! ### The unpacker -/

/-- The same bits to read: `IBUF` counts only where bits of it are left (45_decoder.md R261). -/
def Unpacker.Alike (u v : Unpacker) : Prop :=
  ∃ ibuf : Byte, v = { u with ibuf := ibuf } ∧ (u.ibits.val ≠ 0 → ibuf = u.ibuf)

theorem Unpacker.Alike.refl (u : Unpacker) : u.Alike u := ⟨u.ibuf, rfl, fun _ => rfl⟩

/-- Two reads that end the same way: with one value and one unpacker after it, or with unpackers alike. -/
def Got.Alike {α : Type} (g g' : Got α) : Prop :=
  g' = g ∨ ∃ u v : Unpacker, u.Alike v ∧ g = .ended u ∧ g' = .ended v

theorem getBit_alike {u v : Unpacker} (h : u.Alike v) : u.getBit.Alike v.getBit := by
  obtain ⟨ibuf, rfl, hbuf⟩ := h
  by_cases hempty : u.ibits.val = 0
  · simp only [Unpacker.getBit, if_pos hempty]
    rcases u.bin with _ | ⟨_ | _, rest⟩
    · exact .inl rfl
    · exact .inl rfl
    · exact .inr ⟨{ u with bin := rest }, _, ⟨ibuf, rfl, fun hne => absurd hempty hne⟩, rfl, rfl⟩
  · rw [hbuf hempty]
    exact .inl rfl

/-- The first bit of a token takes care of `IBUF`: after it the two unpackers are one. -/
theorem getToken_alike (tw : TokenWidths) {u v : Unpacker} (h : u.Alike v) :
    (u.getToken tw).Alike (v.getToken tw) := by
  rcases getBit_alike h with hbit | ⟨u1, v1, h1, hu, hv⟩
  · exact .inl (by simp only [Unpacker.getToken, hbit])
  · exact .inr ⟨u1, v1, h1, by simp only [Unpacker.getToken, hu], by simp only [Unpacker.getToken, hv]⟩

/-! ### The decoder -/

/-- The same decode: only a token that is not due, `CTBUF` outside RECOVER and a used up `IBUF` may differ. -/
def Decoder.Alike (d e : Decoder) : Prop :=
  ∃ (u : Unpacker) (tok : Option Instr) (ctbuf : Mem), e = { d with unp := u, tok := tok, ctbuf := ctbuf } ∧
    d.unp.Alike u ∧ (d.phase = .emitting → tok = d.tok) ∧ (d.running = .recover → ctbuf = d.ctbuf)

/-- The same decode, and the same reason to stop if there is one. -/
def Decoder.AlikeAfter (r r' : Decoder × Option Halt) : Prop := r.1.Alike r'.1 ∧ r'.2 = r.2

variable {c : CfgRegs} {n : Nat} {d e : Decoder}

theorem Decoder.Alike.out (h : d.Alike e) (v : Nat) : (d.out n v).Alike (e.out n v) := by
  obtain ⟨u, tok, ctbuf, rfl, hunp, htok, hbuf⟩ := h
  simp only [Decoder.out, Decoder.emit]
  split
  · next hr => exact ⟨u, tok, _, rfl, hunp, htok, fun _ => by rw [hbuf hr]⟩
  all_goals exact ⟨u, tok, ctbuf, rfl, hunp, htok, hbuf⟩

theorem Decoder.resume_phase_ne_emitting (d : Decoder) : d.resume.phase ≠ .emitting := by
  rcases d.resume_phase with hp | hp <;> rw [hp] <;> nofun

theorem Decoder.Alike.resume (h : d.Alike e) : d.resume.Alike e.resume := by
  obtain ⟨u, tok, ctbuf, rfl, hunp, -, hbuf⟩ := h
  exact ⟨u, tok, ctbuf, rfl, hunp, fun hp => absurd hp d.resume_phase_ne_emitting, hbuf⟩

theorem Decoder.Alike.copy (off : Nat) :
    ∀ (todo k : Nat) {d e : Decoder}, d.Alike e →
      (Decoder.copy n off todo k d).1.Alike (Decoder.copy n off todo k e).1 ∧
      (Decoder.copy n off todo k e).2 = (Decoder.copy n off todo k d).2
  | 0, _, _, _, h => ⟨h, rfl⟩
  | todo + 1, k, d, e, h => by
    obtain ⟨hcount, hsymcnt, hdwin⟩ : e.count = d.count ∧ e.symcnt = d.symcnt ∧ e.dwin = d.dwin := by
      obtain ⟨u, tok, ctbuf, rfl, -⟩ := h
      exact ⟨rfl, rfl, rfl⟩
    simp only [Decoder.copy, hcount, hsymcnt, hdwin]
    split
    · exact ⟨h, rfl⟩
    · split
      · exact ⟨h, rfl⟩
      · exact Decoder.Alike.copy off todo (k + 1) (h.out _)

theorem Decoder.Alike.token (h : d.Alike e) (i : Instr) :
    Decoder.AlikeAfter (Decoder.token n i d) (Decoder.token n i e) := by
  cases i with
  | literal sym => exact ⟨(h.out sym).resume, rfl⟩
  | matchTok off len2 =>
    obtain ⟨hcopied, hfault⟩ := Decoder.Alike.copy (n := n) off (len2 + 2) 0 h
    simp only [Decoder.token, Decoder.matchTok]
    rcases hd : Decoder.copy n off (len2 + 2) 0 d with ⟨d1, f⟩
    rcases he : Decoder.copy n off (len2 + 2) 0 e with ⟨e1, g⟩
    rw [hd, he] at hcopied hfault
    cases hfault
    cases f with
    | none => exact ⟨hcopied.resume, rfl⟩
    | some f => exact ⟨hcopied, rfl⟩
  | _ => exact ⟨h, rfl⟩

theorem Decoder.Alike.matching (h : d.Alike e) : Decoder.AlikeAfter (d.matching c) (e.matching c) := by
  obtain ⟨u, tok, ctbuf, rfl, hunp, htok, hbuf⟩ := h
  simp only [Decoder.matching]
  rcases getToken_alike c.widths hunp with hread | ⟨u1, v1, h1, hu, hv⟩
  · rw [hread]
    split
    · exact ⟨⟨_, _, ctbuf, rfl, .refl _, fun _ => rfl, hbuf⟩, rfl⟩
    · exact ⟨⟨_, tok, ctbuf, rfl, .refl _, htok, hbuf⟩, rfl⟩
    · exact ⟨⟨u, tok, ctbuf, rfl, hunp, htok, hbuf⟩, rfl⟩
  · rw [hu, hv]
    exact ⟨⟨v1, tok, ctbuf, rfl, h1, htok, hbuf⟩, rfl⟩

theorem Decoder.Alike.emitting (h : d.Alike e) (hp : d.phase = .emitting) :
    Decoder.AlikeAfter (d.emitting c) (e.emitting c) := by
  have htok : e.tok = d.tok := by
    obtain ⟨u, tok, ctbuf, rfl, -, htok, -⟩ := h
    exact htok hp
  simp only [Decoder.emitting, htok]
  split
  · exact h.token _
  · exact ⟨h, rfl⟩

/-- `Filling` writes the window, the cursor and `IBITS` (45_decoder.md R262): before it they may differ too. -/
theorem Decoder.filling_alike {u : Unpacker} {tok : Option Instr} {dwin ctbuf : Mem} {dr : Nat}
    (hbin : u.bin = d.unp.bin) (hbuf : d.running = .recover → ctbuf = d.ctbuf) :
    (d.filling c).Alike
      (Decoder.filling c { d with unp := u, tok := tok, dwin := dwin, dr := dr, ctbuf := ctbuf }) := by
  obtain ⟨ibuf, ibits, bin⟩ := u
  cases hbin
  exact ⟨_, tok, ctbuf, rfl, ⟨ibuf, rfl, fun hne => absurd rfl hne⟩,
    fun hp => absurd hp (Decoder.resume_phase_ne_emitting _), hbuf⟩

/-- Every phase keeps two decodes alike (46_control_pipeline.md R300). -/
theorem Decoder.Alike.phaseStep (h : d.Alike e) : Decoder.AlikeAfter (d.phaseStep c) (e.phaseStep c) := by
  have hphase : e.phase = d.phase := by
    obtain ⟨u, tok, ctbuf, rfl, -⟩ := h
    rfl
  simp only [Decoder.phaseStep, hphase]
  split
  · obtain ⟨u, tok, ctbuf, rfl, ⟨ibuf, rfl, -⟩, -, hbuf⟩ := h
    exact ⟨Decoder.filling_alike rfl hbuf, rfl⟩
  · exact h.matching
  · exact h.emitting ‹_›
  all_goals exact ⟨h, rfl⟩

theorem Decoder.Alike.drive :
    ∀ (fuel : Nat) {d e : Decoder}, d.Alike e → Decoder.AlikeAfter (d.drive c fuel) (e.drive c fuel)
  | 0, _, _, h => ⟨h, rfl⟩
  | fuel + 1, d, e, h => by
    have hphase : e.phase = d.phase := by
      obtain ⟨u, tok, ctbuf, rfl, -⟩ := h
      rfl
    obtain ⟨hnext, hhalt⟩ := h.phaseStep (c := c)
    simp only [Decoder.drive, hphase]
    rcases hd : d.phaseStep c with ⟨d1, x⟩
    rcases he : e.phaseStep c with ⟨e1, y⟩
    rw [hd, he] at hnext hhalt
    cases hhalt
    split
    · exact ⟨h, rfl⟩
    · cases x with
      | none => exact Decoder.Alike.drive fuel hnext
      | some x => exact ⟨hnext, rfl⟩

/-! ### The commands -/

variable {s h : State}

/-- The run of a decode's phases from any memories: everything in it that differs is hidden. -/
theorem drive_startDecode_alike (which : Running) (n : Nat) (s h : State) :
    Decoder.AlikeAfter ((startDecode which n s).decoder.drive s.cfg (2 * n + 1))
      ((startDecode which n (s.withHidden h)).decoder.drive s.cfg (2 * n + 1)) := by
  refine Decoder.Alike.drive (2 * n) (Decoder.filling_alike rfl fun hr => ?_)
  have hwhich : which = .recover := hr
  simp only [State.decoder, startDecode_ctbuf, if_pos hwhich]

/-- RECOVER's second phase reads `CTBUF` and the count, which its first phase has set. -/
theorem endRecover_withHidden (hctbuf : h.ctbuf = s.ctbuf) (hcount : h.count = s.count) :
    SameVisible (endRecover (s.withHidden h)) (endRecover s) := by
  simp only [endRecover, withHidden_keys, withHidden_ctbuf, withHidden_count, withHidden_sout, hctbuf, hcount]
  obtain ⟨out, cnt, stop⟩ := recoverLoop s.keys s.ctbuf s.count 0
  have hend := fun code v =>
    endStream_withHidden .binSout false code v { s with sout := s.sout ++ out.map .sym, symcnt := cnt }
      { h with ctbuf := s.ctbuf, count := s.count }
  rcases stop with _ | e | _
  · exact hend 0 s.count
  · exact hend e.kind.code e.info
  · rfl

theorem endDecode_withHidden (hrecover : s.running = .recover → h.ctbuf = s.ctbuf ∧ h.count = s.count)
    (x : Option Halt) : SameVisible (endDecode (s.withHidden h) x) (endDecode s x) := by
  rcases x with _ | e | _
  · exact .ite (fun hr => endRecover_withHidden (hrecover hr).1 (hrecover hr).2)
      fun _ => endStream_withHidden .binSout false 0 s.symcnt s h
  · exact raiseStream_withHidden .binSout true e s h
  · rfl

theorem endDecode_of_alike {which : Running} {d e : Decoder} (halike : d.Alike e) (hrunning : d.running = which)
    (n : Nat) (x : Option Halt) (s h : State) :
    SameVisible (endDecode ((startDecode which n (s.withHidden h)).withDecoder e) x)
      (endDecode ((startDecode which n s).withDecoder d) x) := by
  obtain ⟨_, tok, ctbuf, rfl, ⟨ibuf, rfl, -⟩, -, hbuf⟩ := halike
  exact endDecode_withHidden (s := (startDecode which n s).withDecoder d)
    (h := (startDecode which n (s.withHidden h)).withDecoder
      { d with unp := { d.unp with ibuf := ibuf }, tok := tok, ctbuf := ctbuf })
    (fun hr => ⟨hbuf (hrunning.trans hr), rfl⟩) x

theorem runDecode_withHidden (which : Running) (n : Nat) (s h : State) :
    SameVisible (runDecode (startDecode which n (s.withHidden h))) (runDecode (startDecode which n s)) := by
  have hsame := Decoder.sameBuffer_drive (c := s.cfg) (2 * n + 1) (startDecode which n s).decoder
  obtain ⟨halike, hhalt⟩ := drive_startDecode_alike which n s h
  simp only [runDecode, startDecode_count, startDecode_cfg, withHidden_cfg, hhalt]
  exact endDecode_of_alike halike hsame.running n _ s h

theorem execDecomp_withHidden (n : Nat) (s h : State) :
    SameVisible (execDecomp n (s.withHidden h)) (execDecomp n s) :=
  .ite (fun _ => raiseStream_withHidden _ _ _ s h) fun _ =>
    .ite (fun _ => raiseStream_withHidden _ _ _ { s with symcnt := 0 } h) fun _ => runDecode_withHidden .decomp n s h

theorem execRecover_withHidden (n : Nat) (s h : State) :
    SameVisible (execRecover n (s.withHidden h)) (execRecover n s) :=
  .ite (fun _ => raiseStream_withHidden _ _ _ s h) fun _ =>
    .ite (fun _ => raiseStream_withHidden _ _ _ { s with symcnt := 0 } h) fun _ =>
      .ite (fun _ => raiseStream_withHidden _ _ _ { s with symcnt := 0 } h) fun _ =>
        runDecode_withHidden .recover n s h

/-! ### The obligation -/

/-- No command reads a memory or a dead register of the state it starts from. -/
theorem exec_withHidden {i : Instr} (hi : i.isToken = false) (s h : State) :
    SameVisible (exec i (s.withHidden h)) (exec i s) := by
  cases i with
  | nop => rfl
  | reset => rfl
  | clrerr => rfl
  | flush => rfl
  | wrcfg idx val => exact execWrcfg_withHidden idx val s h
  | rdreg idx => exact execRdreg_withHidden idx s h
  | keygen e => exact execKeygen_withHidden e s h
  | keyset p q e => exact execKeyset_withHidden p q e s h
  | keypub n e => exact execKeypub_withHidden n e s h
  | enc m => exact oneSymbol_withHidden _ _ m s h
  | decd c => exact oneSymbol_withHidden _ _ c s h
  | decc c => exact oneSymbol_withHidden _ _ c s h
  | encs => exact cipherStream_withHidden _ _ s h
  | decs => exact cipherStream_withHidden _ _ s h
  | putl sym => exact execPutl_withHidden sym s h
  | putm off len => exact execPutm_withHidden off len s h
  | comp => exact execComp_withHidden s h
  | protect => exact execProtect_withHidden s h
  | decomp n => exact execDecomp_withHidden n s h
  | recover n => exact execRecover_withHidden n s h
  | literal | matchTok => cases hi

/-- Settles O53: a state that looks like `s` is `s` with its own memories and dead registers, and no command reads those
of the state it starts from (`exec_withHidden`). -/
theorem memoriesAreNotObservable : Obligations.MemoriesAreNotObservable := by
  intro i s u hi hvisible
  rw [eq_withHidden_of_visible_eq hvisible]
  exact (exec_withHidden hi s u).symm

end Sys2Proof.Machine
end

section
/-! What a phase step of a command under way makes of the state (46_control_pipeline.md R300): the encoder's or the
decoder's part after one phase, and possibly the end of the command from there. -/

namespace Sys2Proof.Machine

open Sys2Proof

variable {s t : State}

/-- The encoder's part after one phase. -/
def State.encoded (s : State) : State := s.withEncoder (s.encoder.phaseStep s.params s.cfg).1

/-- The decoder's part after one phase. -/
def State.decoded (s : State) : State := s.withDecoder (s.decoder.phaseStep s.cfg).1

theorem encodeStep_next (h : encodeStep s = .next t) : t = s.encoded ∨ ∃ x, endEncode s.encoded x = .next t := by
  rw [State.encoded]
  simp only [encodeStep] at h
  split at h
  · next hp =>
    have hself : (s.encoder.phaseStep s.params s.cfg).1 = s.encoder := by
      rw [Encoder.phaseStep, show s.encoder.phase = .drained from hp]
    exact .inr ⟨none, by rwa [hself, withEncoder_self]⟩
  · split at h
    · next e he => cases h; exact .inl (by rw [he])
    · next e x he => exact .inr ⟨some x, by rwa [he]⟩

theorem decodeStep_next (h : decodeStep s = .next t) : t = s.decoded ∨ ∃ x, endDecode s.decoded x = .next t := by
  rw [State.decoded]
  by_cases hp : s.phase = .drained
  · have hself : (s.decoder.phaseStep s.cfg).1 = s.decoder := by
      rw [Decoder.phaseStep, show s.decoder.phase = .drained from hp]
    rw [decodeStep, hp] at h
    exact .inr ⟨none, by rwa [hself, withDecoder_self]⟩
  · rw [decodeStep_eq hp] at h
    rcases hd : s.decoder.phaseStep s.cfg with ⟨d, _ | x⟩
    · rw [hd] at h
      cases h
      exact .inl rfl
    · rw [hd] at h
      exact .inr ⟨some x, h⟩

theorem phaseStep_next (h : phaseStep s = .next t) :
    (t = s.encoded ∨ ∃ x, endEncode s.encoded x = .next t) ∨
      (t = s.decoded ∨ ∃ x, endDecode s.decoded x = .next t) := by
  simp only [phaseStep] at h
  split at h
  · exact .inl (encodeStep_next h)
  · exact .inl (encodeStep_next h)
  · exact .inr (decodeStep_next h)
  · exact .inr (decodeStep_next h)
  · cases h

/-- A command word decodes to a command or raises IllegalCommand(0) (46_control_pipeline.md R281). -/
theorem runWord_next {w : CmdWord} (h : runWord w s = .next t) :
    (∃ i : Instr, i.isToken = false ∧ exec i s = .next t) ∨ ∃ x, t = raise x s := by
  simp only [runWord] at h
  split at h
  · next i hi => exact .inl ⟨i, (decodeCommand_ok hi s.cfg.widths).1, h⟩
  · cases h; exact .inr ⟨_, rfl⟩

/-- Each way a step can answer a next state: a reset, waiting, a command from `CMD`, a phase of a command. -/
theorem step_next (h : step s = .next t) :
    t = resetEngine { s with resetLine := false } ∨ t = s ∨
    (∃ rest, (∃ i : Instr, i.isToken = false ∧ exec i { s with cmd := rest } = .next t) ∨
      ∃ x, t = raise x { s with cmd := rest }) ∨
    (s.phase ≠ .idle ∧ phaseStep s = .next t) := by
  rcases step_cases s with ⟨-, hs⟩ | ⟨-, -, -, hs⟩ | ⟨-, -, w, rest, -, hs⟩ | ⟨-, hp, hs⟩ <;> rw [hs] at h
  · cases h; exact .inl rfl
  · cases h; exact .inr (.inl rfl)
  · exact .inr (.inr (.inl ⟨rest, runWord_next h⟩))
  · exact .inr (.inr (.inr ⟨hp, h⟩))

end Sys2Proof.Machine
end

section
/-! The key invariant (10_state.md R22, R23): the key commands establish it anew, a reset clears key and flags together,
and nothing else writes either. -/

namespace Sys2Proof.Machine

open Sys2Proof

variable {s t : State}

/-- The invariant is about the key file and the two valid flags alone. -/
theorem State.KeyInv.of_same (h : s.KeyInv)
    (hsame : t.keys = s.keys ∧ t.status.pubv = s.status.pubv ∧ t.status.prvv = s.status.prvv) : t.KeyInv := by
  obtain ⟨hkeys, hpub, hprv⟩ := hsame
  rwa [State.KeyInv, hkeys, hpub, hprv]

/-- A keypair under both flags meets it (10_state.md R22). -/
theorem keyInv_of_keypair (hkeys : t.keys.Keypair) (hpub : t.status.pubv = true) (hprv : t.status.prvv = true) :
    t.KeyInv :=
  ⟨fun _ => ⟨hpub, hkeys⟩, fun h => absurd (hprv.symm.trans h.2) Bool.noConfusion,
    fun h => absurd (hpub.symm.trans h) Bool.noConfusion⟩

/-- So does a public key alone, the rest of the file 0 (10_state.md R23). -/
theorem keyInv_of_publicKey {n e : Nat} (hn : 2 ≤ n) (hkeys : t.keys = publicKey n e) (hpub : t.status.pubv = true)
    (hprv : t.status.prvv = false) : t.KeyInv := by
  refine ⟨fun h => absurd (hprv.symm.trans h) Bool.noConfusion, fun _ => ?_,
    fun h => absurd (hpub.symm.trans h) Bool.noConfusion⟩
  rw [hkeys]
  exact ⟨hn, rfl⟩

theorem keyInv_resetEngine (s : State) : (resetEngine s).KeyInv :=
  ⟨nofun, fun ⟨hpub, _⟩ => absurd hpub Bool.false_ne_true, fun _ => rfl⟩

/-- KEYGEN and KEYSET raise an error or commit a keypair. -/
theorem KeyOutcome.keyInv {e : Nat} (h : KeyOutcome s e t) (hs : s.KeyInv) : t.KeyInv := by
  obtain ⟨rng, budget, ⟨x, rfl⟩ | ⟨p, q, hc, ha, rfl⟩⟩ := h
  · exact hs
  · exact keyInv_of_keypair (derive_keypair hc ha) rfl rfl

theorem keyInv_execKeypub {n e : Nat} (h : execKeypub n e s = .next t) (hs : s.KeyInv) : t.KeyInv := by
  simp only [execKeypub] at h
  split at h
  · cases h; exact hs
  · next hn => cases h; exact keyInv_of_publicKey (Nat.not_lt.1 hn) rfl rfl rfl

theorem keyInv_exec {i : Instr} (h : exec i s = .next t) (hs : s.KeyInv) : t.KeyInv := by
  have howned := (onlyTheOwnersWrite i s t h).1
  cases i with
  | keygen e => exact (execKeygen_next h).keyInv hs
  | keyset p q e => exact (execKeyset_next h).keyInv hs
  | keypub n e => exact keyInv_execKeypub h hs
  | reset => cases h; exact keyInv_resetEngine s
  | _ => exact hs.of_same howned

/-- No phase of a command writes the key file or its flags. -/
theorem keyInv_phaseStep (h : phaseStep s = .next t) (hs : s.KeyInv) : t.KeyInv := by
  rcases phaseStep_next h with (rfl | ⟨x, hend⟩) | (rfl | ⟨x, hend⟩)
  · exact hs
  · obtain ⟨e, _, _, _, _, rfl⟩ := endsAs_endEncode hend
    exact hs
  · exact hs
  · obtain ⟨d, -, _, _, _, _, rfl⟩ := endsAs_endDecode hend
    exact hs

/-- Settles O56: by the ways a step can answer (`step_next`); of the commands only those that own the key file and its
flags can break the invariant, and they establish it anew. -/
theorem keyInvariantIsKept : Obligations.KeyInvariantIsKept := by
  intro s t hs ht
  rcases step_next ht with rfl | rfl | ⟨rest, ⟨i, -, hexec⟩ | ⟨x, rfl⟩⟩ | ⟨-, hphase⟩
  · exact keyInv_resetEngine _
  · exact hs
  · exact keyInv_exec hexec hs
  · exact hs
  · exact keyInv_phaseStep hphase hs

end Sys2Proof.Machine
end

section
/-! What the writes of the machine keep of a memory (20_memory.md R62): a property of memories that a write to an
admitted cell keeps, of which the canonical form, with every cell admitted, and the bound by a capacity are the two
instances. -/

namespace Sys2Proof.Machine

open Sys2Proof

/-- No cell from `b` on holds a value (10_state.md R45). -/
def Mem.Within (b : Nat) (m : Mem) : Prop := ∀ i, b ≤ i → m.read i = none

/-- The property `K` survives the blank fill and the writes, as long as they go to cells that satisfy `I`. -/
structure Mem.Closed (I : Nat → Prop) (K : Mem → Prop) : Prop where
  blank : ∀ n v, (∀ i < n, I i) → K (Mem.blank n v)
  write : ∀ {m : Mem} {i : Nat} (v : Nat), K m → I i → K (m.write i v)

theorem Mem.closed_wf : Mem.Closed (fun _ => True) Mem.wf :=
  ⟨fun n v _ => Mem.wf_blank n v, fun v hm _ => Mem.wf_write hm _ v⟩

theorem Mem.closed_within (b : Nat) : Mem.Closed (· < b) (Mem.Within b) where
  blank n v hn i hi := by
    rw [Mem.read_blank, if_neg fun hlt => absurd (hn i hlt) (Nat.not_lt.2 hi)]
  write v hm hi j hj := by
    rw [Mem.read_write_ne _ _ (by omega)]
    exact hm j hj

variable {I : Nat → Prop} {K : Mem → Prop}

theorem Mem.Closed.empty (hK : Mem.Closed I K) : K [] := hK.blank 0 0 nofun

theorem Mem.Closed.shiftCells (hK : Mem.Closed I K) (n : Nat) :
    ∀ (k i : Nat) {m : Mem}, K m → (∀ j < i + k, I j) → K (shiftCells n k i m)
  | 0, _, _, hm, _ => hm
  | k + 1, i, m, hm, hI => by
    have hrest : ∀ j < i + 1 + k, I j := fun j hj => hI j (by omega)
    simp only [Machine.shiftCells]
    split
    · exact hK.shiftCells n k (i + 1) (hK.write _ hm (hI i (by omega))) hrest
    · exact hK.shiftCells n k (i + 1) hm hrest

/-- `B k` is a property of a memory that has been written in its cells below `k` only, in rising order. -/
structure Mem.Stacks (B : Nat → Mem → Prop) : Prop where
  empty : B 0 []
  skip : ∀ {k : Nat} {m : Mem}, B k m → B (k + 1) m
  push : ∀ {k : Nat} {m : Mem} (v : Nat), B k m → B (k + 1) (m.write k v)

theorem Mem.stacks_wf : Mem.Stacks (fun _ => Mem.wf) := ⟨Mem.wf_nil, id, fun v hm => Mem.wf_write hm _ v⟩

theorem Mem.Within.mono {b b' : Nat} {m : Mem} (h : m.Within b) (hb : b ≤ b') : m.Within b' :=
  fun i hi => h i (hb.trans hi)

theorem Mem.stacks_within : Mem.Stacks Mem.Within where
  empty _ _ := rfl
  skip h := h.mono (Nat.le_succ _)
  push v h := (Mem.closed_within _).write v (h.mono (Nat.le_succ _)) (Nat.lt_succ_self _)

end Sys2Proof.Machine
end

section
/-! `WIN` under an encode: `fill` writes at `bufferend`, which stays within the cells admitted, and the shift copies to
cells below it (43_compressor.md R211, R212, R218). -/

namespace Sys2Proof.Machine

open Sys2Proof

variable {P : Params} {c : CfgRegs} {I : Nat → Prop} {K : Mem → Prop} {e : Encoder}

/-- `WIN` has the property, and after the first load the cells below `bufferend` are admitted. -/
structure Encoder.WinInv (I : Nat → Prop) (K : Mem → Prop) (e : Encoder) : Prop where
  win : K e.win
  loaded : e.phase ≠ .filling → ∀ i < e.regs.bufferend, I i

theorem fill_win (hK : Mem.Closed I K) :
    ∀ (room : Nat) {e : Encoder}, K e.win → (∀ i < e.regs.bufferend + room, I i) → K (fill P c room e).1.win
  | 0, _, hw, _ => hw
  | room + 1, e, hw, hI => by
    rw [fill]
    split
    · exact hw
    · split
      · exact hw
      · next hp =>
        obtain ⟨sin, rfl⟩ := Encoder.pull_eos_frame hp
        exact hw
      · next v e1 hp =>
        obtain ⟨sin, taken, rfl⟩ := Encoder.pull_sym_frame hp
        split
        · exact hw
        · have hload := hK.write v hw (hI e.regs.bufferend (by omega))
          exact fill_win hK room (e := Encoder.load v _) hload
            fun i (hi : i < e.regs.bufferend + 1 + room) => hI i (by omega)

/-- A load of at most the room below `2N`, or of nothing, keeps to the cells admitted. -/
theorem Encoder.WinInv.fill (hK : Mem.Closed I K) (hI : ∀ i < 2 * c.n, I i) (hw : K e.win)
    (hloaded : ∀ i < e.regs.bufferend, I i) :
    K (fill P c (2 * c.n - e.regs.bufferend) e).1.win ∧
      ∀ i < (Machine.fill P c (2 * c.n - e.regs.bufferend) e).1.regs.bufferend, I i := by
  have hroom : ∀ i < e.regs.bufferend + (2 * c.n - e.regs.bufferend), I i := fun i hi => by
    by_cases hlt : i < e.regs.bufferend
    · exact hloaded i hlt
    · exact hI i (by omega)
  have hupper := (fill_loads (P := P) (c := c) (2 * c.n - e.regs.bufferend) e).1.upper
  exact ⟨fill_win hK _ hw hroom, fun i hi => hroom i (hi.trans_le hupper)⟩

theorem Encoder.WinInv.filling (hK : Mem.Closed I K) (hI : ∀ i < 2 * c.n, I i) : (e.filling P c).1.WinInv I K := by
  have hh : ∀ i < c.h, I i := fun i hi => hI i (by have : c.h = c.n - c.f := rfl; omega)
  have hfill := Encoder.WinInv.fill (P := P) (e := e.blanked c) hK hI (hK.blank c.h c.blank hh) hh
  simp only [Encoder.blanked] at hfill
  simp only [Encoder.filling]
  split <;> next hf => rw [hf] at hfill; exact ⟨hfill.1, fun _ => hfill.2⟩

theorem Encoder.WinInv.shifting (hK : Mem.Closed I K) (hI : ∀ i < 2 * c.n, I i) (h : e.WinInv I K)
    (hp : e.phase = .shifting) : (e.shifting P c).1.WinInv I K := by
  have hloaded : ∀ i < e.regs.bufferend, I i := h.loaded (by rw [hp]; nofun)
  have hrebased : ∀ i < e.regs.bufferend - c.n, I i := fun i hi => hloaded i (by omega)
  have hfill := Encoder.WinInv.fill (P := P) (e := e.rebase c) hK hI
    (hK.shiftCells c.n _ 0 h.win (by rwa [Nat.zero_add])) hrebased
  simp only [Encoder.shifting]
  split <;> next hf => rw [hf] at hfill; exact ⟨hfill.1, fun _ => hfill.2⟩

theorem Encoder.WinInv.emitting (h : e.WinInv I K) (hp : e.phase = .emitting) : (e.emitting P c).1.WinInv I K := by
  have hloaded := h.loaded (by rw [hp]; nofun)
  have hadvance : ∀ y pk, (e.advance c y pk).WinInv I K := fun y pk => by
    obtain ⟨p, -, heq⟩ := Encoder.advance_eq (e := e) (c := c) y pk
    rw [heq]
    exact ⟨h.win, fun _ => hloaded⟩
  simp only [Encoder.emitting]
  split
  · exact h
  · split <;> split
    · exact ⟨h.win, fun _ => hloaded⟩
    · exact hadvance _ _
    · exact h
    · exact hadvance _ _

/-- Every phase of the encoder keeps it (46_control_pipeline.md R300). -/
theorem Encoder.WinInv.phaseStep (hK : Mem.Closed I K) (hI : ∀ i < 2 * c.n, I i) (h : e.WinInv I K) :
    (e.phaseStep P c).1.WinInv I K := by
  simp only [Encoder.phaseStep]
  split
  · exact Encoder.WinInv.filling hK hI
  · next hp =>
    simp only [Encoder.matching]
    split
    · exact h
    · exact ⟨h.win, fun _ => h.loaded (by rw [hp]; nofun)⟩
  · exact h.emitting ‹_›
  · exact h.shifting hK hI ‹_›
  · exact h
  · exact h

end Sys2Proof.Machine
end

section
/-! `DWIN` and `CTBUF` under a decode: one symbol is written at the cursor, which wraps at `N`, and in RECOVER one in
the cell `SYMCNT` counts (45_decoder.md R262, R265; 46_control_pipeline.md R294). -/

namespace Sys2Proof.Machine

open Sys2Proof

variable {c : CfgRegs} {I : Nat → Prop} {K : Mem → Prop} {B : Nat → Mem → Prop} {n : Nat} {d : Decoder}

/-- `DWIN` has its property, from `Filling` on the cursor is at an admitted cell, and `CTBUF` has its property for the
symbols counted. -/
structure Decoder.MemInv (I : Nat → Prop) (K : Mem → Prop) (B : Nat → Mem → Prop) (d : Decoder) : Prop where
  dwin : K d.dwin
  cursor : d.phase ≠ .filling → I d.dr
  ctbuf : B d.symcnt d.ctbuf

theorem Decoder.MemInv.out (hK : Mem.Closed I K) (hB : Mem.Stacks B) (hn : 0 < n) (hI : ∀ i < n, I i)
    (h : d.MemInv I K B) (hp : d.phase ≠ .filling) (v : Nat) : (d.out n v).MemInv I K B where
  dwin := hK.write v h.dwin (h.cursor hp)
  cursor _ := hI _ (Nat.mod_lt _ hn)
  ctbuf := by
    rw [out_ctbuf, out_symcnt]
    split
    · exact hB.push v h.ctbuf
    · exact hB.skip h.ctbuf

theorem Decoder.MemInv.outs (hK : Mem.Closed I K) (hB : Mem.Stacks B) (hn : 0 < n) (hI : ∀ i < n, I i) :
    ∀ (syms : List Nat) {d : Decoder}, d.MemInv I K B → d.phase ≠ .filling → (d.outs n syms).MemInv I K B
  | [], _, h, _ => h
  | v :: syms, d, h, hp => Decoder.MemInv.outs hK hB hn hI syms (h.out hK hB hn hI hp v) (by rwa [out_phase])

theorem Decoder.MemInv.resume (h : d.MemInv I K B) (hp : d.phase ≠ .filling) : d.resume.MemInv I K B :=
  { h with cursor := fun _ => h.cursor hp }

/-- A token is a run of outputs, whether or not it ends at an unwritten cell. -/
theorem Decoder.MemInv.token (hK : Mem.Closed I K) (hB : Mem.Stacks B) (hn : 0 < n) (hI : ∀ i < n, I i)
    (h : d.MemInv I K B) (hp : d.phase ≠ .filling) (i : Instr) : (Decoder.token n i d).1.MemInv I K B := by
  cases i with
  | literal sym => exact (h.out hK hB hn hI hp sym).resume (by rwa [out_phase])
  | matchTok off len2 =>
    obtain ⟨syms, hsyms⟩ := copy_fst_eq_outs (n := n) (off := off) (len2 + 2) 0 d
    have hcopied := h.outs hK hB hn hI syms hp
    have hphase : (d.outs n syms).phase ≠ .filling := by rwa [outs_preserves (out_phase n)]
    rw [← hsyms] at hcopied hphase
    simp only [Decoder.token, Decoder.matchTok]
    rcases hcopy : Decoder.copy n off (len2 + 2) 0 d with ⟨e, f⟩
    rw [hcopy] at hcopied hphase
    cases f with
    | none => exact hcopied.resume hphase
    | some f => exact hcopied
  | _ => exact h

/-- Every phase of the decoder keeps it (46_control_pipeline.md R300). -/
theorem Decoder.MemInv.phaseStep (hK : Mem.Closed I K) (hB : Mem.Stacks B) (hI : ∀ i < c.n, I i) (hh : I c.h)
    (h : d.MemInv I K B) : (d.phaseStep c).1.MemInv I K B := by
  have hle : c.h ≤ c.n := Nat.sub_le _ _
  simp only [Decoder.phaseStep]
  split
  · exact ⟨hK.blank c.h c.blank fun i hi => hI i (by omega), fun _ => hh, h.ctbuf⟩
  · next hp =>
    have hcursor : I d.dr := h.cursor (by rw [hp]; nofun)
    simp only [Decoder.matching]
    split
    · exact ⟨h.dwin, fun _ => hcursor, h.ctbuf⟩
    · exact ⟨h.dwin, fun _ => hcursor, h.ctbuf⟩
    · exact h
  · next hp =>
    simp only [Decoder.emitting]
    split
    · exact h.token hK hB (Nat.two_pow_pos _) hI (by rw [hp]; nofun) _
    · exact h
  all_goals exact h

end Sys2Proof.Machine
end

section
/-! What each command does to the three memories (10_state.md R45). -/

namespace Sys2Proof.Machine

open Sys2Proof

variable {I : Nat → Prop} {K : Mem → Prop} {B : Nat → Mem → Prop} {s t u : State}

/-- The three memories as they were. -/
structure SameMemories (s t : State) : Prop where
  win : t.win = s.win
  dwin : t.dwin = s.dwin
  ctbuf : t.ctbuf = s.ctbuf

/-! ### The end of a command -/

theorem sameMemories_endStream {ports : StreamPorts} {pulled : Bool} {code : Byte} {v : Nat}
    (h : endStream ports pulled code v u = .next t) : SameMemories u t := by
  cases ports with
  | sinSout => obtain ⟨rest, -, rfl⟩ := endStream_sinSout_next.1 h; exact ⟨rfl, rfl, rfl⟩
  | sinBout => obtain ⟨rest, -, rfl⟩ := endStream_sinBout_next.1 h; exact ⟨rfl, rfl, rfl⟩
  | binSout => obtain ⟨rest, -, rfl⟩ := endStream_binSout_next.1 h; exact ⟨rfl, rfl, rfl⟩

theorem sameMemories_raiseStream {ports : StreamPorts} {pulled : Bool} {x : Exc}
    (h : raiseStream ports pulled x u = .next t) : SameMemories u t := by
  cases ports with
  | sinBout =>
    obtain ⟨hwin, hdwin, hctbuf⟩ := sameMemories_endStream (u := clearPacker u) h
    exact ⟨hwin, hdwin, hctbuf⟩
  | sinSout => exact sameMemories_endStream (u := u) h
  | binSout => exact sameMemories_endStream (u := u) h

theorem sameMemories_endEncode {x : Option Halt} (h : endEncode u x = .next t) : SameMemories u t := by
  obtain ⟨rest, -, ⟨-, rfl⟩ | ⟨e, -, rfl⟩⟩ := endEncode_next h <;> exact ⟨rfl, rfl, rfl⟩

theorem sameMemories_endDecode {x : Option Halt} (h : endDecode u x = .next t) : SameMemories u t := by
  rcases endDecode_next h with ⟨-, -, hend⟩ | ⟨-, -, rest, -, rfl⟩ | ⟨e, -, rfl⟩
  · obtain ⟨rest, -, ⟨-, rfl⟩ | ⟨e, -, rfl⟩⟩ := endRecover_next hend <;> exact ⟨rfl, rfl, rfl⟩
  · exact ⟨rfl, rfl, rfl⟩
  · exact ⟨rfl, rfl, rfl⟩

/-! ### Encodes -/

/-- An encode from its start writes `WIN` alone, below `2N`. -/
theorem runEncode_win (hK : Mem.Closed I K) (hI : ∀ i < 2 * u.cfg.n, I i) (hp : u.phase = .filling) (hw : K u.win)
    (h : runEncode u = .next t) : K t.win ∧ t.ctbuf = u.ctbuf := by
  have hrun : (u.encoder.drive u.params u.cfg (encodePhases u.params)).1.WinInv I K :=
    Encoder.drive_preserves (fun e he => he.phaseStep hK hI) _ _ ⟨hw, fun hne => absurd hp hne⟩
  obtain ⟨hwin, -, hctbuf⟩ := sameMemories_endEncode h
  exact ⟨hwin ▸ hrun.win, hctbuf⟩

theorem execComp_win (hK : Mem.Closed I K) (hI : s.cfg.codecOk s.params = true → ∀ i < 2 * s.cfg.n, I i)
    (hw : K s.win) (h : execComp s = .next t) : K t.win := by
  simp only [execComp] at h
  split at h
  · cases h; exact hw
  · split at h
    · exact (sameMemories_raiseStream h).win ▸ hw
    · next hok =>
      exact (runEncode_win (u := startEncode .comp { s with symcnt := 0 }) hK
        (hI (Bool.eq_true_of_not_eq_false hok)) rfl hw h).1

/-- PROTECT's first phase fills `CTBUF` from its first cell on. -/
theorem protectLoop_ctbuf (hB : Mem.Stacks B) {P : Params} {c : CfgRegs} {k : KeyFile} :
    ∀ (port : List (Item Nat)) {cnt : Nat} {m : Mem}, B cnt m →
      B (protectLoop P c k cnt m port).cnt (protectLoop P c k cnt m port).ctbuf
  | [], _, _, hm => hm
  | .eos :: _, _, _, hm => hm
  | .sym v :: rest, cnt, m, hm => by
    simp only [protectLoop]
    split
    · exact hm
    · split
      · exact hm
      · split
        · exact hm
        · exact protectLoop_ctbuf hB rest (hB.push _ hm)

/-- `CTBUF` is as it was, or holds what a command has stacked in it within its capacity. -/
def CtbufKept (B : Nat → Mem → Prop) (s t : State) : Prop :=
  t.ctbuf = s.ctbuf ∨ ∃ k ≤ s.params.ctCap, B k t.ctbuf

theorem execProtect_memories (hK : Mem.Closed I K) (hI : s.cfg.codecOk s.params = true → ∀ i < 2 * s.cfg.n, I i)
    (hB : Mem.Stacks B) (hw : K s.win) (h : execProtect s = .next t) : K t.win ∧ CtbufKept B s t := by
  have hstored := protectLoop_ctbuf hB (P := s.params) (c := s.cfg) (k := s.keys) s.sin hB.empty
  have hcnt := (protectLoop_good (V := fun _ => True) (P := s.params) (c := s.cfg) (k := s.keys)
    (fun _ _ => trivial) (fun _ _ => trivial) s.sin 0 [] (Nat.zero_le _) Mem.all_nil fun _ _ => trivial).1
  simp only [execProtect] at h
  split at h
  · cases h; exact ⟨hw, .inl rfl⟩
  · split at h
    · have hsame := sameMemories_raiseStream h
      exact ⟨hsame.win ▸ hw, .inl hsame.ctbuf⟩
    · next hok =>
      split at h
      · have hsame := sameMemories_raiseStream h
        exact ⟨hsame.win ▸ hw, .inl hsame.ctbuf⟩
      · split at h
        · have hN := hI (Bool.eq_true_of_not_eq_false hok)
          obtain ⟨hwin, hctbuf⟩ :=
            runEncode_win (u := startEncode .protect { s with sin := _, ctbuf := _, symcnt := _ }) hK hN rfl hw h
          exact ⟨hwin, .inr ⟨_, hcnt, hctbuf ▸ hstored⟩⟩
        · have hsame := sameMemories_raiseStream h
          exact ⟨hsame.win ▸ hw, .inr ⟨_, hcnt, hsame.ctbuf ▸ hstored⟩⟩
        · cases h

/-! ### Decodes -/

/-- A decode counts no more symbols than it expects (45_decoder.md R263, R269). -/
theorem drive_startDecode_symcnt_le (which : Running) (n : Nat) (s : State) :
    ((startDecode which n s).decoder.drive s.cfg (2 * n + 1)).1.symcnt ≤ n := by
  have hstart : Decoder.Inv n (fun _ => True) (startDecode which n s).decoder :=
    { count := rfl, symcnt := Nat.zero_le _, due := nofun, tok := nofun, dwin := fun _ _ _ => trivial,
      sout := fun _ _ => trivial, ctbuf := fun _ _ _ => trivial }
  exact (Decoder.Inv.drive ⟨trivial, fun _ _ => trivial, fun _ _ => trivial⟩ _ hstart).1.symcnt

/-- A decode from its start writes `DWIN` below `N`, and stacks its symbols in a `CTBUF` it finds empty. -/
theorem runDecode_memories (hK : Mem.Closed I K) (hB : Mem.Stacks B) (hI : ∀ i < s.cfg.n, I i) (hh : I s.cfg.h)
    {which : Running} {n : Nat} (hd : K s.dwin) (hempty : B 0 (startDecode which n s).ctbuf)
    (h : runDecode (startDecode which n s) = .next t) : K t.dwin ∧ ∃ k ≤ n, B k t.ctbuf := by
  have hrun : ((startDecode which n s).decoder.drive s.cfg (2 * n + 1)).1.MemInv I K B :=
    Decoder.drive_preserves (fun d hd => hd.phaseStep hK hB hI hh) _ _ ⟨hd, fun hne => absurd rfl hne, hempty⟩
  obtain ⟨-, hdwin, hctbuf⟩ := sameMemories_endDecode h
  exact ⟨hdwin ▸ hrun.dwin, _, drive_startDecode_symcnt_le which n s, hctbuf ▸ hrun.ctbuf⟩

/-- The cursor's first cell `H` is below `N` in a legal configuration (10_state.md R38). -/
theorem h_admitted {c : CfgRegs} (hc : c.Geometry) (hI : ∀ i < c.n, I i) : I c.h :=
  hI _ (by have h1 := hc.h_add; have h2 := hc.f_ge; omega)

theorem execDecomp_dwin (hK : Mem.Closed I K) (hI : s.cfg.codecOk s.params = true → ∀ i < s.cfg.n, I i)
    (hd : K s.dwin) {n : Nat} (h : execDecomp n s = .next t) : K t.dwin := by
  simp only [execDecomp] at h
  split at h
  · exact (sameMemories_raiseStream h).dwin ▸ hd
  · next hok =>
    have hok := Bool.eq_true_of_not_eq_false hok
    split at h
    · exact (sameMemories_raiseStream h).dwin ▸ hd
    · exact (runDecode_memories hK (B := fun _ _ => True) ⟨trivial, id, fun _ => id⟩ (hI hok)
        (h_admitted (CfgRegs.geometry_of_codecOk hok) (hI hok)) hd trivial h).1

theorem execRecover_memories (hK : Mem.Closed I K) (hI : s.cfg.codecOk s.params = true → ∀ i < s.cfg.n, I i)
    (hB : Mem.Stacks B) (hd : K s.dwin) {n : Nat} (h : execRecover n s = .next t) : K t.dwin ∧ CtbufKept B s t := by
  have raised {x : Exc} {u : State} (hu : SameMemories s u) (h : raiseStream .binSout false x u = .next t) :
      K t.dwin ∧ CtbufKept B s t := by
    have hsame := sameMemories_raiseStream h
    exact ⟨(hsame.dwin.trans hu.dwin) ▸ hd, .inl (hsame.ctbuf.trans hu.ctbuf)⟩
  simp only [execRecover] at h
  split at h
  · exact raised ⟨rfl, rfl, rfl⟩ h
  · next hok =>
    have hok := Bool.eq_true_of_not_eq_false hok
    split at h
    · exact raised (u := { s with symcnt := 0 }) ⟨rfl, rfl, rfl⟩ h
    · split at h
      · exact raised (u := { s with symcnt := 0 }) ⟨rfl, rfl, rfl⟩ h
      · next hn =>
        obtain ⟨hdwin, k, hk, hctbuf⟩ := runDecode_memories hK hB (hI hok)
          (h_admitted (CfgRegs.geometry_of_codecOk hok) (hI hok)) hd (by exact hB.empty) h
        exact ⟨hdwin, .inr ⟨k, by omega, hctbuf⟩⟩

/-! ### All commands -/

variable {i : Instr}

theorem exec_win (hK : Mem.Closed I K) (hI : s.cfg.codecOk s.params = true → ∀ i < 2 * s.cfg.n, I i) (hw : K s.win)
    (h : exec i s = .next t) : K t.win := by
  obtain ⟨-, -, -, -, -, -, howned, -⟩ := onlyTheOwnersWrite i s t h
  cases i with
  | comp => exact execComp_win hK hI hw h
  | protect => exact (execProtect_memories hK hI Mem.stacks_wf hw h).1
  | reset => cases h; exact hK.empty
  | _ => exact (howned : t.win = s.win) ▸ hw

theorem exec_dwin (hK : Mem.Closed I K) (hI : s.cfg.codecOk s.params = true → ∀ i < s.cfg.n, I i)
    (hi : i.isToken = false) (hd : K s.dwin) (h : exec i s = .next t) : K t.dwin := by
  obtain ⟨-, -, -, -, -, -, -, howned, -⟩ := onlyTheOwnersWrite i s t h
  cases i with
  | decomp n => exact execDecomp_dwin hK hI hd h
  | recover n => exact (execRecover_memories hK hI Mem.stacks_wf hd h).1
  | reset => cases h; exact hK.empty
  | literal | matchTok => cases hi
  | _ => exact (howned : t.dwin = s.dwin) ▸ hd

theorem exec_ctbuf (hB : Mem.Stacks B) (hi : i.isToken = false) (h : exec i s = .next t) : CtbufKept B s t := by
  obtain ⟨-, -, -, -, -, -, -, -, howned, -⟩ := onlyTheOwnersWrite i s t h
  have anyMem : Mem.Closed (fun _ => True) (fun _ => True) := ⟨fun _ _ _ => trivial, fun _ _ _ => trivial⟩
  cases i with
  | protect => exact (execProtect_memories anyMem (fun _ _ _ => trivial) hB trivial h).2
  | recover n => exact (execRecover_memories anyMem (fun _ _ _ => trivial) hB trivial h).2
  | reset => cases h; exact .inr ⟨0, Nat.zero_le _, hB.empty⟩
  | literal | matchTok => cases hi
  | _ => exact .inl howned

theorem exec_memInv (hi : i.isToken = false) (hs : s.MemInv) (h : exec i s = .next t) : t.MemInv := by
  obtain ⟨hwin, hdwin, hctbuf⟩ := hs
  refine ⟨exec_win Mem.closed_wf (fun _ _ _ => trivial) hwin h,
    exec_dwin Mem.closed_wf (fun _ _ _ => trivial) hi hdwin h, ?_⟩
  rcases exec_ctbuf Mem.stacks_wf hi h with hsame | ⟨_, -, hwf⟩
  · rwa [hsame]
  · exact hwf

/-- A legal configuration has a window of at most `2^EIMAX` cells (10_state.md R38). -/
theorem n_le_of_codecOk {c : CfgRegs} {P : Params} (h : c.codecOk P = true) : c.n ≤ 2 ^ P.eimax :=
  Nat.pow_le_pow_right (by decide) (codecOk_iff.1 h).1.2

theorem exec_memBound (hi : i.isToken = false) (hs : s.MemBound) (h : exec i s = .next t) : t.MemBound := by
  obtain ⟨hwin, hdwin, hctbuf⟩ := hs
  obtain ⟨-, -, -, -, -, -, -, -, -, -, -, -, hparams⟩ := onlyTheOwnersWrite i s t h
  rw [State.MemBound, hparams]
  refine ⟨exec_win (Mem.closed_within _) (fun hok j hj => ?_) hwin h,
    exec_dwin (Mem.closed_within _) (fun hok j hj => hj.trans_le (n_le_of_codecOk hok)) hi hdwin h, ?_⟩
  · exact hj.trans_le (Nat.mul_le_mul_left 2 (n_le_of_codecOk hok))
  · rcases exec_ctbuf Mem.stacks_within hi h with hsame | ⟨k, hk, hwithin⟩
    · rwa [hsame]
    · exact hwithin.mono hk

/-! ### The obligation -/

/-- A phase of a command under way keeps the canonical form, whatever its cursors. -/
theorem phaseStep_memInv (hs : s.MemInv) (h : phaseStep s = .next t) : t.MemInv := by
  obtain ⟨hwin, hdwin, hctbuf⟩ := hs
  have hencoded : s.encoded.MemInv :=
    ⟨(Encoder.WinInv.phaseStep (e := s.encoder) Mem.closed_wf (fun _ _ => trivial) ⟨hwin, fun _ _ _ => trivial⟩).win,
      hdwin, hctbuf⟩
  have hdecoder := Decoder.MemInv.phaseStep (c := s.cfg) (d := s.decoder) Mem.closed_wf Mem.stacks_wf
    (fun _ _ => trivial) trivial ⟨hdwin, fun _ => trivial, hctbuf⟩
  have hdecoded : s.decoded.MemInv := ⟨hwin, hdecoder.dwin, hdecoder.ctbuf⟩
  have ended {u : State} (hu : u.MemInv) (hsame : SameMemories u t) : t.MemInv := by
    rwa [State.MemInv, hsame.win, hsame.dwin, hsame.ctbuf]
  rcases phaseStep_next h with (rfl | ⟨x, hend⟩) | (rfl | ⟨x, hend⟩)
  · exact hencoded
  · exact ended hencoded (sameMemories_endEncode hend)
  · exact hdecoded
  · exact ended hdecoded (sameMemories_endDecode hend)

/-- Settles O58: by the ways a step can answer (`step_next`); a write keeps the canonical form (`Mem.closed_wf`) and, at
a cell below the capacity, the bound (`Mem.closed_within`). -/
theorem memoryInvariantIsKept : Obligations.MemoryInvariantIsKept := by
  intro s t hs ht
  rcases step_next ht with rfl | rfl | ⟨rest, ⟨i, hi, hexec⟩ | ⟨x, rfl⟩⟩ | ⟨hphase, hstep⟩
  · exact ⟨⟨Mem.wf_nil, Mem.wf_nil, Mem.wf_nil⟩, fun _ _ => ⟨fun _ _ => rfl, fun _ _ => rfl, fun _ _ => rfl⟩⟩
  · exact ⟨hs, fun _ hbound => hbound⟩
  · exact ⟨exec_memInv (s := { s with cmd := rest }) hi hs hexec,
      fun _ hbound => exec_memBound (s := { s with cmd := rest }) hi hbound hexec⟩
  · exact ⟨hs, fun _ hbound => hbound⟩
  · exact ⟨phaseStep_memInv hs hstep, fun hidle => absurd hidle hphase⟩

end Sys2Proof.Machine
end
